-- ==== Sys2Proof/Word.lean ====
section
/-! DEFINITION. Sys2Proof/Word.lean: the word types of the block. -/

namespace Sys2Proof

/-- A byte of the input space or of the probability-state memory (R21, R22, R40). -/
abbrev Byte := BitVec 8

/-- A `u32` register of the command port or of a unit (R13, R96). -/
abbrev Word := BitVec 32

/-- `ADDR_W`: the bits of an address of the input space (R11, D3). -/
abbrev Config.addrW : Nat := 32

/-- A byte cursor of `ADDR_W + 1` bits, so that `BufEnd + 1` is representable (R21, R23). -/
abbrev Addr := BitVec (Config.addrW + 1)

/-- A bit cursor of `ADDR_W + 3` bits (R23). -/
abbrev BitPos := BitVec (Config.addrW + 3)

end Sys2Proof
end

