-- ==== Sys2Proof/Syntax.lean ====
section
/-! DEFINITION. Sys2Proof/Syntax.lean: the 50 commands of the command port (R92), one constructor per row
of the opcode table. `slice` is the index of the slice engine the operation runs on; the other arguments
are what the row's `imm` carries. `ARG0` and `ARG1` are registers, read when the command runs. -/

namespace Sys2Proof

/-- A command of rule R92. -/
inductive Instr where
  /-- `RESET` (R360). -/
  | reset
  /-- `PROC_OOB` (R291). -/
  | procOob
  /-- `PROC_FRAME` (R292). -/
  | procFrame
  /-- `GET_ERR` (R307). -/
  | getErr
  /-- `OUT_CREATE` (R306). -/
  | outCreate
  /-- `RC_ARM` (R131); `custom` is `imm` bit 0, the table choice. -/
  | rcArm (slice : BitVec 16) (custom : Bool)
  /-- `RC_REARM` (R135); `custom` is `imm` bit 0, the table choice. -/
  | rcRearm (slice : BitVec 16) (custom : Bool)
  /-- `RC_BIT` (R134). -/
  | rcBit (slice : BitVec 16)
  /-- `RC_USYM` (R138). -/
  | rcUsym (slice : BitVec 16)
  /-- `RC_SSYM` (R139). -/
  | rcSsym (slice : BitVec 16)
  /-- `RC_USED` (R142). -/
  | rcUsed (slice : BitVec 16)
  /-- `RC_UNDR` (R143). -/
  | rcUndr (slice : BitVec 16)
  /-- `RC_FORCE` (R141). -/
  | rcForce (slice : BitVec 16)
  /-- `RC_GOPINIT` (R145). -/
  | rcGopinit (slice : BitVec 16)
  /-- `RC_DELTA` (R146). -/
  | rcDelta (slice : BitVec 16)
  /-- `ST_FILL` (R144); `v` is `imm`, the fill value. -/
  | stFill (slice : BitVec 16) (v : BitVec 8)
  /-- `BS_ARM` (R160). -/
  | bsArm (slice : BitVec 16)
  /-- `BS_BIT` (R161). -/
  | bsBit (slice : BitVec 16)
  /-- `BS_BITS` (R163); `n` is `imm`, 0..32. -/
  | bsBits (slice : BitVec 16) (n : BitVec 6)
  /-- `BS_USED` (R164). -/
  | bsUsed (slice : BitVec 16)
  /-- `BS_UNDR` (R175). -/
  | bsUndr (slice : BitVec 16)
  /-- `GR_GOPINIT` (R167). -/
  | grGopinit (slice : BitVec 16)
  /-- `GR_PLANEINIT` (R168). -/
  | grPlaneinit (slice : BitVec 16)
  /-- `GR_LINEINIT` (R169). -/
  | grLineinit (slice : BitVec 16)
  /-- `GR_DELTA` (R171). -/
  | grDelta (slice : BitVec 16)
  /-- `GR_RICE` (R165). -/
  | grRice (slice : BitVec 16)
  /-- `CTX_IDX` (R192); `q` is `imm`, the table set. -/
  | ctxIdx (slice : BitVec 16) (q : BitVec 3)
  /-- `PRED_MED` (R196). -/
  | predMed (slice : BitVec 16)
  /-- `SMP_DEC` (R203). -/
  | smpDec (slice : BitVec 16)
  /-- `LINE_DEC` (R206). -/
  | lineDec (slice : BitVec 16)
  /-- `PLANE_DEC` (R208). -/
  | planeDec (slice : BitVec 16)
  /-- `RGB_DEC` (R212). -/
  | rgbDec (slice : BitVec 16)
  /-- `PX_WRITE` (R204); `c` is `imm`, the coded plane. -/
  | pxWrite (slice : BitVec 16) (c : BitVec 2)
  /-- `PAR_PARSE` (R221); `oob` is `imm` bit 0, `isOutOfBand`. -/
  | parParse (slice : BitVec 16) (oob : Bool)
  /-- `PAR_QTSET` (R230); `q` is `imm`, the table set. -/
  | parQtset (slice : BitVec 16) (q : BitVec 3)
  /-- `PAR_QTAB` (R231); `q` is `imm` bits 2:0, `j` is `imm` bits 6:4, 0..4. -/
  | parQtab (slice : BitVec 16) (q j : BitVec 3)
  /-- `PAR_INIST` (R236); `q` is `imm`, the table set. -/
  | parInist (slice : BitVec 16) (q : BitVec 3)
  /-- `PAR_DERIVE` (R240). -/
  | parDerive
  /-- `SL_HEADER` (R264). -/
  | slHeader (slice : BitVec 16)
  /-- `SL_CONTENT` (R266). -/
  | slContent (slice : BitVec 16)
  /-- `SL_FOOTER` (R271). -/
  | slFooter (slice : BitVec 16)
  /-- `SL_RUN` (R262); `cont` is `imm` bit 0, continue on the armed range decoder. -/
  | slRun (slice : BitVec 16) (cont : Bool)
  /-- `SL_CRC` (R265). -/
  | slCrc (slice : BitVec 16)
  /-- `SL_OPEN` (R263); `cont` is `imm` bit 0, continue on the armed range decoder. -/
  | slOpen (slice : BitVec 16) (cont : Bool)
  /-- `FR_KEYBIT` (R294). -/
  | frKeybit
  /-- `FR_LOCATE` (R296). -/
  | frLocate
  /-- `FR_GOPINIT` (R299). -/
  | frGopinit
  /-- `FR_DISPATCH` (R301). -/
  | frDispatch
  /-- `FR_JOIN` (R304). -/
  | frJoin
  /-- `FR_FINAL` (R305). -/
  | frFinal
  deriving DecidableEq, Repr

end Sys2Proof
end

