-- ==== Sys2Proof/WellFormed.lean ====
section
/-! DEFINITION. Sys2Proof/WellFormed.lean: the range limits of a command word that its mask cannot express
and that no state is needed for (R92, R93 check 3). -/

namespace Sys2Proof

/-- `BS_BITS` reads at most 32 bits, and `PAR_QTAB` names one of the five tables 0..4 (R92, R93). Every
other operand that a command word carries is legal at every value. -/
def Instr.wf : Instr → Bool
  | .bsBits _ n => n ≤ 32
  | .parQtab _ _ j => j ≤ 4
  | .reset | .procOob | .procFrame | .getErr | .outCreate => true
  | .rcArm _ _ | .rcRearm _ _ | .rcBit _ | .rcUsym _ | .rcSsym _ | .rcUsed _ | .rcUndr _ => true
  | .rcForce _ | .rcGopinit _ | .rcDelta _ | .stFill _ _ => true
  | .bsArm _ | .bsBit _ | .bsUsed _ | .bsUndr _ => true
  | .grGopinit _ | .grPlaneinit _ | .grLineinit _ | .grDelta _ | .grRice _ => true
  | .ctxIdx _ _ | .predMed _ | .smpDec _ | .lineDec _ | .planeDec _ | .rgbDec _ | .pxWrite _ _ => true
  | .parParse _ _ | .parQtset _ _ | .parInist _ _ | .parDerive => true
  | .slHeader _ | .slContent _ | .slFooter _ | .slRun _ _ | .slCrc _ | .slOpen _ _ => true
  | .frKeybit | .frLocate | .frGopinit | .frDispatch | .frJoin | .frFinal => true

end Sys2Proof
end

