-- ==== Sys2Proof/Decode.lean ====
section
/-! DEFINITION. Sys2Proof/Decode.lean: from a command word to a command (R92, R93 checks 1 to 3), total on
every word and rejecting by name, and the encoder. The word is `op[31:24] slice[23:8] imm[7:0]`. -/

namespace Sys2Proof

/-- Why a command word is no command. Every one is answered with `E_BAD_COMMAND` at the port (R93, R111). -/
inductive DecodeError where
  /-- `op` is not in the table of R92. -/
  | reservedOpcode
  /-- The operation does not use `slice` and the field is not 0. -/
  | sliceNotZero
  /-- A bit of `imm` that the operation does not use is not 0. -/
  | immNotZero
  /-- `imm` is outside the range the table gives (`BS_BITS` above 32, `PAR_QTAB` table above 4). -/
  | immOutOfRange
  deriving DecidableEq, Repr

/-- What the decoder answers. -/
inductive Decoded where
  | instr (i : Instr)
  | rejected (e : DecodeError)
  deriving DecidableEq, Repr

/-- `op`, bits 31:24 (R92). -/
def opField (w : Word) : BitVec 8 := w.extractLsb' 24 8

/-- `slice`, bits 23:8 (R92). -/
def sliceField (w : Word) : BitVec 16 := w.extractLsb' 8 16

/-- `imm`, bits 7:0 (R92). -/
def immField (w : Word) : BitVec 8 := w.extractLsb' 0 8

/-- A row whose "slice?" is no and whose `imm` is `-`: both fields must be 0 (R92, R93). -/
def frameForm (i : Instr) (w : Word) : Decoded :=
  if sliceField w ≠ 0 then .rejected .sliceNotZero
  else if immField w ≠ 0 then .rejected .immNotZero
  else .instr i

/-- A row that uses `slice`, and of `imm` the bits set in `used`: the other bits must be 0, and the value
in the range the table gives (R92, R93). -/
def sliceForm (used : BitVec 8) (i : Instr) (w : Word) : Decoded :=
  if immField w &&& ~~~used ≠ 0 then .rejected .immNotZero
  else if i.wf then .instr i
  else .rejected .immOutOfRange

/-- The command of a command word (R92, R93 checks 1 to 3). -/
def decode (w : Word) : Decoded :=
  let k := sliceField w
  match (opField w).toNat with
  | 0x01 => frameForm .reset w
  | 0x02 => frameForm .procOob w
  | 0x03 => frameForm .procFrame w
  | 0x04 => frameForm .getErr w
  | 0x05 => frameForm .outCreate w
  | 0x10 => sliceForm 0x01 (.rcArm k ((immField w).getLsbD 0)) w
  | 0x11 => sliceForm 0x01 (.rcRearm k ((immField w).getLsbD 0)) w
  | 0x12 => sliceForm 0x00 (.rcBit k) w
  | 0x13 => sliceForm 0x00 (.rcUsym k) w
  | 0x14 => sliceForm 0x00 (.rcSsym k) w
  | 0x15 => sliceForm 0x00 (.rcUsed k) w
  | 0x16 => sliceForm 0x00 (.rcUndr k) w
  | 0x17 => sliceForm 0x00 (.rcForce k) w
  | 0x18 => sliceForm 0x00 (.rcGopinit k) w
  | 0x19 => sliceForm 0x00 (.rcDelta k) w
  | 0x1A => sliceForm 0xFF (.stFill k (immField w)) w
  | 0x20 => sliceForm 0x00 (.bsArm k) w
  | 0x21 => sliceForm 0x00 (.bsBit k) w
  | 0x22 => sliceForm 0x3F (.bsBits k ((immField w).extractLsb' 0 6)) w
  | 0x23 => sliceForm 0x00 (.bsUsed k) w
  | 0x24 => sliceForm 0x00 (.bsUndr k) w
  | 0x28 => sliceForm 0x00 (.grGopinit k) w
  | 0x29 => sliceForm 0x00 (.grPlaneinit k) w
  | 0x2A => sliceForm 0x00 (.grLineinit k) w
  | 0x2B => sliceForm 0x00 (.grDelta k) w
  | 0x2C => sliceForm 0x00 (.grRice k) w
  | 0x30 => sliceForm 0x07 (.ctxIdx k ((immField w).extractLsb' 0 3)) w
  | 0x31 => sliceForm 0x00 (.predMed k) w
  | 0x32 => sliceForm 0x00 (.smpDec k) w
  | 0x33 => sliceForm 0x00 (.lineDec k) w
  | 0x34 => sliceForm 0x00 (.planeDec k) w
  | 0x35 => sliceForm 0x00 (.rgbDec k) w
  | 0x36 => sliceForm 0x03 (.pxWrite k ((immField w).extractLsb' 0 2)) w
  | 0x40 => sliceForm 0x01 (.parParse k ((immField w).getLsbD 0)) w
  | 0x41 => sliceForm 0x07 (.parQtset k ((immField w).extractLsb' 0 3)) w
  | 0x42 => sliceForm 0x77 (.parQtab k ((immField w).extractLsb' 0 3) ((immField w).extractLsb' 4 3)) w
  | 0x43 => sliceForm 0x07 (.parInist k ((immField w).extractLsb' 0 3)) w
  | 0x44 => frameForm .parDerive w
  | 0x50 => sliceForm 0x00 (.slHeader k) w
  | 0x51 => sliceForm 0x00 (.slContent k) w
  | 0x52 => sliceForm 0x00 (.slFooter k) w
  | 0x53 => sliceForm 0x01 (.slRun k ((immField w).getLsbD 0)) w
  | 0x54 => sliceForm 0x00 (.slCrc k) w
  | 0x55 => sliceForm 0x01 (.slOpen k ((immField w).getLsbD 0)) w
  | 0x60 => frameForm .frKeybit w
  | 0x61 => frameForm .frLocate w
  | 0x62 => frameForm .frGopinit w
  | 0x63 => frameForm .frDispatch w
  | 0x64 => frameForm .frJoin w
  | 0x65 => frameForm .frFinal w
  | _ => .rejected .reservedOpcode

/-- A command word from its three fields (R92). -/
def cmdWord (op : BitVec 8) (slice : BitVec 16) (imm : BitVec 8) : Word := op ++ slice ++ imm

/-- The command word of a command (R92). -/
def encode : Instr → Word
  | .reset => cmdWord 0x01 0 0
  | .procOob => cmdWord 0x02 0 0
  | .procFrame => cmdWord 0x03 0 0
  | .getErr => cmdWord 0x04 0 0
  | .outCreate => cmdWord 0x05 0 0
  | .rcArm k custom => cmdWord 0x10 k (0#7 ++ BitVec.ofBool custom)
  | .rcRearm k custom => cmdWord 0x11 k (0#7 ++ BitVec.ofBool custom)
  | .rcBit k => cmdWord 0x12 k 0
  | .rcUsym k => cmdWord 0x13 k 0
  | .rcSsym k => cmdWord 0x14 k 0
  | .rcUsed k => cmdWord 0x15 k 0
  | .rcUndr k => cmdWord 0x16 k 0
  | .rcForce k => cmdWord 0x17 k 0
  | .rcGopinit k => cmdWord 0x18 k 0
  | .rcDelta k => cmdWord 0x19 k 0
  | .stFill k v => cmdWord 0x1A k v
  | .bsArm k => cmdWord 0x20 k 0
  | .bsBit k => cmdWord 0x21 k 0
  | .bsBits k n => cmdWord 0x22 k (0#2 ++ n)
  | .bsUsed k => cmdWord 0x23 k 0
  | .bsUndr k => cmdWord 0x24 k 0
  | .grGopinit k => cmdWord 0x28 k 0
  | .grPlaneinit k => cmdWord 0x29 k 0
  | .grLineinit k => cmdWord 0x2A k 0
  | .grDelta k => cmdWord 0x2B k 0
  | .grRice k => cmdWord 0x2C k 0
  | .ctxIdx k q => cmdWord 0x30 k (0#5 ++ q)
  | .predMed k => cmdWord 0x31 k 0
  | .smpDec k => cmdWord 0x32 k 0
  | .lineDec k => cmdWord 0x33 k 0
  | .planeDec k => cmdWord 0x34 k 0
  | .rgbDec k => cmdWord 0x35 k 0
  | .pxWrite k c => cmdWord 0x36 k (0#6 ++ c)
  | .parParse k oob => cmdWord 0x40 k (0#7 ++ BitVec.ofBool oob)
  | .parQtset k q => cmdWord 0x41 k (0#5 ++ q)
  | .parQtab k q j => cmdWord 0x42 k (0#1 ++ j ++ 0#1 ++ q)
  | .parInist k q => cmdWord 0x43 k (0#5 ++ q)
  | .parDerive => cmdWord 0x44 0 0
  | .slHeader k => cmdWord 0x50 k 0
  | .slContent k => cmdWord 0x51 k 0
  | .slFooter k => cmdWord 0x52 k 0
  | .slRun k cont => cmdWord 0x53 k (0#7 ++ BitVec.ofBool cont)
  | .slCrc k => cmdWord 0x54 k 0
  | .slOpen k cont => cmdWord 0x55 k (0#7 ++ BitVec.ofBool cont)
  | .frKeybit => cmdWord 0x60 0 0
  | .frLocate => cmdWord 0x61 0 0
  | .frGopinit => cmdWord 0x62 0 0
  | .frDispatch => cmdWord 0x63 0 0
  | .frJoin => cmdWord 0x64 0 0
  | .frFinal => cmdWord 0x65 0 0

/-- The command the decoder reads from a word of `nbits` bits; the bits above `nbits` are 0. A command is
one 32-bit register write, so there is no byte order to choose. -/
def decodeTableWord (nbits w : Nat) : Option Instr :=
  match decode (BitVec.ofNat 32 (w % 2 ^ nbits)) with
  | .instr i => some i
  | .rejected _ => none

end Sys2Proof
end

