-- ==== Sys2Proof/Machine/Errors.lean ====
section
/-! DEFINITION. Sys2Proof/Machine/Errors.lean: the named errors, their codes and classes (R320, R321), and
the result of an operation that can raise one (R330). -/

namespace Sys2Proof.Machine

/-- The 27 errors of R321 other than `E_NONE`. -/
inductive ErrorName where
  | versionLocation
  | coderType
  | colorspace
  | bitdepth
  | sliceGrid
  | qtCount
  | qtRun
  | qtScale
  | ec
  | intra
  | sliceGeometry
  | qtIndex
  | sliceCrc
  | sliceErrorStatus
  | sliceJunk
  | frameTail
  | sliceCount
  | notIntra
  | noKeyframe
  | noParameters
  | versionUnsupported
  | stateTransition
  | bitdepthUnsupported
  | underrun
  | underrunParams
  | badCommand
  | noDimensions
  deriving DecidableEq, Repr

/-- The code of an error: bits 11:8 the class, bits 7:0 the cause (R321). -/
def ErrorName.code : ErrorName → BitVec 12
  | .versionLocation => 0x101
  | .coderType => 0x102
  | .colorspace => 0x103
  | .bitdepth => 0x104
  | .sliceGrid => 0x105
  | .qtCount => 0x106
  | .qtRun => 0x107
  | .qtScale => 0x108
  | .ec => 0x109
  | .intra => 0x10A
  | .sliceGeometry => 0x110
  | .qtIndex => 0x111
  | .sliceCrc => 0x112
  | .sliceErrorStatus => 0x113
  | .sliceJunk => 0x114
  | .frameTail => 0x120
  | .sliceCount => 0x121
  | .notIntra => 0x122
  | .noKeyframe => 0x123
  | .noParameters => 0x124
  | .versionUnsupported => 0x201
  | .stateTransition => 0x202
  | .bitdepthUnsupported => 0x203
  | .underrun => 0x301
  | .underrunParams => 0x302
  | .badCommand => 0x401
  | .noDimensions => 0x402

/-- The class of an error, bits 11:8 of its code: 1 Undecodable, 2 Unsupported, 3 Underrun, 4 Usage (R320,
R321). -/
def ErrorName.errorClass (e : ErrorName) : BitVec 4 := e.code.extractLsb' 8 4

/-- The error is of class Underrun (R323, R330). -/
def ErrorName.isUnderrun (e : ErrorName) : Bool := e.errorClass == 3

/-- What an operation that can raise an error answers: a value, or the error it raised. Either way with the
state it has written, since a `raise` undoes nothing (R330, R331). -/
inductive Res (σ α : Type) where
  | ok (a : α) (s : σ)
  | raise (e : ErrorName) (s : σ)
  deriving DecidableEq, Repr

/-- Go on with `f` unless an error was raised (R330: the operation in progress stops at the `raise`). -/
def Res.bind {σ α β : Type} (r : Res σ α) (f : α → σ → Res σ β) : Res σ β :=
  match r with
  | .ok a s => f a s
  | .raise e s => .raise e s

/-- The state an operation leaves. -/
def Res.state {σ α : Type} : Res σ α → σ
  | .ok _ s => s
  | .raise _ s => s

end Sys2Proof.Machine
end

