-- ==== Sys2Proof/Config.lean ====
section
/-! DEFINITION. Sys2Proof/Config.lean: the numbers and tables that are fixed for one machine (R10, R11),
and the free values: constants with no body, for what the spec leaves open. -/

namespace Sys2Proof.Config

/-! ## Numbers the spec fixes or decides (R10, R11) -/

/-- `MAX_QT_SETS`: quantization table sets (R10). -/
def maxQtSets : Nat := 8

/-- `MAX_CONTEXT_INPUTS`: lookup tables per set (R10). -/
def maxContextInputs : Nat := 5

/-- `QT_SCALE_MAX`: largest running `scale` while a set is built (R10, R230). -/
def qtScaleMax : Nat := 32768

/-- `GR_HALVE_AT`: the `N` at which a Golomb-Rice tuple is halved (R10, R166). -/
def grHalveAt : BitVec 8 := 128

/-- `GR_PREFIX_MAX`: zero-prefix bits that trigger the escape (R10, R165). -/
def grPrefixMax : Nat := 12

/-- `EXP_MAX + 1`: the number of consecutive exponent steps answering 1 that forces an underrun (R10, R138). -/
def expSteps : Nat := 32

/-- `STATE_MID`: the mid-point probability state (R10). -/
def stateMid : Byte := 128

/-- `TAIL_EC0`: slice tail bytes for `ec = 0` (R10). -/
def tailEc0 : BitVec 4 := 3

/-- `TAIL_EC1`: slice tail bytes for `ec = 1` (R10). -/
def tailEc1 : BitVec 4 := 8

/-- `SIZE_FIELD_BYTES`: bytes of a slice-size field (R10). -/
def sizeFieldBytes : Nat := 3

/-- `BITDEPTH_MAX_PARSE`: largest bit depth the parser accepts (R10). -/
def bitdepthMaxParse : Nat := 64

/-- `BITDEPTH_MAX_DECODE`: largest bit depth the block decodes (R11, D13). -/
def bitdepthMaxDecode : Nat := 16

/-- `MAX_SLICES`: slice indices are 0..65534 (R11, D4). -/
def maxSlices : Nat := 65535

/-- `MAX_WIDTH` (R11, D12). -/
def maxWidth : Nat := 2 ^ 24 - 1

/-- `MAX_HEIGHT` (R11, D12). -/
def maxHeight : Nat := 2 ^ 24 - 1

/-- `2^ADDR_W - 2`: the largest legal `base + length` (R63, D3). -/
def bufferTop : Nat := 2 ^ addrW - 2

/-- `TERM_STATE`: the state of the ending-marker decision (R11, R267). -/
def termState : Byte := 129

/-- `CRC_POLY` (R11, R72). -/
def crcPoly : Word := 0x04C11DB7

/-- `CRC_INIT` (R11, R72). -/
def crcInit : Word := 0

/-- `CRC_XOROUT` (R11, R72). -/
def crcXorOut : Word := 0

/-- CRC reflection: the bits of every byte, and those of the result, are taken in reverse order; the default
is none (R11, R72). -/
def crcReflect : Bool := false

/-- `Mask` just after arming on two bytes or more (R131). -/
def rcMaskInit : Word := 0xFF00

/-- `ZeroState[0]` (R132). -/
def zeroStateZero : Byte := 0

/-- The byte of the zero flag in a symbol bank (R101). -/
def symZero : Nat := 0

/-- The byte of exponent step 0 in a symbol bank (R101). -/
def symExp : Nat := 1

/-- The byte of the sign for exponent 0 in a symbol bank (R101). -/
def symSign : Nat := 11

/-- The byte of mantissa bit 0 in a symbol bank (R101). -/
def symMant : Nat := 22

/-- The keyframe bit of a keyframe (R106, R294). -/
def keyframeBit : Bool := true

/-- The first bit of a run token that opens a whole segment (R103). -/
def runHit : Bool := true

/-- The version whose Golomb-Rice slices have the sentinel (R268). -/
def sentinelVersion : Word := 3

/-- The sentinel is present for micro-versions above this one (R268). -/
def sentinelAbove : Nat := 1

/-- The four components of `GR_INIT = (1, 4, 0, 0)` (R11, R167). -/
def grInitN : BitVec 8 := 1
/-- `A` of `GR_INIT` (R167). -/
def grInitA : Word := 4
/-- `B` of `GR_INIT` (R167). -/
def grInitB : Word := 0
/-- `C` of `GR_INIT` (R167). -/
def grInitC : BitVec 8 := 0

/-- `DEFAULT_TRANSITION[0..255]`, entry 0 first (R133). -/
def defaultTransition : Vector Byte 256 := ⟨⟨[
  0,  0,  0,  0,  0,  0,  0,  0, 20, 21, 22, 23, 24, 25, 26, 27,
 28, 29, 30, 31, 32, 33, 34, 35, 36, 37, 37, 38, 39, 40, 41, 42,
 43, 44, 45, 46, 47, 48, 49, 50, 51, 52, 53, 54, 55, 56, 56, 57,
 58, 59, 60, 61, 62, 63, 64, 65, 66, 67, 68, 69, 70, 71, 72, 73,
 74, 75, 75, 76, 77, 78, 79, 80, 81, 82, 83, 84, 85, 86, 87, 88,
 89, 90, 91, 92, 93, 94, 94, 95, 96, 97, 98, 99,100,101,102,103,
104,105,106,107,108,109,110,111,112,113,114,114,115,116,117,118,
119,120,121,122,123,124,125,126,127,128,129,130,131,132,133,133,
134,135,136,137,138,139,140,141,142,143,144,145,146,147,148,149,
150,151,152,152,153,154,155,156,157,158,159,160,161,162,163,164,
165,166,167,168,169,170,171,171,172,173,174,175,176,177,178,179,
180,181,182,183,184,185,186,187,188,189,190,190,191,192,194,194,
195,196,197,198,199,200,201,202,202,204,205,206,207,208,209,209,
210,211,212,213,215,215,216,217,218,219,220,220,222,223,224,225,
226,227,227,229,229,230,231,232,234,234,235,236,237,238,239,240,
241,242,243,244,245,246,247,248,248,  0,  0,  0,  0,  0,  0,  0]⟩, by decide +kernel⟩

/-- `GR_LOG2RUN[0..40]` (R170). -/
def grLog2Run : Vector Nat 41 := ⟨⟨[
  0, 0, 0, 0, 1, 1, 1, 1, 2, 2, 2, 2, 3, 3, 3, 3, 4, 4, 5, 5, 6, 6, 7, 7,
  8, 9, 10, 11, 12, 13, 14, 15, 16, 17, 18, 19, 20, 21, 22, 23, 24]⟩, rfl⟩

/-! ## Parameters of the model -/

/-- The values of `FIRST_ERROR_ORDER` (R11, R334). -/
inductive FirstErrorOrder where
  /-- The failed slice with the lowest index (the default). -/
  | index
  /-- The failed task that ended first; the choice depends on the schedule. -/
  | completion
  deriving DecidableEq, Repr

/-- `FIRST_ERROR_ORDER`, at the spec's default `index` (R11, R334; log 11). -/
def firstErrorOrder : FirstErrorOrder := .index

/-! ## Free values: nothing in Lean can evaluate them, so a claim about them holds whatever they are -/

/-- What had been done, in which order, of the pending command and the tasks in flight when a hardware reset
cut them short (R360, U12; log 13). Applied to `State.freeCtr`. -/
opaque abandonedOrder : Nat → List Nat

/-- Whether the implementation was built with direct parameter loading (R33, D10; log 14). -/
opaque directLoading : Bool

/-- Which of two slice tasks wrote a doubly written sample last: `true` is the later in index order
(R80, U6; log 9). Applied to `State.freeCtr`. -/
opaque raceChoice : Nat → Bool

/-- Which failed task ended first under `FIRST_ERROR_ORDER = completion`: a position in the list of the
failed slices, reduced modulo its length (R334, U11; log 11). Applied to `State.freeCtr`. -/
opaque firstEnded : Nat → Nat

/-- What a 16-bit table entry holds when `scale * v` does not fit it; the spec states no value
(R33, R231; log 18). Applied to the exact product. -/
opaque qtOverflow : Int → BitVec 16

/-- The number of the context that is used when a context index names no slot of the context arrays; the
spec rules the case out for parsed tables and states nothing for others (R194; log 19). -/
opaque strayContext : Nat → BitVec 14

end Sys2Proof.Config
end

