-- ==== Sys2Proof/Machine/Tables.lean ====
section
/-! DEFINITION. Sys2Proof/Machine/Tables.lean: tables derived from the tables of Config. -/

namespace Sys2Proof.Machine

/-- A 256-entry transition table (R22). -/
abbrev Table := Vector Byte 256

/-- Entry `s` of a transition table. -/
def Table.at (t : Table) (s : Byte) : Byte := t.get s.toFin

/-- `ZeroState[]` from `OneState[]`: entry 0 is 0, entry `i` in 1..255 is `-OneState[256 - i]` modulo 256
(R132). Entries 1, 2, ... 255 are the negated entries 255, 254, ... 1. -/
def zeroTable (one : Table) : Table :=
  ⟨⟨Config.zeroStateZero :: (one.toList.tail.reverse.map (fun b => 0 - b))⟩, by simp⟩

/-- `GR_LOG2RUN[r]` (R170). -/
def grLog2 (r : Fin 41) : Nat := Config.grLog2Run.get r

/-- `GR_RUN[r] = 2^GR_LOG2RUN[r]` (R170). -/
def grRun (r : Fin 41) : Nat := 2 ^ grLog2 r

end Sys2Proof.Machine
end

