-- ==== Sys2Proof/Machine/State.lean ====
section
/-! DEFINITION. Sys2Proof/Machine/State.lean: the state of the block and its reset values (R20 to R48), as
plain data. -/

namespace Sys2Proof.Machine

/-! ## Outcomes of a step other than a next state -/

/-- Why the model stops. -/
inductive Fault where
  /-- Raised by `step` when the host changes a byte of `IN` while `STATUS.BUSY = 1`, which U7 lets a model
  treat as a fault (R63, R85; log 12). Safe: the run ends where the spec leaves every result open. -/
  | inputChangedWhileBusy
  deriving DecidableEq, Repr

/-- Why the model gives no meaning. -/
inductive Refusal where
  /-- Raised by `exec` for a command that has no meaning yet. Safe: nothing can be proved of it. -/
  | notModelled (mnemonic : String)
  deriving DecidableEq, Repr

/-! ## A slice engine -/

/-- The range decoder (R21, R22). -/
structure Rc where
  current : Word
  mask : Word
  bufBeg : Addr
  bufCur : Addr
  bufEnd : Addr
  one : Table
  zero : Table
  deriving DecidableEq, Repr

/-- The bitstream reader (R23). -/
structure Bs where
  bufBeg : Addr
  bufEnd : Addr
  pos : BitPos
  underflow : Bool
  deriving DecidableEq, Repr

/-- `GR.run_mode` (R24). -/
inductive RunMode where
  | stop
  | processing
  | interrupted
  deriving DecidableEq, Repr

/-- The Golomb-Rice registers (R24). `selP`, `selQ` are the pair `GR.sel`. -/
structure Gr where
  runIndex : Fin 41
  runMode : RunMode
  runLen : Int
  x : Nat
  w : Nat
  selP : BitVec 2
  selQ : BitVec 3
  deriving DecidableEq, Repr

/-- One Golomb-Rice tuple `(N, A, B, C)`: `B` is an `i32`, `C` an `i8` (R42). -/
structure GrTuple where
  n : BitVec 8
  a : Word
  b : Word
  c : BitVec 8
  deriving DecidableEq, Repr

/-- The two line buffers of one coded plane, sparse by entry index plus 2, an unlisted entry 0 (R25, R43).
`sel` is the selector bit: when it is false `buf0` is the line being decoded and `buf1` the line above. -/
structure LineBuf where
  isOpen : Bool
  sel : Bool
  buf0 : List (Nat × Word)
  buf1 : List (Nat × Word)
  deriving DecidableEq, Repr

/-- The states of `SL.fsm` (R28, R260). -/
inductive Fsm where
  | created
  | headerParsed
  | contentDecoded
  | done
  | error
  deriving DecidableEq, Repr

/-- The slice registers (R26, R28). -/
structure Sl where
  fsm : Fsm
  bufBeg : Addr
  bufEnd : Addr
  contEnd : Addr
  sliceX : Word
  sliceY : Word
  widthM1 : Word
  heightM1 : Word
  x : Nat
  y : Nat
  w : Nat
  h : Nat
  qti : Vector (BitVec 3) 3
  pictureStructure : Word
  sarNum : Word
  sarDen : Word
  used : Nat
  err : BitVec 12
  underrun : Bool
  deriving DecidableEq, Repr

/-- One slice engine (R20). `sm` is keyed by the state reference of R98 and `gs` by slot, table set and
context; `psReady` says that `RC_GOPINIT` has run on the engine (R98) and `opened` that `SL_OPEN` has
(R274). -/
structure Engine where
  rc : Rc
  bs : Bs
  gr : Gr
  lines : Vector LineBuf 4
  posC : BitVec 2
  posY : Nat
  posX : Nat
  sl : Sl
  sm : List (Nat × Byte)
  gs : List (Nat × GrTuple)
  psReady : Bool
  opened : Bool
  deriving DecidableEq, Repr

/-! ## The parameter record -/

/-- `PAR` with its derived fields (R33, R34). `coderType` is true for the range coder, `colorspaceType` for
JPEG2000-RCT/RGB. `qt` is keyed by set, table and entry, an unlisted entry 0; `init` by set, context and
state, an unlisted byte 128. -/
structure Par where
  version : Word
  microVersion : Word
  coderType : Bool
  customPresent : Bool
  customTransition : Table
  colorspaceType : Bool
  bitsPerRawSample : BitVec 7
  chromaPlanes : Bool
  chromaHShift : Word
  chromaVShift : Word
  alphaPlane : Bool
  numHSlices : Word
  numVSlices : Word
  qtSetCount : BitVec 4
  qt : List (Nat × BitVec 16)
  contextCount : Vector (BitVec 15) 8
  init : List (Nat × Byte)
  ec : Bool
  intra : Bool
  valid : Bool
  configPresent : Bool
  bitsMax : BitVec 6
  bitsMask : Word
  planeCount : BitVec 3
  qtiCount : BitVec 2
  tailSize : BitVec 4
  isOverflow16 : Bool
  deriving DecidableEq, Repr

/-! ## The frame level -/

/-- One located slice: an element of `FR.loc[]` (R20, R296). -/
structure Loc where
  base : Word
  len : Word
  deriving DecidableEq, Repr

/-- A slice task in flight: the arguments of its `SL_RUN` (R45, R301). -/
structure Task where
  slice : Nat
  base : Word
  len : Word
  cont : Bool
  deriving DecidableEq, Repr

/-- The size of one plane of the sample store; 0 columns: the plane does not exist (R75, R77). -/
structure PlaneSize where
  w : Nat
  h : Nat
  deriving DecidableEq, Repr

/-- What the world outside the block does next (R15; log 1). -/
inductive HostEvent where
  /-- The host writes a register (R96). -/
  | write (offset : BitVec 8) (value : Word)
  /-- The host reads a register (R96); the value goes to `hostData`. -/
  | read (offset : BitVec 8)
  /-- The host changes a byte of `IN` (R60). -/
  | poke (address : Word) (value : Byte)
  /-- The host waits: a pending command runs to completion (R91, R362). -/
  | wait
  /-- The pool runs the `i`-th task in flight to its end (R300; log 10). -/
  | poolRun (i : Nat)
  /-- The hardware reset input, where one is built (R360; log 13). -/
  | hwReset
  deriving DecidableEq, Repr

/-- The whole machine: the block, the caller's memories, and what the outside world will do. `workers` is
`N_WORKERS`, the argument of the model that no step changes; 0 counts as 1 (R11, R300, D4; log 10). -/
structure State where
  cmd : Word
  arg0 : Word
  arg1 : Word
  result : Word
  busy : Bool
  done : Bool
  fail : Bool
  underrun : Bool
  lastError : BitVec 12
  errSlice : BitVec 16
  width : Word
  height : Word
  outInfo : Word
  parSel : Word
  keyframe : Bool
  keyframeSeen : Bool
  gopSlices : Nat
  loc : List Loc
  tasks : List Task
  par : Par
  engines : List (Nat × Engine)
  inMem : List Host.Cell
  plane : List (Nat × Word)
  planeSizes : Vector PlaneSize 4
  agenda : List HostEvent
  hostData : Word
  written : List (Nat × Word)
  freeCtr : Nat
  workers : Nat
  deriving DecidableEq, Repr

/-! ## Reset values (R46) -/

/-- An empty window and the default table (R46). -/
def Rc.reset : Rc where
  current := 0
  mask := 0
  bufBeg := 0
  bufCur := 0
  bufEnd := 0
  one := Config.defaultTransition
  zero := zeroTable Config.defaultTransition

/-- An empty window (R46). -/
def Bs.reset : Bs where
  bufBeg := 0
  bufEnd := 0
  pos := 0
  underflow := false

/-- `run_mode = STOP`, everything else 0 (R46). -/
def Gr.reset : Gr where
  runIndex := 0
  runMode := .stop
  runLen := 0
  x := 0
  w := 0
  selP := 0
  selQ := 0

/-- No pair is open (R46); its entries read 0 (log 5). -/
def LineBuf.reset : LineBuf where
  isOpen := false
  sel := false
  buf0 := []
  buf1 := []

/-- `Created`, no error (R46); the registers R46 leaves unspecified are 0 (log 4). -/
def Sl.reset : Sl where
  fsm := .created
  bufBeg := 0
  bufEnd := 0
  contEnd := 0
  sliceX := 0
  sliceY := 0
  widthM1 := 0
  heightM1 := 0
  x := 0
  y := 0
  w := 0
  h := 0
  qti := Vector.replicate 3 0
  pictureStructure := 0
  sarNum := 0
  sarDen := 0
  used := 0
  err := 0
  underrun := false

/-- A slice engine at the values of R46. -/
def Engine.reset : Engine where
  rc := Rc.reset
  bs := Bs.reset
  gr := Gr.reset
  lines := Vector.replicate 4 LineBuf.reset
  posC := 0
  posY := 0
  posX := 0
  sl := Sl.reset
  sm := []
  gs := []
  psReady := false
  opened := false

/-- `valid` and `config_present` are 0 (R46); the other fields are 0, and `INIT` is 128 (log 3). -/
def Par.reset : Par where
  version := 0
  microVersion := 0
  coderType := false
  customPresent := false
  customTransition := Vector.replicate 256 0
  colorspaceType := false
  bitsPerRawSample := 0
  chromaPlanes := false
  chromaHShift := 0
  chromaVShift := 0
  alphaPlane := false
  numHSlices := 0
  numVSlices := 0
  qtSetCount := 0
  qt := []
  contextCount := Vector.replicate 8 0
  init := []
  ec := false
  intra := false
  valid := false
  configPresent := false
  bitsMax := 0
  bitsMask := 0
  planeCount := 0
  qtiCount := 0
  tailSize := 0
  isOverflow16 := false

/-- The machine right after reset (R46): engine 0 exists and no other, nothing is in `IN` or `PLANE`, and
nothing is on the agenda. D4 lets a model fix the number of workers at 1 (log 10). -/
def State.reset : State where
  cmd := 0
  arg0 := 0
  arg1 := 0
  result := 0
  busy := false
  done := false
  fail := false
  underrun := false
  lastError := 0
  errSlice := 0xFFFF
  width := 0
  height := 0
  outInfo := 0
  parSel := 0
  keyframe := false
  keyframeSeen := false
  gopSlices := 0
  loc := []
  tasks := []
  par := Par.reset
  engines := [(0, Engine.reset)]
  inMem := []
  plane := []
  planeSizes := Vector.replicate 4 ⟨0, 0⟩
  agenda := []
  hostData := 0
  written := []
  freeCtr := 0
  workers := 1

end Sys2Proof.Machine
end

