-- ==== Sys2Proof/Machine/Store.lean ====
section
/-! DEFINITION. Sys2Proof/Machine/Store.lean: sparse memories as plain data. A memory is a list of (key,
value) pairs with strictly rising keys. Where a memory has a value for unlisted keys, no listed entry
equals it, so that equal memories are equal lists. -/

namespace Sys2Proof.Machine.Store

variable {α : Type}

/-- The value listed for key `k`, if any. -/
def lookup : List (Nat × α) → Nat → Option α
  | [], _ => none
  | (a, v) :: m, k => if k = a then some v else lookup m k

/-- List `v` for key `k`, at its place in the rising order. -/
def insert : List (Nat × α) → Nat → α → List (Nat × α)
  | [], k, v => [(k, v)]
  | (a, w) :: m, k, v =>
    if k < a then (k, v) :: (a, w) :: m
    else if k = a then (k, v) :: m
    else (a, w) :: insert m k v

/-- Remove the entry of key `k`. -/
def erase : List (Nat × α) → Nat → List (Nat × α)
  | [], _ => []
  | (a, w) :: m, k => if k = a then erase m k else (a, w) :: erase m k

/-- Read key `k` of a memory whose unlisted keys read as `d`. -/
def get (d : Nat → α) (m : List (Nat × α)) (k : Nat) : α := (lookup m k).getD (d k)

/-- Write key `k` of a memory whose unlisted keys read as `d`; writing that value removes the entry. -/
def put [DecidableEq α] (d : Nat → α) (m : List (Nat × α)) (k : Nat) (v : α) : List (Nat × α) :=
  if v = d k then erase m k else insert m k v

/-- The entries of a block of values at keys `base`, `base + 1`, ..., without those equal to `d`. -/
def blockEntries [DecidableEq α] (d : Nat → α) : Nat → List α → List (Nat × α)
  | _, [] => []
  | base, v :: vs =>
    if v = d base then blockEntries d (base + 1) vs else (base, v) :: blockEntries d (base + 1) vs

/-- Write the values `vs` at keys `base`, `base + 1`, ... -/
def putBlock [DecidableEq α] (d : Nat → α) (m : List (Nat × α)) (base : Nat) (vs : List α) :
    List (Nat × α) :=
  m.filter (fun e => e.1 < base) ++ blockEntries d base vs ++
    m.filter (fun e => base + vs.length ≤ e.1)

/-- The keys rise strictly. -/
def sorted : List (Nat × α) → Bool
  | [] => true
  | [_] => true
  | (a, _) :: (b, w) :: m => decide (a < b) && sorted ((b, w) :: m)

/-- The canonical form: rising keys, and no entry equal to what its key reads as when unlisted. -/
def wf [DecidableEq α] (d : Nat → α) (m : List (Nat × α)) : Bool :=
  sorted m && m.all (fun e => decide (e.2 ≠ d e.1))

end Sys2Proof.Machine.Store
end

