-- ==== Sys2Proof/Machine/Operands.lean ====
section
/-! DEFINITION. Sys2Proof/Machine/Operands.lean: the operand forms: state references (R41, R98), buffers
(R63), the pair `(p, q)` and contexts, coded planes and their geometry (R205, R207), and the keys of the
block's memories. -/

namespace Sys2Proof.Machine

/-! ## Bit fields and signed readings -/

/-- `sext_n(v)`: the low `n` bits of `v` as a two's-complement number, here as an `i32` (R13). -/
def sextWord (n : Nat) (v : Word) : Word := (v.setWidth n).signExtend 32

/-- A bit as a `u32` result. -/
def bitWord (b : Bool) : Word := if b then 1 else 0

/-- `floor(n / 2^s)`. -/
def floorShift (n s : Nat) : Nat := n >>> s

/-- `ceil(n / 2^s)`. -/
def ceilShift (n s : Nat) : Nat := if n = 0 then 0 else ((n - 1) >>> s) + 1

/-! ## The probability-state memory -/

/-- A state reference: the name of one byte of `SM` (R41). -/
inductive StateRef where
  | hb (i : BitVec 5)
  | ks
  | ts
  | qb (i : BitVec 5)
  | ib (k i : BitVec 5)
  | ps (p : BitVec 2) (q : BitVec 3) (ctx : BitVec 14) (i : BitVec 5)
  deriving DecidableEq, Repr

/-- The 32-bit encoding of a state reference (R98). -/
def StateRef.word : StateRef → Word
  | .hb i => 0#4 ++ 0#23 ++ i
  | .ks => 1#4 ++ 0#28
  | .ts => 2#4 ++ 0#28
  | .qb i => 3#4 ++ 0#23 ++ i
  | .ib k i => 4#4 ++ 0#18 ++ k ++ i
  | .ps p q ctx i => 5#4 ++ p ++ q ++ 0#4 ++ ctx ++ i

/-- The key of a state byte in `SM`: its encoding (R44: `SM` is addressed by state reference). -/
def StateRef.key (r : StateRef) : Nat := r.word.toNat

/-- The reference that a word encodes; none for the kinds 6 to 15 and when a bit the kind does not use is
not 0 (R98). -/
def StateRef.ofWord (w : Word) : Option StateRef :=
  let i := w.extractLsb' 0 5
  let r : Option StateRef :=
    match (w.extractLsb' 28 4).toNat with
    | 0 => some (.hb i)
    | 1 => some .ks
    | 2 => some .ts
    | 3 => some (.qb i)
    | 4 => some (.ib (w.extractLsb' 5 5) i)
    | 5 => some (.ps (w.extractLsb' 26 2) (w.extractLsb' 23 3) (w.extractLsb' 5 14) i)
    | _ => none
  r.filter (fun r => r.word == w)

/-- The bank a reference lies in has 32 bytes; byte `i` of it (R41). `KS` and `TS` are single bytes. -/
def StateRef.byte (r : StateRef) (i : BitVec 5) : StateRef :=
  match r with
  | .hb _ => .hb i
  | .ks => .ks
  | .ts => .ts
  | .qb _ => .qb i
  | .ib k _ => .ib k i
  | .ps p q ctx _ => .ps p q ctx i

/-- A bank reference has `i = 0` (R41, R98); `KS` and `TS` are their own banks for `ST_FILL` only. -/
def StateRef.isBank (r : StateRef) : Bool := r == r.byte 0

/-- The reference names a single byte, not a bank of 32. -/
def StateRef.isSingle : StateRef → Bool
  | .ks | .ts => true
  | .hb _ | .qb _ | .ib _ _ | .ps _ _ _ _ => false

/-- What an unlisted byte of `SM` reads as: `TS` 129, every other byte 128 (R46; `PS`: log 5). -/
def smDefault (k : Nat) : Byte := if k = StateRef.ts.key then Config.termState else Config.stateMid

/-- Read one state byte: `SM[r]` (R14). -/
def Engine.state (e : Engine) (r : StateRef) : Byte := Store.get smDefault e.sm r.key

/-- Write one state byte: `SM[r] <- v` (R14). -/
def Engine.setState (e : Engine) (r : StateRef) (v : Byte) : Engine :=
  { e with sm := Store.put smDefault e.sm r.key v }

/-- The context count of table set `q` (R33). -/
def Par.ctxCount (p : Par) (q : BitVec 3) : Nat := (p.contextCount.get q.toFin).toNat

/-- `p` names one of the three plane-index slots and `q` one of the table sets in use (R40, R42). -/
def Par.hasPair (par : Par) (p : BitVec 2) (q : BitVec 3) : Bool :=
  decide (p.toNat ≤ 2) && decide (q.toNat < par.qtSetCount.toNat)

/-- A reference is legal: kinds 0 to 4 always; `PS` inside the parsed sizes once `RC_GOPINIT` has run
(R98). -/
def StateRef.legal (r : StateRef) (par : Par) (e : Engine) : Bool :=
  match r with
  | .hb _ | .ks | .ts | .qb _ | .ib _ _ => true
  | .ps p q ctx _ => par.hasPair p q && decide (ctx.toNat < par.ctxCount q) && e.psReady

/-! ## Memories keyed by set, slot and context -/

/-- The key of `INIT[q][ctx][i]` (R39). -/
def initKey (q : BitVec 3) (ctx i : Nat) : Nat := q.toNat * 2 ^ 21 + ctx * 32 + i

/-- What an unlisted byte of `INIT` reads as (R222 row 15: "all 128 when absent"). -/
def initDefault (_ : Nat) : Byte := Config.stateMid

/-- `PAR.INIT[q][ctx][i]`. -/
def Par.initAt (p : Par) (q : BitVec 3) (ctx i : Nat) : Byte :=
  Store.get initDefault p.init (initKey q ctx i)

/-- The key of `QT[q][j][n]` (R37). -/
def qtKey (q : BitVec 3) (j : Nat) (n : Nat) : Nat := (q.toNat * Config.maxContextInputs + j) * 256 + n

/-- What an unlisted table entry reads as. -/
def qtDefault (_ : Nat) : BitVec 16 := 0

/-- `PAR.QT[q][j][n]`, an `i16`. -/
def Par.qtAt (p : Par) (q : BitVec 3) (j n : Nat) : BitVec 16 := Store.get qtDefault p.qt (qtKey q j n)

/-- The key of `GS[p][q][ctx]` (R42). -/
def gsKey (p : BitVec 2) (q : BitVec 3) (ctx : Nat) : Nat := (p.toNat * 8 + q.toNat) * 2 ^ 16 + ctx

/-- `GR_INIT`, which is also what an unlisted tuple reads as (R167; log 5). -/
def grInit : GrTuple := ⟨Config.grInitN, Config.grInitA, Config.grInitB, Config.grInitC⟩

/-- What an unlisted tuple of `GS` reads as. -/
def gsDefault (_ : Nat) : GrTuple := grInit

/-- `GS[p][q][ctx]`. -/
def Engine.tuple (e : Engine) (p : BitVec 2) (q : BitVec 3) (ctx : Nat) : GrTuple :=
  Store.get gsDefault e.gs (gsKey p q ctx)

/-- `GS[p][q][ctx] <- t`. -/
def Engine.setTuple (e : Engine) (p : BitVec 2) (q : BitVec 3) (ctx : Nat) (t : GrTuple) : Engine :=
  { e with gs := Store.put gsDefault e.gs (gsKey p q ctx) t }

/-! ## Argument forms -/

/-- `p` in bits 1:0 of `ARG0` (R92). -/
def argP (w : Word) : BitVec 2 := w.extractLsb' 0 2

/-- `q` in bits 4:2 of `ARG0` (R92). -/
def argQ (w : Word) : BitVec 3 := w.extractLsb' 2 3

/-- A coded plane number in an argument register: 0..3 (R18). -/
def argPlane (w : Word) : Option (Fin 4) := if h : w.toNat < 4 then some ⟨w.toNat, h⟩ else none

/-- The buffer constraint of R63: `b + n <= 2^ADDR_W - 2`. -/
def bufferOk (b n : Word) : Bool := decide (b.toNat + n.toNat ≤ Config.bufferTop)

/-- The end of a buffer, as a cursor. -/
def bufferEnd (b n : Word) : Addr := b.setWidth _ + n.setWidth _

/-- The table choice of `RC_ARM` and `RC_REARM`: the custom table is legal only when there is one (R131,
R135). -/
def tableOk (par : Par) (custom : Bool) : Bool := !custom || par.customPresent

/-- `t = 0 ? DEFAULT_TRANSITION[] : PAR.custom_transition[]` (R131, R135). -/
def chosenTable (par : Par) (custom : Bool) : Table :=
  if custom then par.customTransition else Config.defaultTransition

/-! ## Coded planes -/

/-- `slot(c) = floor((c + 1) / 2)` (R205). -/
def slot (c : Fin 4) : BitVec 2 := BitVec.ofNat 2 ((c.val + 1) / 2)

/-- Coded plane `c` is present (R205). -/
def Par.present (p : Par) (c : Fin 4) : Bool :=
  match c with
  | 0 => true
  | 1 | 2 => p.colorspaceType || p.chromaPlanes
  | 3 => p.alphaPlane

/-- Coded plane `c` is subsampled: plane 1 or 2 of the YCbCr model (R207). -/
def Par.subsampled (p : Par) (c : Fin 4) : Bool := !p.colorspaceType && (c == 1 || c == 2)

/-- The part of a coded plane that lies in a slice: its origin and size (R207). -/
structure Region where
  ox : Nat
  oy : Nat
  w : Nat
  h : Nat
  deriving DecidableEq, Repr

/-- Geometry of coded plane `c` inside the slice (R207). -/
def region (p : Par) (sl : Sl) (c : Fin 4) : Region :=
  if p.subsampled c then
    ⟨floorShift sl.x p.chromaHShift.toNat, floorShift sl.y p.chromaVShift.toNat,
     ceilShift sl.w p.chromaHShift.toNat, ceilShift sl.h p.chromaVShift.toNat⟩
  else ⟨sl.x, sl.y, sl.w, sl.h⟩

/-- `SL.qti[p]` (R26). -/
def Sl.qtiAt (sl : Sl) (p : BitVec 2) : BitVec 3 :=
  if h : p.toNat < 3 then sl.qti.get ⟨p.toNat, h⟩ else 0

/-- The columns and rows of plane `p` of the sample store for a frame of `w` by `h` samples (R77). -/
def planeSize (p : Par) (w h : Nat) (c : Fin 4) : PlaneSize :=
  if !p.present c then ⟨0, 0⟩
  else if p.subsampled c then ⟨ceilShift w p.chromaHShift.toNat, ceilShift h p.chromaVShift.toNat⟩
  else ⟨w, h⟩

/-- The key of sample `(p, x, y)` of the sample store (R44); no two samples have the same key. -/
def sampleKey (p : Fin 4) (x y : Nat) : Nat := 4 * Nat.pair x y + p.val

/-- Sample `(p, x, y)` of the sample store; none when nothing has written it (R75, R306; log 7). -/
def State.sample (s : State) (p : Fin 4) (x y : Nat) : Option Word := Store.lookup s.plane (sampleKey p x y)

/-! ## The input space -/

/-- What an unlisted byte of `IN` reads as (log 6). -/
def inDefault (_ : Nat) : Byte := 0

/-- `IN[a]` (R60). -/
def inByte (im : List Host.Cell) (a : Nat) : Byte := Store.get inDefault im a

/-- `MemRead(IN, a, n)`: the byte at the lowest address is the most significant (R61). -/
def memRead (im : List Host.Cell) (a : Nat) : Nat → Nat
  | 0 => 0
  | n + 1 => memRead im a n * 256 + (inByte im (a + n)).toNat

/-- The canonical form of `IN`: rising addresses, no entry equal to what an unlisted address reads as. -/
abbrev Memory.wf (im : List Host.Cell) : Bool := Store.wf inDefault im

/-! ## Line buffers -/

/-- The key of entry `i`, -2 <= i, of a line buffer (R25). -/
def lineKey (i : Int) : Nat := (i + 2).toNat

/-- What an unlisted entry reads as: every entry of a buffer is set to 0 when it is opened (R43). -/
def lineDefault (_ : Nat) : Word := 0

/-- `cur[i]`: the line being decoded, `sample[1]` of the source (R191). -/
def LineBuf.cur (b : LineBuf) (i : Int) : Word :=
  Store.get lineDefault (if b.sel then b.buf1 else b.buf0) (lineKey i)

/-- `top[i]`: the line above, `sample[0]` of the source (R191). -/
def LineBuf.top (b : LineBuf) (i : Int) : Word :=
  Store.get lineDefault (if b.sel then b.buf0 else b.buf1) (lineKey i)

/-- `cur[i] <- v`. -/
def LineBuf.setCur (b : LineBuf) (i : Int) (v : Word) : LineBuf :=
  if b.sel then { b with buf1 := Store.put lineDefault b.buf1 (lineKey i) v }
  else { b with buf0 := Store.put lineDefault b.buf0 (lineKey i) v }

/-- `top[i] <- v`. -/
def LineBuf.setTop (b : LineBuf) (i : Int) (v : Word) : LineBuf :=
  if b.sel then { b with buf0 := Store.put lineDefault b.buf0 (lineKey i) v }
  else { b with buf1 := Store.put lineDefault b.buf1 (lineKey i) v }

/-- The line buffers of coded plane `c`. -/
def Engine.line (e : Engine) (c : Fin 4) : LineBuf := e.lines.get c

/-- Replace the line buffers of coded plane `c`. -/
def Engine.setLine (e : Engine) (c : Fin 4) (b : LineBuf) : Engine := { e with lines := e.lines.set c b }

end Sys2Proof.Machine
end

