-- ==== Sys2Proof/Machine/Flags.lean ====
section
/-! DEFINITION. Sys2Proof/Machine/Flags.lean: the flags and predicates of R29 that are computed, the byte
accounting they rest on, and the `STATUS` word (R97). -/

namespace Sys2Proof.Machine

/-- The partial-byte term of R142 and R143: `Mask < 0x100 ? 0 : 1`. -/
def rcPartial (rc : Rc) : Nat := if rc.mask < 0x100#32 then 0 else 1

/-- Bytes used by the range decoder (R142). -/
def rcUsedBytes (rc : Rc) : Nat :=
  if rc.bufEnd < rc.bufCur then rc.bufEnd.toNat - rc.bufBeg.toNat
  else rc.bufCur.toNat - rc.bufBeg.toNat - rcPartial rc

/-- The underrun predicate of the range decoder: `BufCur - (Mask < 0x100 ? 0 : 1) > BufEnd`, in integers
(R143). -/
def rcUnderrun (rc : Rc) : Bool := decide ((rc.bufEnd.toNat : Int) < rc.bufCur.toNat - rcPartial rc)

/-- The bits of the bitstream reader's window (R23). -/
def bsBitsTotal (bs : Bs) : Nat := 8 * (bs.bufEnd.toNat - bs.bufBeg.toNat)

/-- Bit-remaining: `8 * (BufEnd - BufBeg) - Pos` (R23). -/
def bsRemaining (bs : Bs) : Nat := bsBitsTotal bs - bs.pos.toNat

/-- Bytes used by the bitstream reader: `ceil(Pos / 8)` (R164). -/
def bsUsedBytes (bs : Bs) : Nat := (bs.pos.toNat + 7) / 8

/-- `STATUS` (R31, R97): bits 31:8 read 0. -/
def State.status (s : State) : Word :=
  0#24 ++ BitVec.ofBool s.par.configPresent ++ BitVec.ofBool s.par.valid
    ++ BitVec.ofBool s.keyframeSeen ++ BitVec.ofBool s.keyframe
    ++ BitVec.ofBool s.underrun ++ BitVec.ofBool s.fail ++ BitVec.ofBool s.done ++ BitVec.ofBool s.busy

/-- The level of the completion line of an implementation that has one: `DONE OR FAIL` (R335; log 29). -/
def State.completionLine (s : State) : Bool := s.done || s.fail

/-- The flag `is_overflow_16bit` (R240): YCbCr, 16-bit samples, range coder. -/
def overflow16Flag (p : Par) : Bool := !p.colorspaceType && p.bitsPerRawSample == 16 && p.coderType

/-- The frame dimensions are legal (R35, R291). -/
def State.dimensionsOk (s : State) : Bool :=
  decide (1 ≤ s.width.toNat ∧ s.width.toNat ≤ Config.maxWidth ∧
    1 ≤ s.height.toNat ∧ s.height.toNat ≤ Config.maxHeight)

end Sys2Proof.Machine
end

