-- ==== Sys2Proof/Machine/Ops.lean ====
section
/-! DEFINITION. Sys2Proof/Machine/Ops.lean: the operations that every command shares: access to the slice
engines, the end of a command, and taking an error (R91, R273, R330). There is no return from an error
(R332). -/

namespace Sys2Proof.Machine

/-- What `exec` and `step` answer. -/
abbrev Out := Host.Outcome State Fault Refusal

/-! ## Slice engines (R48) -/

/-- `SL.exists` of engine `k`. -/
def State.hasEngine (s : State) (k : Nat) : Bool := (Store.lookup s.engines k).isSome

/-- Engine `k`; one that does not exist is created at the values of R46 when it is first needed (R48). -/
def State.engine (s : State) (k : Nat) : Engine := (Store.lookup s.engines k).getD Engine.reset

/-- Replace, or create, engine `k`. -/
def State.setEngine (s : State) (k : Nat) (e : Engine) : State :=
  { s with engines := Store.insert s.engines k e }

/-! ## The end of a command (R91) -/

/-- A command ends without error: `RESULT` is written if it returns a value, `BUSY` falls, `DONE` is set. -/
def State.finish (s : State) (r : Option Word) : State :=
  { s with result := r.getD s.result, busy := false, done := true, fail := false }

/-- A command ends with the error that `LAST_ERROR` already holds: `BUSY` falls, `FAIL` is set. -/
def State.finishFailed (s : State) : State := { s with busy := false, done := false, fail := true }

/-- `raise E` at frame level or in a command the host issued: `LAST_ERROR`, `ERR_SLICE` and
`STATUS.UNDERRUN` are written and the command ends with `STATUS.FAIL` (R330 (b), (c)). -/
def State.takeError (s : State) (e : ErrorName) (errSlice : BitVec 16) : State :=
  { s with lastError := e.code, errSlice := errSlice, underrun := e.isUnderrun }.finishFailed

/-- "No slice" in `ERR_SLICE` (R32). -/
def noSlice : BitVec 16 := 0xFFFF

/-- A command ends without error and returns nothing. -/
def complete (s : State) : Out := .next (s.finish none)

/-- A command ends without error and returns `r`. -/
def completeWith (r : Word) (s : State) : Out := .next (s.finish (some r))

/-- A command ends with an error (R330). -/
def failWith (e : ErrorName) (errSlice : BitVec 16) (s : State) : Out := .next (s.takeError e errSlice)

/-- Run `f` if the operands are legal, else refuse the command: `E_BAD_COMMAND` before any state change
(R93 checks 2 to 4, R274). `errSlice` is the `slice` field for the operations `SL_*`, else "no slice"
(R330 (c)). -/
def checked (legal : Bool) (errSlice : BitVec 16) (s : State) (f : State → Out) : Out :=
  if legal then f s else failWith .badCommand errSlice s

/-! ## Operations on one engine -/

/-- Run an operation of a unit on engine `k`; it returns nothing. -/
def onEngine (k : BitVec 16) (s : State) (f : Engine → Engine) : Out :=
  complete (s.setEngine k.toNat (f (s.engine k.toNat)))

/-- Run an operation of a unit on engine `k` and return its result. -/
def onEngineWith (k : BitVec 16) (s : State) (f : Engine → Engine × Word) : Out :=
  completeWith (f (s.engine k.toNat)).2 (s.setEngine k.toNat (f (s.engine k.toNat)).1)

/-! ## Raising inside a slice task -/

/-- `raise E` inside a slice task: `SL.err <- E`, `SL.fsm <- Error` (R273). -/
def Engine.takeSliceError (e : Engine) (err : ErrorName) : Engine :=
  { e with sl := { e.sl with err := err.code, fsm := .error } }

end Sys2Proof.Machine
end

