-- ==== Sys2Proof/Machine/RangeCoder.lean ====
section
/-! DEFINITION. Sys2Proof/Machine/RangeCoder.lean: the range arithmetic decoder and the probability-state
memory (40_range_coder.md), and the meanings of `RC_*` and `ST_FILL`. -/

namespace Sys2Proof.Machine

/-! ## Arming -/

/-- Install a transition table and the table derived from it (R131, R135). -/
def Rc.setTable (rc : Rc) (t : Table) : Rc := { rc with one := t, zero := zeroTable t }

/-- `RC_ARM` on `n` bytes at `b` with table `t` (R131). -/
def rcArmed (im : List Host.Cell) (b n : Word) (t : Table) : Rc :=
  if 2#32 ≤ n then
    { current := BitVec.ofNat 32 (memRead im b.toNat 2)
      mask := Config.rcMaskInit
      bufBeg := b.setWidth _
      bufCur := b.setWidth _ + 2
      bufEnd := bufferEnd b n
      one := t
      zero := zeroTable t }
  else
    { current := 0
      mask := 0
      bufBeg := b.setWidth _
      bufCur := b.setWidth _
      bufEnd := bufferEnd b n
      one := t
      zero := zeroTable t }

/-- `RC_ARM` on an engine (R131). -/
def rcArm (im : List Host.Cell) (b n : Word) (t : Table) (e : Engine) : Engine :=
  { e with rc := rcArmed im b n t }

/-- `RC_REARM`: the window now has `n` bytes and the table is `t`; `Current`, `Mask` and `BufCur` keep
their values (R135). -/
def rcRearm (n : Nat) (t : Table) (e : Engine) : Engine :=
  { e with rc := { e.rc with bufEnd := e.rc.bufBeg + BitVec.ofNat _ n }.setTable t }

/-! ## The binary decision -/

/-- The refill, for `Mask < 0x100`: the decoder after it, and false when the input is exhausted (R136). -/
def rcRefill (im : List Host.Cell) (rc : Rc) : Rc × Bool :=
  let shifted := rc.current <<< 8
  if rc.bufCur < rc.bufEnd then
    ({ rc with
        current := shifted ||| (inByte im rc.bufCur.toNat).setWidth 32
        bufCur := rc.bufCur + 1
        mask := rc.mask <<< 8 }, true)
  else if rc.bufEnd < rc.bufCur then ({ rc with current := shifted }, false)
  else ({ rc with current := shifted, bufCur := rc.bufCur + 1, mask := rc.mask <<< 8 }, true)

/-- The decision proper, after the refill (R134). -/
def rcDecide (r : StateRef) (e : Engine) : Engine × Bool :=
  let s := e.state r
  let mask2 := (e.rc.mask * s.setWidth 32) >>> 8
  let mask := e.rc.mask - mask2
  if e.rc.current < mask then
    ({ e with rc := { e.rc with mask := mask } }.setState r (e.rc.zero.at s), false)
  else
    ({ e with rc := { e.rc with current := e.rc.current - mask, mask := mask2 } }.setState r
      (e.rc.one.at s), true)

/-- `RC_BIT` over state byte `r` (R134). -/
def rcBit (im : List Host.Cell) (r : StateRef) (e : Engine) : Engine × Bool :=
  if e.rc.mask < 0x100#32 then
    if (rcRefill im e.rc).2 then rcDecide r { e with rc := (rcRefill im e.rc).1 }
    else ({ e with rc := (rcRefill im e.rc).1 }, false)
  else rcDecide r e

/-- `RC_FORCE`, forced underrun (R141). -/
def rcForce (e : Engine) : Engine :=
  { e with rc := { e.rc with mask := 0, bufCur := e.rc.bufEnd + 1 } }

/-! ## Symbols (R101) -/

/-- The state byte of the zero flag: `S[0]`. -/
def zeroByte : BitVec 5 := BitVec.ofNat 5 Config.symZero

/-- The state byte of exponent step `n`: `S[1 + min(n, 9)]`. -/
def expByte (n : Nat) : BitVec 5 := BitVec.ofNat 5 (Config.symExp + min n 9)

/-- The state byte of mantissa bit `n`: `S[22 + min(n, 9)]`. -/
def mantByte (n : Nat) : BitVec 5 := BitVec.ofNat 5 (Config.symMant + min n 9)

/-- The state byte of the sign for exponent `n`: `S[11 + min(n, 10)]`. -/
def signByte (n : Nat) : BitVec 5 := BitVec.ofNat 5 (Config.symSign + min n 10)

/-- The exponent steps from step `n` on, at most `steps` of them: the exponent, or none when every one
answered 1, which forces an underrun (R138). -/
def rcExponent (im : List Host.Cell) (bank : StateRef) : Nat → Nat → Engine → Engine × Option Nat
  | 0, _, e => (rcForce e, none)
  | steps + 1, n, e =>
    let (e, bit) := rcBit im (bank.byte (expByte n)) e
    if bit then rcExponent im bank steps (n + 1) e else (e, some n)

/-- The mantissa bits `n - 1`, ..., 0 appended to `a` (R138). -/
def rcMantissa (im : List Host.Cell) (bank : StateRef) : Nat → Word → Engine → Engine × Word
  | 0, a, e => (e, a)
  | n + 1, a, e =>
    let (e, bit) := rcBit im (bank.byte (mantByte n)) e
    rcMantissa im bank n (2 * a + bitWord bit) e

/-- The exponent and magnitude of a symbol; none when the symbol is 0 by its zero flag or by a forced
underrun (R138). -/
def rcMagnitude (im : List Host.Cell) (bank : StateRef) (e : Engine) : Engine × Option (Nat × Word) :=
  let (e, zero) := rcBit im (bank.byte zeroByte) e
  if zero then (e, none)
  else
    match rcExponent im bank Config.expSteps 0 e with
    | (e, none) => (e, none)
    | (e, some n) =>
      let (e, a) := rcMantissa im bank n 1 e
      (e, some (n, a))

/-- `RC_USYM` over a bank (R138). -/
def rcUsym (im : List Host.Cell) (bank : StateRef) (e : Engine) : Engine × Word :=
  match rcMagnitude im bank e with
  | (e, none) => (e, 0)
  | (e, some (_, a)) => (e, a)

/-- `RC_SSYM` over a bank: an `i32` (R139). -/
def rcSsym (im : List Host.Cell) (bank : StateRef) (e : Engine) : Engine × Word :=
  match rcMagnitude im bank e with
  | (e, none) => (e, 0)
  | (e, some (n, a)) =>
    let (e, sgn) := rcBit im (bank.byte (signByte n)) e
    (e, if sgn then 0 - a else a)

/-! ## State memory helpers and the residual operation -/

/-- Write `v` into bytes 0 .. `n - 1` of a bank. -/
def fillBytes (bank : StateRef) (v : Byte) : Nat → Engine → Engine
  | 0, e => e
  | n + 1, e => (fillBytes bank v n e).setState (bank.byte (BitVec.ofNat 5 n)) v

/-- `ST_FILL`: every byte of the bank is `v`; `KS` and `TS` are single bytes (R98, R144). -/
def stFill (bank : StateRef) (v : Byte) (e : Engine) : Engine :=
  if bank.isSingle then e.setState bank v else fillBytes bank v 32 e

/-- A key of `SM` lies in `PS[p][q][ctx]` of the parsed sizes (R40). -/
def inPs (par : Par) (k : Nat) : Bool :=
  match StateRef.ofWord (BitVec.ofNat 32 k) with
  | some (.ps p q ctx _) => par.hasPair p q && decide (ctx.toNat < par.ctxCount q)
  | _ => false

/-- Set, context and state that a key of `INIT` names, if it names one (R39). -/
def initIndex (k : Nat) : Option (BitVec 3 × BitVec 14 × BitVec 5) :=
  if k / 2 ^ 21 < 8 ∧ k % 2 ^ 21 / 32 < 2 ^ 14 then
    some (BitVec.ofNat 3 (k / 2 ^ 21), BitVec.ofNat 14 (k % 2 ^ 21 / 32), BitVec.ofNat 5 (k % 32))
  else none

/-- Copy one byte of `INIT` into slot `p` of `PS`, when it lies in the parsed sizes. -/
def copyInit (par : Par) (p : BitVec 2) (e : Engine) (c : Nat × Byte) : Engine :=
  match initIndex c.1 with
  | some (q, ctx, i) =>
    if par.hasPair p q && decide (ctx.toNat < par.ctxCount q) then e.setState (.ps p q ctx i) c.2 else e
  | none => e

/-- `RC_GOPINIT`: `PS[p][q][ctx][i] <- INIT[q][ctx][i]` for the three slots and every set, context and
state of the parsed sizes (R145). Bytes that `INIT` does not list are 128, and so is a byte that `SM` does
not list: the region is dropped, then the listed bytes are copied. Contexts from 16384 on have no bank
(log 31). -/
def rcGopinit (par : Par) (e : Engine) : Engine :=
  let e := { e with sm := e.sm.filter (fun c => !inPs par c.1), psReady := true }
  let e := par.init.foldl (copyInit par 0) e
  let e := par.init.foldl (copyInit par 1) e
  par.init.foldl (copyInit par 2) e

/-- `RC_DELTA`: a signed symbol over the bank of the context (R146). Of a context of 16384 or more, which only a
context count loaded directly beyond R33's 16384 lets through, the low 14 bits name the bank (log 31). -/
def rcDelta (im : List Host.Cell) (p : BitVec 2) (q : BitVec 3) (ctx : Nat) (e : Engine) : Engine × Word :=
  rcSsym im (.ps p q (BitVec.ofNat 14 ctx) 0) e

/-! ## Meanings -/

/-- The operand of `RC_BIT`: a legal state reference in `ARG0` (R98). -/
def State.refArg (s : State) (k : BitVec 16) : Option StateRef :=
  (StateRef.ofWord s.arg0).filter (fun r => s.hasEngine k.toNat && r.legal s.par (s.engine k.toNat))

/-- The operand of the symbol operations: a legal reference to a bank of 32 bytes (R98). -/
def State.bankArg (s : State) (k : BitVec 16) : Option StateRef :=
  (s.refArg k).filter (fun r => r.isBank && !r.isSingle)

/-- The operand of `ST_FILL`: a legal bank reference, or one of the single bytes (R98, R144). -/
def State.fillArg (s : State) (k : BitVec 16) : Option StateRef :=
  (s.refArg k).filter (fun r => r.isBank)

/-- `RC_ARM` (R131). -/
def execRcArm (k : BitVec 16) (custom : Bool) (s : State) : Out :=
  checked (s.hasEngine k.toNat && bufferOk s.arg0 s.arg1 && tableOk s.par custom) noSlice s fun s =>
    onEngine k s (rcArm s.inMem s.arg0 s.arg1 (chosenTable s.par custom))

/-- `RC_REARM` (R135). -/
def execRcRearm (k : BitVec 16) (custom : Bool) (s : State) : Out :=
  let rc := (s.engine k.toNat).rc
  checked (s.hasEngine k.toNat && decide (s.arg1.toNat ≤ rc.bufEnd.toNat - rc.bufBeg.toNat) &&
      tableOk s.par custom) noSlice s fun s =>
    onEngine k s (rcRearm s.arg1.toNat (chosenTable s.par custom))

/-- `RC_BIT` (R134). -/
def execRcBit (k : BitVec 16) (s : State) : Out :=
  match s.refArg k with
  | none => failWith .badCommand noSlice s
  | some r => onEngineWith k s fun e => ((rcBit s.inMem r e).1, bitWord (rcBit s.inMem r e).2)

/-- `RC_USYM` (R138). -/
def execRcUsym (k : BitVec 16) (s : State) : Out :=
  match s.bankArg k with
  | none => failWith .badCommand noSlice s
  | some r => onEngineWith k s (rcUsym s.inMem r)

/-- `RC_SSYM` (R139). -/
def execRcSsym (k : BitVec 16) (s : State) : Out :=
  match s.bankArg k with
  | none => failWith .badCommand noSlice s
  | some r => onEngineWith k s (rcSsym s.inMem r)

/-- `RC_USED` (R142); it changes no state. -/
def execRcUsed (k : BitVec 16) (s : State) : Out :=
  checked (s.hasEngine k.toNat) noSlice s fun s =>
    completeWith (BitVec.ofNat 32 (rcUsedBytes (s.engine k.toNat).rc)) s

/-- `RC_UNDR` (R143); it changes no state. -/
def execRcUndr (k : BitVec 16) (s : State) : Out :=
  checked (s.hasEngine k.toNat) noSlice s fun s =>
    completeWith (bitWord (rcUnderrun (s.engine k.toNat).rc)) s

/-- `RC_FORCE` (R141). -/
def execRcForce (k : BitVec 16) (s : State) : Out :=
  checked (s.hasEngine k.toNat) noSlice s fun s => onEngine k s rcForce

/-- `RC_GOPINIT` (R145); precondition `PAR.valid = 1` (log 15). -/
def execRcGopinit (k : BitVec 16) (s : State) : Out :=
  checked (s.hasEngine k.toNat && s.par.valid) noSlice s fun s => onEngine k s (rcGopinit s.par)

/-- The operands of `RC_DELTA` name a legal bank of `PS` (R98, R146; log 17). -/
def State.deltaArgsOk (s : State) (k : BitVec 16) : Bool :=
  s.hasEngine k.toNat && s.par.hasPair (argP s.arg0) (argQ s.arg0) &&
    decide (s.arg1.toNat < s.par.ctxCount (argQ s.arg0)) && (s.engine k.toNat).psReady

/-- `RC_DELTA` (R146). -/
def execRcDelta (k : BitVec 16) (s : State) : Out :=
  checked (s.deltaArgsOk k) noSlice s fun s =>
    onEngineWith k s (rcDelta s.inMem (argP s.arg0) (argQ s.arg0) s.arg1.toNat)

/-- `ST_FILL` (R144). -/
def execStFill (k : BitVec 16) (v : BitVec 8) (s : State) : Out :=
  match s.fillArg k with
  | none => failWith .badCommand noSlice s
  | some r => onEngine k s (stFill r v)

end Sys2Proof.Machine
end

