-- ==== Sys2Proof/Machine/Params.lean ====
section
/-! DEFINITION. Sys2Proof/Machine/Params.lean: the parameter parser (43_parameters.md), and the meanings of
`PAR_*`. -/

namespace Sys2Proof.Machine

/-- What the parser reads and does not write (R220, R222). -/
structure ParseIn where
  im : List Host.Cell
  width : Nat
  height : Nat
  oob : Bool
  deriving DecidableEq, Repr

/-- What the parser writes: the record, and the engine whose range decoder it reads through (R220). -/
structure ParseSt where
  par : Par
  eng : Engine
  deriving DecidableEq, Repr

/-- An operation of the parser. -/
abbrev ParseStep := ParseSt → Res ParseSt Unit

/-- Raise `err` when `bad` holds, else go on with `f` (R220: the parse stops at the first violation). -/
def guardThen (bad : Bool) (err : ErrorName) (f : ParseStep) : ParseStep := fun st =>
  if bad then .raise err st else f st

/-- Store into the record. -/
def storePar (f : Par → Par) : ParseStep := fun st => .ok () { st with par := f st.par }

/-- `u(HB)`: read a symbol and go on with its value (R222). -/
def withU (im : List Host.Cell) (f : Nat → ParseStep) : ParseStep := fun st =>
  let (e, v) := rcUsym im (.hb 0) st.eng
  f v.toNat { st with eng := e }

/-- `b(HB)`: read one decision and go on with it (R222). -/
def withB (im : List Host.Cell) (f : Bool → ParseStep) : ParseStep := fun st =>
  let (e, v) := rcBit im (.hb 0) st.eng
  f v { st with eng := e }

/-! ## Quantization tables -/

/-- A table entry: 16 bits; the spec states no value for a product that does not fit (R33, R231; log 18). -/
def qtEntry (n : Int) : BitVec 16 :=
  if -32768 ≤ n ∧ n ≤ 32767 then BitVec.ofInt 16 n else Config.qtOverflow n

/-- What the run loop of one table answers: the engine, the entries written, the number of runs, and
whether all 128 entries are covered. -/
structure RunsOut where
  eng : Engine
  entries : List (BitVec 16)
  runs : Nat
  full : Bool
  deriving DecidableEq, Repr

/-- The run loop from entry `k` and run value `v` on. Every run covers at least one entry, so 128 rounds
are enough (R231). -/
def qtabRuns (im : List Host.Cell) (scale : Nat) : Nat → Nat → Nat → Engine → RunsOut
  | 0, _, v, e => ⟨e, [], v, true⟩
  | fuel + 1, k, v, e =>
    if 128 ≤ k then ⟨e, [], v, true⟩
    else
      let (e, u) := rcUsym im (.qb 0) e
      let len := u.toNat + 1
      if 128 - k < len then ⟨e, [], v, false⟩
      else
        let r := qtabRuns im scale fuel (k + len) (v + 1) e
        ⟨r.eng, List.replicate len (qtEntry (scale * v : Nat)) ++ r.entries, r.runs, r.full⟩

/-- The mirrored entry: the opposite sign (R231). -/
def qtNegated (v : BitVec 16) : BitVec 16 := qtEntry (-v.toInt)

/-- Entries 128..255 from entries 0..127: 128 from 127, then `256 - k` from `k` (R231). -/
def qtUpper (lower : List (BitVec 16)) : List (BitVec 16) :=
  (lower.drop 127).map qtNegated ++ (lower.drop 1).reverse.map qtNegated

/-- Write entries of table `j` of set `q`, from entry 0 on. -/
def Par.setQt (p : Par) (q : BitVec 3) (j : Nat) (vs : List (BitVec 16)) : Par :=
  { p with qt := Store.putBlock qtDefault p.qt (qtKey q j 0) vs }

/-- `PAR_QTAB` with the running scale as an argument; its result is the factor (R231). -/
def parQtab (im : List Host.Cell) (q : BitVec 3) (j : Nat) (scale : Nat) (st : ParseSt) : Res ParseSt Nat :=
  let r := qtabRuns im scale 128 0 0 (stFill (.qb 0) Config.stateMid st.eng)
  if r.full then
    .ok (2 * r.runs - 1) { eng := r.eng, par := st.par.setQt q j (r.entries ++ qtUpper r.entries) }
  else .raise .qtRun { eng := r.eng, par := st.par.setQt q j r.entries }

/-- Tables `js` of a set, from the running scale on: the scale after them (R230). -/
def qtsetLoop (im : List Host.Cell) (q : BitVec 3) : List Nat → Nat → ParseSt → Res ParseSt Nat
  | [], scale, st => .ok scale st
  | j :: js, scale, st =>
    (parQtab im q j scale st).bind fun f st =>
      if Config.qtScaleMax < scale * f then .raise .qtScale st else qtsetLoop im q js (scale * f) st

/-- `PAR_QTSET` (R230). -/
def parQtset (im : List Host.Cell) (q : BitVec 3) (st : ParseSt) : Res ParseSt Nat :=
  (qtsetLoop im q [0, 1, 2, 3, 4] 1 st).bind fun scale st =>
    let n := (scale + 1) / 2
    .ok n { st with par :=
      { st.par with contextCount := st.par.contextCount.set q.toFin (BitVec.ofNat 15 n) } }

/-! ## Initial states -/

/-- One context: state `k` on is predicted from the states `prev` of the context before (R236). -/
def inistContext (im : List Host.Cell) : List Byte → Nat → Engine → Engine × List Byte
  | [], _, e => (e, [])
  | p :: ps, k, e =>
    let (e, d) := rcSsym im (.ib (BitVec.ofNat 5 k) 0) e
    let (e, rest) := inistContext im ps (k + 1) e
    (e, (p + d.setWidth 8) :: rest)

/-- `n` contexts in turn (R236). -/
def inistContexts (im : List Host.Cell) : Nat → List Byte → Engine → Engine × List Byte
  | 0, _, e => (e, [])
  | n + 1, prev, e =>
    let (e, cur) := inistContext im prev 0 e
    let (e, rest) := inistContexts im n cur e
    (e, cur ++ rest)

/-- Write the states of set `q`, 32 to a context, from context 0 on. -/
def Par.setInit (p : Par) (q : BitVec 3) (vs : List Byte) : Par :=
  { p with init := Store.putBlock initDefault p.init (initKey q 0 0) vs }

/-- The mid-point value in `n` bytes. -/
def midBytes (n : Nat) : List Byte := List.replicate n Config.stateMid

/-- `PAR_INIST`: its result is the `states_coded` bit (R236). -/
def parInist (im : List Host.Cell) (q : BitVec 3) (st : ParseSt) : ParseSt × Bool :=
  let (e, coded) := rcBit im (.hb 0) st.eng
  let n := st.par.ctxCount q
  if coded then
    let (e, vs) := inistContexts im n (midBytes 32) e
    ({ eng := e, par := st.par.setInit q vs }, true)
  else ({ eng := e, par := st.par.setInit q (midBytes (n * 32)) }, false)

/-! ## Derived fields -/

/-- The derived fields, for a bit depth the block decodes (R240). -/
def Par.derived (p : Par) : Par :=
  let bits := p.bitsPerRawSample.toNat + (if p.colorspaceType then 1 else 0)
  let alpha := if p.alphaPlane then 1 else 0
  { p with
    bitsMax := BitVec.ofNat 6 bits
    bitsMask := BitVec.ofNat 32 (2 ^ bits - 1)
    planeCount := BitVec.ofNat 3
      (if p.colorspaceType then 3 + alpha else 1 + (if p.chromaPlanes then 2 else 0) + alpha)
    qtiCount := BitVec.ofNat 2 (2 + alpha)
    tailSize := if p.configPresent then (if p.ec then Config.tailEc1 else Config.tailEc0) else 0
    isOverflow16 := overflow16Flag p }

/-- `PAR_DERIVE` (R240). -/
def parDerive (p : Par) : Res Par Unit :=
  if Config.bitdepthMaxDecode < p.bitsPerRawSample.toNat then .raise .bitdepthUnsupported p
  else .ok () p.derived

/-! ## The fields of the record, one definition per row of R222 -/

/-- Row 1: location before support (R223, R333). -/
def fieldVersion (i : ParseIn) : ParseStep := withU i.im fun v =>
  guardThen (i.oob && decide (v ≤ 1)) .versionLocation <|
  guardThen (!i.oob && decide (2 ≤ v)) .versionLocation <|
  guardThen (decide (v = 2)) .versionUnsupported <|
  guardThen (decide (3 < v)) .versionUnsupported <|
  storePar fun p => { p with version := BitVec.ofNat 32 v }

/-- Row 2. -/
def fieldMicroVersion (i : ParseIn) : ParseStep := fun st =>
  if 2 < st.par.version.toNat then
    withU i.im (fun v => storePar fun p => { p with microVersion := BitVec.ofNat 32 v }) st
  else storePar (fun p => { p with microVersion := 0 }) st

/-- Row 4 from entry `n` on; the list holds the default table's entries from `n` on (R222). -/
def transitionLoop (i : ParseIn) : List Byte → Nat → ParseStep
  | [], _, st => .ok () st
  | d :: ds, n, st =>
    let (e, delta) := rcSsym i.im (.hb 0) st.eng
    let t : Int := d.toNat + delta.toInt
    (guardThen (decide (t < 0 ∨ 255 < t)) .stateTransition
      (storePar fun p => { p with
        customTransition := (p.customTransition.setIfInBounds n (BitVec.ofInt 8 t)).set 0 0 })
      { st with eng := e }).bind fun _ => transitionLoop i ds (n + 1)

/-- Row 4 as a whole: entry 0 is 0, entries 1..255 are coded. -/
def fieldTransitions (i : ParseIn) : ParseStep := transitionLoop i Config.defaultTransition.toList.tail 1

/-- Rows 3 and 4. -/
def fieldCoderType (i : ParseIn) : ParseStep := withU i.im fun v =>
  guardThen (decide (2 < v)) .coderType fun st =>
    (storePar (fun p => { p with coderType := decide (v ≠ 0), customPresent := decide (v = 2) }) st).bind
      fun _ st => if v = 2 then fieldTransitions i st else .ok () st

/-- Row 5. -/
def fieldColorspace (i : ParseIn) : ParseStep := withU i.im fun v =>
  guardThen (decide (1 < v)) .colorspace <| storePar fun p => { p with colorspaceType := decide (v = 1) }

/-- Row 6. -/
def fieldBitdepth (i : ParseIn) : ParseStep := fun st =>
  if 0 < st.par.version.toNat then
    withU i.im (fun v => guardThen (decide (Config.bitdepthMaxParse < v)) .bitdepth <|
      storePar fun p => { p with bitsPerRawSample := if v = 0 then 8 else BitVec.ofNat 7 v }) st
  else storePar (fun p => { p with bitsPerRawSample := 8 }) st

/-- Row 7. -/
def fieldChromaPlanes (i : ParseIn) : ParseStep := withB i.im fun v =>
  storePar fun p => { p with chromaPlanes := v }

/-- Row 8. -/
def fieldChromaHShift (i : ParseIn) : ParseStep := withU i.im fun v =>
  storePar fun p => { p with chromaHShift := BitVec.ofNat 32 v }

/-- Row 9. -/
def fieldChromaVShift (i : ParseIn) : ParseStep := withU i.im fun v =>
  storePar fun p => { p with chromaVShift := BitVec.ofNat 32 v }

/-- Row 10. -/
def fieldAlphaPlane (i : ParseIn) : ParseStep := withB i.im fun v =>
  storePar fun p => { p with alphaPlane := v }

/-- Row 11. -/
def fieldHSlices (i : ParseIn) : ParseStep := fun st =>
  if 1 < st.par.version.toNat then
    withU i.im (fun v => guardThen (decide (i.width < v + 1)) .sliceGrid <|
      storePar fun p => { p with numHSlices := BitVec.ofNat 32 (v + 1) }) st
  else storePar (fun p => { p with numHSlices := 1 }) st

/-- Row 12. -/
def fieldVSlices (i : ParseIn) : ParseStep := fun st =>
  if 1 < st.par.version.toNat then
    withU i.im (fun v => guardThen (decide (i.height < v + 1)) .sliceGrid <|
      storePar fun p => { p with numVSlices := BitVec.ofNat 32 (v + 1) }) st
  else storePar (fun p => { p with numVSlices := 1 }) st

/-- Row 13. -/
def fieldQtSetCount (i : ParseIn) : ParseStep := fun st =>
  if 1 < st.par.version.toNat then
    withU i.im (fun v => guardThen (decide (Config.maxQtSets < v)) .qtCount <|
      storePar fun p => { p with qtSetCount := BitVec.ofNat 4 v }) st
  else storePar (fun p => { p with qtSetCount := 1 }) st

/-- The table sets in use, `q = 0 .. count - 1`. -/
def Par.sets (p : Par) : List (BitVec 3) := [0, 1, 2, 3, 4, 5, 6, 7].take p.qtSetCount.toNat

/-- Row 14 for the sets `qs`. -/
def qtSets (i : ParseIn) : List (BitVec 3) → ParseStep
  | [], st => .ok () st
  | q :: qs, st => (parQtset i.im q st).bind fun _ => qtSets i qs

/-- Row 14. -/
def fieldQtSets (i : ParseIn) : ParseStep := fun st => qtSets i st.par.sets st

/-- Row 15 for one set: coded or not, or all 128 when absent. -/
def initialStates (i : ParseIn) (st : ParseSt) (q : BitVec 3) : ParseSt :=
  if 1 < st.par.version.toNat then (parInist i.im q st).1
  else { st with par := st.par.setInit q (midBytes (st.par.ctxCount q * 32)) }

/-- Row 15. -/
def fieldInitialStates (i : ParseIn) : ParseStep := fun st =>
  .ok () (st.par.sets.foldl (initialStates i) st)

/-- Row 16. -/
def fieldEc (i : ParseIn) : ParseStep := fun st =>
  if 3 ≤ st.par.version.toNat then
    withU i.im (fun v => guardThen (decide (1 < v)) .ec <|
      storePar fun p => { p with ec := decide (v = 1) }) st
  else storePar (fun p => { p with ec := false }) st

/-- Row 17. -/
def fieldIntra (i : ParseIn) : ParseStep := fun st =>
  if 3 ≤ st.par.version.toNat then
    withU i.im (fun v => guardThen (decide (1 < v)) .intra <|
      storePar fun p => { p with intra := decide (v = 1) }) st
  else storePar (fun p => { p with intra := false }) st

/-- The derivation, as the step of the parse that follows the fields (R221). -/
def fieldDerived : ParseStep := fun st =>
  match parDerive st.par with
  | .ok _ p => .ok () { st with par := p }
  | .raise err p => .raise err { st with par := p }

/-- The underrun test that ends the parse (R221, D23). -/
def fieldUnderrun : ParseStep := fun st => guardThen (rcUnderrun st.eng.rc) .underrunParams (.ok ()) st

/-- The record is valid (R221). -/
def fieldValid : ParseStep := storePar fun p => { p with valid := true }

/-- The steps of the parse, in strict order (R221, R222). -/
def parseSteps (i : ParseIn) : List ParseStep :=
  [fieldVersion i, fieldMicroVersion i, fieldCoderType i, fieldColorspace i, fieldBitdepth i,
   fieldChromaPlanes i, fieldChromaHShift i, fieldChromaVShift i, fieldAlphaPlane i, fieldHSlices i,
   fieldVSlices i, fieldQtSetCount i, fieldQtSets i, fieldInitialStates i, fieldEc i, fieldIntra i,
   fieldDerived, fieldUnderrun, fieldValid]

/-- Steps in order, up to the first error. -/
def runSteps : List ParseStep → ParseStep
  | [], st => .ok () st
  | f :: fs, st => (f st).bind fun _ => runSteps fs

/-- The banks `IB[k]` for `k < n` are filled with 128 (R221). -/
def fillIb : Nat → Engine → Engine
  | 0, e => e
  | n + 1, e => stFill (.ib (BitVec.ofNat 5 n) 0) Config.stateMid (fillIb n e)

/-- The state in which the first field is read (R221). -/
def parseStart (i : ParseIn) (st : ParseSt) : ParseSt where
  par := { st.par with valid := false, configPresent := i.oob }
  eng := fillIb 32 (stFill (.hb 0) Config.stateMid st.eng)

/-- `PAR_PARSE` (R221). -/
def parParse (i : ParseIn) (st : ParseSt) : Res ParseSt Unit := runSteps (parseSteps i) (parseStart i st)

/-! ## Meanings -/

/-- The working state of the parser on engine `k`. -/
def State.parseSt (s : State) (k : Nat) : ParseSt := ⟨s.par, s.engine k⟩

/-- Put the parser's working state back. -/
def State.setParseSt (s : State) (k : Nat) (st : ParseSt) : State :=
  { s.setEngine k st.eng with par := st.par }

/-- The parser's shared inputs. -/
def State.parseIn (s : State) (oob : Bool) : ParseIn := ⟨s.inMem, s.width.toNat, s.height.toNat, oob⟩

/-- End a parser operation that the host issued on engine `k`: what it wrote stays written, error or not
(R330, R331). -/
def endParse (k : BitVec 16) (s : State) : Res ParseSt Unit → Out
  | .ok _ st => complete (s.setParseSt k.toNat st)
  | .raise e st => failWith e noSlice (s.setParseSt k.toNat st)

/-- The result of a parser operation as a word. -/
def endParseNat (k : BitVec 16) (s : State) : Res ParseSt Nat → Out
  | .ok n st => completeWith (BitVec.ofNat 32 n) (s.setParseSt k.toNat st)
  | .raise e st => failWith e noSlice (s.setParseSt k.toNat st)

/-- `PAR_PARSE` (R221): its preconditions hold, else `E_BAD_COMMAND` (log 15). -/
def execParParse (k : BitVec 16) (oob : Bool) (s : State) : Out :=
  checked (s.hasEngine k.toNat && decide (1 ≤ s.width.toNat) && decide (1 ≤ s.height.toNat) &&
      (s.engine k.toNat).rc.one == Config.defaultTransition) noSlice s fun s =>
    endParse k s (parParse (s.parseIn oob) (s.parseSt k.toNat))

/-- `PAR_QTSET` (R230). -/
def execParQtset (k : BitVec 16) (q : BitVec 3) (s : State) : Out :=
  checked (s.hasEngine k.toNat) noSlice s fun s =>
    endParseNat k s (parQtset s.inMem q (s.parseSt k.toNat))

/-- `PAR_QTAB` (R231): `j` in 0..4 and a running scale in 1..32768. -/
def execParQtab (k : BitVec 16) (q j : BitVec 3) (s : State) : Out :=
  checked (s.hasEngine k.toNat && decide (j.toNat < Config.maxContextInputs) &&
      decide (1 ≤ s.arg0.toNat ∧ s.arg0.toNat ≤ Config.qtScaleMax)) noSlice s fun s =>
    endParseNat k s (parQtab s.inMem q j.toNat s.arg0.toNat (s.parseSt k.toNat))

/-- `PAR_INIST` (R236). -/
def execParInist (k : BitVec 16) (q : BitVec 3) (s : State) : Out :=
  checked (s.hasEngine k.toNat) noSlice s fun s =>
    let r := parInist s.inMem q (s.parseSt k.toNat)
    completeWith (bitWord r.2) (s.setParseSt k.toNat r.1)

/-- `PAR_DERIVE` (R240). -/
def execParDerive (s : State) : Out :=
  match parDerive s.par with
  | .ok _ p => complete { s with par := p }
  | .raise e p => failWith e noSlice { s with par := p }

end Sys2Proof.Machine
end

