-- ==== Sys2Proof/Machine/GolombRice.lean ====
section
/-! DEFINITION. Sys2Proof/Machine/GolombRice.lean: the bitstream reader and the Golomb-Rice decoder
(41_golomb_rice.md), and the meanings of `BS_*` and `GR_*`. -/

namespace Sys2Proof.Machine

/-! ## The bitstream reader -/

/-- `BS_ARM` on `n` bytes at `b` (R160). -/
def bsArm (b n : Addr) (e : Engine) : Engine :=
  { e with bs := { bufBeg := b, bufEnd := b + n, pos := 0, underflow := false } }

/-- Exhaustion: the remaining bits are discarded and the sticky flag is set (R162). -/
def bsExhaust (e : Engine) : Engine :=
  { e with bs := { e.bs with pos := BitVec.ofNat _ (bsBitsTotal e.bs), underflow := true } }

/-- Bit number `n` of the window: bit `7 - (n mod 8)` of byte `floor(n / 8)` (R67). -/
def bsBitAt (im : List Host.Cell) (bs : Bs) (n : Nat) : Bool :=
  (inByte im (bs.bufBeg.toNat + n / 8)).getLsbD (7 - n % 8)

/-- `BS_BIT` (R161). -/
def bsBit (im : List Host.Cell) (e : Engine) : Engine × Bool :=
  if bsBitsTotal e.bs ≤ e.bs.pos.toNat then (bsExhaust e, false)
  else ({ e with bs := { e.bs with pos := e.bs.pos + 1 } }, bsBitAt im e.bs e.bs.pos.toNat)

/-- `n` bits appended to `v`, the first bit read most significant (R163). -/
def bsTake (im : List Host.Cell) : Nat → Word → Engine → Engine × Word
  | 0, v, e => (e, v)
  | n + 1, v, e =>
    let (e, bit) := bsBit im e
    bsTake im n (2 * v + bitWord bit) e

/-- `BS_BITS` of `n` bits: a read that cannot be satisfied in full delivers nothing of it (R163). -/
def bsBits (im : List Host.Cell) (n : Nat) (e : Engine) : Engine × Word :=
  if bsRemaining e.bs < n then (bsExhaust e, 0) else bsTake im n 0 e

/-! ## Rice mode -/

/-- The smallest `k` from `k` on with `N << k >= A`; `A < 2^32` and `N >= 1` make it at most 32 (R165). -/
def riceK (n a : Nat) : Nat → Nat → Nat
  | 0, k => k
  | fuel + 1, k => if n <<< k < a then riceK n a fuel (k + 1) else k

/-- The zero prefix: zeros read, from `z` on, at most `left` more (R165). -/
def ricePrefix (im : List Host.Cell) : Nat → Nat → Engine → Engine × Nat
  | 0, z, e => (e, z)
  | left + 1, z, e =>
    let (e, bit) := bsBit im e
    if bit then (e, z) else ricePrefix im left (z + 1) e

/-- `abs` of an `i32`, as a `u32`. -/
def absWord (v : Word) : Word := if v.msb then 0 - v else v

/-- The tuple update (R166): the two additions wrap, everything after them is exact. -/
def riceUpdate (t : GrTuple) (code : Word) : GrTuple :=
  let b0 : Int := (t.b + code).toInt
  let a0 : Word := t.a + absWord code
  let halve := t.n = Config.grHalveAt
  let n : Nat := (if halve then 64 else t.n.toNat) + 1
  let a : Word := if halve then a0 >>> 1 else a0
  let b : Int := if halve then b0 >>> 1 else b0
  if b ≤ -(n : Int) then
    { n := BitVec.ofNat 8 n
      a := a
      c := BitVec.ofInt 8 (max (t.c.toInt - 1) (-128))
      b := BitVec.ofInt 32 (if b + n ≤ -(n : Int) then -(n : Int) + 1 else b + n) }
  else if 0 < b then
    { n := BitVec.ofNat 8 n
      a := a
      c := BitVec.ofInt 8 (min (t.c.toInt + 1) 127)
      b := BitVec.ofInt 32 (if 0 < b - n then 0 else b - n) }
  else { n := BitVec.ofNat 8 n, a := a, b := BitVec.ofInt 32 b, c := t.c }

/-- The code of a value: the zig-zag undone, then complemented when `2 * B + N < 0` (R165). -/
def riceCode (t : GrTuple) (v : Word) : Word :=
  let code := (v >>> 1) ^^^ (0 - (v &&& 1))
  if 2 * t.b.toInt + t.n.toNat < 0 then 0 - code - 1 else code

/-- The value `v` of a code word for parameter `k` and escape width `m` (R102, R165). -/
def riceValue (im : List Host.Cell) (k m : Nat) (e : Engine) : Engine × Word :=
  let (e, z) := ricePrefix im Config.grPrefixMax 0 e
  if z = Config.grPrefixMax then
    let (e, x) := bsBits im m e
    (e, 11 + x)
  else
    let (e, x) := bsBits im k e
    (e, BitVec.ofNat 32 (z <<< k) + x)

/-- `GR_RICE` for the context `ctx` of `(p, q)`, with `m = PAR.bits_max`: an `i32` (R165). -/
def grRice (im : List Host.Cell) (m : Nat) (p : BitVec 2) (q : BitVec 3) (ctx : Nat) (e : Engine) :
    Engine × Word :=
  let t := e.tuple p q ctx
  let (e, v) := riceValue im (riceK t.n.toNat t.a.toNat 33 0) m e
  let code := riceCode t v
  (e.setTuple p q ctx (riceUpdate t code), sextWord m (code + t.c.signExtend 32))

/-! ## Initialisation -/

/-- A key of `GS` lies in the parsed sizes (R42). -/
def inGs (par : Par) (k : Nat) : Bool :=
  let p := k / 2 ^ 19
  let q := BitVec.ofNat 3 (k / 2 ^ 16)
  decide (p ≤ 2) && decide (q.toNat < par.qtSetCount.toNat) && decide (k % 2 ^ 16 < par.ctxCount q)

/-- `GR_GOPINIT`: `GS[p][q][ctx] <- GR_INIT` for the three slots and every set and context of the parsed
sizes (R167). A tuple that is not listed is `GR_INIT`: the region is dropped. -/
def grGopinit (par : Par) (e : Engine) : Engine :=
  { e with gs := e.gs.filter (fun c => !inGs par c.1) }

/-- `GR_PLANEINIT` (R168). -/
def grPlaneinit (e : Engine) : Engine := { e with gr := { e.gr with runIndex := 0 } }

/-- `GR_LINEINIT` (R169). -/
def grLineinit (p : BitVec 2) (q : BitVec 3) (w : Nat) (e : Engine) : Engine :=
  { e with gr := { e.gr with selP := p, selQ := q, w := w, x := 0, runMode := .stop, runLen := 0 } }

/-! ## The residual operation (R171) -/

/-- A run token: a hit opens a whole segment, a miss closes the run inside this segment. -/
def grToken (im : List Host.Cell) (x : Nat) (e : Engine) : Engine :=
  let (e, hit) := bsBit im e
  let r := e.gr.runIndex
  if hit = Config.runHit then
    { e with gr := { e.gr with
        runLen := grRun r
        runIndex := if x + grRun r ≤ e.gr.w ∧ r < 40 then r + 1 else r } }
  else
    let (e, t) := bsBits im (grLog2 r) e
    { e with gr := { e.gr with
        runMode := .interrupted
        runLen := t.toNat
        runIndex := if 0 < r then r - 1 else r } }

/-- The rest of `GR_DELTA` in a run: count one sample down, and end the run when none is owed. -/
def grRunStep (im : List Host.Cell) (m : Nat) (ctx : Nat) (e : Engine) : Engine × Word :=
  let e := { e with gr := { e.gr with runLen := e.gr.runLen - 1 } }
  if e.gr.runLen < 0 then
    let (e, u) := grRice im m e.gr.selP e.gr.selQ ctx e
    ({ e with gr := { e.gr with runMode := .stop, runLen := 0 } }, if u.msb then u else u + 1)
  else (e, 0)

/-- `GR_DELTA` (R171). -/
def grDelta (im : List Host.Cell) (m : Nat) (ctx : Nat) (e : Engine) : Engine × Word :=
  let x := e.gr.x
  let e := { e with gr := { e.gr with x := x + 1 } }
  if e.gr.runMode = .stop ∧ ctx ≠ 0 then grRice im m e.gr.selP e.gr.selQ ctx e
  else
    let e := if e.gr.runMode = .stop then { e with gr := { e.gr with runMode := .processing } } else e
    let e := if e.gr.runLen = 0 ∧ e.gr.runMode = .processing then grToken im x e else e
    grRunStep im m ctx e

/-! ## Meanings -/

/-- `BS_ARM` (R160). -/
def execBsArm (k : BitVec 16) (s : State) : Out :=
  checked (s.hasEngine k.toNat && bufferOk s.arg0 s.arg1) noSlice s fun s =>
    onEngine k s (bsArm (s.arg0.setWidth _) (s.arg1.setWidth _))

/-- `BS_BIT` (R161). -/
def execBsBit (k : BitVec 16) (s : State) : Out :=
  checked (s.hasEngine k.toNat) noSlice s fun s =>
    onEngineWith k s fun e => ((bsBit s.inMem e).1, bitWord (bsBit s.inMem e).2)

/-- `BS_BITS` (R163): `n` is 0..32 (R93 check 3). -/
def execBsBits (k : BitVec 16) (n : BitVec 6) (s : State) : Out :=
  checked (s.hasEngine k.toNat && decide (n ≤ 32)) noSlice s fun s =>
    onEngineWith k s (bsBits s.inMem n.toNat)

/-- `BS_USED` (R164); it changes no state. -/
def execBsUsed (k : BitVec 16) (s : State) : Out :=
  checked (s.hasEngine k.toNat) noSlice s fun s =>
    completeWith (BitVec.ofNat 32 (bsUsedBytes (s.engine k.toNat).bs)) s

/-- `BS_UNDR` (R175); it changes no state. -/
def execBsUndr (k : BitVec 16) (s : State) : Out :=
  checked (s.hasEngine k.toNat) noSlice s fun s =>
    completeWith (bitWord (s.engine k.toNat).bs.underflow) s

/-- `GR_GOPINIT` (R167); precondition `PAR.valid = 1` (log 15). -/
def execGrGopinit (k : BitVec 16) (s : State) : Out :=
  checked (s.hasEngine k.toNat && s.par.valid) noSlice s fun s => onEngine k s (grGopinit s.par)

/-- `GR_PLANEINIT` (R168). -/
def execGrPlaneinit (k : BitVec 16) (s : State) : Out :=
  checked (s.hasEngine k.toNat) noSlice s fun s => onEngine k s grPlaneinit

/-- `GR_LINEINIT` (R169): a pair in use and a width in 1..`MAX_WIDTH`. -/
def execGrLineinit (k : BitVec 16) (s : State) : Out :=
  checked (s.hasEngine k.toNat && s.par.hasPair (argP s.arg0) (argQ s.arg0) &&
      decide (1 ≤ s.arg1.toNat ∧ s.arg1.toNat ≤ Config.maxWidth)) noSlice s fun s =>
    onEngine k s (grLineinit (argP s.arg0) (argQ s.arg0) s.arg1.toNat)

/-- `GR_DELTA` (R171): the context is below the count of the selected set. When a parse or a direct load after
`GR_LINEINIT` has lowered the number of sets, `GR.sel` can name a set no longer in use, of which R42 gives `GS`
no tuple; the model then tests the context against the count that the set still has, and uses the tuple that
`GS` still holds (log 33). -/
def execGrDelta (k : BitVec 16) (s : State) : Out :=
  checked (s.hasEngine k.toNat && decide (s.arg1.toNat < s.par.ctxCount (s.engine k.toNat).gr.selQ))
      noSlice s fun s =>
    onEngineWith k s (grDelta s.inMem s.par.bitsMax.toNat s.arg1.toNat)

/-- `GR_RICE` (R165): a pair in use and a context below the count of the set. -/
def execGrRice (k : BitVec 16) (s : State) : Out :=
  checked (s.hasEngine k.toNat && s.par.hasPair (argP s.arg0) (argQ s.arg0) &&
      decide (s.arg1.toNat < s.par.ctxCount (argQ s.arg0))) noSlice s fun s =>
    onEngineWith k s
      (grRice s.inMem s.par.bitsMax.toNat (argP s.arg0) (argQ s.arg0) s.arg1.toNat)

end Sys2Proof.Machine
end

