-- ==== Sys2Proof/Machine/Predict.lean ====
section
/-! DEFINITION. Sys2Proof/Machine/Predict.lean: context selection, median predictor, and the decode of
samples, lines and planes (42_context_predict.md), and the meanings of `CTX_IDX` to `PX_WRITE`. -/

namespace Sys2Proof.Machine

/-! ## What a slice reads and writes -/

/-- What a slice task reads and no slice task writes (R262, R368). -/
structure SliceIn where
  im : List Host.Cell
  par : Par
  width : Nat
  height : Nat
  deriving DecidableEq, Repr

/-- What a slice task writes: its engine, and the sample store (R262, R368). -/
structure SliceSt where
  eng : Engine
  plane : List (Nat × Word)
  deriving DecidableEq, Repr

/-- The shared inputs of the slice operations. -/
def State.sliceIn (s : State) : SliceIn := ⟨s.inMem, s.par, s.width.toNat, s.height.toNat⟩

/-- The working state of an operation on engine `k`. -/
def State.sliceSt (s : State) (k : Nat) : SliceSt := ⟨s.engine k, s.plane⟩

/-- Put the working state of engine `k` back. -/
def State.setSliceSt (s : State) (k : Nat) (st : SliceSt) : State :=
  { s.setEngine k st.eng with plane := st.plane }

/-! ## Neighbours, context, predictor -/

/-- The six neighbours of a sample (R191). -/
structure Neighbours where
  l : Word
  t : Word
  tl : Word
  tr : Word
  ll : Word
  tt : Word
  deriving DecidableEq, Repr

/-- The neighbours at column `x` (R191). -/
def neighbours (b : LineBuf) (x : Nat) : Neighbours where
  l := b.cur (x - 1)
  t := b.top x
  tl := b.top (x - 1)
  tr := b.top (x + 1)
  ll := b.cur (x - 2)
  tt := b.cur x

/-- One term of the context: table `j` of set `q` at the low 8 bits of a difference (R192). -/
def ctxTerm (par : Par) (q : BitVec 3) (j : Nat) (diff : Word) : Int :=
  (par.qtAt q j (diff.setWidth 8).toNat).toInt

/-- The context of the neighbours `n` (R192). -/
def ctxOf (par : Par) (q : BitVec 3) (n : Neighbours) : Int :=
  ctxTerm par q 0 (n.l - n.tl) + ctxTerm par q 1 (n.tl - n.t) + ctxTerm par q 2 (n.t - n.tr)
    + ctxTerm par q 3 (n.ll - n.l) + ctxTerm par q 4 (n.tt - n.t)

/-- `CTX_IDX` (R192). -/
def ctxIdx (par : Par) (b : LineBuf) (x : Nat) (q : BitVec 3) : Int := ctxOf par q (neighbours b x)

/-- `median(a, b, c)` (R197). -/
def median (a b c : Int) : Int := max (min a b) (min (max a b) c)

/-- An input of the predictor: reinterpreted as 16 bits signed under the flag (R196). -/
def predInput (par : Par) (v : Word) : Int :=
  if par.isOverflow16 && !par.colorspaceType then (v.setWidth 16).toInt else v.toInt

/-- `PRED_MED` (R196). -/
def predMed (par : Par) (b : LineBuf) (x : Nat) : Int :=
  let n := neighbours b x
  let l := predInput par n.l
  let t := predInput par n.t
  median l (l + t - predInput par n.tl) t

/-! ## One sample -/

/-- The context number handed to the coder that holds the contexts of `(p, q)`: a context that names no slot
of the arrays is left open, a free value (R194; log 19). -/
def contextSlot (par : Par) (p : BitVec 2) (q : BitVec 3) (n : Nat) : Nat :=
  if par.hasPair p q && decide (n < par.ctxCount q) then n else (Config.strayContext n).toNat

/-- `DELTA(p, q, n)`: the coder in use decodes one residual (R203). `GR_DELTA` takes no pair: it uses the one
that `GR_LINEINIT` selected. When a host's `SMP_DEC` finds another pair selected than that of its plane, the
model tests the context against the selected pair, whose arrays the coder reads (log 19). -/
def delta (i : SliceIn) (p : BitVec 2) (q : BitVec 3) (n : Nat) (e : Engine) : Engine × Word :=
  if i.par.coderType then rcDelta i.im p q (contextSlot i.par p q n) e
  else grDelta i.im i.par.bitsMax.toNat (contextSlot i.par e.gr.selP e.gr.selQ n) e

/-- `PX_WRITE` (R204): the only write to the sample store. -/
def pxWrite (i : SliceIn) (c : Fin 4) (x : Nat) (v : Word) (st : SliceSt) : SliceSt :=
  let r := region i.par st.eng.sl c
  { st with plane := Store.insert st.plane (sampleKey c (r.ox + x) (r.oy + st.eng.posY)) v }

/-- The delta of a sample with context `ctx`, subtracted for a negative context (R194, R203). -/
def mirroredDelta (i : SliceIn) (c : Fin 4) (ctx : Int) (e : Engine) : Engine × Word :=
  let p := slot c
  let (e, d) := delta i p (e.sl.qtiAt p) ctx.natAbs e
  (e, if ctx < 0 then 0 - d else d)

/-- `SMP_DEC` (R203). -/
def smpDec (i : SliceIn) (c : Fin 4) (x : Nat) (st : SliceSt) : SliceSt × Word :=
  let ctx := ctxIdx i.par (st.eng.line c) x (st.eng.sl.qtiAt (slot c))
  let pred := predMed i.par (st.eng.line c) x
  let (e, d) := mirroredDelta i c ctx st.eng
  let v := (BitVec.ofInt 32 pred + d) &&& i.par.bitsMask
  let st := pxWrite i c x v { st with eng := e.setLine c ((e.line c).setCur x v) }
  ({ st with eng := { st.eng with posX := x + 1 } }, v)

/-! ## Lines and planes -/

/-- `SMP_DEC` for `n` columns from `x` on. -/
def smpLoop (i : SliceIn) (c : Fin 4) : Nat → Nat → SliceSt → SliceSt
  | 0, _, st => st
  | n + 1, x, st => smpLoop i c n (x + 1) (smpDec i c x st).1

/-- The buffers of a plane at the start of a line of width `w`: the roles swap, then the two edge entries
are written (R206). -/
def LineBuf.startLine (b : LineBuf) (w : Nat) : LineBuf :=
  let b := { b with sel := !b.sel }
  let b := b.setCur (-1) (b.top 0)
  b.setTop w (b.top (w - 1))

/-- The engine at the start of line `y` of coded plane `c` (R206). -/
def startLine (i : SliceIn) (c : Fin 4) (y : Nat) (e : Engine) : Engine :=
  let w := (region i.par e.sl c).w
  let e := { e.setLine c ((e.line c).startLine w) with posC := BitVec.ofFin c, posY := y, posX := 0 }
  if i.par.coderType then e else grLineinit (slot c) (e.sl.qtiAt (slot c)) w e

/-- `LINE_DEC` (R206). -/
def lineDec (i : SliceIn) (c : Fin 4) (y : Nat) (st : SliceSt) : SliceSt :=
  smpLoop i c (region i.par st.eng.sl c).w 0 { st with eng := startLine i c y st.eng }

/-- `LINE_DEC` for `n` rows from `y` on. -/
def lineLoop (i : SliceIn) (c : Fin 4) : Nat → Nat → SliceSt → SliceSt
  | 0, _, st => st
  | n + 1, y, st => lineLoop i c n (y + 1) (lineDec i c y st)

/-- A pair of line buffers that is opened: every entry is 0 (R43, R208). -/
def LineBuf.opened (b : LineBuf) : LineBuf := { b with isOpen := true, buf0 := [], buf1 := [] }

/-- Open the pairs that `which` names; the others are not open (R25, R208, R212; log 16). -/
def openPlanes (which : Fin 4 → Bool) (e : Engine) : Engine :=
  let f := fun c => if which c then (e.line c).opened else { e.line c with isOpen := false }
  { e with lines := #v[f 0, f 1, f 2, f 3] }

/-- Zeroed buffers for the planes that `which` names, and the run state restarted for the Golomb-Rice coder
(R208, R212). -/
def startPlanes (i : SliceIn) (which : Fin 4 → Bool) (e : Engine) : Engine :=
  if i.par.coderType then openPlanes which e else grPlaneinit (openPlanes which e)

/-- `PLANE_DEC` (R208). -/
def planeDec (i : SliceIn) (c : Fin 4) (st : SliceSt) : SliceSt :=
  lineLoop i c (region i.par st.eng.sl c).h 0 { st with eng := startPlanes i (· == c) st.eng }

/-- Line `y` of each of the planes `cs` in turn. -/
def rgbLine (i : SliceIn) (y : Nat) (cs : List (Fin 4)) (st : SliceSt) : SliceSt :=
  cs.foldl (fun st c => lineDec i c y st) st

/-- `n` rows from `y` on, the planes interleaved line by line (R212). -/
def rgbLoop (i : SliceIn) (cs : List (Fin 4)) : Nat → Nat → SliceSt → SliceSt
  | 0, _, st => st
  | n + 1, y, st => rgbLoop i cs n (y + 1) (rgbLine i y cs st)

/-- `RGB_DEC` (R212). -/
def rgbDec (i : SliceIn) (st : SliceSt) : SliceSt :=
  let n := i.par.planeCount.toNat
  rgbLoop i ([0, 1, 2, 3].take n) st.eng.sl.h 0
    { st with eng := startPlanes i (fun c => decide (c.val < n)) st.eng }

/-! ## Meanings -/

/-- The coded plane in `ARG0` and the column in `ARG1` are an open plane and a column of it (R192, R196,
R203; log 16). -/
def State.sampleArg (s : State) (k : BitVec 16) : Option (Fin 4) :=
  (argPlane s.arg0).filter fun c =>
    s.hasEngine k.toNat && ((s.engine k.toNat).line c).isOpen &&
      decide (s.arg1.toNat < (region s.par (s.engine k.toNat).sl c).w)

/-- Run an operation that writes samples on engine `k`; it returns nothing. -/
def onSlice (k : BitVec 16) (s : State) (f : SliceIn → SliceSt → SliceSt) : Out :=
  complete (s.setSliceSt k.toNat (f s.sliceIn (s.sliceSt k.toNat)))

/-- `CTX_IDX` (R192); it changes no state. -/
def execCtxIdx (k : BitVec 16) (q : BitVec 3) (s : State) : Out :=
  match (s.sampleArg k).filter (fun _ => decide (q.toNat < s.par.qtSetCount.toNat)) with
  | none => failWith .badCommand noSlice s
  | some c =>
    completeWith (BitVec.ofInt 32 (ctxIdx s.par ((s.engine k.toNat).line c) s.arg1.toNat q)) s

/-- `PRED_MED` (R196); it changes no state. -/
def execPredMed (k : BitVec 16) (s : State) : Out :=
  match s.sampleArg k with
  | none => failWith .badCommand noSlice s
  | some c =>
    completeWith (BitVec.ofInt 32 (predMed s.par ((s.engine k.toNat).line c) s.arg1.toNat)) s

/-- `SMP_DEC` (R203). -/
def execSmpDec (k : BitVec 16) (s : State) : Out :=
  match s.sampleArg k with
  | none => failWith .badCommand noSlice s
  | some c =>
    let r := smpDec s.sliceIn c s.arg1.toNat (s.sliceSt k.toNat)
    completeWith r.2 (s.setSliceSt k.toNat r.1)

/-- The coded plane in `ARG0` and the row in `ARG1` are an open plane and a row of it (R206; log 16). -/
def State.lineArg (s : State) (k : BitVec 16) : Option (Fin 4) :=
  (argPlane s.arg0).filter fun c =>
    s.hasEngine k.toNat && ((s.engine k.toNat).line c).isOpen &&
      decide (s.arg1.toNat < (region s.par (s.engine k.toNat).sl c).h)

/-- `LINE_DEC` (R206). -/
def execLineDec (k : BitVec 16) (s : State) : Out :=
  match s.lineArg k with
  | none => failWith .badCommand noSlice s
  | some c => onSlice k s fun i st => lineDec i c s.arg1.toNat st

/-- The coded plane in `ARG0` is present (R205, R208). -/
def State.planeArg (s : State) (k : BitVec 16) : Option (Fin 4) :=
  (argPlane s.arg0).filter fun c => s.hasEngine k.toNat && s.par.present c

/-- `PLANE_DEC` (R208). -/
def execPlaneDec (k : BitVec 16) (s : State) : Out :=
  match s.planeArg k with
  | none => failWith .badCommand noSlice s
  | some c => onSlice k s fun i st => planeDec i c st

/-- `RGB_DEC` (R212). -/
def execRgbDec (k : BitVec 16) (s : State) : Out :=
  checked (s.hasEngine k.toNat) noSlice s fun s => onSlice k s rgbDec

/-- `PX_WRITE` (R204): a plane that exists, a column inside the slice's part of it, and a sample value
(log 17). -/
def execPxWrite (k : BitVec 16) (c : BitVec 2) (s : State) : Out :=
  checked (s.hasEngine k.toNat && s.par.present c.toFin &&
      decide (s.arg0.toNat < (region s.par (s.engine k.toNat).sl c.toFin).w) &&
      decide (s.arg1 ≤ s.par.bitsMask)) noSlice s fun s =>
    onSlice k s fun i st => pxWrite i c.toFin s.arg0.toNat s.arg1 st

end Sys2Proof.Machine
end

