-- ==== Sys2Proof/Machine/Slice.lean ====
section
/-! DEFINITION. Sys2Proof/Machine/Slice.lean: the slice state machine (44_slice_fsm.md), and the meanings of
`SL_*`. -/

namespace Sys2Proof.Machine

/-- The result of a step of a slice task (R260, R273). -/
abbrev SliceRes := Res SliceSt Unit

/-! ## Opening -/

/-- The keyframe-bit decision with a fresh state (R263, R294). -/
def keyDecision (im : List Host.Cell) (e : Engine) : Engine × Bool :=
  rcBit im .ks (stFill .ks Config.stateMid e)

/-- `SL_OPEN` of engine `k` (R263). -/
def slOpen (im : List Host.Cell) (k : Nat) (b n : Word) (cont : Bool) (e : Engine) : Engine :=
  let fresh := { e.sl with err := 0, underrun := false, used := 0, fsm := .created }
  if cont then
    { e with opened := true, sl := { fresh with bufBeg := e.rc.bufBeg, bufEnd := e.rc.bufEnd } }
  else
    let e := { e with opened := true, sl := { fresh with bufBeg := b.setWidth _, bufEnd := bufferEnd b n } }
    let e := rcArm im b n Config.defaultTransition e
    if k = 0 then (keyDecision im e).1 else e

/-! ## The header -/

/-- `u()`: read a symbol over `HB` (R264). -/
def headerSym (im : List Host.Cell) (e : Engine) : Engine × Word := rcUsym im (.hb 0) e

/-- The region of a slice in samples, from its grid cells (R264). -/
def Sl.withRegion (sl : Sl) (par : Par) (width height : Nat) : Sl :=
  let nh := par.numHSlices.toNat
  let nv := par.numVSlices.toNat
  let x := sl.sliceX.toNat * width / nh
  let y := sl.sliceY.toNat * height / nv
  { sl with
    x := x
    w := (sl.sliceX.toNat + sl.widthM1.toNat + 1) * width / nh - x
    y := y
    h := (sl.sliceY.toNat + sl.heightM1.toNat + 1) * height / nv - y }

/-- The table-set indices of the slots from `p` on, `n` of them (R264). A number of sets above 8, which only a
direct load leaves, lets an index of 8 or more through; the model stores its low 3 bits (log 32). -/
def headerIndices (i : SliceIn) : Nat → Nat → Engine → Res Engine Unit
  | 0, _, e => .ok () e
  | n + 1, p, e =>
    let (e, v) := headerSym i.im e
    if i.par.qtSetCount.toNat ≤ v.toNat then .raise .qtIndex e
    else headerIndices i n (p + 1)
      { e with sl := { e.sl with qti := e.sl.qti.setIfInBounds p (v.setWidth 3) } }

/-- The four geometry fields (R105, R264). -/
def headerGeometry (im : List Host.Cell) (e : Engine) : Engine :=
  let (e, x) := headerSym im e
  let (e, y) := headerSym im e
  let (e, w) := headerSym im e
  let (e, h) := headerSym im e
  { e with sl := { e.sl with sliceX := x, sliceY := y, widthM1 := w, heightM1 := h } }

/-- The origin and the extent of the slice lie in the slice grid (R264). -/
def geometryOk (par : Par) (sl : Sl) : Bool :=
  decide (sl.sliceX.toNat < par.numHSlices.toNat ∧ sl.sliceY.toNat < par.numVSlices.toNat ∧
    sl.sliceX.toNat + sl.widthM1.toNat + 1 ≤ par.numHSlices.toNat ∧
    sl.sliceY.toNat + sl.heightM1.toNat + 1 ≤ par.numVSlices.toNat)

/-- The three advisory fields, which end the header (R105, R264). -/
def headerAdvisory (im : List Host.Cell) (e : Engine) : Engine :=
  let (e, ps) := headerSym im e
  let (e, num) := headerSym im e
  let (e, den) := headerSym im e
  { e with sl := { e.sl with pictureStructure := ps, sarNum := num, sarDen := den } }

/-- Without a third slot its index is 0 (R264). -/
def thirdIndex (par : Par) (e : Engine) : Engine :=
  if par.qtiCount = 2 then { e with sl := { e.sl with qti := e.sl.qti.set 2 0 } } else e

/-- A coded header (R264). -/
def headerCoded (i : SliceIn) (e : Engine) : Res Engine Unit :=
  let e := headerGeometry i.im e
  if geometryOk i.par e.sl then
    (headerIndices i i.par.qtiCount.toNat 0
      { e with sl := e.sl.withRegion i.par i.width i.height }).bind fun _ e =>
        .ok () (headerAdvisory i.im (thirdIndex i.par e))
  else .raise .sliceGeometry e

/-- The single implicit slice (R264). -/
def headerImplicit (i : SliceIn) (e : Engine) : Engine :=
  { e with sl := { e.sl with
      sliceX := 0, sliceY := 0, widthM1 := 0, heightM1 := 0
      x := 0, y := 0, w := i.width, h := i.height
      qti := Vector.replicate 3 0 } }

/-- `SL.fsm <- f`. -/
def Engine.setFsm (e : Engine) (f : Fsm) : Engine := { e with sl := { e.sl with fsm := f } }

/-- `SL_HEADER` on the engine (R264). -/
def headerOf (i : SliceIn) (e : Engine) : Res Engine Unit :=
  let e := stFill (.hb 0) Config.stateMid e
  (if i.par.configPresent then headerCoded i e else .ok () (headerImplicit i e)).bind fun _ e =>
    .ok () (e.setFsm .headerParsed)

/-- A step that does not write samples, as a step of the task. -/
def liftEngine (r : Res Engine Unit) (st : SliceSt) : SliceRes :=
  match r with
  | .ok _ e => .ok () { st with eng := e }
  | .raise err e => .raise err { st with eng := e }

/-- `SL_HEADER` (R264). -/
def slHeader (i : SliceIn) (st : SliceSt) : SliceRes := liftEngine (headerOf i st.eng) st

/-! ## The CRC -/

/-- Eight shifts of the CRC register, `n` of them left (R72). -/
def crcShifts : Nat → Word → Word
  | 0, c => c
  | n + 1, c => crcShifts n (if c.msb then (c <<< 1) ^^^ Config.crcPoly else c <<< 1)

/-- The bits of a value in the order that the CRC takes them: reversed when it reflects (R11, R72). -/
def crcOrder {n : Nat} (v : BitVec n) : BitVec n := if Config.crcReflect then v.reverse else v

/-- The CRC register after the `n` bytes from `a` on (R72). -/
def crcBytes (im : List Host.Cell) : Nat → Nat → Word → Word
  | 0, _, c => c
  | n + 1, a, c => crcBytes im n (a + 1) (crcShifts 8 (c ^^^ ((crcOrder (inByte im a)).setWidth 32 <<< 24)))

/-- `SL_CRC`: the remainder over the whole slice buffer (R72, R265). -/
def slCrc (im : List Host.Cell) (sl : Sl) : Word :=
  crcOrder (crcBytes im (sl.bufEnd.toNat - sl.bufBeg.toNat) sl.bufBeg.toNat Config.crcInit) ^^^ Config.crcXorOut

/-! ## The content -/

/-- A decision over `TS` with a fresh state: the ending marker and the sentinel (R267, R268). -/
def markerDecision (im : List Host.Cell) (e : Engine) : Engine :=
  (rcBit im .ts (stFill .ts Config.termState e)).1

/-- `SL.underrun <- 1`, then `raise E_UNDERRUN` (R268, R270). -/
def raiseUnderrun {α : Type} (st : SliceSt) : Res SliceSt α :=
  .raise .underrun { st with eng := { st.eng with sl := { st.eng.sl with underrun := true } } }

/-- The window of the content: the tail is trimmed and the range decoder re-armed (R266). A tail longer
than the buffer leaves nothing (log 20). -/
def trimTail (i : SliceIn) (e : Engine) : Engine :=
  let e := { e with sl := { e.sl with
    contEnd := BitVec.ofNat _ (e.sl.bufEnd.toNat - i.par.tailSize.toNat) } }
  rcRearm (e.sl.contEnd.toNat - e.sl.bufBeg.toNat) (chosenTable i.par i.par.customPresent) e

/-- The sentinel is present (R268). -/
def hasSentinel (par : Par) : Bool :=
  par.version == Config.sentinelVersion && decide (Config.sentinelAbove < par.microVersion.toNat)

/-- The Golomb-Rice path is opened; the result is `off` (R268). -/
def openGolombRice (i : SliceIn) (st : SliceSt) : Res SliceSt Nat :=
  let e := if hasSentinel i.par then markerDecision i.im st.eng else st.eng
  if rcUnderrun e.rc then
    raiseUnderrun { st with eng := e }
  else
    let off := rcUsedBytes e.rc
    let len := e.sl.contEnd.toNat - e.sl.bufBeg.toNat - off
    .ok off { st with eng := bsArm (e.sl.bufBeg + BitVec.ofNat _ off) (BitVec.ofNat _ len) e }

/-- The planes (R209, R269). -/
def decodePlanes (i : SliceIn) (st : SliceSt) : SliceSt :=
  if i.par.colorspaceType then rgbDec i st
  else
    let st := planeDec i 0 st
    let st := if i.par.chromaPlanes then planeDec i 2 (planeDec i 1 st) else st
    if i.par.alphaPlane then planeDec i 3 st else st

/-- `SL.used <- n`, and the content is decoded (R266, R272). -/
def contentDone (n : Nat) (st : SliceSt) : SliceRes :=
  .ok () { st with eng := { st.eng with sl := { st.eng.sl with used := n, fsm := .contentDecoded } } }

/-- The range-coded content (R267, R269, R270, R272). -/
def contentRange (i : SliceIn) (st : SliceSt) : SliceRes :=
  let st := decodePlanes i st
  let e := markerDecision i.im st.eng
  let st := { st with eng := e }
  if rcUnderrun e.rc then raiseUnderrun st else contentDone (rcUsedBytes e.rc) st

/-- The Golomb-Rice content (R268, R269, R270, R272). -/
def contentRice (i : SliceIn) (st : SliceSt) : SliceRes :=
  (openGolombRice i st).bind fun off st =>
    let st := decodePlanes i st
    if st.eng.bs.underflow then raiseUnderrun st else contentDone (off + bsUsedBytes st.eng.bs) st

/-- `ec` asks for the CRC and the error status: a configuration record is present and `ec = 1` (R266,
R271). -/
def Par.checksTail (p : Par) : Bool := p.configPresent && p.ec

/-- `SL_CONTENT` (R266). -/
def slContent (i : SliceIn) (st : SliceSt) : SliceRes :=
  if i.par.checksTail && slCrc i.im st.eng.sl != 0 then .raise .sliceCrc st
  else
    let st := { st with eng := trimTail i st.eng }
    if i.par.coderType then contentRange i st else contentRice i st

/-! ## The footer and the task -/

/-- `SL_FOOTER` (R271). -/
def slFooter (i : SliceIn) (st : SliceSt) : SliceRes :=
  let sl := st.eng.sl
  if i.par.checksTail && memRead i.im (sl.contEnd.toNat + 3) 1 != 0 then .raise .sliceErrorStatus st
  else if sl.used + i.par.tailSize.toNat ≠ sl.bufEnd.toNat - sl.bufBeg.toNat then .raise .sliceJunk st
  else .ok () { st with eng := st.eng.setFsm .done }

/-- `SL_RUN` of engine `k` (R262). -/
def slRun (i : SliceIn) (k : Nat) (b n : Word) (cont : Bool) (st : SliceSt) : SliceRes :=
  (slHeader i { st with eng := slOpen i.im k b n cont st.eng }).bind fun _ st =>
    (slContent i st).bind fun _ st => slFooter i st

/-- What an ended task leaves: an error is recorded in the engine (R273). -/
def settle : SliceRes → SliceSt
  | .ok _ st => st
  | .raise err st => { st with eng := st.eng.takeSliceError err }

/-! ## Meanings -/

/-- End a slice operation that the host issued on engine `k` (R273, R330 (c)). -/
def endSlice (k : BitVec 16) (s : State) (r : SliceRes) : Out :=
  match r with
  | .ok _ _ => complete (s.setSliceSt k.toNat (settle r))
  | .raise e _ => failWith e k (s.setSliceSt k.toNat (settle r))

/-- Engine `k` exists and its state machine is in the state that the operation needs (R274). -/
def State.fsmIs (s : State) (k : BitVec 16) (f : Fsm) : Bool :=
  s.hasEngine k.toNat && (s.engine k.toNat).sl.fsm == f

/-- `SL_OPEN` and `SL_RUN` are legal (R93, R274). They create the engine they name. -/
def State.openOk (s : State) (k : BitVec 16) (cont : Bool) : Bool :=
  decide (k.toNat < Config.maxSlices) && s.par.valid &&
    (if cont then k == 0 && !s.par.configPresent
     else decide (s.par.tailSize.toNat ≤ s.arg1.toNat) && bufferOk s.arg0 s.arg1)

/-- `SL_OPEN` (R263). -/
def execSlOpen (k : BitVec 16) (cont : Bool) (s : State) : Out :=
  checked (s.openOk k cont) k s fun s =>
    onEngine k s (slOpen s.inMem k.toNat s.arg0 s.arg1 cont)

/-- `SL_HEADER` (R264). -/
def execSlHeader (k : BitVec 16) (s : State) : Out :=
  checked (s.fsmIs k .created) k s fun s => endSlice k s (slHeader s.sliceIn (s.sliceSt k.toNat))

/-- `SL_CRC` (R265); it changes no state. -/
def execSlCrc (k : BitVec 16) (s : State) : Out :=
  checked (s.hasEngine k.toNat && (s.engine k.toNat).opened) k s fun s =>
    completeWith (slCrc s.inMem (s.engine k.toNat).sl) s

/-- `SL_CONTENT` (R266). -/
def execSlContent (k : BitVec 16) (s : State) : Out :=
  checked (s.fsmIs k .headerParsed) k s fun s => endSlice k s (slContent s.sliceIn (s.sliceSt k.toNat))

/-- `SL_FOOTER` (R271). -/
def execSlFooter (k : BitVec 16) (s : State) : Out :=
  checked (s.fsmIs k .contentDecoded) k s fun s => endSlice k s (slFooter s.sliceIn (s.sliceSt k.toNat))

/-- `SL_RUN` (R262). -/
def execSlRun (k : BitVec 16) (cont : Bool) (s : State) : Out :=
  checked (s.openOk k cont) k s fun s =>
    endSlice k s (slRun s.sliceIn k.toNat s.arg0 s.arg1 cont (s.sliceSt k.toNat))

end Sys2Proof.Machine
end

