-- ==== Sys2Proof/Machine/Frame.lean ====
section
/-! DEFINITION. Sys2Proof/Machine/Frame.lean: the frame controller, the slice tasks and the pool
(45_frame.md), `RESET` (R360), and the meanings of the frame-level commands. -/

namespace Sys2Proof.Machine

/-! ## Reset -/

/-- The block at its reset values; `IN`, the sample store, what the outside world will do, and the size of the
pool are not the block's (R46, R360, R361). Tasks in flight are dropped. -/
def State.resetBlock (s : State) : State :=
  { State.reset with
    inMem := s.inMem
    plane := s.plane
    planeSizes := s.planeSizes
    agenda := s.agenda
    hostData := s.hostData
    freeCtr := s.freeCtr
    workers := s.workers }

/-! ## The output object -/

/-- `min(v, 15)` in four bits (R306). -/
def saturate4 (v : Word) : BitVec 4 := if v ≤ 15 then v.setWidth 4 else 15

/-- `colorModelInfoWord` (R306). -/
def outInfoWord (p : Par) : Word :=
  0#11 ++ p.planeCount ++ saturate4 p.chromaVShift ++ saturate4 p.chromaHShift
    ++ BitVec.ofBool p.alphaPlane ++ BitVec.ofBool p.chromaPlanes ++ BitVec.ofBool p.colorspaceType
    ++ p.bitsPerRawSample

/-- `OUT_CREATE`: the planes exist from now on, and nothing has written a sample of them, no ended task either
(R306; logs 7, 9). -/
def outCreate (s : State) : State :=
  let size := planeSize s.par s.width.toNat s.height.toNat
  { s with
    outInfo := outInfoWord s.par
    plane := []
    written := []
    planeSizes := #v[size 0, size 1, size 2, size 3] }

/-! ## The keyframe bit, the record -/

/-- `FR_KEYBIT`: its result is `FR.keyframe` (R294). -/
def frKeybit (b n : Word) (s : State) : State :=
  let r := keyDecision s.inMem (rcArm s.inMem b n Config.defaultTransition (s.engine 0))
  { s.setEngine 0 r.1 with keyframe := r.2 == Config.keyframeBit }

/-- An operation of the frame controller. -/
abbrev FrameStep := State → Res State Unit

/-- `call PAR_PARSE.0(oob)` (R291, R292). -/
def frParse (oob : Bool) : FrameStep := fun s =>
  match parParse (s.parseIn oob) (s.parseSt 0) with
  | .ok _ st => .ok () (s.setParseSt 0 st)
  | .raise e st => .raise e (s.setParseSt 0 st)

/-- A new stream: engine 0 alone, reset, and armed on the record (R48, R291). -/
def newStream (b n : Word) (s : State) : State :=
  { s with
    keyframeSeen := false
    gopSlices := 0
    engines := [(0, rcArm s.inMem b n Config.defaultTransition Engine.reset)] }

/-- `PROC_OOB` after its command checks (R291). -/
def procOob (b n : Word) : FrameStep := fun s =>
  (frParse true (newStream b n s)).bind fun _ s => .ok () (outCreate s)

/-! ## Locating the slices -/

/-- How many slices a frame may have (R297). -/
def sliceLimit (s : State) : Nat :=
  let grid := min (s.par.numHSlices.toNat * s.par.numVSlices.toNat) Config.maxSlices
  if s.keyframe then grid else min grid s.gopSlices

/-- The walk from `pos` back to `b`, with the slices behind `pos` already in `list` (R296). Every round
lists one slice more, so `limit + 1` rounds are enough. -/
def locateWalk (im : List Host.Cell) (b t limit : Nat) : Nat → Nat → List Loc → Except ErrorName (List Loc)
  | 0, _, _ => .error .sliceCount
  | fuel + 1, pos, list =>
    if pos ≤ b then (if list.isEmpty then .error .frameTail else .ok list)
    else if pos - b < t then .error .frameTail
    else
      let total := memRead im (pos - t) Config.sizeFieldBytes + t
      if pos - b < total then .error .frameTail
      else if limit < list.length + 1 then .error .sliceCount
      else locateWalk im b t limit fuel (pos - total)
        (⟨BitVec.ofNat 32 (pos - total), BitVec.ofNat 32 total⟩ :: list)

/-- `FR_LOCATE`: its result is the length of the list (R296). -/
def frLocate (b n : Word) : FrameStep := fun s =>
  if s.par.configPresent then
    let limit := sliceLimit s
    match locateWalk s.inMem b.toNat s.par.tailSize.toNat limit (limit + 1) (b.toNat + n.toNat) [] with
    | .ok list => .ok () { s with loc := list }
    | .error e => .raise e s
  else .ok () { s with loc := [⟨b, n⟩] }

/-! ## Engines, templates, tasks -/

/-- Create the engines below `n` that do not exist (R298). -/
def createEngines : Nat → State → State
  | 0, s => s
  | n + 1, s =>
    let s := createEngines n s
    if s.hasEngine n then s else s.setEngine n Engine.reset

/-- `GOP_Init` of one engine (R299). -/
def gopInit (par : Par) (e : Engine) : Engine := if par.coderType then rcGopinit par e else grGopinit par e

/-- `GOP_Init` of the engines below `n`, in rising order. -/
def gopInitLoop : Nat → State → State
  | 0, s => s
  | n + 1, s =>
    let s := gopInitLoop n s
    s.setEngine n (gopInit s.par (s.engine n))

/-- `FR_GOPINIT` (R299). -/
def frGopinit (s : State) : State := { gopInitLoop s.loc.length s with gopSlices := s.loc.length }

/-- The tasks of the located slices, from index `k` on (R301). -/
def tasksOf (cont : Bool) : Nat → List Loc → List Task
  | _, [] => []
  | k, l :: ls => ⟨k, l.base, l.len, cont⟩ :: tasksOf cont (k + 1) ls

/-- One task of each located slice is submitted, in index order (R301). With no task in flight a new set
begins, and U6 compares the samples of one set. Behind tasks still in flight the new ones join their set, with
the samples that ended tasks of it have written: the model's choice, U6 speaks of the tasks of one frame (R80;
log 9). -/
def submitTasks (s : State) : State :=
  { s with
    tasks := s.tasks ++ tasksOf (!s.par.configPresent) 0 s.loc
    written := if s.tasks.isEmpty then [] else s.written }

/-! ## Running tasks -/

/-- Put one sample that a task wrote into the store. When an ended task of the set in flight has written it
too, the store keeps either value (R80, U6). The set is the model's: an `FR_DISPATCH` that the host issues
while tasks of an earlier one are in flight adds to it, so that a sample of the later one may keep the value
of the earlier one, although U6 speaks of the tasks of one frame (log 9). -/
def mergeSample (s : State) (c : Nat × Word) : State :=
  let kept := (Store.lookup s.written c.1).isSome && !Config.raceChoice s.freeCtr
  { s with
    plane := if kept then s.plane else Store.insert s.plane c.1 c.2
    written := Store.insert s.written c.1 c.2
    freeCtr := s.freeCtr + 1 }

/-- Run a slice task from its first step to its end (R262, R300; log 10). -/
def runTask (t : Task) (s : State) : State :=
  let st := settle (slRun s.sliceIn t.slice t.base t.len t.cont ⟨s.engine t.slice, []⟩)
  st.plane.foldl mergeSample (s.setEngine t.slice st.eng)

/-- Run the tasks of a list in order (R302). -/
def runTasks (ts : List Task) (s : State) : State := ts.foldl (fun s t => runTask t s) s

/-- The pool runs the task at position `i` of those in flight, if there is one (R300; log 10). -/
def poolRun (i : Nat) (s : State) : State :=
  match s.tasks[i]? with
  | none => s
  | some t => runTask t { s with tasks := s.tasks.eraseIdx i }

/-- Every task in flight ends: the join barrier (R83, R304). -/
def awaitTasks (s : State) : State :=
  { runTasks s.tasks { s with tasks := [] } with written := [] }

/-- `FR_DISPATCH`: it returns when every task is submitted (R301); with one worker it runs them itself, one
after the other in index order, each to its end (R302, D4). -/
def frDispatch (s : State) : State :=
  let s := submitTasks s
  if s.workers ≤ 1 then awaitTasks s else s

/-! ## The join -/

/-- The failed slices of the frame: their indices, rising (R304; log 21). -/
def failedSlices (s : State) : List Nat :=
  (List.range s.loc.length).filter fun k => (s.engine k).sl.err ≠ 0

/-- The failed slice whose error is surfaced (R334; log 11). -/
def surfaced (s : State) (failed : List Nat) : Nat :=
  match Config.firstErrorOrder with
  | .index => failed.headD 0
  | .completion => failed.getD (Config.firstEnded s.freeCtr % failed.length) 0

/-- `FR_JOIN`: its result is the number of failed slices (R304). -/
def frJoin (s : State) : State × Nat :=
  let s := awaitTasks s
  let failed := failedSlices s
  if failed.isEmpty then (s, 0)
  else
    let s0 := surfaced s failed
    ({ s with
        lastError := (s.engine s0).sl.err
        errSlice := BitVec.ofNat 16 s0
        underrun := failed.any fun k => (s.engine k).sl.underrun
        freeCtr := s.freeCtr + 1 }, failed.length)

/-! ## One coded frame -/

/-- Steps 1 and 2 (R292). -/
def frameKey (b n : Word) : FrameStep := fun s =>
  let s := frKeybit b n s
  if !s.par.configPresent && s.keyframe then
    (frParse false s).bind fun _ s => .ok () (outCreate s)
  else .ok () s

/-- Steps 3 to 6 (R292, R295). -/
def frameChecks : FrameStep := fun s =>
  if !s.keyframe && !s.keyframeSeen then .raise .noKeyframe s
  else if !s.par.valid then .raise .noParameters s
  else if s.par.intra && !s.keyframe then .raise .notIntra s
  else .ok () { s with keyframeSeen := s.keyframeSeen || s.keyframe }

/-- Steps 8 to 12 (R292): the result is the number of failed slices. `FR_FINAL` changes nothing (R305). -/
def frameSlices (s : State) : State × Nat :=
  let s := createEngines s.loc.length s
  let s := if s.keyframe then frGopinit s else s
  frJoin (frDispatch s)

/-- Steps 1 to 7 (R292). -/
def frameSetup (b n : Word) : FrameStep := fun s =>
  (frameKey b n s).bind fun _ s => (frameChecks s).bind fun _ s => frLocate b n s

/-! ## Meanings -/

/-- `RESET` (R360): none of `BUSY`, `DONE`, `FAIL` is set after it. -/
def execReset (s : State) : Out := .next s.resetBlock

/-- The checks that `PROC_OOB` and `PROC_FRAME` make before any state change (R291, R292, R333). -/
def dimensionsChecked (s : State) (f : State → Out) : Out :=
  if s.dimensionsOk then checked (bufferOk s.arg0 s.arg1) noSlice s f
  else failWith .noDimensions noSlice s

/-- End a frame-level operation that returns nothing (R330 (b)). -/
def endFrame : Res State Unit → Out
  | .ok _ s => complete s
  | .raise e s => failWith e noSlice s

/-- `PROC_OOB` (R291). -/
def execProcOob (s : State) : Out :=
  dimensionsChecked s fun s => endFrame (procOob s.arg0 s.arg1 s)

/-- `PROC_FRAME` (R292): a failed slice makes the command fail with what `FR_JOIN` recorded. -/
def execProcFrame (s : State) : Out :=
  dimensionsChecked s fun s =>
    match frameSetup s.arg0 s.arg1 s with
    | .raise e s => failWith e noSlice s
    | .ok _ s =>
      let r := frameSlices s
      if r.2 = 0 then complete r.1 else .next r.1.finishFailed

/-- `GET_ERR` (R307). -/
def execGetErr (s : State) : Out := completeWith (s.lastError.setWidth 32) s

/-- `OUT_CREATE` (R306). -/
def execOutCreate (s : State) : Out :=
  checked s.par.valid noSlice s fun s => completeWith (outCreate s).outInfo (outCreate s)

/-- `FR_KEYBIT` (R294). -/
def execFrKeybit (s : State) : Out :=
  checked (bufferOk s.arg0 s.arg1) noSlice s fun s =>
    let s := frKeybit s.arg0 s.arg1 s
    completeWith (bitWord s.keyframe) s

/-- `FR_LOCATE` (R296). -/
def execFrLocate (s : State) : Out :=
  checked (bufferOk s.arg0 s.arg1) noSlice s fun s =>
    match frLocate s.arg0 s.arg1 s with
    | .ok _ s => completeWith (BitVec.ofNat 32 s.loc.length) s
    | .raise e s => failWith e noSlice s

/-- `FR_GOPINIT` (R299). -/
def execFrGopinit (s : State) : Out := complete (frGopinit s)

/-- `FR_DISPATCH` (R301, R302). -/
def execFrDispatch (s : State) : Out := complete (frDispatch s)

/-- `FR_JOIN` (R304). -/
def execFrJoin (s : State) : Out :=
  let r := frJoin s
  completeWith (BitVec.ofNat 32 r.2) r.1

/-- `FR_FINAL`: it changes no architectural state (R305). -/
def execFrFinal (s : State) : Out := complete s

end Sys2Proof.Machine
end

