-- ==== Sys2Proof/Machine/Dispatch.lean ====
section
/-! DEFINITION. Sys2Proof/Machine/Dispatch.lean: one arm per command, each a direct call of its meaning. -/

namespace Sys2Proof.Machine

def exec (i : Instr) (s : State) : Host.Outcome State Fault Refusal :=
  match i with
  | .reset => Sys2Proof.Machine.execReset s
  | .procOob => Sys2Proof.Machine.execProcOob s
  | .procFrame => Sys2Proof.Machine.execProcFrame s
  | .getErr => Sys2Proof.Machine.execGetErr s
  | .outCreate => Sys2Proof.Machine.execOutCreate s
  | .rcArm k custom => Sys2Proof.Machine.execRcArm k custom s
  | .rcRearm k custom => Sys2Proof.Machine.execRcRearm k custom s
  | .rcBit k => Sys2Proof.Machine.execRcBit k s
  | .rcUsym k => Sys2Proof.Machine.execRcUsym k s
  | .rcSsym k => Sys2Proof.Machine.execRcSsym k s
  | .rcUsed k => Sys2Proof.Machine.execRcUsed k s
  | .rcUndr k => Sys2Proof.Machine.execRcUndr k s
  | .rcForce k => Sys2Proof.Machine.execRcForce k s
  | .rcGopinit k => Sys2Proof.Machine.execRcGopinit k s
  | .rcDelta k => Sys2Proof.Machine.execRcDelta k s
  | .stFill k v => Sys2Proof.Machine.execStFill k v s
  | .bsArm k => Sys2Proof.Machine.execBsArm k s
  | .bsBit k => Sys2Proof.Machine.execBsBit k s
  | .bsBits k n => Sys2Proof.Machine.execBsBits k n s
  | .bsUsed k => Sys2Proof.Machine.execBsUsed k s
  | .bsUndr k => Sys2Proof.Machine.execBsUndr k s
  | .grGopinit k => Sys2Proof.Machine.execGrGopinit k s
  | .grPlaneinit k => Sys2Proof.Machine.execGrPlaneinit k s
  | .grLineinit k => Sys2Proof.Machine.execGrLineinit k s
  | .grDelta k => Sys2Proof.Machine.execGrDelta k s
  | .grRice k => Sys2Proof.Machine.execGrRice k s
  | .ctxIdx k q => Sys2Proof.Machine.execCtxIdx k q s
  | .predMed k => Sys2Proof.Machine.execPredMed k s
  | .smpDec k => Sys2Proof.Machine.execSmpDec k s
  | .lineDec k => Sys2Proof.Machine.execLineDec k s
  | .planeDec k => Sys2Proof.Machine.execPlaneDec k s
  | .rgbDec k => Sys2Proof.Machine.execRgbDec k s
  | .pxWrite k c => Sys2Proof.Machine.execPxWrite k c s
  | .parParse k oob => Sys2Proof.Machine.execParParse k oob s
  | .parQtset k q => Sys2Proof.Machine.execParQtset k q s
  | .parQtab k q j => Sys2Proof.Machine.execParQtab k q j s
  | .parInist k q => Sys2Proof.Machine.execParInist k q s
  | .parDerive => Sys2Proof.Machine.execParDerive s
  | .slHeader k => Sys2Proof.Machine.execSlHeader k s
  | .slContent k => Sys2Proof.Machine.execSlContent k s
  | .slFooter k => Sys2Proof.Machine.execSlFooter k s
  | .slRun k cont => Sys2Proof.Machine.execSlRun k cont s
  | .slCrc k => Sys2Proof.Machine.execSlCrc k s
  | .slOpen k cont => Sys2Proof.Machine.execSlOpen k cont s
  | .frKeybit => Sys2Proof.Machine.execFrKeybit s
  | .frLocate => Sys2Proof.Machine.execFrLocate s
  | .frGopinit => Sys2Proof.Machine.execFrGopinit s
  | .frDispatch => Sys2Proof.Machine.execFrDispatch s
  | .frJoin => Sys2Proof.Machine.execFrJoin s
  | .frFinal => Sys2Proof.Machine.execFrFinal s

end Sys2Proof.Machine
end

