-- ==== Sys2Proof/Machine/Port.lean ====
section
/-! DEFINITION. Sys2Proof/Machine/Port.lean: the register block (R91, R96, R97), the `PAR` window (R99), and
what the outside world can do between commands (R60, R300, R360). -/

namespace Sys2Proof.Machine

/-! ## The `PAR` window (R99) -/

/-- `id`, bits 31:24 of `PAR_SEL`. -/
def selId (w : Word) : Nat := (w.extractLsb' 24 8).toNat

/-- `q`, bits 23:21 of `PAR_SEL`. -/
def selQ (w : Word) : BitVec 3 := w.extractLsb' 21 3

/-- `a`, bits 20:5 of `PAR_SEL`. -/
def selA (w : Word) : Nat := (w.extractLsb' 5 16).toNat

/-- `b`, bits 4:0 of `PAR_SEL`. -/
def selB (w : Word) : Nat := (w.extractLsb' 0 5).toNat

/-- `a` names an entry of a set of five tables: `256 * j + n` (R99). -/
def selQtOk (w : Word) : Bool := decide (selA w < 256 * Config.maxContextInputs)

/-- `a` names a context: a context count has at most 15 bits and is at most 16384 (R33; log 14). -/
def selCtxOk (w : Word) : Bool := decide (selA w < 16384)

/-- The field that `PAR_SEL` selects: zero-extended, `QT` entries sign-extended; a selection that names no
field reads 0 (R99). -/
def parRead (p : Par) (sel : Word) : Word :=
  match selId sel with
  | 0 => p.version
  | 1 => p.microVersion
  | 2 => bitWord p.coderType
  | 3 => bitWord p.customPresent
  | 4 => if h : selA sel < 256 then (p.customTransition.get ⟨selA sel, h⟩).setWidth 32 else 0
  | 5 => bitWord p.colorspaceType
  | 6 => p.bitsPerRawSample.setWidth 32
  | 7 => bitWord p.chromaPlanes
  | 8 => p.chromaHShift
  | 9 => p.chromaVShift
  | 10 => bitWord p.alphaPlane
  | 11 => p.numHSlices
  | 12 => p.numVSlices
  | 13 => p.qtSetCount.setWidth 32
  | 14 => if selQtOk sel then (p.qtAt (selQ sel) (selA sel / 256) (selA sel % 256)).signExtend 32 else 0
  | 15 => (p.contextCount.get (selQ sel).toFin).setWidth 32
  | 16 => if selCtxOk sel then (p.initAt (selQ sel) (selA sel) (selB sel)).setWidth 32 else 0
  | 17 => bitWord p.ec
  | 18 => bitWord p.intra
  | 19 => bitWord p.valid
  | 20 => bitWord p.configPresent
  | 21 => p.bitsMax.setWidth 32
  | 22 => p.bitsMask
  | 23 => p.planeCount.setWidth 32
  | 24 => p.qtiCount.setWidth 32
  | 25 => p.tailSize.setWidth 32
  | 26 => bitWord p.isOverflow16
  | _ => 0

/-- A write through the window with direct loading: the low bits of the value go into the field; the
derived fields, ids 21 to 26, are not writable (R99). -/
def parStore (p : Par) (sel v : Word) : Par :=
  match selId sel with
  | 0 => { p with version := v }
  | 1 => { p with microVersion := v }
  | 2 => { p with coderType := v.getLsbD 0 }
  | 3 => { p with customPresent := v.getLsbD 0 }
  | 4 => { p with customTransition := p.customTransition.setIfInBounds (selA sel) (v.setWidth 8) }
  | 5 => { p with colorspaceType := v.getLsbD 0 }
  | 6 => { p with bitsPerRawSample := v.setWidth 7 }
  | 7 => { p with chromaPlanes := v.getLsbD 0 }
  | 8 => { p with chromaHShift := v }
  | 9 => { p with chromaVShift := v }
  | 10 => { p with alphaPlane := v.getLsbD 0 }
  | 11 => { p with numHSlices := v }
  | 12 => { p with numVSlices := v }
  | 13 => { p with qtSetCount := v.setWidth 4 }
  | 14 =>
    if selQtOk sel then
      { p with qt := Store.put qtDefault p.qt (qtKey (selQ sel) (selA sel / 256) (selA sel % 256)) (v.setWidth 16) }
    else p
  | 15 => { p with contextCount := p.contextCount.set (selQ sel).toFin (v.setWidth 15) }
  | 16 =>
    if selCtxOk sel then
      { p with init := Store.put initDefault p.init (initKey (selQ sel) (selA sel) (selB sel)) (v.setWidth 8) }
    else p
  | 17 => { p with ec := v.getLsbD 0 }
  | 18 => { p with intra := v.getLsbD 0 }
  | 19 => { p with valid := v.getLsbD 0 }
  | 20 => { p with configPresent := v.getLsbD 0 }
  | _ => p

/-- A write of `PAR_DATA` while idle: ignored unless the implementation was built with direct parameter
loading (R33, R99; log 14). -/
def State.writeParData (s : State) (v : Word) : State :=
  if Config.directLoading then { s with par := parStore s.par s.parSel v } else s

/-! ## The register block (R96) -/

/-- The effect of a write to `CMD` while idle: the command is pending, the last outcome is cleared (R91). -/
def State.issue (s : State) (w : Word) : State :=
  { s with cmd := w, busy := true, done := false, fail := false, underrun := false }

/-- A host write of a register; every write is ignored while `BUSY = 1` (R91, R96, R365). -/
def hostWrite (offset : BitVec 8) (v : Word) (s : State) : State :=
  if s.busy then s
  else
    match offset.toNat with
    | 0x00 => s.issue v
    | 0x04 => { s with arg0 := v }
    | 0x08 => { s with arg1 := v }
    | 0x1C => { s with width := v }
    | 0x20 => { s with height := v }
    | 0x28 => { s with parSel := v }
    | 0x2C => s.writeParData v
    | _ => s

/-- What a host read of a register returns (R96). -/
def portValue (s : State) (offset : BitVec 8) : Word :=
  match offset.toNat with
  | 0x04 => s.arg0
  | 0x08 => s.arg1
  | 0x0C => s.result
  | 0x10 => s.status
  | 0x14 => s.lastError.setWidth 32
  | 0x18 => s.errSlice.setWidth 32
  | 0x1C => s.width
  | 0x20 => s.height
  | 0x24 => s.outInfo
  | 0x28 => s.parSel
  | 0x2C => parRead s.par s.parSel
  | _ => 0

/-- A host read of a register (R96; log 8). -/
def hostRead (offset : BitVec 8) (s : State) : State := { s with hostData := portValue s offset }

/-! ## The other events -/

/-- The host changes a byte of `IN`: free while idle, a fault while a command is pending (R85, U7; log 12). -/
def hostPoke (a : Word) (v : Byte) (s : State) : Out :=
  if s.busy then .fault .inputChangedWhileBusy
  else .next { s with inMem := Store.put inDefault s.inMem a.toNat v }

/-- What a hardware reset cuts short, run in one order: in `order`, 0 is the pending command, for `run` the
running of it, and `n + 1` the task at position `n` of those then in flight (U12). -/
def abandoned (run : State → Out) (order : List Nat) (s : State) : State :=
  order.foldl (fun s n =>
    match n with
    | 0 =>
      match if s.busy then run s else .next s with
      | .next t => t
      | .fault _ => s
      | .refused _ => s
    | i + 1 => poolRun i s) s

/-- The hardware reset input (R360): the block is reset and tasks are abandoned. How much of the pending
command and of the tasks in flight had been done, and in which order, is open (U12): the order is a free value,
every sample that is written when they run in it has no value afterwards, and the planes have the sizes that
they have then (log 13). -/
def hwReset (run : State → Out) (s : State) : State :=
  let order := if s.busy || !s.tasks.isEmpty then Config.abandonedOrder s.freeCtr else []
  let after := abandoned run order s
  let fresh := abandoned run order { s with plane := [], written := [] }
  { s.resetBlock with
    plane := s.plane.filter fun c =>
      Store.lookup after.plane c.1 == some c.2 && (Store.lookup fresh.plane c.1).isNone
    planeSizes := after.planeSizes
    freeCtr := s.freeCtr + 1 }

end Sys2Proof.Machine
end

