-- ==== Sys2Proof/Machine/Command.lean ====
section
/-! DEFINITION. Sys2Proof/Machine/Command.lean: how a pending command word is run (R91, R93), and what one
event does. -/

namespace Sys2Proof.Machine

/-- `ERR_SLICE` for a word that is no command: the `slice` field when `op` is one of the operations `SL_*`,
else "no slice" (R330 (c); log 24). -/
def refusedSlice (w : Word) : BitVec 16 :=
  if 0x50#8 ≤ opField w ∧ opField w ≤ 0x55#8 then sliceField w else noSlice

/-- Run the pending command to its end (R16, R91). A word that is no command is refused with
`E_BAD_COMMAND` (R93, R111). -/
def runCommand (s : State) : Out :=
  match decode s.cmd with
  | .instr i => exec i s
  | .rejected _ => failWith .badCommand (refusedSlice s.cmd) s

/-- Run the command that is pending, if one is (R91). -/
def runPending (s : State) : Out := if s.busy then runCommand s else .next s

/-- The effect of one event of the outside world, already taken off the agenda (log 1). -/
def handle (ev : HostEvent) (s : State) : Out :=
  match ev with
  | .write offset v => .next (hostWrite offset v s)
  | .read offset => .next (hostRead offset s)
  | .poke a v => hostPoke a v s
  | .wait => runPending s
  | .poolRun i => .next (poolRun i s)
  | .hwReset => .next (hwReset runCommand s)

/-- The effect of a step: the next event happens; with no event left, the pending command runs (log 1). -/
def advance (s : State) : Out :=
  match s.agenda with
  | [] => runPending s
  | ev :: rest => handle ev { s with agenda := rest }

end Sys2Proof.Machine
end

