-- ==== Sys2Proof/Machine/Step.lean ====
section
/-! DEFINITION. Sys2Proof/Machine/Step.lean: one step of the machine, and a state in which a given command
is the next to run. -/

namespace Sys2Proof.Machine

/-- One step: one event of the host or of the pool, or one whole command (R16; log 1). -/
def step (s : State) : Host.Outcome State Fault Refusal := advance s

/-- `s` with a command written to `CMD` and the host waiting for it, so that the next step runs exactly that
command (R91; log 2). Bits of `w` from `nbits` on are 0. -/
def State.withFetchWord (s : State) (nbits w : Nat) : State :=
  { s.issue (BitVec.ofNat 32 (w % 2 ^ nbits)) with agenda := .wait :: s.agenda }

end Sys2Proof.Machine
end

