-- ==== Sys2Proof/Safety.lean ====
section
/-! DEFINITION. Sys2Proof/Safety.lean: the terms that claims use: how a command ends, what it leaves alone,
the invariants of the machine, and the rows of the opcode table. -/

namespace Sys2Proof.Machine

/-! ## How a command ends (R91) -/

/-- The command ended without error: `BUSY` and `FAIL` are 0, `DONE` is 1, `RESULT` is `r`. -/
def State.endedWith (t : State) (r : Word) : Prop :=
  t.busy = false ∧ t.done = true ∧ t.fail = false ∧ t.result = r

/-- The command ended with error `e` (R330): `STATUS.FAIL`, `LAST_ERROR`, `ERR_SLICE`, `STATUS.UNDERRUN`. -/
def State.failedWith (t : State) (e : ErrorName) (errSlice : BitVec 16) : Prop :=
  t.busy = false ∧ t.done = false ∧ t.fail = true ∧
    t.lastError = e.code ∧ t.errSlice = errSlice ∧ t.underrun = e.isUnderrun

/-! ## What a command leaves alone -/

/-- Every byte of `IN` reads as before. -/
def sameInput (s t : State) : Prop := ∀ a, inByte t.inMem a = inByte s.inMem a

/-- Every sample reads as before. -/
def sameSamples (s t : State) : Prop := ∀ p x y, t.sample p x y = s.sample p x y

/-- Every engine but `k` is as before, existence included. -/
def sameOtherEngines (k : Nat) (s t : State) : Prop :=
  ∀ j, j ≠ k → t.hasEngine j = s.hasEngine j ∧ t.engine j = s.engine j

/-- Nothing but engine `k`, `RESULT` and the bits `BUSY`, `DONE`, `FAIL` differs. -/
def onlyEngine (k : Nat) (s t : State) : Prop :=
  sameInput s t ∧ sameSamples s t ∧ sameOtherEngines k s t ∧ t.hasEngine k = true ∧
    t = { s with engines := t.engines, result := t.result, busy := t.busy, done := t.done, fail := t.fail }

/-- A unit operation on engine `k` ended with `r`, and changed nothing but the engine. -/
def unitDone (k : Nat) (s t : State) (r : Word) : Prop := t.endedWith r ∧ onlyEngine k s t

/-- A command that changes no state ended with `r`: only `RESULT` and the status bits differ. -/
def readDone (s t : State) (r : Word) : Prop :=
  t = { s with result := r, busy := false, done := true, fail := false }

/-- Nothing but engine `k`, the samples that `mayWrite` names, `RESULT` and the bits `BUSY`, `DONE`, `FAIL`
differs. -/
def onlyEngineAndSamples (k : Nat) (mayWrite : Fin 4 → Nat → Nat → Prop) (s t : State) : Prop :=
  sameInput s t ∧ (∀ p x y, ¬ mayWrite p x y → t.sample p x y = s.sample p x y) ∧
    sameOtherEngines k s t ∧ t.hasEngine k = true ∧
    t = { s with engines := t.engines, plane := t.plane, result := t.result,
                 busy := t.busy, done := t.done, fail := t.fail }

/-- Nothing but engine `k`, the record, `RESULT` and the bits `BUSY`, `DONE`, `FAIL` differs. -/
def onlyEngineAndPar (k : Nat) (s t : State) : Prop :=
  sameInput s t ∧ sameSamples s t ∧ sameOtherEngines k s t ∧ t.hasEngine k = true ∧
    t = { s with engines := t.engines, par := t.par, result := t.result,
                 busy := t.busy, done := t.done, fail := t.fail }

/-- Of an engine, nothing but the range decoder's `Current`, `Mask`, `BufCur` and the state bytes that
`mayWrite` names differs: the frame of every decision over these bytes (R21, R134). -/
def onlyDecisions (mayWrite : StateRef → Prop) (e f : Engine) : Prop :=
  (∀ r, ¬ mayWrite r → f.state r = e.state r) ∧
    f = { e with sm := f.sm, rc := { e.rc with current := f.rc.current, mask := f.rc.mask, bufCur := f.rc.bufCur } }

/-- The references of one bank. -/
def inBank (bank r : StateRef) : Prop := ∃ i, r = bank.byte i

/-- Sample `(p, x, y)` lies in the slice's part of coded plane `c` (R207). -/
def inRegion (par : Par) (sl : Sl) (c : Fin 4) (p : Fin 4) (x y : Nat) : Prop :=
  let r := region par sl c
  p = c ∧ r.ox ≤ x ∧ x < r.ox + r.w ∧ r.oy ≤ y ∧ y < r.oy + r.h

/-- Of an engine, nothing but the cursor and the flag of the bitstream reader differs (R23, R161, R162). -/
def onlyReads (e f : Engine) : Prop :=
  f = { e with bs := { e.bs with pos := f.bs.pos, underflow := f.bs.underflow } }

/-- Of an engine, nothing but the bitstream reader's cursor and flag and the tuples differs (R165). -/
def onlyReadsAndTuples (e f : Engine) : Prop :=
  f = { e with bs := { e.bs with pos := f.bs.pos, underflow := f.bs.underflow }, gs := f.gs }

/-- The range decoder is exhausted: its cursor is past the end and `Mask < 0x100` (R136, R141). -/
def exhausted (rc : Rc) : Prop := rc.mask < 0x100#32 ∧ rc.bufEnd < rc.bufCur

/-! ## What the coders read -/

/-- The decisions over a list of state bytes, in order: the engine after them, and the answers (R138). -/
def decisions (im : List Host.Cell) : List StateRef → Engine → Engine × List Bool
  | [], e => (e, [])
  | r :: rs, e =>
    let a := rcBit im r e
    let rest := decisions im rs a.1
    (rest.1, a.2 :: rest.2)

/-- The next `n` bits of the bitstream reader: the engine after them, and the bits (R161). -/
def nextBits (im : List Host.Cell) : Nat → Engine → Engine × List Bool
  | 0, e => (e, [])
  | n + 1, e =>
    let a := bsBit im e
    let rest := nextBits im n a.1
    (rest.1, a.2 :: rest.2)

/-- The number with the given bits, the first most significant (R101). -/
def msbFirst (bits : List Bool) : Nat := bits.foldl (fun a b => 2 * a + b.toNat) 0

/-- The code of value `v` for tuple `t`: the zig-zag undone, then complemented when `2B + N < 0` (R165). -/
def codeOf (t : GrTuple) (v : Nat) : Int :=
  let code : Int := if v % 2 = 0 then (v / 2 : Nat) else -((v + 1) / 2 : Nat)
  if 2 * t.b.toInt + t.n.toNat < 0 then -code - 1 else code

/-- `new` is the tuple `t` updated with `code` (R166). -/
def tupleAfter (t : GrTuple) (code : Int) (new : GrTuple) : Prop :=
  let halve := t.n.toNat = 128
  let b0 := (t.b.toInt + code).bmod (2 ^ 32)
  let a0 := (t.a.toNat + code.natAbs) % 2 ^ 32
  let n : Int := (if halve then 64 else t.n.toNat) + 1
  let b := if halve then b0 / 2 else b0
  (new.n.toNat : Int) = n ∧ new.a.toNat = (if halve then a0 / 2 else a0) ∧
    new.c.toInt = (if b ≤ -n then max (t.c.toInt - 1) (-128)
      else if 0 < b then min (t.c.toInt + 1) 127 else t.c.toInt) ∧
    new.b.toInt = (if b ≤ -n then (if b + n ≤ -n then -n + 1 else b + n)
      else if 0 < b then (if 0 < b - n then 0 else b - n) else b)

/-- The engine after the first `n` signed symbols of the coded initial states, symbol `j` read over
`IB[j mod 32]` (R236). -/
def stateReader (im : List Host.Cell) (e : Engine) : Nat → Engine
  | 0 => e
  | n + 1 => (rcSsym im (.ib (BitVec.ofNat 5 (n % 32)) 0) (stateReader im e n)).1

/-- The next `n` unsigned symbols over a bank, in order: the engine after them, and their values (R138). -/
def symbolsRead (im : List Host.Cell) (bank : StateRef) : Nat → Engine → Engine × List Nat
  | 0, e => (e, [])
  | n + 1, e =>
    let a := rcUsym im bank e
    let rest := symbolsRead im bank n a.1
    (rest.1, a.2.toNat :: rest.2)

/-- The first `n` tables of set `q`: the product of their factors, which is the running scale, and what the
parser has written; none when one of them raises (R230). -/
def scaleAfter (im : List Host.Cell) (q : BitVec 3) (st : ParseSt) : Nat → Option (Nat × ParseSt)
  | 0 => some (1, st)
  | n + 1 =>
    (scaleAfter im q st n).bind fun a =>
      match parQtab im q n a.1 a.2 with
      | .ok factor st' => some (a.1 * factor, st')
      | .raise _ _ => none

/-! ## The record, row by row (R222) -/

/-- A row of the table of R222 that one symbol or one decision over `HB` fills: when it is present, how it is
read, its checks in order, where its value is stored, and what is stored when it is absent. -/
structure FieldRow where
  present : Par → Bool := fun _ => true
  symbol : Bool := true
  checks : Nat → List (Bool × ErrorName) := fun _ => []
  store : Nat → Par → Par
  absent : Par → Par := id

/-- Read one row: the first check that holds raises its error. -/
def readRow (im : List Host.Cell) (row : FieldRow) : ParseStep := fun st =>
  if row.present st.par then
    let r : Engine × Nat :=
      if row.symbol then ((rcUsym im (.hb 0) st.eng).1, (rcUsym im (.hb 0) st.eng).2.toNat)
      else ((rcBit im (.hb 0) st.eng).1, (rcBit im (.hb 0) st.eng).2.toNat)
    match (row.checks r.2).find? fun c => c.1 with
    | some c => .raise c.2 { st with eng := r.1 }
    | none => .ok () { par := row.store r.2 st.par, eng := r.1 }
  else .ok () { st with par := row.absent st.par }

/-- Row 4, entry `i`: the default entry plus a signed symbol, from 0 to 255. -/
def readTransition (im : List Host.Cell) (i : Nat) : ParseStep := fun st =>
  let r := rcSsym im (.hb 0) st.eng
  let t : Int := (Config.defaultTransition.toList.getD i 0).toNat + r.2.toInt
  if t < 0 ∨ 255 < t then .raise .stateTransition { st with eng := r.1 }
  else .ok () { eng := r.1, par := { st.par with
    customTransition := (st.par.customTransition.setIfInBounds i (BitVec.ofInt 8 t)).set 0 0 } }

/-- The rows of R222 in order, and behind them what R221 does after the fields. -/
def recordRows (i : ParseIn) : List ParseStep :=
  let row := readRow i.im
  [ row { checks := fun v => [(i.oob && decide (v ≤ 1), .versionLocation),
            (!i.oob && decide (2 ≤ v), .versionLocation), (decide (v = 2), .versionUnsupported),
            (decide (3 < v), .versionUnsupported)]
          store := fun v p => { p with version := BitVec.ofNat 32 v } },
    row { present := fun p => decide (2 < p.version.toNat)
          store := fun v p => { p with microVersion := BitVec.ofNat 32 v }
          absent := fun p => { p with microVersion := 0 } },
    row { checks := fun v => [(decide (2 < v), .coderType)]
          store := fun v p => { p with coderType := decide (v ≠ 0), customPresent := decide (v = 2) } },
    fun st =>
      if st.par.customPresent then runSteps ((List.range 255).map fun n => readTransition i.im (n + 1)) st
      else .ok () st,
    row { checks := fun v => [(decide (1 < v), .colorspace)]
          store := fun v p => { p with colorspaceType := decide (v = 1) } },
    row { present := fun p => decide (0 < p.version.toNat)
          checks := fun v => [(decide (64 < v), .bitdepth)]
          store := fun v p => { p with bitsPerRawSample := if v = 0 then 8 else BitVec.ofNat 7 v }
          absent := fun p => { p with bitsPerRawSample := 8 } },
    row { symbol := false, store := fun v p => { p with chromaPlanes := decide (v = 1) } },
    row { store := fun v p => { p with chromaHShift := BitVec.ofNat 32 v } },
    row { store := fun v p => { p with chromaVShift := BitVec.ofNat 32 v } },
    row { symbol := false, store := fun v p => { p with alphaPlane := decide (v = 1) } },
    row { present := fun p => decide (1 < p.version.toNat)
          checks := fun v => [(decide (i.width < v + 1), .sliceGrid)]
          store := fun v p => { p with numHSlices := BitVec.ofNat 32 (v + 1) }
          absent := fun p => { p with numHSlices := 1 } },
    row { present := fun p => decide (1 < p.version.toNat)
          checks := fun v => [(decide (i.height < v + 1), .sliceGrid)]
          store := fun v p => { p with numVSlices := BitVec.ofNat 32 (v + 1) }
          absent := fun p => { p with numVSlices := 1 } },
    row { present := fun p => decide (1 < p.version.toNat)
          checks := fun v => [(decide (8 < v), .qtCount)]
          store := fun v p => { p with qtSetCount := BitVec.ofNat 4 v }
          absent := fun p => { p with qtSetCount := 1 } },
    fun st => runSteps (st.par.sets.map fun q st => (parQtset i.im q st).bind fun _ st => .ok () st) st,
    fun st => .ok () (st.par.sets.foldl (fun st q =>
      if 1 < st.par.version.toNat then (parInist i.im q st).1
      else { st with par := st.par.setInit q (List.replicate (32 * st.par.ctxCount q) 128) }) st),
    row { present := fun p => decide (3 ≤ p.version.toNat)
          checks := fun v => [(decide (1 < v), .ec)]
          store := fun v p => { p with ec := decide (v = 1) }
          absent := fun p => { p with ec := false } },
    row { present := fun p => decide (3 ≤ p.version.toNat)
          checks := fun v => [(decide (1 < v), .intra)]
          store := fun v p => { p with intra := decide (v = 1) }
          absent := fun p => { p with intra := false } },
    fun st =>
      if 16 < st.par.bitsPerRawSample.toNat then .raise .bitdepthUnsupported st
      else .ok () { st with par := st.par.derived },
    fun st =>
      if rcUnderrun st.eng.rc then .raise .underrunParams st
      else .ok () { st with par := { st.par with valid := true } } ]

/-- The parse of R221: the banks `HB` and `IB[0..31]` are filled with 128, the record is not valid until its
last check has passed, and the rows are read up to the first error. -/
def recordParse (i : ParseIn) (st : ParseSt) : Res ParseSt Unit :=
  runSteps (recordRows i)
    { par := { st.par with valid := false, configPresent := i.oob }
      eng := (List.range 32).foldl (fun e k => stFill (.ib (BitVec.ofNat 5 k) 0) 128 e)
        (stFill (.hb 0) 128 st.eng) }

/-! ## What the sample path writes -/

/-- One sample of coded plane `c` at column `x`: the engine after it, and the sample. Context and predictor
come from the line buffers, a negative context mirrors the delta, and the masked sum becomes `cur[x]` (R203). -/
def sampleStep (i : SliceIn) (c : Fin 4) (x : Nat) (e : Engine) : Engine × Word :=
  let q := e.sl.qtiAt (slot c)
  let ctx := ctxIdx i.par (e.line c) x q
  let r := delta i (slot c) q ctx.natAbs e
  let d := if ctx < 0 then 0 - r.2 else r.2
  let v := (BitVec.ofInt 32 (predMed i.par (e.line c) x) + d) &&& i.par.bitsMask
  ({ r.1.setLine c ((e.line c).setCur x v) with posX := x + 1 }, v)

/-- The engine after the first `n` samples of a line that starts in `e` (R206). -/
def rowEngine (i : SliceIn) (c : Fin 4) (e : Engine) : Nat → Engine
  | 0 => e
  | n + 1 => (sampleStep i c n (rowEngine i c e n)).1

/-- The engine after line `y` of coded plane `c` (R206). -/
def lineEngine (i : SliceIn) (c : Fin 4) (y : Nat) (e : Engine) : Engine :=
  rowEngine i c (startLine i c y e) (region i.par e.sl c).w

/-- Sample `x` of line `y` of coded plane `c`, when `e` is the engine before the line (R206). -/
def lineSample (i : SliceIn) (c : Fin 4) (y x : Nat) (e : Engine) : Word :=
  (sampleStep i c x (rowEngine i c (startLine i c y e) x)).2

/-- The engine after the first `n` lines of coded plane `c` (R208). -/
def planeRows (i : SliceIn) (c : Fin 4) (e : Engine) : Nat → Engine
  | 0 => e
  | n + 1 => lineEngine i c n (planeRows i c e n)

/-- The engine after coded plane `c` (R208). -/
def planeEngine (i : SliceIn) (c : Fin 4) (e : Engine) : Engine :=
  planeRows i c (startPlanes i (· == c) e) (region i.par e.sl c).h

/-- The engine after line `y` of the first `n` coded planes, one behind the other (R212). -/
def rgbRow (i : SliceIn) (y : Nat) (e : Engine) : Nat → Engine
  | 0 => e
  | n + 1 => lineEngine i (Fin.ofNat 4 n) y (rgbRow i y e n)

/-- The engine after the first `n` lines of all planes, interleaved line by line (R212). -/
def rgbRows (i : SliceIn) (e : Engine) : Nat → Engine
  | 0 => e
  | n + 1 => rgbRow i n (rgbRows i e n) (min i.par.planeCount.toNat 4)

/-- The engine in which the content of the RGB model starts (R212). -/
def rgbStart (i : SliceIn) (e : Engine) : Engine :=
  startPlanes i (fun c => decide (c.val < i.par.planeCount.toNat)) e

/-- The planes of a YCbCr slice in their order (R209, R269). -/
def ycbcrPlanes (par : Par) : List (Fin 4) :=
  [0] ++ (if par.chromaPlanes then [1, 2] else []) ++ (if par.alphaPlane then [3] else [])

/-- The engine after the planes of a slice (R269). -/
def contentEngine (i : SliceIn) (e : Engine) : Engine :=
  if i.par.colorspaceType then rgbRows i (rgbStart i e) e.sl.h
  else (ycbcrPlanes i.par).foldl (fun f c => planeEngine i c f) e

/-- Sample `x` of line `y` of coded plane `c`, when `e` is the engine before the planes of the slice (R269). -/
def contentSample (i : SliceIn) (c : Fin 4) (y x : Nat) (e : Engine) : Word :=
  if i.par.colorspaceType then lineSample i c y x (rgbRow i y (rgbRows i (rgbStart i e) y) c.val)
  else
    let before := ((ycbcrPlanes i.par).takeWhile (· != c)).foldl (fun f d => planeEngine i d f) e
    lineSample i c y x (planeRows i c (startPlanes i (· == c) before) y)

/-- A slice decodes coded plane `c`: in the YCbCr model the planes that are present (R209), in the RGB model
the first `plane_count` planes (R212), which are those present once `PAR_DERIVE` has run (R205, R240). -/
def decodesPlane (par : Par) (c : Fin 4) : Prop :=
  if par.colorspaceType then c.val < par.planeCount.toNat else par.present c = true

/-- Every sample that a slice with the registers `sl` decodes has a value, within `bits_mask` (R76, R269). -/
def regionFilled (par : Par) (sl : Sl) (t : State) : Prop :=
  ∀ p x y, decodesPlane par p → inRegion par sl p p x y →
    ∃ v, t.sample p x y = some v ∧ v &&& par.bitsMask = v

/-! ## The CRC as a division of polynomials (R72) -/

/-- The bits of the `n` bytes from `a` on, in address order, bit 7 of each byte first. -/
def bufferBits (im : List Host.Cell) (a n : Nat) : List Bool :=
  (List.range n).flatMap fun i => (List.range 8).map fun j => (inByte im (a + i)).getLsbD (7 - j)

/-- The remainder of a polynomial over GF(2), the coefficient of the highest power first, on division by
`x^32 + 0x04C11DB7`: each bit enters a 32-bit register at the low end. -/
def polyRemainder (bits : List Bool) : Word :=
  bits.foldl (fun c b =>
    let c' := c <<< 1 ||| (if b then 1 else 0)
    if c.msb then c' ^^^ 0x04C11DB7 else c') 0

/-! ## Groups of commands -/

/-- The `slice` field of a command that needs an existing engine (R93 check 2): every command that uses the
field but `SL_OPEN` and `SL_RUN`, which create the engine they name. -/
def engineOf : Instr → Option (BitVec 16)
  | .rcArm k _ | .rcRearm k _ | .rcBit k | .rcUsym k | .rcSsym k | .rcUsed k | .rcUndr k | .rcForce k
  | .rcGopinit k | .rcDelta k | .stFill k _ | .bsArm k | .bsBit k | .bsBits k _ | .bsUsed k | .bsUndr k
  | .grGopinit k | .grPlaneinit k | .grLineinit k | .grDelta k | .grRice k | .ctxIdx k _ | .predMed k
  | .smpDec k | .lineDec k | .planeDec k | .rgbDec k | .pxWrite k _ | .parParse k _ | .parQtset k _
  | .parQtab k _ _ | .parInist k _ | .slHeader k | .slContent k | .slFooter k | .slCrc k => some k
  | .reset | .procOob | .procFrame | .getErr | .outCreate | .parDerive | .slRun _ _ | .slOpen _ _
  | .frKeybit | .frLocate | .frGopinit | .frDispatch | .frJoin | .frFinal => none

/-- `ERR_SLICE` when a command is refused: the `slice` field for the operations `SL_*` (R330 (c)). -/
def refusalSlice : Instr → BitVec 16
  | .slHeader k | .slContent k | .slFooter k | .slCrc k | .slRun k _ | .slOpen k _ => k
  | .rcArm _ _ | .rcRearm _ _ | .rcBit _ | .rcUsym _ | .rcSsym _ | .rcUsed _ | .rcUndr _ | .rcForce _
  | .rcGopinit _ | .rcDelta _ | .stFill _ _ | .bsArm _ | .bsBit _ | .bsBits _ _ | .bsUsed _ | .bsUndr _
  | .grGopinit _ | .grPlaneinit _ | .grLineinit _ | .grDelta _ | .grRice _ | .ctxIdx _ _ | .predMed _
  | .smpDec _ | .lineDec _ | .planeDec _ | .rgbDec _ | .pxWrite _ _ | .parParse _ _ | .parQtset _ _
  | .parQtab _ _ _ | .parInist _ _ | .reset | .procOob | .procFrame | .getErr | .outCreate | .parDerive
  | .frKeybit | .frLocate | .frGopinit | .frDispatch | .frJoin | .frFinal => noSlice

/-- The commands that may change the sample store: those that perform `PX_WRITE` or `OUT_CREATE` (R76,
R306), `FR_DISPATCH` among them, which runs the tasks when there is one worker (R302). -/
def mayWriteSamples : Instr → Bool
  | .smpDec _ | .lineDec _ | .planeDec _ | .rgbDec _ | .pxWrite _ _ | .slContent _ | .slRun _ _
  | .procOob | .procFrame | .outCreate | .frDispatch | .frJoin => true
  | .rcArm _ _ | .rcRearm _ _ | .rcBit _ | .rcUsym _ | .rcSsym _ | .rcUsed _ | .rcUndr _ | .rcForce _
  | .rcGopinit _ | .rcDelta _ | .stFill _ _ | .bsArm _ | .bsBit _ | .bsBits _ _ | .bsUsed _ | .bsUndr _
  | .grGopinit _ | .grPlaneinit _ | .grLineinit _ | .grDelta _ | .grRice _ | .ctxIdx _ _ | .predMed _
  | .parParse _ _ | .parQtset _ _ | .parQtab _ _ _ | .parInist _ _ | .reset | .getErr | .parDerive
  | .slHeader _ | .slFooter _ | .slCrc _ | .slOpen _ _
  | .frKeybit | .frLocate | .frGopinit | .frFinal => false

/-! ## Operands that are refused (R93 checks 3 and 4, R274) -/

/-- The buffer in `ARG0`, `ARG1` breaks R63. -/
def badBuffer (s : State) : Prop := 2 ^ 32 - 2 < s.arg0.toNat + s.arg1.toNat

/-- Every state reference that `ARG0` encodes is not legal, or is none that the operation takes (R98). -/
def badReference (s : State) (k : BitVec 16) (takes : StateRef → Bool) : Prop :=
  ∀ r : StateRef, s.arg0 = r.word → r.legal s.par (s.engine k.toNat) = true → takes r = false

/-- The pair in `ARG0` names no slot or no table set in use. -/
def badPair (s : State) : Prop :=
  2 < (s.arg0.extractLsb' 0 2).toNat ∨ s.par.qtSetCount.toNat ≤ (s.arg0.extractLsb' 2 3).toNat

/-- The context in `ARG1` is at or above the count of table set `q`. -/
def badContext (s : State) (q : BitVec 3) : Prop := s.par.ctxCount q ≤ s.arg1.toNat

/-- `ARG0` is no coded plane, or `ARG1` no column of it. -/
def badColumn (s : State) (k : BitVec 16) : Prop :=
  ∀ c : Fin 4, s.arg0.toNat = c.val → (region s.par (s.engine k.toNat).sl c).w ≤ s.arg1.toNat

/-- The preconditions that R274 gives `SL_OPEN` and `SL_RUN` do not hold, or `slice` is no slice index. -/
def badOpen (s : State) (k : BitVec 16) (cont : Bool) : Prop :=
  k = 0xFFFF ∨ s.par.valid = false ∨ (cont = true ∧ (k ≠ 0 ∨ s.par.configPresent = true)) ∨
    (cont = false ∧ (s.arg1.toNat < s.par.tailSize.toNat ∨ badBuffer s))

/-- The operands of a command are outside the ranges that its rule states, or its slice is not in the state
that its precondition names. -/
def badOperands (s : State) : Instr → Prop
  | .rcArm _ custom => badBuffer s ∨ (custom = true ∧ s.par.customPresent = false)
  | .rcRearm k custom =>
    (s.engine k.toNat).rc.bufEnd.toNat - (s.engine k.toNat).rc.bufBeg.toNat < s.arg1.toNat ∨
      (custom = true ∧ s.par.customPresent = false)
  | .rcBit k => badReference s k fun _ => true
  | .rcUsym k | .rcSsym k => badReference s k fun r => r.isBank && !r.isSingle
  | .stFill k _ => badReference s k fun r => r.isBank
  | .rcDelta _ | .grRice _ => badPair s ∨ badContext s (s.arg0.extractLsb' 2 3)
  | .grDelta k => badContext s (s.engine k.toNat).gr.selQ
  | .grLineinit _ => badPair s ∨ s.arg1 = 0 ∨ 2 ^ 24 - 1 < s.arg1.toNat
  | .bsArm _ | .frKeybit | .frLocate => badBuffer s
  | .bsBits _ n => 32 < n.toNat
  | .ctxIdx k q => s.par.qtSetCount.toNat ≤ q.toNat ∨ badColumn s k
  | .predMed k | .smpDec k => badColumn s k
  | .lineDec k =>
    ∀ c : Fin 4, s.arg0.toNat = c.val → (region s.par (s.engine k.toNat).sl c).h ≤ s.arg1.toNat
  | .planeDec _ => ∀ c : Fin 4, s.arg0.toNat = c.val → s.par.present c = false
  | .pxWrite k c =>
    (region s.par (s.engine k.toNat).sl c.toFin).w ≤ s.arg0.toNat ∨ s.par.bitsMask.toNat < s.arg1.toNat
  | .parQtab _ _ j => 4 < j.toNat ∨ s.arg0 = 0 ∨ 32768 < s.arg0.toNat
  | .outCreate => s.par.valid = false
  | .slHeader k => (s.engine k.toNat).sl.fsm ≠ .created
  | .slContent k => (s.engine k.toNat).sl.fsm ≠ .headerParsed
  | .slFooter k => (s.engine k.toNat).sl.fsm ≠ .contentDecoded
  | .slCrc k => (s.engine k.toNat).opened = false
  | .slOpen k cont | .slRun k cont => badOpen s k cont
  | .rcUsed _ | .rcUndr _ | .rcForce _ | .rcGopinit _ | .bsBit _ | .bsUsed _ | .bsUndr _ | .grGopinit _
  | .grPlaneinit _ | .rgbDec _ | .parParse _ _ | .parQtset _ _ | .parInist _ _ | .parDerive | .reset
  | .procOob | .procFrame | .getErr | .frGopinit | .frDispatch | .frJoin | .frFinal => False

/-! ## Invariants -/

/-- At most one of `BUSY`, `DONE`, `FAIL` is set, and engine 0 exists (R31, R48). -/
def portInv (s : State) : Prop :=
  (s.busy && s.done) = false ∧ (s.busy && s.fail) = false ∧ (s.done && s.fail) = false ∧
    s.hasEngine 0 = true

/-- The memories of an engine have their canonical form. -/
def Engine.canonical (e : Engine) : Prop :=
  Store.wf smDefault e.sm = true ∧ Store.wf gsDefault e.gs = true ∧
    ∀ c, Store.wf lineDefault (e.line c).buf0 = true ∧ Store.wf lineDefault (e.line c).buf1 = true

/-- Every memory has its canonical form. -/
def memoryInv (s : State) : Prop :=
  Memory.wf s.inMem = true ∧ Store.sorted s.plane = true ∧ Store.sorted s.engines = true ∧
    Store.wf qtDefault s.par.qt = true ∧ Store.wf initDefault s.par.init = true ∧
    ∀ c ∈ s.engines, c.2.canonical

/-- In every Golomb-Rice tuple of every engine `N` is in 1..128 (R42). -/
def tupleInv (s : State) : Prop :=
  ∀ c ∈ s.engines, ∀ d ∈ c.2.gs, 1 ≤ d.2.n.toNat ∧ d.2.n.toNat ≤ 128

/-- What R246 says of a record that parsed. -/
def Par.ok (p : Par) : Prop :=
  p.qtSetCount.toNat ≤ 8 ∧ 1 ≤ p.numHSlices.toNat ∧ 1 ≤ p.numVSlices.toNat ∧
    (p.version = 0 ∨ p.version = 1 ∨ p.version = 3) ∧
    1 ≤ p.bitsPerRawSample.toNat ∧ p.bitsPerRawSample.toNat ≤ 16 ∧
    ∀ q : BitVec 3, q.toNat < p.qtSetCount.toNat → 1 ≤ p.ctxCount q ∧ p.ctxCount q ≤ 16384

/-- A record that is valid obeys R246. -/
def paramInv (s : State) : Prop := s.par.valid = true → s.par.ok

/-! ## Located slices -/

/-- The slices `ls` lie one behind the other from `b` on and end at `e` (R70, R296). -/
def tiles : Nat → Nat → List Loc → Prop
  | b, e, [] => b = e
  | b, e, l :: ls => l.base.toNat = b ∧ tiles (b + l.len.toNat) e ls

/-- The samples that slice task `t` writes when it runs in state `s` (R262). -/
def taskSamples (t : Task) (s : State) : List (Nat × Word) :=
  (settle (slRun s.sliceIn t.slice t.base t.len t.cont ⟨s.engine t.slice, []⟩)).plane

/-! ## The opcode table (R92) -/

/-- One row of the opcode table: a word `w` is the row's when `w AND mask = match`. -/
structure OpRow where
  mask : Word
  bits : Word
  deriving DecidableEq, Repr

/-- A row that does not use `slice` and `imm`. -/
def rowPlain (op : BitVec 8) : OpRow := ⟨0xFFFFFFFF, cmdWord op 0 0⟩

/-- A row that uses `slice`, and of `imm` the bits `used`. -/
def rowSlice (op used : BitVec 8) : OpRow := ⟨cmdWord 0xFF 0 (~~~used), cmdWord op 0 0⟩

/-- The 50 rows, in the table's order. -/
def opRows : List OpRow :=
  [rowPlain 0x01, rowPlain 0x02, rowPlain 0x03, rowPlain 0x04, rowPlain 0x05,
   rowSlice 0x10 0x01, rowSlice 0x11 0x01, rowSlice 0x12 0, rowSlice 0x13 0, rowSlice 0x14 0,
   rowSlice 0x15 0, rowSlice 0x16 0, rowSlice 0x17 0, rowSlice 0x18 0, rowSlice 0x19 0, rowSlice 0x1A 0xFF,
   rowSlice 0x20 0, rowSlice 0x21 0, rowSlice 0x22 0x3F, rowSlice 0x23 0, rowSlice 0x24 0,
   rowSlice 0x28 0, rowSlice 0x29 0, rowSlice 0x2A 0, rowSlice 0x2B 0, rowSlice 0x2C 0,
   rowSlice 0x30 0x07, rowSlice 0x31 0, rowSlice 0x32 0, rowSlice 0x33 0, rowSlice 0x34 0, rowSlice 0x35 0,
   rowSlice 0x36 0x03, rowSlice 0x40 0x01, rowSlice 0x41 0x07, rowSlice 0x42 0x77, rowSlice 0x43 0x07,
   rowPlain 0x44, rowSlice 0x50 0, rowSlice 0x51 0, rowSlice 0x52 0, rowSlice 0x53 0x01, rowSlice 0x54 0,
   rowSlice 0x55 0x01, rowPlain 0x60, rowPlain 0x61, rowPlain 0x62, rowPlain 0x63, rowPlain 0x64,
   rowPlain 0x65]

end Sys2Proof.Machine
end

