-- ==== Sys2Proof/Certificates/Slice0/Obligations.lean ====
section
/-! DEFINITION. Sys2Proof/Certificates/Slice0/Obligations.lean: the statements for the provers. -/

open Sys2Proof Sys2Proof.Machine

/-! ## Encoding -/

/-- Decoding the word of a well-formed command gives the command back, with every operand (R92, R93). -/
def Obligations.DecodeEncodeRoundTrip : Prop :=
  ∀ i : Instr, i.wf = true → decode (encode i) = .instr i

/-- A word that decodes has one meaning: the command is well formed and encodes to the word (R92, R93). -/
def Obligations.EncodeDecodeRoundTrip : Prop :=
  ∀ (w : Word) (i : Instr), decode w = .instr i → i.wf = true ∧ encode i = w

/-- A word is a command exactly when it matches a row of the opcode table and keeps the two range limits a
mask cannot express, and it matches at most one row (R92, R93). -/
def Obligations.TableRowsAreTheCommands : Prop :=
  ∀ w : Word,
    ((∃ i, decode w = .instr i) ↔
      (∃ r ∈ opRows, w &&& r.mask = r.bits) ∧
      (opField w = 0x22 → immField w ≤ 32) ∧
      (opField w = 0x42 → (immField w).extractLsb' 4 3 ≤ 4)) ∧
    ∀ r ∈ opRows, ∀ r' ∈ opRows, w &&& r.mask = r.bits → w &&& r'.mask = r'.bits → r = r'

/-- Words written out from the fields `op[31:24] slice[23:8] imm[7:0]` decode to the commands they stand
for, and four words that are no command are refused, each for its own reason (R92, R93). -/
def Obligations.WrittenWordsDecode : Prop :=
  decode 0x01000000 = .instr .reset ∧
  decode 0x12000100 = .instr (.rcBit 1) ∧
  decode 0x1A00FF81 = .instr (.stFill 0xFF 0x81) ∧
  decode 0x2200020C = .instr (.bsBits 2 12) ∧
  decode 0x30FFFE05 = .instr (.ctxIdx 0xFFFE 5) ∧
  decode 0x42000043 = .instr (.parQtab 0 3 4) ∧
  decode 0x53000701 = .instr (.slRun 7 true) ∧
  decode 0x61000000 = .instr .frLocate ∧
  decode 0x7F000000 = .rejected .reservedOpcode ∧
  decode 0x60000100 = .rejected .sliceNotZero ∧
  decode 0x01000001 = .rejected .immNotZero ∧
  decode 0x22000021 = .rejected .immOutOfRange

/-! ## A step -/

/-- While a command is pending, the step that runs it is `exec` of the command its word decodes to, with
nothing around it but the `wait` taken off the agenda; and `withFetchWord` makes that the next step. That
the host waits through an agenda is the model's choice (logs 1, 2). -/
def Obligations.StepRunsTheDecodedCommand : Prop :=
  ∀ (s : State) (i : Instr),
    (s.busy = true → decode s.cmd = .instr i →
      (s.agenda = [] → step s = exec i s) ∧
      ∀ rest, s.agenda = .wait :: rest → step s = exec i { s with agenda := rest }) ∧
    ∀ w : Word, decode w = .instr i → step (s.withFetchWord 32 w.toNat) = exec i (s.issue w)

/-- A pending word that is no command ends with `E_BAD_COMMAND`; nothing but `STATUS`, `LAST_ERROR` and
`ERR_SLICE` changes (R93, R111); what `ERR_SLICE` then holds is the model's reading (log 24). -/
def Obligations.RefusedWordsTakeBadCommand : Prop :=
  ∀ (s : State) (e : DecodeError), s.busy = true → decode s.cmd = .rejected e → s.agenda = [] →
    step s = .next { s with
      busy := false, done := false, fail := true, underrun := false, lastError := 0x401
      errSlice :=
        if 0x50 ≤ (opField s.cmd).toNat ∧ (opField s.cmd).toNat ≤ 0x55 then sliceField s.cmd else 0xFFFF }

/-- A command whose `slice` names no engine, or whose operands are outside the ranges of its rule, is refused
with `E_BAD_COMMAND`, and nothing but `STATUS`, `LAST_ERROR` and `ERR_SLICE` changes: a state reference that
is not legal, or no bank where one is needed; a buffer that breaks R63; a context at or above its count; a
step of a slice whose state machine is in another state, and `SL_OPEN` and `SL_RUN` of slice 65535 or without
their preconditions; `OUT_CREATE` without a valid record (R93 checks 2 to 4, R98, R274, R306). What `ERR_SLICE`
then holds is the model's reading (log 24), and so is the bound of `RC_REARM`: R135's length "as armed" is read
from the current window, so that after an earlier `RC_REARM` a larger length is refused (log 17). That `PRED_MED`
checks its column, for which only R192 and R203 state a range, is the model's choice (log 16), and so is that
the count of a set no longer in use bounds the context of `GR_DELTA` (log 33). -/
def Obligations.MissingEngineIsRefused : Prop :=
  ∀ (s : State) (i : Instr),
    ((∃ k, engineOf i = some k ∧ s.hasEngine k.toNat = false) ∨ badOperands s i) →
    exec i s = .next { s with
      busy := false, done := false, fail := true, underrun := false, lastError := 0x401
      errSlice := refusalSlice i }

/-- A write of `CMD` while idle makes the command pending and clears the last outcome; writes of the argument
registers reach them; a write of `PAR_DATA` stores the selected field when direct loading is built in; every
other write, and every write while `BUSY = 1`, is ignored. A read answers the register, and 0 at every offset
that no readable register has. The `PAR` window reads the field that `PAR_SEL` selects, and 0 for a
selection that names none; a stored field reads back its low bits, and the derived fields are not writable
(R91, R96, R99, R365). The agenda and `hostData` are the model's (logs 1, 8); which selections name a field,
and the unused bits of `PAR_SEL`, are its reading of R99 (log 14). -/
def Obligations.RegisterWritesReachThePort : Prop :=
  (∀ (s : State) (offset : BitVec 8) (v : Word) (rest : List HostEvent),
    s.agenda = .write offset v :: rest →
    (s.busy = true → step s = .next { s with agenda := rest }) ∧
    (s.busy = false →
      (offset = 0x00 → step s = .next { s with
        agenda := rest, cmd := v, busy := true, done := false, fail := false, underrun := false }) ∧
      (offset = 0x04 → step s = .next { s with agenda := rest, arg0 := v }) ∧
      (offset = 0x08 → step s = .next { s with agenda := rest, arg1 := v }) ∧
      (offset = 0x1C → step s = .next { s with agenda := rest, width := v }) ∧
      (offset = 0x20 → step s = .next { s with agenda := rest, height := v }) ∧
      (offset = 0x28 → step s = .next { s with agenda := rest, parSel := v }) ∧
      (offset = 0x2C → step s = .next { s with
        agenda := rest, par := if Config.directLoading then parStore s.par s.parSel v else s.par }) ∧
      (offset ∉ [0x00#8, 0x04, 0x08, 0x1C, 0x20, 0x28, 0x2C] → step s = .next { s with agenda := rest }))) ∧
  (∀ (s : State) (offset : BitVec 8) (rest : List HostEvent), s.agenda = .read offset :: rest →
    ∃ v, step s = .next { s with agenda := rest, hostData := v } ∧
      (offset = 0x04 → v = s.arg0) ∧ (offset = 0x08 → v = s.arg1) ∧ (offset = 0x0C → v = s.result) ∧
      (offset = 0x10 → v = s.status) ∧ (offset = 0x14 → v = s.lastError.setWidth 32) ∧
      (offset = 0x18 → v = s.errSlice.setWidth 32) ∧ (offset = 0x1C → v = s.width) ∧
      (offset = 0x20 → v = s.height) ∧ (offset = 0x24 → v = s.outInfo) ∧ (offset = 0x28 → v = s.parSel) ∧
      (offset = 0x2C → v = parRead s.par s.parSel) ∧
      (offset ∉ [0x04#8, 0x08, 0x0C, 0x10, 0x14, 0x18, 0x1C, 0x20, 0x24, 0x28, 0x2C] → v = 0)) ∧
  ∀ (p : Par) (sel v : Word),
    let id := (sel.extractLsb' 24 8).toNat
    let q := sel.extractLsb' 21 3
    let a := (sel.extractLsb' 5 16).toNat
    let b := (sel.extractLsb' 0 5).toNat
    let bit := fun (x : Bool) => if x then (1 : Word) else 0
    (id = 0 → parRead p sel = p.version) ∧ (id = 1 → parRead p sel = p.microVersion) ∧
    (id = 2 → parRead p sel = bit p.coderType) ∧ (id = 3 → parRead p sel = bit p.customPresent) ∧
    (id = 4 → ∀ h : a < 256, parRead p sel = (p.customTransition.get ⟨a, h⟩).setWidth 32) ∧
    (id = 5 → parRead p sel = bit p.colorspaceType) ∧
    (id = 6 → parRead p sel = p.bitsPerRawSample.setWidth 32) ∧
    (id = 7 → parRead p sel = bit p.chromaPlanes) ∧ (id = 8 → parRead p sel = p.chromaHShift) ∧
    (id = 9 → parRead p sel = p.chromaVShift) ∧ (id = 10 → parRead p sel = bit p.alphaPlane) ∧
    (id = 11 → parRead p sel = p.numHSlices) ∧ (id = 12 → parRead p sel = p.numVSlices) ∧
    (id = 13 → parRead p sel = p.qtSetCount.setWidth 32) ∧
    (id = 14 → a < 1280 → parRead p sel = (p.qtAt q (a / 256) (a % 256)).signExtend 32) ∧
    (id = 15 → (parRead p sel).toNat = p.ctxCount q) ∧
    (id = 16 → a < 16384 → parRead p sel = (p.initAt q a b).setWidth 32) ∧
    (id = 17 → parRead p sel = bit p.ec) ∧ (id = 18 → parRead p sel = bit p.intra) ∧
    (id = 19 → parRead p sel = bit p.valid) ∧ (id = 20 → parRead p sel = bit p.configPresent) ∧
    (id = 21 → parRead p sel = p.bitsMax.setWidth 32) ∧ (id = 22 → parRead p sel = p.bitsMask) ∧
    (id = 23 → parRead p sel = p.planeCount.setWidth 32) ∧ (id = 24 → parRead p sel = p.qtiCount.setWidth 32) ∧
    (id = 25 → parRead p sel = p.tailSize.setWidth 32) ∧ (id = 26 → parRead p sel = bit p.isOverflow16) ∧
    (id = 4 ∧ 256 ≤ a ∨ id = 14 ∧ 1280 ≤ a ∨ id = 16 ∧ 16384 ≤ a ∨ 27 ≤ id → parRead p sel = 0) ∧
    (id ∈ [0, 1, 8, 9, 11, 12] → parRead (parStore p sel v) sel = v) ∧
    (id ∈ [2, 3, 5, 7, 10, 17, 18, 19, 20] → parRead (parStore p sel v) sel = v &&& 1) ∧
    (id = 6 → parRead (parStore p sel v) sel = v &&& 0x7F) ∧
    (id = 13 → parRead (parStore p sel v) sel = v &&& 0xF) ∧
    (id = 15 → parRead (parStore p sel v) sel = v &&& 0x7FFF) ∧
    (id = 4 ∧ a < 256 ∨ id = 16 ∧ a < 16384 → parRead (parStore p sel v) sel = v &&& 0xFF) ∧
    (id = 14 → a < 1280 → parRead (parStore p sel v) sel = (v.setWidth 16).signExtend 32) ∧
    (21 ≤ id → parStore p sel v = p)

/-- The bits of `STATUS` (R97). -/
def Obligations.StatusWordLayout : Prop :=
  ∀ s : State,
    s.status.getLsbD 0 = s.busy ∧ s.status.getLsbD 1 = s.done ∧ s.status.getLsbD 2 = s.fail ∧
    s.status.getLsbD 3 = s.underrun ∧ s.status.getLsbD 4 = s.keyframe ∧
    s.status.getLsbD 5 = s.keyframeSeen ∧ s.status.getLsbD 6 = s.par.valid ∧
    s.status.getLsbD 7 = s.par.configPresent ∧ ∀ n, 8 ≤ n → s.status.getLsbD n = false

/-! ## All commands -/

/-- Every command ends: `BUSY` falls and, but for `RESET`, exactly one of `DONE` and `FAIL` is set (R91). -/
def Obligations.EveryCommandEnds : Prop :=
  ∀ (i : Instr) (s : State), ∃ t, exec i s = .next t ∧ t.busy = false ∧
    (i ≠ .reset → t.done = !t.fail) ∧ (i = .reset → t.done = false ∧ t.fail = false)

/-- No command writes `IN`; none but `RESET` writes a register that the host writes; and the samples change only
by the commands that perform `PX_WRITE` or `OUT_CREATE` (R60, R76). `FR_DISPATCH` is one of them: with one worker
it runs the tasks (R302). No command changes the agenda (log 1) or the number of workers (log 10) either: these
are the model's own fields and its choices, of which no rule speaks. -/
def Obligations.CommandsLeaveTheCallersMemories : Prop :=
  ∀ (i : Instr) (s t : State), exec i s = .next t →
    sameInput s t ∧ t.agenda = s.agenda ∧ t.workers = s.workers ∧
    (i ≠ .reset → t.cmd = s.cmd ∧ t.arg0 = s.arg0 ∧ t.arg1 = s.arg1 ∧ t.width = s.width ∧
      t.height = s.height ∧ t.parSel = s.parSel) ∧
    (mayWriteSamples i = false → sameSamples s t)

/-- Distinct errors have distinct codes, no code is 0, the class in bits 11:8 is 1 to 4, and class 3 is
`E_UNDERRUN` and `E_UNDERRUN_PARAMS` (R321, R323). -/
def Obligations.ErrorCodesNameTheirClass : Prop :=
  (∀ e e' : ErrorName, e.code = e'.code → e = e') ∧
  (∀ e : ErrorName, e.code ≠ 0 ∧ 1 ≤ e.errorClass ∧ e.errorClass ≤ 4) ∧
  ∀ e : ErrorName, e.isUnderrun = true ↔ e = .underrun ∨ e = .underrunParams

/-! ## Invariants -/

/-- At most one of `BUSY`, `DONE`, `FAIL` is set and engine 0 exists, after every step (R31, R48). -/
def Obligations.StatusStaysOneHot : Prop :=
  ∀ s t : State, portInv s → step s = .next t → portInv t

/-- Every step keeps the canonical form of `IN`, of the sample store, of the engine list, of the tables and
templates, and of each engine's state memory, tuples and line buffers. The canonical form is the model's
(logs 5, 6, 7). -/
def Obligations.MemoriesStayCanonical : Prop :=
  ∀ s t : State, memoryInv s → step s = .next t → memoryInv t

/-- Every step keeps `N` in 1..128 in every Golomb-Rice tuple of every engine (R42, R166). -/
def Obligations.TuplesStayInRange : Prop :=
  ∀ s t : State, tupleInv s → step s = .next t → tupleInv t

/-- Every step but a direct load through `PAR_DATA` keeps: a valid record has at most 8 table sets, at least
one slice each way, a version 0, 1 or 3, a bit depth 1..16, and context counts 1..16384 (R246). -/
def Obligations.ValidRecordsStayLegal : Prop :=
  ∀ s t : State, paramInv s → (∀ v, s.agenda.head? ≠ some (.write 0x2C v)) → step s = .next t → paramInv t

/-- The reset state meets the four invariants. -/
def Obligations.ResetMeetsTheInvariants : Prop :=
  portInv State.reset ∧ memoryInv State.reset ∧ tupleInv State.reset ∧ paramInv State.reset

/-! ## Reset -/

/-- The values of the reset table that the spec gives (R46). -/
def Obligations.ResetLeavesTheTableValues : Prop :=
  let s := State.reset
  let e := s.engine 0
  s.status = 0 ∧ s.lastError = 0 ∧ s.errSlice = 0xFFFF ∧
  s.arg0 = 0 ∧ s.arg1 = 0 ∧ s.result = 0 ∧ s.cmd = 0 ∧ s.width = 0 ∧ s.height = 0 ∧ s.outInfo = 0 ∧
  s.keyframeSeen = false ∧ s.keyframe = false ∧ s.gopSlices = 0 ∧ s.loc = [] ∧
  s.par.valid = false ∧ s.par.configPresent = false ∧
  s.hasEngine 0 = true ∧ (∀ k, k ≠ 0 → s.hasEngine k = false) ∧
  e.sl.fsm = .created ∧ e.sl.err = 0 ∧ e.sl.underrun = false ∧ e.sl.used = 0 ∧
  e.rc.current = 0 ∧ e.rc.mask = 0 ∧ e.rc.bufBeg = 0 ∧ e.rc.bufCur = 0 ∧ e.rc.bufEnd = 0 ∧
  e.rc.one = Config.defaultTransition ∧ e.rc.zero = zeroTable Config.defaultTransition ∧
  e.bs.bufBeg = 0 ∧ e.bs.bufEnd = 0 ∧ e.bs.pos = 0 ∧ e.bs.underflow = false ∧
  e.gr.runIndex = 0 ∧ e.gr.runMode = .stop ∧ e.gr.runLen = 0 ∧ e.gr.x = 0 ∧ e.gr.w = 0 ∧
  e.gr.selP = 0 ∧ e.gr.selQ = 0 ∧
  (∀ i, e.state (.hb i) = 128) ∧ (∀ i, e.state (.qb i) = 128) ∧ (∀ j i, e.state (.ib j i) = 128) ∧
  e.state .ks = 128 ∧ e.state .ts = 129

/-- `RESET` puts the block at its reset values, none of `BUSY`, `DONE`, `FAIL` set, and touches neither `IN`
nor the samples (R360, R361). What the outside world will do is not the block's (log 1), nor is the number of
workers, the model's argument (log 10). These are the
model's choices, not the spec's: that the tasks in flight are dropped, which R360 does not say of the command
(log 13), and the values of what R46 leaves unspecified or does not list: `PAR` (log 3), the other `SL`
registers and the position (log 4), `PS`, `GS`, `LB` (log 5) and `PAR_SEL` (log 8). -/
def Obligations.ResetCommandRestoresTheBlock : Prop :=
  ∀ s : State, ∃ t, exec .reset s = .next t ∧ sameInput s t ∧ sameSamples s t ∧
    t.planeSizes = s.planeSizes ∧ t.agenda = s.agenda ∧ t.workers = s.workers ∧
    { t with inMem := [], plane := [], planeSizes := State.reset.planeSizes,
             agenda := [], hostData := 0, freeCtr := 0, workers := State.reset.workers } = State.reset

/-! ## Range decoder -/

/-- The table of the 0 branch: entry 0 is 0, entry `i` is `256 - OneState[256 - i]` modulo 256 (R132). -/
def Obligations.ZeroTableIsDerived : Prop :=
  ∀ t : Table, (zeroTable t).get 0 = 0 ∧
    ∀ i j : Fin 256, i.val + j.val = 256 →
      ((zeroTable t).get i).toNat = (256 - (t.get j).toNat) % 256

/-- `RC_ARM` completes on a legal buffer and table and loads the decoder. `RC_REARM` completes, moves the end
and installs the table, and `Current`, `Mask` and `BufCur` keep their values (R131, R135). -/
def Obligations.RcArmAndRearmSetTheWindow : Prop :=
  ∀ (s : State) (k : BitVec 16) (custom : Bool),
    s.hasEngine k.toNat = true → (custom = true → s.par.customPresent = true) →
    let e := s.engine k.toNat
    let table := if custom then s.par.customTransition else Config.defaultTransition
    let word := (inByte s.inMem s.arg0.toNat).toNat * 256 + (inByte s.inMem (s.arg0.toNat + 1)).toNat
    (s.arg0.toNat + s.arg1.toNat ≤ 2 ^ 32 - 2 →
      ∃ t, exec (.rcArm k custom) s = .next t ∧ unitDone k.toNat s t s.result ∧
        t.engine k.toNat = { e with rc :=
          { current := if 2 ≤ s.arg1.toNat then BitVec.ofNat 32 word else 0
            mask := if 2 ≤ s.arg1.toNat then 0xFF00 else 0
            bufBeg := BitVec.ofNat _ s.arg0.toNat
            bufCur := BitVec.ofNat _ (if 2 ≤ s.arg1.toNat then s.arg0.toNat + 2 else s.arg0.toNat)
            bufEnd := BitVec.ofNat _ (s.arg0.toNat + s.arg1.toNat)
            one := table
            zero := zeroTable table } } ∧
        rcUnderrun (t.engine k.toNat).rc = false) ∧
    (s.arg1.toNat ≤ e.rc.bufEnd.toNat - e.rc.bufBeg.toNat →
      ∃ t, exec (.rcRearm k custom) s = .next t ∧ unitDone k.toNat s t s.result ∧
        t.engine k.toNat = { e with rc :=
          { e.rc with bufEnd := e.rc.bufBeg + BitVec.ofNat _ s.arg1.toNat, one := table, zero := zeroTable table } })

/-- `RC_BIT` completes on a legal reference: an exhausted decoder answers 0 and shifts `Current` only; any
other refills when `Mask < 0x100`, then decides on the one state byte it names (R134, R136). -/
def Obligations.RcBitRefillsThenDecides : Prop :=
  ∀ (s : State) (k : BitVec 16) (r : StateRef),
    s.hasEngine k.toNat = true → s.arg0 = r.word → r.legal s.par (s.engine k.toNat) = true →
    let e := s.engine k.toNat
    let rc := e.rc
    let low := rc.mask.toNat < 0x100
    let shifted := rc.current <<< 8
    let byte := (inByte s.inMem rc.bufCur.toNat).setWidth 32
    let rc1 : Rc :=
      if low then
        { rc with
          current := if rc.bufCur < rc.bufEnd then shifted ||| byte else shifted
          bufCur := rc.bufCur + 1
          mask := rc.mask <<< 8 }
      else rc
    let mask2 := (rc1.mask * (e.state r).setWidth 32) >>> 8
    let mask := rc1.mask - mask2
    ∃ t, exec (.rcBit k) s = .next t ∧ unitDone k.toNat s t t.result ∧
      (low ∧ rc.bufEnd < rc.bufCur →
        t.result = 0 ∧ t.engine k.toNat = { e with rc := { rc with current := shifted } }) ∧
      (¬ (low ∧ rc.bufEnd < rc.bufCur) →
        onlyDecisions (· = r) e (t.engine k.toNat) ∧
        (rc1.current < mask →
          t.result = 0 ∧ (t.engine k.toNat).rc = { rc1 with mask := mask } ∧
          (t.engine k.toNat).state r = rc.zero.at (e.state r)) ∧
        (¬ rc1.current < mask →
          t.result = 1 ∧
          (t.engine k.toNat).rc = { rc1 with current := rc1.current - mask, mask := mask2 } ∧
          (t.engine k.toNat).state r = rc.one.at (e.state r)))

/-- `RC_USYM` and `RC_SSYM` complete on a legal bank and touch only its 32 bytes and the decoder's three
working registers. The zero flag `S[0]` answering 1 ends a symbol with value 0. Else the exponent `n` is the
number of steps over `S[1 + min(j, 9)]` that answer 1 before one answers 0; the bits below the leading one
are the decisions over `S[22 + min(j, 9)]`, `j` falling from `n - 1`; and the sign is the decision over
`S[11 + min(n, 10)]`, 1 for negative. Thirty-two steps answering 1 force an underrun and give 0 (R101, R137,
R138, R139). -/
def Obligations.SymbolsTouchOnlyTheirBank : Prop :=
  ∀ (s : State) (k : BitVec 16) (bank : StateRef),
    s.hasEngine k.toNat = true → s.arg0 = bank.word → bank.isBank = true → bank.isSingle = false →
    bank.legal s.par (s.engine k.toNat) = true →
    let e := s.engine k.toNat
    let flag := rcBit s.inMem bank e
    let byte := fun (n : Nat) => bank.byte (BitVec.ofNat 5 n)
    let steps := fun (n : Nat) => decisions s.inMem ((List.range n).map fun j => byte (1 + min j 9)) flag.1
    let mantissa := fun (n : Nat) (f : Engine) =>
      decisions s.inMem ((List.range n).reverse.map fun j => byte (22 + min j 9)) f
    ∃ t u, exec (.rcUsym k) s = .next t ∧ exec (.rcSsym k) s = .next u ∧
      unitDone k.toNat s t t.result ∧ unitDone k.toNat s u u.result ∧
      onlyDecisions (inBank bank) e (t.engine k.toNat) ∧ onlyDecisions (inBank bank) e (u.engine k.toNat) ∧
      t.result = (rcUsym s.inMem bank e).2 ∧ u.result = (rcSsym s.inMem bank e).2 ∧
      t.engine k.toNat = (rcUsym s.inMem bank e).1 ∧ u.engine k.toNat = (rcSsym s.inMem bank e).1 ∧
      (t.result = 0 → u.result = 0) ∧ (t.result ≠ 0 → u.result = t.result ∨ u.result = 0 - t.result) ∧
      (flag.2 = true →
        t.result = 0 ∧ t.engine k.toNat = flag.1 ∧ u.result = 0 ∧ u.engine k.toNat = flag.1) ∧
      (flag.2 = false → ∀ n, n ≤ 31 → (steps (n + 1)).2 = List.replicate n true ++ [false] →
        let m := mantissa n (steps (n + 1)).1
        let a := BitVec.ofNat 32 (2 ^ n + msbFirst m.2)
        let sign := rcBit s.inMem (byte (11 + min n 10)) m.1
        t.result = a ∧ t.engine k.toNat = m.1 ∧
          u.result = (if sign.2 then 0 - a else a) ∧ u.engine k.toNat = sign.1) ∧
      (flag.2 = false → (steps 32).2 = List.replicate 32 true →
        t.result = 0 ∧ u.result = 0 ∧
          t.engine k.toNat = rcForce (steps 32).1 ∧ u.engine k.toNat = rcForce (steps 32).1)

/-- `RC_FORCE` completes and leaves an exhausted decoder that reports an underrun; from then on every
decision answers 0 and touches no state byte, every unsigned symbol is 1 and every signed one is +1, and
the decoder stays exhausted (R141). -/
def Obligations.RcForceExhaustsTheDecoder : Prop :=
  (∀ (s : State) (k : BitVec 16),
    s.hasEngine k.toNat = true → (s.engine k.toNat).rc.bufEnd.toNat ≤ 2 ^ 32 - 2 →
    let e := s.engine k.toNat
    ∃ t, exec (.rcForce k) s = .next t ∧ unitDone k.toNat s t s.result ∧
      t.engine k.toNat = { e with rc := { e.rc with mask := 0, bufCur := e.rc.bufEnd + 1 } } ∧
      exhausted (t.engine k.toNat).rc ∧ rcUnderrun (t.engine k.toNat).rc = true) ∧
  ∀ (im : List Host.Cell) (e : Engine) (r : StateRef), exhausted e.rc →
    ((rcBit im r e).2 = false ∧ (rcBit im r e).1.sm = e.sm ∧ exhausted (rcBit im r e).1.rc) ∧
    ((rcUsym im r e).2 = 1 ∧ (rcUsym im r e).1.sm = e.sm ∧ exhausted (rcUsym im r e).1.rc) ∧
    ((rcSsym im r e).2 = 1 ∧ (rcSsym im r e).1.sm = e.sm ∧ exhausted (rcSsym im r e).1.rc)

/-- `RC_USED`, `RC_UNDR`, `BS_USED` and `BS_UNDR` complete with the counts and predicates of their rules, and
change no other state (R142, R143, R164, R175). -/
def Obligations.AccountingCommandsOnlyRead : Prop :=
  ∀ (s : State) (k : BitVec 16), s.hasEngine k.toNat = true →
    let rc := (s.engine k.toNat).rc
    let bs := (s.engine k.toNat).bs
    let fetched : Int := if rc.mask.toNat < 0x100 then 0 else 1
    (rc.bufBeg.toNat ≤ rc.bufEnd.toNat → (rc.bufBeg.toNat : Int) + fetched ≤ rc.bufCur.toNat →
      ∃ t, exec (.rcUsed k) s = .next t ∧ readDone s t (BitVec.ofInt 32
        (if rc.bufEnd < rc.bufCur then (rc.bufEnd.toNat : Int) - rc.bufBeg.toNat
         else (rc.bufCur.toNat : Int) - rc.bufBeg.toNat - fetched))) ∧
    (∃ t, exec (.rcUndr k) s = .next t ∧ readDone s t
      (if (rc.bufCur.toNat : Int) - fetched > rc.bufEnd.toNat then 1 else 0)) ∧
    (∃ t, exec (.bsUsed k) s = .next t ∧ readDone s t (BitVec.ofNat 32 ((bs.pos.toNat + 7) / 8))) ∧
    (∃ t, exec (.bsUndr k) s = .next t ∧ readDone s t (if bs.underflow then 1 else 0))

/-- `RC_GOPINIT` completes under a valid record: in the three slots, every state byte of the parsed sizes is
a copy of the template, and no other state byte changes (R145). -/
def Obligations.RcGopinitCopiesTheTemplate : Prop :=
  ∀ (s : State) (k : BitVec 16),
    s.hasEngine k.toNat = true → s.par.valid = true → Store.sorted s.par.init = true →
    let e := s.engine k.toNat
    let inSizes := fun (p : BitVec 2) (q : BitVec 3) (ctx : BitVec 14) =>
      p.toNat ≤ 2 ∧ q.toNat < s.par.qtSetCount.toNat ∧ ctx.toNat < s.par.ctxCount q
    ∃ t, exec (.rcGopinit k) s = .next t ∧ unitDone k.toNat s t s.result ∧
      (∀ p q ctx i, inSizes p q ctx →
        (t.engine k.toNat).state (.ps p q ctx i) = s.par.initAt q ctx.toNat i.toNat) ∧
      (∀ r, (∀ p q ctx i, inSizes p q ctx → r ≠ .ps p q ctx i) →
        (t.engine k.toNat).state r = e.state r) ∧
      t.engine k.toNat = { e with sm := (t.engine k.toNat).sm, psReady := true }

/-- `RC_DELTA` completes on a context of the parsed sizes: it is a signed symbol over the bank of that
context (R146). That the bits of `ARG0` above the pair are ignored, and that `RC_GOPINIT` must have run, are
the model's choices (log 17). -/
def Obligations.RcDeltaIsASignedSymbol : Prop :=
  ∀ (s : State) (k : BitVec 16) (p : BitVec 2) (q : BitVec 3) (ctx : BitVec 14),
    s.hasEngine k.toNat = true → (s.engine k.toNat).psReady = true →
    s.arg0.extractLsb' 0 2 = p → s.arg0.extractLsb' 2 3 = q → s.arg1.toNat = ctx.toNat →
    p.toNat ≤ 2 → q.toNat < s.par.qtSetCount.toNat → ctx.toNat < s.par.ctxCount q →
    let e := s.engine k.toNat
    ∃ t, exec (.rcDelta k) s = .next t ∧
      unitDone k.toNat s t (rcSsym s.inMem (.ps p q ctx 0) e).2 ∧
      t.engine k.toNat = (rcSsym s.inMem (.ps p q ctx 0) e).1 ∧
      onlyDecisions (inBank (.ps p q ctx 0)) e (t.engine k.toNat)

/-- `ST_FILL` completes on a legal bank: every byte of the named bank is `v`, and nothing else of the engine
changes (R144). -/
def Obligations.StFillSetsTheBank : Prop :=
  ∀ (s : State) (k : BitVec 16) (v : BitVec 8) (bank : StateRef),
    s.hasEngine k.toNat = true → s.arg0 = bank.word → bank.isBank = true →
    bank.legal s.par (s.engine k.toNat) = true →
    let e := s.engine k.toNat
    ∃ t, exec (.stFill k v) s = .next t ∧ unitDone k.toNat s t s.result ∧
      (∀ i, (t.engine k.toNat).state (bank.byte i) = v) ∧
      (∀ r, ¬ inBank bank r → (t.engine k.toNat).state r = e.state r) ∧
      t.engine k.toNat = { e with sm := (t.engine k.toNat).sm }

/-! ## Bitstream reader and Golomb-Rice -/

/-- `BS_ARM` and `BS_BIT` complete: arming sets the window and clears the cursor and the flag; a read takes
the next bit, most significant first, or finds the window exhausted, discards what remains and sets the
sticky flag (R160, R161, R162). -/
def Obligations.BsArmAndBitFollowTheWindow : Prop :=
  ∀ (s : State) (k : BitVec 16), s.hasEngine k.toNat = true →
    let e := s.engine k.toNat
    let total := 8 * (e.bs.bufEnd.toNat - e.bs.bufBeg.toNat)
    let byte := inByte s.inMem (e.bs.bufBeg.toNat + e.bs.pos.toNat / 8)
    (s.arg0.toNat + s.arg1.toNat ≤ 2 ^ 32 - 2 →
      ∃ t, exec (.bsArm k) s = .next t ∧ unitDone k.toNat s t s.result ∧
        t.engine k.toNat = { e with bs :=
          ⟨BitVec.ofNat _ s.arg0.toNat, BitVec.ofNat _ (s.arg0.toNat + s.arg1.toNat), 0, false⟩ }) ∧
    ∃ t, exec (.bsBit k) s = .next t ∧
      (total ≤ e.bs.pos.toNat →
        unitDone k.toNat s t 0 ∧ t.engine k.toNat = { e with bs :=
          { e.bs with pos := BitVec.ofNat _ total, underflow := true } }) ∧
      (e.bs.pos.toNat < total →
        unitDone k.toNat s t (if byte.getLsbD (7 - e.bs.pos.toNat % 8) then 1 else 0) ∧
        t.engine k.toNat = { e with bs := { e.bs with pos := e.bs.pos + 1 } })

/-- `BS_BITS` completes: it delivers `n` bits as a number, the first most significant, or, when fewer
remain, nothing but 0 and the flag (R162, R163). -/
def Obligations.BsBitsIsMsbFirst : Prop :=
  ∀ (s : State) (k : BitVec 16) (n : BitVec 6), s.hasEngine k.toNat = true → n.toNat ≤ 32 →
    let e := s.engine k.toNat
    let total := 8 * (e.bs.bufEnd.toNat - e.bs.bufBeg.toNat)
    total < 2 ^ 35 →
    ∃ t, exec (.bsBits k n) s = .next t ∧ unitDone k.toNat s t t.result ∧
      (n.toNat ≤ total - e.bs.pos.toNat →
        t.result.toNat < 2 ^ n.toNat ∧
        (∀ j, j < n.toNat → t.result.getLsbD (n.toNat - 1 - j) =
          (inByte s.inMem (e.bs.bufBeg.toNat + (e.bs.pos.toNat + j) / 8)).getLsbD
            (7 - (e.bs.pos.toNat + j) % 8)) ∧
        t.engine k.toNat = { e with bs := { e.bs with pos := e.bs.pos + BitVec.ofNat _ n.toNat } }) ∧
      (total - e.bs.pos.toNat < n.toNat →
        t.result = 0 ∧ t.engine k.toNat = { e with bs :=
          { e.bs with pos := BitVec.ofNat _ total, underflow := true } })

/-- `GR_PLANEINIT` and `GR_LINEINIT` complete: the first restarts `run_index` alone, the second everything
else of the run (R168, R169). That `GR_LINEINIT` ignores the bits of `ARG0` above the pair is the model's
choice (log 17). -/
def Obligations.GrInitCommandsRestartTheRun : Prop :=
  ∀ (s : State) (k : BitVec 16), s.hasEngine k.toNat = true →
    let e := s.engine k.toNat
    let p := s.arg0.extractLsb' 0 2
    let q := s.arg0.extractLsb' 2 3
    (∃ t, exec (.grPlaneinit k) s = .next t ∧ unitDone k.toNat s t s.result ∧
      t.engine k.toNat = { e with gr := { e.gr with runIndex := 0 } }) ∧
    (p.toNat ≤ 2 → q.toNat < s.par.qtSetCount.toNat → 1 ≤ s.arg1.toNat → s.arg1.toNat ≤ 2 ^ 24 - 1 →
      ∃ t, exec (.grLineinit k) s = .next t ∧ unitDone k.toNat s t s.result ∧
        t.engine k.toNat = { e with gr :=
          { runIndex := e.gr.runIndex, runMode := .stop, runLen := 0, x := 0, w := s.arg1.toNat
            selP := p, selQ := q } })

/-- `GR_GOPINIT` completes under a valid record: every tuple of the parsed sizes is (1, 4, 0, 0), and no
other tuple changes (R167). -/
def Obligations.GrGopinitResetsTheTuples : Prop :=
  ∀ (s : State) (k : BitVec 16), s.hasEngine k.toNat = true → s.par.valid = true →
    let e := s.engine k.toNat
    let inSizes := fun (p : BitVec 2) (q : BitVec 3) (ctx : Nat) =>
      p.toNat ≤ 2 ∧ q.toNat < s.par.qtSetCount.toNat ∧ ctx < s.par.ctxCount q
    ∃ t, exec (.grGopinit k) s = .next t ∧ unitDone k.toNat s t s.result ∧
      (∀ p q ctx, inSizes p q ctx → (t.engine k.toNat).tuple p q ctx = ⟨1, 4, 0, 0⟩) ∧
      (∀ p q ctx, ctx < 2 ^ 16 → ¬ inSizes p q ctx →
        (t.engine k.toNat).tuple p q ctx = e.tuple p q ctx) ∧
      t.engine k.toNat = { e with gs := (t.engine k.toNat).gs }

/-- `GR_RICE` completes on a context of the parsed sizes: the result fits `bits_max` bits; `N` goes up by
one, from 128 to 65; `B` ends above `-N` and at most 0; no other tuple changes, and of the rest of the
engine only the reader's cursor and flag. The value is `z * 2^k + suffix` for `z < 12` zeros before the first
1, with `k` the smallest number that makes `N * 2^k` at least `A`, and 11 plus `bits_max` bits after twelve
zeros; the result is the zig-zag code of the value, complemented when `2B + N < 0`, plus `C`, folded to
`bits_max` bits; and the tuple is updated with the code (R165, R166). That the bits of `ARG0` above the pair
are ignored is the model's choice (log 17). -/
def Obligations.GrRiceKeepsTheTupleLaw : Prop :=
  ∀ (s : State) (k : BitVec 16) (p : BitVec 2) (q : BitVec 3) (ctx m : Nat),
    s.hasEngine k.toNat = true →
    s.arg0.extractLsb' 0 2 = p → s.arg0.extractLsb' 2 3 = q → s.arg1.toNat = ctx →
    p.toNat ≤ 2 → q.toNat < s.par.qtSetCount.toNat → ctx < s.par.ctxCount q →
    s.par.bitsMax.toNat = m → 1 ≤ m → m ≤ 32 →
    let e := s.engine k.toNat
    let old := e.tuple p q ctx
    ∃ t, exec (.grRice k) s = .next t ∧ unitDone k.toNat s t (grRice s.inMem m p q ctx e).2 ∧
      t.engine k.toNat = (grRice s.inMem m p q ctx e).1 ∧
      -(2 ^ (m - 1) : Int) ≤ t.result.toInt ∧ t.result.toInt < 2 ^ (m - 1) ∧
      onlyReadsAndTuples e (t.engine k.toNat) ∧
      (∀ p' q' ctx', ctx' < 2 ^ 16 → (p', q', ctx') ≠ (p, q, ctx) →
        (t.engine k.toNat).tuple p' q' ctx' = e.tuple p' q' ctx') ∧
      (1 ≤ old.n.toNat → old.n.toNat ≤ 128 →
        let new := (t.engine k.toNat).tuple p q ctx
        new.n.toNat = (if old.n.toNat = 128 then 65 else old.n.toNat + 1) ∧
        -(new.n.toNat : Int) < new.b.toInt ∧ new.b.toInt ≤ 0 ∧
        (let answer := fun (v : Nat) (g : Engine) =>
           let code := codeOf old v
           t.result.toInt = (code + old.c.toInt).bmod (2 ^ m) ∧ tupleAfter old code new ∧
             (t.engine k.toNat).bs = g.bs
         ∀ j, (∀ i, i < j → old.n.toNat * 2 ^ i < old.a.toNat) → old.a.toNat ≤ old.n.toNat * 2 ^ j →
           (∀ z, z < 12 → (nextBits s.inMem (z + 1) e).2 = List.replicate z false ++ [true] →
             let r := bsBits s.inMem j (nextBits s.inMem (z + 1) e).1
             answer ((z * 2 ^ j + r.2.toNat) % 2 ^ 32) r.1) ∧
           ((nextBits s.inMem 12 e).2 = List.replicate 12 false →
             let r := bsBits s.inMem m (nextBits s.inMem 12 e).1
             answer ((11 + r.2.toNat) % 2 ^ 32) r.1)))

/-- `GR_DELTA` completes on a context of the selected set: the column advances; inside an open run segment the
delta is 0 and nothing is read; outside a run with a context other than 0 the delta is one Rice symbol, and of
the engine nothing else changes than what that symbol changes, and the column; the selected pair and the width
keep their values. With no segment open in run mode a token is read: the bit 1 opens `2^log2run[run_index]`
zero deltas, this one the first, and raises `run_index` when they fit the line; the bit 0 lowers `run_index`
and opens as many zero deltas as the terminator counts. A run that owes no more zero delta ends with one Rice
symbol, to which 1 is added unless it is negative (R103, R170, R171). That a selected set no longer in use is
used as it stands is the model's choice (log 33). -/
def Obligations.GrDeltaCountsTheRun : Prop :=
  ∀ (s : State) (k : BitVec 16) (ctx : Nat),
    s.hasEngine k.toNat = true → s.arg1.toNat = ctx →
    ctx < s.par.ctxCount (s.engine k.toNat).gr.selQ →
    let e := s.engine k.toNat
    let m := s.par.bitsMax.toNat
    let r := e.gr.runIndex
    ∃ t, exec (.grDelta k) s = .next t ∧ unitDone k.toNat s t (grDelta s.inMem m ctx e).2 ∧
      (let f := t.engine k.toNat
       let ends := fun (g : Engine) =>
         let u := grRice s.inMem m e.gr.selP e.gr.selQ ctx g
         t.result = (if u.2.toInt < 0 then u.2 else u.2 + 1) ∧
           f = { u.1 with gr := { g.gr with runMode := .stop, runLen := 0 } }
       f = (grDelta s.inMem m ctx e).1 ∧
       f.gr.x = e.gr.x + 1 ∧ f.gr.w = e.gr.w ∧ f.gr.selP = e.gr.selP ∧ f.gr.selQ = e.gr.selQ ∧
       onlyReadsAndTuples { e with gr := f.gr } f ∧
       (e.gr.runMode ≠ .stop → 0 < e.gr.runLen →
         t.result = 0 ∧ f = { e with gr := { e.gr with x := e.gr.x + 1, runLen := e.gr.runLen - 1 } }) ∧
       (e.gr.runMode = .stop → ctx ≠ 0 →
         let u := grRice s.inMem m e.gr.selP e.gr.selQ ctx e
         t.result = u.2 ∧ f = { u.1 with gr := { e.gr with x := e.gr.x + 1 } }) ∧
       (e.gr.runMode = .interrupted → e.gr.runLen = 0 →
         ends { e with gr := { e.gr with x := e.gr.x + 1 } }) ∧
       (e.gr.runLen = 0 → e.gr.runMode = .processing ∨ e.gr.runMode = .stop ∧ ctx = 0 →
         let token := bsBit s.inMem e
         let close := bsBits s.inMem (grLog2 r) token.1
         (token.2 = true → t.result = 0 ∧ f = { token.1 with gr := { e.gr with
           x := e.gr.x + 1
           runMode := .processing
           runLen := 2 ^ grLog2 r - 1
           runIndex := if e.gr.x + 2 ^ grLog2 r ≤ e.gr.w ∧ r.val < 40 then r + 1 else r } }) ∧
         (token.2 = false →
           let lowered := { e.gr with
             x := e.gr.x + 1, runMode := .interrupted, runIndex := if 0 < r.val then r - 1 else r }
           (close.2 ≠ 0 → t.result = 0 ∧
             f = { close.1 with gr := { lowered with runLen := close.2.toNat - 1 } }) ∧
           (close.2 = 0 → ends { close.1 with gr := lowered }))))

/-! ## Context, predictor, samples -/

/-- `CTX_IDX` and `PRED_MED` complete on a column of an open plane and change no state: the first answers the
sum of the five table entries, the second the median of left, left plus top minus top-left, and top, with
16-bit inputs under the flag (R191, R192, R196, R197). -/
def Obligations.ContextAndPredictorReadTheNeighbours : Prop :=
  ∀ (s : State) (k : BitVec 16) (q : BitVec 3) (c : Fin 4),
    s.hasEngine k.toNat = true → s.arg0 = BitVec.ofNat 32 c.val →
    ((s.engine k.toNat).line c).isOpen = true →
    s.arg1.toNat < (region s.par (s.engine k.toNat).sl c).w →
    let b := (s.engine k.toNat).line c
    let x : Int := s.arg1.toNat
    let entry := fun (j : Nat) (d : Word) => (s.par.qtAt q j (d.toNat % 256)).toInt
    let input := fun (v : Word) =>
      if s.par.isOverflow16 = true ∧ s.par.colorspaceType = false then (v.setWidth 16).toInt else v.toInt
    let l := input (b.cur (x - 1))
    let t := input (b.top x)
    let tl := input (b.top (x - 1))
    (q.toNat < s.par.qtSetCount.toNat →
      ∃ u, exec (.ctxIdx k q) s = .next u ∧ readDone s u (BitVec.ofInt 32
        (entry 0 (b.cur (x - 1) - b.top (x - 1)) + entry 1 (b.top (x - 1) - b.top x)
          + entry 2 (b.top x - b.top (x + 1)) + entry 3 (b.cur (x - 2) - b.cur (x - 1))
          + entry 4 (b.cur x - b.top x)))) ∧
    ∃ u, exec (.predMed k) s = .next u ∧ readDone s u (BitVec.ofInt 32
      (max (min l (l + t - tl)) (min (max l (l + t - tl)) t)))

/-- `PX_WRITE` completes inside the slice's part of a present plane and stores one sample, at the origin of
that part plus the column and `POS.y`; it changes nothing else (R204). -/
def Obligations.PxWriteStoresOneSample : Prop :=
  ∀ (s : State) (k : BitVec 16) (c : BitVec 2),
    s.hasEngine k.toNat = true → s.par.present c.toFin = true →
    s.arg0.toNat < (region s.par (s.engine k.toNat).sl c.toFin).w →
    s.arg1.toNat ≤ s.par.bitsMask.toNat →
    let e := s.engine k.toNat
    let px := (region s.par e.sl c.toFin).ox + s.arg0.toNat
    let py := (region s.par e.sl c.toFin).oy + e.posY
    ∃ t, exec (.pxWrite k c) s = .next t ∧ t.endedWith s.result ∧
      onlyEngineAndSamples k.toNat (fun p x y => p = c.toFin ∧ x = px ∧ y = py) s t ∧
      t.sample c.toFin px py = some s.arg1 ∧ t.engine k.toNat = e

/-- `SMP_DEC` completes on a column of an open plane: the sample is the predictor plus the mirrored delta,
masked; it goes to `cur[x]` and to the store at the origin plus the column and `POS.y`; no other sample and no
other entry of a line buffer changes; and the engine is the one that the coder left, with that entry written
and `POS.x` behind the column. With the range coder the coder is `RC_DELTA`, a signed symbol over the bank of the
context, and with Golomb-Rice it is `GR_DELTA`, as long as the context names a slot (R146, R171, R203); the
context that names none is a free value (log 19), and contexts from 16384 on are the model's choice (log 31). -/
def Obligations.SmpDecReconstructsOneSample : Prop :=
  ∀ (s : State) (k : BitVec 16) (c : Fin 4),
    s.hasEngine k.toNat = true → s.arg0 = BitVec.ofNat 32 c.val →
    ((s.engine k.toNat).line c).isOpen = true →
    s.arg1.toNat < (region s.par (s.engine k.toNat).sl c).w →
    let e := s.engine k.toNat
    let x := s.arg1.toNat
    let px := (region s.par e.sl c).ox + x
    let py := (region s.par e.sl c).oy + e.posY
    let p := slot c
    let q := e.sl.qtiAt p
    let ctx := ctxIdx s.par (e.line c) x q
    let r := delta s.sliceIn p q ctx.natAbs e
    let d := if ctx < 0 then 0 - r.2 else r.2
    let v := (BitVec.ofInt 32 (predMed s.par (e.line c) x) + d) &&& s.par.bitsMask
    let n := ctx.natAbs
    (s.par.coderType = true → q.toNat < s.par.qtSetCount.toNat → n < s.par.ctxCount q → n < 16384 →
      r = rcSsym s.inMem (.ps p q (BitVec.ofNat 14 n) 0) e) ∧
    (s.par.coderType = false → e.gr.selP.toNat ≤ 2 → e.gr.selQ.toNat < s.par.qtSetCount.toNat →
      n < s.par.ctxCount e.gr.selQ → r = grDelta s.inMem s.par.bitsMax.toNat n e) ∧
    ∃ t, exec (.smpDec k) s = .next t ∧ t.endedWith v ∧
      onlyEngineAndSamples k.toNat (fun p x y => p = c ∧ x = px ∧ y = py) s t ∧
      t.sample c px py = some v ∧
      (let f := t.engine k.toNat
       f = { r.1.setLine c ((r.1.line c).setCur x v) with posX := x + 1 } ∧
       f.lines = (e.setLine c (f.line c)).lines ∧
       (f.line c).isOpen = (e.line c).isOpen ∧ (f.line c).sel = (e.line c).sel ∧
       (∀ j : Int, -2 ≤ j → (f.line c).cur j = if j = x then v else (e.line c).cur j) ∧
       (∀ j : Int, -2 ≤ j → (f.line c).top j = (e.line c).top j) ∧
       f.posX = x + 1 ∧ f.posY = e.posY ∧ f.sl = e.sl)

/-- `LINE_DEC` completes on a row of an open plane. The line starts in an engine in which the two buffers have
swapped their roles, `cur[-1]` is `top[0]`, `top[w]` is `top[w-1]`, the position is the start of the row, and,
with the Golomb-Rice coder, the run restarts on the pair of the plane; from there the samples of the row are
decoded column by column, each as `SMP_DEC` does. Exactly the samples of that row inside the slice's part of
the plane are written, each within `bits_mask`; the sample position ends behind the row (R203, R206). -/
def Obligations.LineDecWritesOneRow : Prop :=
  ∀ (s : State) (k : BitVec 16) (c : Fin 4),
    s.hasEngine k.toNat = true → s.arg0 = BitVec.ofNat 32 c.val →
    ((s.engine k.toNat).line c).isOpen = true →
    s.arg1.toNat < (region s.par (s.engine k.toNat).sl c).h →
    let e := s.engine k.toNat
    let g := region s.par e.sl c
    let row := fun (p : Fin 4) (x y : Nat) =>
      p = c ∧ g.ox ≤ x ∧ x < g.ox + g.w ∧ y = g.oy + s.arg1.toNat
    ∃ t, exec (.lineDec k) s = .next t ∧ t.endedWith s.result ∧
      onlyEngineAndSamples k.toNat row s t ∧
      (∀ p x y, row p x y → ∃ v, t.sample p x y = some v ∧ v &&& s.par.bitsMask = v) ∧
      (let f := startLine s.sliceIn c s.arg1.toNat e
       f = { e with lines := f.lines, gr := f.gr, posC := BitVec.ofFin c, posY := s.arg1.toNat, posX := 0 } ∧
       f.lines = (e.setLine c (f.line c)).lines ∧
       (f.line c).isOpen = (e.line c).isOpen ∧ (f.line c).sel = !(e.line c).sel ∧
       (∀ j : Int, -2 ≤ j → (f.line c).cur j = if j = -1 then (e.line c).cur 0 else (e.line c).top j) ∧
       (∀ j : Int, -2 ≤ j → (f.line c).top j =
         if j = g.w then (e.line c).cur ((g.w : Int) - 1) else (e.line c).cur j) ∧
       f.gr = (if s.par.coderType then e.gr else
         { runIndex := e.gr.runIndex, runMode := .stop, runLen := 0, x := 0, w := g.w
           selP := slot c, selQ := e.sl.qtiAt (slot c) }) ∧
       t.engine k.toNat = rowEngine s.sliceIn c f g.w ∧
       t.engine k.toNat = lineEngine s.sliceIn c s.arg1.toNat e ∧
       ∀ x, x < g.w → t.sample c (g.ox + x) (g.oy + s.arg1.toNat) =
         some (sampleStep s.sliceIn c x (rowEngine s.sliceIn c f x)).2) ∧
      (t.engine k.toNat).posC.toNat = c.val ∧ (t.engine k.toNat).posY = s.arg1.toNat ∧
      (t.engine k.toNat).posX = g.w ∧ (t.engine k.toNat).sl = e.sl

/-- `PLANE_DEC` completes on a present plane. It starts with every entry of the plane's line buffers 0 and, with
the Golomb-Rice coder, `run_index` 0, nothing else of the engine but the other pairs' open marks changed; from
there the rows are decoded from the first to the last, each as `LINE_DEC` does. Exactly the samples of the
slice's part of the plane are written, each within `bits_mask` (R206, R207, R208). That the plane's line buffers
are open afterwards, and those of the other planes are not, is the model's choice of when a plane is open, which
R207 and R208 do not say (log 16). -/
def Obligations.PlaneDecWritesItsRegion : Prop :=
  ∀ (s : State) (k : BitVec 16) (c : Fin 4),
    s.hasEngine k.toNat = true → s.arg0 = BitVec.ofNat 32 c.val → s.par.present c = true →
    let e := s.engine k.toNat
    let g := region s.par e.sl c
    let f := startPlanes s.sliceIn (· == c) e
    f = { e with lines := f.lines, gr := if s.par.coderType then e.gr else { e.gr with runIndex := 0 } } ∧
    (∀ j, (f.line c).cur j = 0 ∧ (f.line c).top j = 0) ∧
    (f.line c).isOpen = true ∧ (f.line c).sel = (e.line c).sel ∧
    (∀ d, d ≠ c → f.line d = { e.line d with isOpen := false }) ∧
    ∃ t, exec (.planeDec k) s = .next t ∧ t.endedWith s.result ∧
      onlyEngineAndSamples k.toNat (inRegion s.par e.sl c) s t ∧
      (∀ p x y, inRegion s.par e.sl c p x y → ∃ v, t.sample p x y = some v ∧ v &&& s.par.bitsMask = v) ∧
      t.engine k.toNat = planeRows s.sliceIn c f g.h ∧ t.engine k.toNat = planeEngine s.sliceIn c e ∧
      (∀ x y, x < g.w → y < g.h → t.sample c (g.ox + x) (g.oy + y) =
        some (lineSample s.sliceIn c y x (planeRows s.sliceIn c f y))) ∧
      ((t.engine k.toNat).line c).isOpen = true ∧ (t.engine k.toNat).sl = e.sl

/-- `RGB_DEC` completes. It starts with every entry of the line buffers of the first `plane_count` planes 0 and,
with the Golomb-Rice coder, `run_index` 0, once for the slice; from there line `y` of each plane in turn is
decoded as `LINE_DEC` does, before line `y + 1` of the first. Of each of these planes exactly the samples of the
slice's columns and of its `SL.h` rows are written, each within `bits_mask` (R206, R212). That it is not refused
in the YCbCr model, of which R212 does not speak, is the model's choice (log 17), and so are the open marks of the
line buffers (log 16). -/
def Obligations.RgbDecWritesItsPlanes : Prop :=
  ∀ (s : State) (k : BitVec 16), s.hasEngine k.toNat = true →
    let e := s.engine k.toNat
    let used := fun (c : Fin 4) => c.val < s.par.planeCount.toNat
    let area := fun (p : Fin 4) (x y : Nat) =>
      let g := region s.par e.sl p
      used p ∧ g.ox ≤ x ∧ x < g.ox + g.w ∧ g.oy ≤ y ∧ y < g.oy + e.sl.h
    let f := rgbStart s.sliceIn e
    f = { e with lines := f.lines, gr := if s.par.coderType then e.gr else { e.gr with runIndex := 0 } } ∧
    (∀ c, used c → (f.line c).isOpen = true ∧ (f.line c).sel = (e.line c).sel ∧
      ∀ j, (f.line c).cur j = 0 ∧ (f.line c).top j = 0) ∧
    (∀ d, ¬ used d → f.line d = { e.line d with isOpen := false }) ∧
    ∃ t, exec (.rgbDec k) s = .next t ∧ t.endedWith s.result ∧
      onlyEngineAndSamples k.toNat area s t ∧
      (∀ p x y, area p x y → ∃ v, t.sample p x y = some v ∧ v &&& s.par.bitsMask = v) ∧
      t.engine k.toNat = rgbRows s.sliceIn f e.sl.h ∧
      (∀ c x y, used c → x < (region s.par e.sl c).w → y < e.sl.h →
        t.sample c ((region s.par e.sl c).ox + x) ((region s.par e.sl c).oy + y) =
          some (lineSample s.sliceIn c y x (rgbRow s.sliceIn y (rgbRows s.sliceIn f y) c.val))) ∧
      (t.engine k.toNat).sl = e.sl

/-! ## Parameters -/

/-- `PAR_DERIVE` completes for a bit depth of at most 16 and writes the derived fields and nothing else of
the record; a greater depth raises `E_BITDEPTH_UNSUPPORTED` (R240). -/
def Obligations.ParDeriveComputesTheFields : Prop :=
  ∀ s : State,
    let p := s.par
    let bits := p.bitsPerRawSample.toNat + (if p.colorspaceType then 1 else 0)
    let alpha := if p.alphaPlane then 1 else 0
    (p.bitsPerRawSample.toNat ≤ 16 → exec .parDerive s = .next { s with
      busy := false, done := true, fail := false
      par := { p with
        bitsMax := BitVec.ofNat 6 bits
        bitsMask := BitVec.ofNat 32 (2 ^ bits - 1)
        planeCount := BitVec.ofNat 3
          (if p.colorspaceType then 3 + alpha else 1 + (if p.chromaPlanes then 2 else 0) + alpha)
        qtiCount := BitVec.ofNat 2 (2 + alpha)
        tailSize := if p.configPresent = false then 0 else if p.ec then 8 else 3
        isOverflow16 := decide (p.colorspaceType = false ∧ p.bitsPerRawSample = 16 ∧ p.coderType = true) } }) ∧
    (16 < p.bitsPerRawSample.toNat → exec .parDerive s = .next { s with
      busy := false, done := false, fail := true, underrun := false, lastError := 0x203, errSlice := 0xFFFF })

/-- `PAR_QTAB` completes when its runs cover the 128 entries: run number `i`, from 0 on, has the value `scale
* i` in each of its entries, the lengths being the symbols plus 1, and the result is twice the number of runs
less 1; so the result is odd and at most 255 and entry 0 is 0; the upper half mirrors the lower with opposite
sign, every other table keeps its entries; and of the engine only `QB` and the decoder change. Runs that pass
entry 127 raise `E_QT_RUN` (R231). Products above 32767, which a 16-bit entry does not hold, and entries equal
to -32768, which have no opposite in 16 bits, are left out (log 18). -/
def Obligations.ParQtabBuildsAMirroredTable : Prop :=
  ∀ (s : State) (k : BitVec 16) (q j : BitVec 3),
    s.hasEngine k.toNat = true → j.toNat ≤ 4 → 1 ≤ s.arg0.toNat → s.arg0.toNat ≤ 32768 →
    let e := s.engine k.toNat
    let full := (qtabRuns s.inMem s.arg0.toNat 128 0 0 (stFill (.qb 0) 128 e)).full
    (full = true → ∃ t, exec (.parQtab k q j) s = .next t ∧ t.endedWith t.result ∧
      onlyEngineAndPar k.toNat s t ∧ t.par = { s.par with qt := t.par.qt } ∧
      onlyDecisions (inBank (.qb 0)) e (t.engine k.toNat) ∧
      (∃ runs,
        let r := symbolsRead s.inMem (.qb 0) runs (stFill (.qb 0) 128 e)
        let lengths := r.2.map (· + 1)
        lengths.sum = 128 ∧ t.engine k.toNat = r.1 ∧ t.result.toNat = 2 * runs - 1 ∧
        ∀ n i, (lengths.take i).sum ≤ n → n < (lengths.take (i + 1)).sum → s.arg0.toNat * i ≤ 32767 →
          (t.par.qtAt q j.toNat n).toInt = (s.arg0.toNat * i : Nat)) ∧
      parQtab s.inMem q j.toNat s.arg0.toNat (s.parseSt k.toNat) =
        .ok t.result.toNat ⟨t.par, t.engine k.toNat⟩ ∧
      t.result.toNat % 2 = 1 ∧ t.result.toNat ≤ 255 ∧
      t.par.qtAt q j.toNat 0 = 0 ∧
      (∀ n, 1 ≤ n → n ≤ 127 → (t.par.qtAt q j.toNat n).toInt ≠ -32768 →
        (t.par.qtAt q j.toNat (256 - n)).toInt = -(t.par.qtAt q j.toNat n).toInt) ∧
      ((t.par.qtAt q j.toNat 127).toInt ≠ -32768 →
        (t.par.qtAt q j.toNat 128).toInt = -(t.par.qtAt q j.toNat 127).toInt) ∧
      ∀ (q' : BitVec 3) (j' n : Nat), j' ≤ 4 → n < 256 → (q', j') ≠ (q, j.toNat) →
        t.par.qtAt q' j' n = s.par.qtAt q' j' n) ∧
    (full = false → ∃ t, exec (.parQtab k q j) s = .next t ∧ t.failedWith .qtRun noSlice ∧
      t.par = { s.par with qt := t.par.qt } ∧
      parQtab s.inMem q j.toNat s.arg0.toNat (s.parseSt k.toNat) = .raise .qtRun ⟨t.par, t.engine k.toNat⟩)

/-- `PAR_QTSET` builds its five tables in order, each with the product of the factors before it as its scale. It
completes when every table builds and no running product passes 32768: the result is the context count it stores,
(scale + 1) / 2 for the product of the five factors, 1..16384, and no other count changes. The first running
product that passes 32768 raises `E_QT_SCALE`, a table that does not build before that raises `E_QT_RUN`, and
then no count is stored (R230, R233). -/
def Obligations.ParQtsetBoundsTheScale : Prop :=
  ∀ (s : State) (k : BitVec 16) (q : BitVec 3), s.hasEngine k.toNat = true →
    let scale := scaleAfter s.inMem q (s.parseSt k.toNat)
    let inBounds := fun (n : Nat) => ∀ m, m ≤ n → ∃ a, scale m = some a ∧ a.1 ≤ 32768
    let fails := fun (err : ErrorName) => ∃ t, exec (.parQtset k q) s = .next t ∧ t.failedWith err noSlice ∧
      sameInput s t ∧ sameSamples s t ∧ sameOtherEngines k.toNat s t ∧
      t.par = { s.par with qt := t.par.qt } ∧
      onlyDecisions (inBank (.qb 0)) (s.engine k.toNat) (t.engine k.toNat)
    (∀ a, inBounds 5 → scale 5 = some a →
      let n := (a.1 + 1) / 2
      ∃ t, exec (.parQtset k q) s = .next t ∧ t.endedWith (BitVec.ofNat 32 n) ∧
        onlyEngineAndPar k.toNat s t ∧ 1 ≤ n ∧ n ≤ 16384 ∧ t.par.ctxCount q = n ∧
        (∀ q', q' ≠ q → t.par.ctxCount q' = s.par.ctxCount q') ∧
        t.par = { s.par with qt := a.2.par.qt, contextCount := t.par.contextCount } ∧
        t.engine k.toNat = a.2.eng ∧
        onlyDecisions (inBank (.qb 0)) (s.engine k.toNat) (t.engine k.toNat)) ∧
    (∀ n a, n < 5 → inBounds n → scale (n + 1) = some a → 32768 < a.1 → fails .qtScale) ∧
    ∀ n, n < 5 → inBounds n → scale (n + 1) = none → fails .qtRun

/-- `PAR_INIST` completes: its result is the decision over `HB[0]`; when that is 0 every state of the set's
contexts is 128; when it is 1, state `i` of a context is state `i` of the context before, or 128 in context
0, plus a signed symbol over `IB[i]`, the symbols read in the order of the states; no other set's template
changes (R236). -/
def Obligations.ParInistFillsTheSet : Prop :=
  ∀ (s : State) (k : BitVec 16) (q : BitVec 3), s.hasEngine k.toNat = true →
    let e := s.engine k.toNat
    let coded := (rcBit s.inMem (.hb 0) e).2
    let reader := stateReader s.inMem (rcBit s.inMem (.hb 0) e).1
    ∃ t, exec (.parInist k q) s = .next t ∧ t.endedWith (if coded then 1 else 0) ∧
      onlyEngineAndPar k.toNat s t ∧ t.par = { s.par with init := t.par.init } ∧
      onlyDecisions (fun r => r = .hb 0 ∨ ∃ i j, r = .ib i j) e (t.engine k.toNat) ∧
      (coded = false → t.engine k.toNat = (rcBit s.inMem (.hb 0) e).1 ∧
        ∀ ctx i, ctx < s.par.ctxCount q → i < 32 → t.par.initAt q ctx i = 128) ∧
      (coded = true → t.engine k.toNat = reader (32 * s.par.ctxCount q) ∧
        ∀ ctx i, ctx < s.par.ctxCount q → i < 32 → t.par.initAt q ctx i =
          (if ctx = 0 then 128 else t.par.initAt q (ctx - 1) i) +
            (rcSsym s.inMem (.ib (BitVec.ofNat 5 i) 0) (reader (32 * ctx + i))).2.setWidth 8) ∧
      ∀ (q' : BitVec 3) (ctx i : Nat), ctx < 2 ^ 15 → i < 32 → q' ≠ q →
        t.par.initAt q' ctx i = s.par.initAt q' ctx i

/-- `PAR_PARSE` under its preconditions reads the record row by row, in the order and with the checks of the table
of R222, and then derives, tests for an underrun and declares the record valid (`recordParse`). When no check
fails it completes: the record is the one so read, valid and legal, `CONFIG_PRESENT` says which kind it is, and
the decoder reports no underrun. When a check fails the command ends with its error, with what was read before it
in place, and the record is not valid (R221, R222, R223, R246). -/
def Obligations.ParParseEndsValidOrNot : Prop :=
  ∀ (s : State) (k : BitVec 16) (oob : Bool),
    s.hasEngine k.toNat = true → 1 ≤ s.width.toNat → 1 ≤ s.height.toNat →
    (s.engine k.toNat).rc.one = Config.defaultTransition →
    (∀ st, recordParse (s.parseIn oob) (s.parseSt k.toNat) = .ok () st →
      ∃ t, exec (.parParse k oob) s = .next t ∧ t.endedWith s.result ∧ onlyEngineAndPar k.toNat s t ∧
        t.par = st.par ∧ t.engine k.toNat = st.eng ∧
        t.par.valid = true ∧ t.par.configPresent = oob ∧ t.par.ok ∧
        t.par.numHSlices.toNat ≤ s.width.toNat ∧ t.par.numVSlices.toNat ≤ s.height.toNat ∧
        rcUnderrun (t.engine k.toNat).rc = false) ∧
    (∀ err st, recordParse (s.parseIn oob) (s.parseSt k.toNat) = .raise err st →
      ∃ t, exec (.parParse k oob) s = .next t ∧ t.failedWith err noSlice ∧
        sameInput s t ∧ sameSamples s t ∧ t.par = st.par ∧ t.engine k.toNat = st.eng ∧
        t.par.valid = false ∧ t.par.configPresent = oob ∧ sameOtherEngines k.toNat s t)

/-! ## Slices -/

/-- `SL_OPEN` completes on a legal buffer, creating the engine it names when needed: the state machine is in
`Created` with no error, and the window is the buffer, or the decoder's own when the slice continues it.
Without `cont` the decoder is armed on the buffer, and slice 0 then fills `KS` with 128 and takes the one
decision over it, the keyframe bit, which is discarded (R263). -/
def Obligations.SlOpenStartsTheSlice : Prop :=
  ∀ (s : State) (k : BitVec 16) (cont : Bool),
    k.toNat < 65535 → s.par.valid = true →
    (cont = true → k = 0 ∧ s.par.configPresent = false) →
    (cont = false → s.par.tailSize.toNat ≤ s.arg1.toNat ∧ s.arg0.toNat + s.arg1.toNat ≤ 2 ^ 32 - 2) →
    let e := s.engine k.toNat
    let armed := (rcArm s.inMem s.arg0 s.arg1 Config.defaultTransition e).rc
    ∃ t, exec (.slOpen k cont) s = .next t ∧ unitDone k.toNat s t s.result ∧
      (let f := t.engine k.toNat
       f.opened = true ∧
       f.sl = { e.sl with
         fsm := .created, err := 0, underrun := false, used := 0
         bufBeg := if cont then e.rc.bufBeg else BitVec.ofNat _ s.arg0.toNat
         bufEnd := if cont then e.rc.bufEnd else BitVec.ofNat _ (s.arg0.toNat + s.arg1.toNat) } ∧
       f = { e with opened := true, sl := f.sl, rc := f.rc, sm := f.sm } ∧
       (cont = true → f.rc = e.rc ∧ f.sm = e.sm) ∧
       (cont = false → k ≠ 0 → f.rc = armed ∧ f.sm = e.sm) ∧
       (cont = false → k = 0 →
         f = (rcBit s.inMem .ks (stFill .ks 128 { e with opened := true, sl := f.sl, rc := armed })).1))

/-- `SL_HEADER` in `Created` fills `HB` with 128. Without a configuration record the region is the whole frame and
every table-set index is 0. With one it reads symbols over `HB` in this order: slice x, slice y, width less 1,
height less 1, one index for each slot, and the three advisory fields. An origin or extent outside the grid ends
it with `E_SLICE_GEOMETRY` after the first four, the first index that is no set with `E_QT_INDEX` after it, and the
state machine is in `Error`; else it completes with the region: its bounds are the floors of the grid bounds, it
lies in the frame, and it is not empty as long as the grid does not exceed the frame. Of the rest of the engine
only `HB` and the range decoder change (R105, R261, R264, R273). With more than 8 table sets, which only a
direct load leaves, an index is stored by its low 3 bits, the model's choice (log 32). -/
def Obligations.SlHeaderPlacesTheRegion : Prop :=
  ∀ (s : State) (k : BitVec 16), s.hasEngine k.toNat = true → (s.engine k.toNat).sl.fsm = .created →
    let e := s.engine k.toNat
    let width := s.width.toNat
    let height := s.height.toNat
    let nh := s.par.numHSlices.toNat
    let nv := s.par.numVSlices.toNat
    let slots := s.par.qtiCount.toNat
    let start := stFill (.hb 0) 128 e
    let after := fun (n : Nat) => (symbolsRead s.inMem (.hb 0) n start).1
    let v := fun (n : Nat) => (symbolsRead s.inMem (.hb 0) (7 + slots) start).2.getD n 0
    let grid : Sl := { e.sl with
      sliceX := BitVec.ofNat 32 (v 0), sliceY := BitVec.ofNat 32 (v 1)
      widthM1 := BitVec.ofNat 32 (v 2), heightM1 := BitVec.ofNat 32 (v 3) }
    let x := v 0 * width / nh
    let y := v 1 * height / nv
    let placed : Sl := { grid with
      x := x, w := (v 0 + v 2 + 1) * width / nh - x, y := y, h := (v 1 + v 3 + 1) * height / nv - y }
    let inGrid := v 0 < nh ∧ v 1 < nv ∧ v 0 + v 2 + 1 ≤ nh ∧ v 1 + v 3 + 1 ≤ nv
    let isSet := fun (p : Nat) => v (4 + p) < s.par.qtSetCount.toNat
    (s.par.configPresent = false →
      ∃ t, exec (.slHeader k) s = .next t ∧ unitDone k.toNat s t s.result ∧
        (∀ i, (t.engine k.toNat).state (.hb i) = 128) ∧
        (∀ r, ¬ inBank (.hb 0) r → (t.engine k.toNat).state r = e.state r) ∧
        t.engine k.toNat = { e with
          sm := (t.engine k.toNat).sm
          sl := { e.sl with
            sliceX := 0, sliceY := 0, widthM1 := 0, heightM1 := 0
            x := 0, y := 0, w := s.width.toNat, h := s.height.toNat
            qti := Vector.replicate 3 0, fsm := .headerParsed } }) ∧
    (s.par.configPresent = true →
      ∃ t, exec (.slHeader k) s = .next t ∧
        (let f := t.engine k.toNat
         onlyDecisions (inBank (.hb 0)) { e with sl := f.sl } f ∧
         (inGrid → (∀ p, p < slots → isSet p) →
           unitDone k.toNat s t s.result ∧
           f = { after (7 + slots) with sl := { placed with
             qti := f.sl.qti, fsm := .headerParsed
             pictureStructure := BitVec.ofNat 32 (v (4 + slots))
             sarNum := BitVec.ofNat 32 (v (5 + slots)), sarDen := BitVec.ofNat 32 (v (6 + slots)) } } ∧
           (∀ p : BitVec 2, p.toNat < slots → f.sl.qtiAt p = BitVec.ofNat 3 (v (4 + p.toNat))) ∧
           (∀ p : BitVec 2, p.toNat < slots → (f.sl.qtiAt p).toNat < s.par.qtSetCount.toNat) ∧
           (slots = 2 → f.sl.qtiAt 2 = 0) ∧
           f.sl.x + f.sl.w = (v 0 + v 2 + 1) * width / nh ∧ f.sl.y + f.sl.h = (v 1 + v 3 + 1) * height / nv ∧
           f.sl.x + f.sl.w ≤ width ∧ f.sl.y + f.sl.h ≤ height ∧
           (nh ≤ width → 1 ≤ f.sl.w) ∧ (nv ≤ height → 1 ≤ f.sl.h)) ∧
         (¬ inGrid → t.failedWith .sliceGeometry k ∧ sameSamples s t ∧ sameOtherEngines k.toNat s t ∧
           f = { after 4 with sl := { grid with err := 0x110, fsm := .error } }) ∧
         (∀ p, inGrid → p < slots → (∀ p', p' < p → isSet p') → ¬ isSet p →
           t.failedWith .qtIndex k ∧ sameSamples s t ∧ sameOtherEngines k.toNat s t ∧
           f = { after (5 + p) with sl := { placed with qti := f.sl.qti, err := 0x111, fsm := .error } })))

/-- `SL_CRC` completes once the slice is open and only reads: its result is the remainder of the buffer's bits, the
first bit of each byte bit 7, times `x^32`, on division by the polynomial `0x04C11DB7`. `SL_CONTENT` in
`HeaderParsed` writes no sample outside the slice's region. When the CRC is asked for and is not 0 it raises
`E_SLICE_CRC` before any sample is written. Else the window ends at `SL.cont_end`, the end of the buffer less
the tail, with the custom table if there is one; the marker that closes a range-coded part is one decision over
`TS` filled with 129; the planes are decoded in their order: 0, then 1 and 2, then 3 in the YCbCr model, line by
line in the RGB model; and every sample of the region in every decoded plane is the one so decoded. It raises
`E_UNDERRUN` when the range decoder is past its end after the ending marker, or before the planes on the
Golomb-Rice path (then no sample is written), or when the bit reader is exhausted after them; else it completes,
with `SL.used` the bytes used (R72, R76, R209, R265, R266, R267, R268, R269, R270, R272, R273). That a tail longer
than the buffer leaves an empty window is the model's choice (log 20). -/
def Obligations.SlContentStaysInItsRegion : Prop :=
  ∀ (s : State) (k : BitVec 16), s.hasEngine k.toNat = true →
    let e := s.engine k.toNat
    let crc := polyRemainder
      (bufferBits s.inMem e.sl.bufBeg.toNat (e.sl.bufEnd.toNat - e.sl.bufBeg.toNat) ++ List.replicate 32 false)
    let crcBad := s.par.configPresent = true ∧ s.par.ec = true ∧ crc ≠ 0
    let contEnd := e.sl.bufEnd.toNat - s.par.tailSize.toNat
    let table := if s.par.customPresent then s.par.customTransition else Config.defaultTransition
    let window : Sl := { e.sl with contEnd := BitVec.ofNat _ contEnd }
    let trimmed : Engine := { e with
      sl := window
      rc := { e.rc with
        bufEnd := e.rc.bufBeg + BitVec.ofNat _ (contEnd - e.sl.bufBeg.toNat)
        one := table, zero := zeroTable table } }
    let marker := fun (g : Engine) => (rcBit s.inMem .ts (g.setState .ts 129)).1
    let planes := contentEngine s.sliceIn
    (e.opened = true → ∃ t, exec (.slCrc k) s = .next t ∧ readDone s t crc) ∧
    (e.sl.fsm = .headerParsed →
      ∃ t, exec (.slContent k) s = .next t ∧
        sameInput s t ∧ sameOtherEngines k.toNat s t ∧
        (∀ p x y, ¬ inRegion s.par e.sl p p x y → t.sample p x y = s.sample p x y) ∧
        (let f := t.engine k.toNat
         let decoded := fun (g : Engine) => regionFilled s.par e.sl t ∧
           ∀ c x y, decodesPlane s.par c → x < (region s.par e.sl c).w → y < (region s.par e.sl c).h →
             t.sample c ((region s.par e.sl c).ox + x) ((region s.par e.sl c).oy + y) =
               some (contentSample s.sliceIn c y x g)
         let completes := fun (g : Engine) (used : Nat) => t.endedWith s.result ∧
           onlyEngineAndSamples k.toNat (fun p x y => inRegion s.par e.sl p p x y) s t ∧
           f = { g with sl := { window with used := used, fsm := .contentDecoded } }
         let ranOut := fun (g : Engine) => t.failedWith .underrun k ∧
           f = { g with sl := { window with underrun := true, err := 0x301, fsm := .error } }
         (crcBad → t.failedWith .sliceCrc k ∧ sameSamples s t ∧
           f = { e with sl := { e.sl with err := 0x112, fsm := .error } }) ∧
         (¬ crcBad → s.par.coderType = true →
           let g := marker (planes trimmed)
           decoded trimmed ∧ (rcUnderrun g.rc = true → ranOut g) ∧
             (rcUnderrun g.rc = false → completes g (rcUsedBytes g.rc))) ∧
         (¬ crcBad → s.par.coderType = false →
           let g := if s.par.version = 3 ∧ 1 < s.par.microVersion.toNat then marker trimmed else trimmed
           let off := rcUsedBytes g.rc
           let reading := bsArm (e.sl.bufBeg + BitVec.ofNat _ off)
             (BitVec.ofNat _ (contEnd - e.sl.bufBeg.toNat - off)) g
           let b := planes reading
           (rcUnderrun g.rc = true → ranOut g ∧ sameSamples s t) ∧
           (rcUnderrun g.rc = false → decoded reading ∧
             (b.bs.underflow = true → ranOut b) ∧
             (b.bs.underflow = false → completes b (off + bsUsedBytes b.bs))))))

/-- `SL_FOOTER` in `ContentDecoded`: a status byte other than 0 raises `E_SLICE_ERROR_STATUS`; then a count of
used bytes that does not fill the buffer raises `E_SLICE_JUNK`; else the slice is `Done` and nothing else of
the engine changes (R271, R273). -/
def Obligations.SlFooterAccountsForEveryByte : Prop :=
  ∀ (s : State) (k : BitVec 16), s.hasEngine k.toNat = true →
    (s.engine k.toNat).sl.fsm = .contentDecoded →
    let e := s.engine k.toNat
    let badStatus := s.par.configPresent = true ∧ s.par.ec = true ∧
      inByte s.inMem (e.sl.contEnd.toNat + 3) ≠ 0
    let fits := e.sl.used + s.par.tailSize.toNat = e.sl.bufEnd.toNat - e.sl.bufBeg.toNat
    ∃ t, exec (.slFooter k) s = .next t ∧ sameSamples s t ∧ sameOtherEngines k.toNat s t ∧
      (badStatus → t.failedWith .sliceErrorStatus k ∧
        t.engine k.toNat = { e with sl := { e.sl with err := 0x113, fsm := .error } }) ∧
      (¬ badStatus → ¬ fits → t.failedWith .sliceJunk k ∧
        t.engine k.toNat = { e with sl := { e.sl with err := 0x114, fsm := .error } }) ∧
      (¬ badStatus → fits → unitDone k.toNat s t s.result ∧
        t.engine k.toNat = { e with sl := { e.sl with fsm := .done } })

/-- `SL_RUN` on a legal buffer completes when the task raises no error: the slice is `Done` with no error,
every byte of its buffer is accounted for, and the samples of its region have been written and no others. When
it raises one, `SL.err` holds the code, the state machine is in `Error`, and the command fails with that code
and `ERR_SLICE` the slice (R76, R262, R271, R273). That R262's precondition of an earlier `GOP_Init` is not
checked is the model's choice (log 15). -/
def Obligations.SlRunEndsDoneOrError : Prop :=
  ∀ (s : State) (k : BitVec 16) (cont : Bool), s.openOk k cont = true →
    let task := slRun s.sliceIn k.toNat s.arg0 s.arg1 cont (s.sliceSt k.toNat)
    (∀ st, task = .ok () st →
      ∃ t, exec (.slRun k cont) s = .next t ∧ t.endedWith s.result ∧
        (let sl := (t.engine k.toNat).sl
         onlyEngineAndSamples k.toNat (fun p x y => inRegion s.par sl p p x y) s t ∧
         regionFilled s.par sl t ∧ sl.fsm = .done ∧ sl.err = 0 ∧ sl.underrun = false ∧
         sl.used + s.par.tailSize.toNat = sl.bufEnd.toNat - sl.bufBeg.toNat)) ∧
    (∀ err st, task = .raise err st →
      ∃ t, exec (.slRun k cont) s = .next t ∧ t.failedWith err k ∧ sameInput s t ∧
        sameOtherEngines k.toNat s t ∧ t.par = s.par ∧
        (t.engine k.toNat).sl.err = err.code ∧ (t.engine k.toNat).sl.fsm = .error)

/-! ## Frames -/

/-- `FR_KEYBIT` completes on a legal buffer: the decoder of engine 0 is armed on it, `KS` is 128, and the first
decision, over `KS`, is `FR.keyframe` and the result; of a buffer of two bytes or more it is 1 exactly when the
first two bytes are at least `7F 80`. Of engine 0 nothing but the range decoder and `KS` changes (R294). -/
def Obligations.FrKeybitReadsTheFirstDecision : Prop :=
  ∀ s : State, s.arg0.toNat + s.arg1.toNat ≤ 2 ^ 32 - 2 →
    ∃ t, exec .frKeybit s = .next t ∧ t.endedWith (if t.keyframe then 1 else 0) ∧
      sameInput s t ∧ sameSamples s t ∧ sameOtherEngines 0 s t ∧
      t = { s with engines := t.engines, keyframe := t.keyframe, result := t.result,
                   busy := t.busy, done := t.done, fail := t.fail } ∧
      (2 ≤ s.arg1.toNat → (t.keyframe = true ↔
        0x7F80 ≤ (inByte s.inMem s.arg0.toNat).toNat * 256 + (inByte s.inMem (s.arg0.toNat + 1)).toNat)) ∧
      t.engine 0 = { s.engine 0 with rc := (t.engine 0).rc, sm := (t.engine 0).sm } ∧
      (∀ r, r ≠ .ks → (t.engine 0).state r = (s.engine 0).state r) ∧
      let first := rcBit s.inMem .ks
        ((rcArm s.inMem s.arg0 s.arg1 Config.defaultTransition (s.engine 0)).setState .ks 128)
      t.engine 0 = first.1 ∧ t.keyframe = first.2

/-- `FR_LOCATE` on a legal buffer. Without a configuration record the one slice is the buffer. With one, when
the walk succeeds, the slices lie one behind the other and fill the buffer exactly, there are at least one
and at most the limit, each is its tail longer than the number in its size field, and the result is their
number; when it fails, with `E_FRAME_TAIL` or `E_SLICE_COUNT`, the list keeps its value (R70, R296, R297). -/
def Obligations.FrLocateTilesTheBuffer : Prop :=
  ∀ s : State, s.arg0.toNat + s.arg1.toNat ≤ 2 ^ 32 - 2 →
    let grid := min (s.par.numHSlices.toNat * s.par.numVSlices.toNat) 65535
    let limit := if s.keyframe then grid else min grid s.gopSlices
    (s.par.configPresent = false →
      ∃ t, exec .frLocate s = .next t ∧ readDone { s with loc := [⟨s.arg0, s.arg1⟩] } t 1) ∧
    (s.par.configPresent = true →
      (∀ u, frLocate s.arg0 s.arg1 s = .ok () u →
        ∃ t, exec .frLocate s = .next t ∧ readDone { s with loc := t.loc } t (BitVec.ofNat 32 t.loc.length) ∧
          tiles s.arg0.toNat (s.arg0.toNat + s.arg1.toNat) t.loc ∧
          1 ≤ t.loc.length ∧ t.loc.length ≤ limit ∧
          ∀ l ∈ t.loc, l.len.toNat =
            memRead s.inMem (l.base.toNat + l.len.toNat - s.par.tailSize.toNat) 3 + s.par.tailSize.toNat) ∧
      (∀ err u, frLocate s.arg0 s.arg1 s = .raise err u →
        ∃ t, exec .frLocate s = .next t ∧ (err = .frameTail ∨ err = .sliceCount) ∧
          t.failedWith err noSlice ∧ t.loc = s.loc))

/-- `FR_GOPINIT` completes: every engine of a located slice gets the templates of the coder in use, the
others keep theirs, and `FR.gop_slices` is the number of located slices (R299). That a missing engine is
created is the model's reading (log 27); that the command runs without a valid record is its choice
(log 15). -/
def Obligations.FrGopinitPreparesEveryLocatedSlice : Prop :=
  ∀ s : State, ∃ t, exec .frGopinit s = .next t ∧ t.endedWith s.result ∧
    (∀ k, k < s.loc.length → t.hasEngine k = true ∧
      t.engine k = (if s.par.coderType then rcGopinit s.par (s.engine k) else grGopinit s.par (s.engine k))) ∧
    (∀ k, s.loc.length ≤ k → t.hasEngine k = s.hasEngine k ∧ t.engine k = s.engine k) ∧
    sameInput s t ∧ sameSamples s t ∧
    t = { s with engines := t.engines, gopSlices := s.loc.length, busy := false, done := true, fail := false }

/-- `FR_DISPATCH`, `FR_FINAL` and `GET_ERR` complete: the first submits one task for each located slice, in
index order, and with one worker runs them itself, one after the other; the second changes nothing; the third
answers `LAST_ERROR` and does not change it. `OUT_CREATE` completes under a valid record: it packs `OUT_INFO`,
answers it, and gives the planes their sizes, rounded up (R77); no sample has a value afterwards, which is the
model's reading of "unspecified until written" (log 7) (R301, R302, R305, R306, R307). That `FR_DISPATCH` with
more workers runs no task, and puts its tasks behind those still in flight, is the model's choice (log 10): R301
lets tasks start at once. What it does with `written`, and that `OUT_CREATE` empties it, is the model's
bookkeeping of U6 (log 9). -/
def Obligations.FrameBookkeepingCommands : Prop :=
  ∀ s : State,
    (∃ new : List Task, new.length = s.loc.length ∧
      (∀ n l, s.loc[n]? = some l → new[n]? = some (Task.mk n l.base l.len !s.par.configPresent)) ∧
      (let before := if s.tasks = [] then [] else s.written
       (2 ≤ s.workers → exec .frDispatch s = .next { s with
          tasks := s.tasks ++ new, written := before, busy := false, done := true, fail := false }) ∧
       (s.workers ≤ 1 → exec .frDispatch s = .next
          { (s.tasks ++ new).foldl (fun v a => runTask a v) { s with tasks := [], written := before } with
            written := [], busy := false, done := true, fail := false }))) ∧
    (∃ t, exec .frFinal s = .next t ∧ readDone s t s.result) ∧
    (∃ t, exec .getErr s = .next t ∧ readDone s t (s.lastError.setWidth 32)) ∧
    (s.par.valid = true →
      ∃ t, exec .outCreate s = .next t ∧
        t = { s with plane := [], written := [], planeSizes := t.planeSizes, outInfo := t.outInfo,
                     result := t.outInfo, busy := false, done := true, fail := false } ∧
        t.outInfo.extractLsb' 0 7 = s.par.bitsPerRawSample ∧
        t.outInfo.getLsbD 7 = s.par.colorspaceType ∧ t.outInfo.getLsbD 8 = s.par.chromaPlanes ∧
        t.outInfo.getLsbD 9 = s.par.alphaPlane ∧
        (t.outInfo.extractLsb' 10 4).toNat = min s.par.chromaHShift.toNat 15 ∧
        (t.outInfo.extractLsb' 14 4).toNat = min s.par.chromaVShift.toNat 15 ∧
        t.outInfo.extractLsb' 18 3 = s.par.planeCount ∧ t.outInfo.extractLsb' 21 11 = 0 ∧
        let ceil := fun (n : Nat) (shift : Word) => (n + 2 ^ shift.toNat - 1) / 2 ^ shift.toNat
        let chroma : PlaneSize :=
          if s.par.colorspaceType then ⟨s.width.toNat, s.height.toNat⟩
          else if s.par.chromaPlanes then
            ⟨ceil s.width.toNat s.par.chromaHShift, ceil s.height.toNat s.par.chromaVShift⟩
          else ⟨0, 0⟩
        t.planeSizes.get 0 = ⟨s.width.toNat, s.height.toNat⟩ ∧
          t.planeSizes.get 1 = chroma ∧ t.planeSizes.get 2 = chroma ∧
          t.planeSizes.get 3 = if s.par.alphaPlane then ⟨s.width.toNat, s.height.toNat⟩ else ⟨0, 0⟩)

/-- `FR_JOIN` completes and leaves no task in flight: every task that was has run, each in the state that the
one before it left, and its engine holds a slice that is `Done` without error or in `Error` with one. The
result is the number of located slices whose engine then holds an error; if there is one, `LAST_ERROR` and
`ERR_SLICE` name the lowest of them and `STATUS.UNDERRUN` tells whether any of them ran out of input; else
the three keep their values (R304, R334). The order of the tasks and that each runs whole (log 10), that the
located slices are counted (log 21), that the command ends with `DONE` though it writes the error registers
(log 24), and `FIRST_ERROR_ORDER` at its default (log 11) are the model's. -/
def Obligations.FrJoinSurfacesTheFirstError : Prop :=
  ∀ s : State,
    let u := s.tasks.foldl (fun v a => runTask a v) { s with tasks := [] }
    let failed := fun k => k < s.loc.length ∧ (u.engine k).sl.err ≠ 0
    ∃ t, exec .frJoin s = .next t ∧ t.endedWith t.result ∧ t.tasks = [] ∧ sameInput s t ∧
      sameSamples u t ∧ t.engines = u.engines ∧ t.par = s.par ∧ t.loc = s.loc ∧
      (∀ a ∈ s.tasks,
        let sl := (t.engine a.slice).sl
        t.hasEngine a.slice = true ∧ (sl.fsm = .done ∧ sl.err = 0 ∨ sl.fsm = .error ∧ sl.err ≠ 0)) ∧
      (∀ j, (∀ a ∈ s.tasks, a.slice ≠ j) → t.hasEngine j = s.hasEngine j ∧ t.engine j = s.engine j) ∧
      t.result = BitVec.ofNat 32 ((List.range s.loc.length).filter fun k => (u.engine k).sl.err ≠ 0).length ∧
      ((∀ k, ¬ failed k) →
        t.lastError = s.lastError ∧ t.errSlice = s.errSlice ∧ t.underrun = s.underrun) ∧
      ∀ k, failed k → (∀ j, j < k → ¬ failed j) →
        t.lastError = (u.engine k).sl.err ∧ t.errSlice = BitVec.ofNat 16 k ∧
        (t.underrun = true ↔ ∃ j, failed j ∧ (u.engine j).sl.underrun = true)

/-- `PROC_OOB` on legal dimensions and a legal buffer completes when the record parses: the stream starts
again, engine 0 is the only one, the record is valid and legal and came from a configuration record, and
`OUT_INFO` announces it. When it does not parse, the command fails with the parser's error, and the stream
has been restarted all the same (R48, R291, R363). -/
def Obligations.ProcOobStartsAStream : Prop :=
  ∀ s : State,
    1 ≤ s.width.toNat → s.width.toNat ≤ 2 ^ 24 - 1 → 1 ≤ s.height.toNat → s.height.toNat ≤ 2 ^ 24 - 1 →
    s.arg0.toNat + s.arg1.toNat ≤ 2 ^ 32 - 2 →
    (∀ u, procOob s.arg0 s.arg1 s = .ok () u →
      ∃ t, exec .procOob s = .next t ∧ t.endedWith s.result ∧ sameInput s t ∧
        t.keyframeSeen = false ∧ t.gopSlices = 0 ∧
        t.hasEngine 0 = true ∧ (∀ k, k ≠ 0 → t.hasEngine k = false) ∧
        t.par.valid = true ∧ t.par.configPresent = true ∧ t.par.ok ∧ t.outInfo = outInfoWord t.par ∧
        t.width = s.width ∧ t.height = s.height ∧ t.lastError = s.lastError ∧ t.errSlice = s.errSlice) ∧
    (∀ err u, procOob s.arg0 s.arg1 s = .raise err u →
      ∃ t, exec .procOob s = .next t ∧ t.failedWith err noSlice ∧ sameInput s t ∧ sameSamples s t ∧
        t.keyframeSeen = false ∧ t.gopSlices = 0 ∧ (∀ k, k ≠ 0 → t.hasEngine k = false) ∧
        t.par.valid = false ∧ t.par.configPresent = true)

/-- `PROC_OOB` and `PROC_FRAME` check the dimensions, then the buffer, before any state change. A frame that
is no keyframe before the first keyframe fails with `E_NO_KEYFRAME`; without valid parameters, and with no
in-band header to parse, a frame that passes this fails with `E_NO_PARAMETERS`; one that passes this too and
is no keyframe where `intra` asks for one fails with `E_NOT_INTRA`. These three change nothing but
`FR.keyframe` and, of engine 0, the range decoder and `KS` (R291, R292, R295, R333). -/
def Obligations.FrameCommandsCheckInOrder : Prop :=
  ∀ s : State,
    let dims := 1 ≤ s.width.toNat ∧ s.width.toNat ≤ 2 ^ 24 - 1 ∧
      1 ≤ s.height.toNat ∧ s.height.toNat ≤ 2 ^ 24 - 1
    let buffer := s.arg0.toNat + s.arg1.toNat ≤ 2 ^ 32 - 2
    let refused := fun (code : BitVec 12) => { s with
      busy := false, done := false, fail := true, underrun := false, lastError := code, errSlice := 0xFFFF }
    (¬ dims → exec .procOob s = .next (refused 0x402) ∧ exec .procFrame s = .next (refused 0x402)) ∧
    (dims → ¬ buffer → exec .procOob s = .next (refused 0x401) ∧ exec .procFrame s = .next (refused 0x401)) ∧
    (dims → buffer →
      let key := (frKeybit s.arg0 s.arg1 s).keyframe
      let turnedAway := fun (err : ErrorName) => ∃ t, exec .procFrame s = .next t ∧ t.failedWith err noSlice ∧
        sameInput s t ∧ sameSamples s t ∧ sameOtherEngines 0 s t ∧ t.keyframe = key ∧
        t = { refused err.code with engines := t.engines, keyframe := key } ∧
        t.engine 0 = { s.engine 0 with rc := (t.engine 0).rc, sm := (t.engine 0).sm } ∧
        ∀ r, r ≠ .ks → (t.engine 0).state r = (s.engine 0).state r
      (s.keyframeSeen = false → key = false → turnedAway .noKeyframe) ∧
      ((s.keyframeSeen = true ∨ key = true) → (key = true → s.par.configPresent = true) →
        s.par.valid = false → turnedAway .noParameters) ∧
      (s.keyframeSeen = true → key = false → s.par.valid = true → s.par.intra = true →
        turnedAway .notIntra))

/-- `PROC_FRAME` on legal dimensions and a legal buffer, when its steps 1 to 7 raise no error: it completes
when no slice fails, with no task in flight and no located slice in error; when slices fail, it ends with
the error of the lowest failed slice, its index, and the underrun bit (R292, R304, R334). When no task of an
earlier dispatch is in flight, every sample of the region of every located slice without error has a value
afterwards, and every sample in no located slice's region is as it was (R76, R297). That only the
located slices decide whether the frame fails is the model's reading of R304 (log 21); `FIRST_ERROR_ORDER` is
at its default (log 11). -/
def Obligations.ProcFrameEndsWithItsSlices : Prop :=
  ∀ s u : State,
    1 ≤ s.width.toNat → s.width.toNat ≤ 2 ^ 24 - 1 → 1 ≤ s.height.toNat → s.height.toNat ≤ 2 ^ 24 - 1 →
    s.arg0.toNat + s.arg1.toNat ≤ 2 ^ 32 - 2 → frameSetup s.arg0 s.arg1 s = .ok () u →
    let sampled := fun (t : State) => s.tasks = [] →
      (∀ k, k < u.loc.length → (t.engine k).sl.err = 0 → regionFilled u.par (t.engine k).sl t) ∧
      ∀ p x y, (∀ k, k < u.loc.length → ¬ inRegion u.par (t.engine k).sl p p x y) →
        t.sample p x y = u.sample p x y
    ((frameSlices u).2 = 0 →
      ∃ t, exec .procFrame s = .next t ∧ t.endedWith s.result ∧ sameInput s t ∧ t.tasks = [] ∧
        t.par = u.par ∧ t.loc = u.loc ∧ t.keyframe = u.keyframe ∧ t.keyframeSeen = true ∧
        t.lastError = s.lastError ∧ t.errSlice = s.errSlice ∧
        (u.keyframe = true → t.gopSlices = u.loc.length) ∧
        sampled t ∧ ∀ k, k < u.loc.length → t.hasEngine k = true ∧ (t.engine k).sl.err = 0) ∧
    ((frameSlices u).2 ≠ 0 →
      ∃ t, exec .procFrame s = .next t ∧ t.busy = false ∧ t.done = false ∧ t.fail = true ∧
        sameInput s t ∧ t.tasks = [] ∧ t.loc = u.loc ∧ sampled t ∧
        ∃ k, k < u.loc.length ∧ (t.engine k).sl.err ≠ 0 ∧ (∀ j, j < k → (t.engine j).sl.err = 0) ∧
          t.lastError = (t.engine k).sl.err ∧ t.errSlice = BitVec.ofNat 16 k ∧
          (t.underrun = true ↔
            ∃ j, j < u.loc.length ∧ (t.engine j).sl.err ≠ 0 ∧ (t.engine j).sl.underrun = true))

/-- Two slice tasks of different slices that write no sample in common, and none that a task of the same set has
already written, end in the same state in either order, also when other tasks of the set have ended before them:
the schedule of the pool is invisible (R82, R87, R368). A task is one step of the model (log 10). What a set has
written is the model's bookkeeping of U6 (log 9). -/
def Obligations.SliceTasksCommute : Prop :=
  ∀ (s : State) (a b : Task), a.slice ≠ b.slice →
    (∀ key, (Store.lookup s.written key).isSome = true →
      Store.lookup (taskSamples a s) key = none ∧ Store.lookup (taskSamples b s) key = none) →
    (∀ key, Store.lookup (taskSamples a s) key = none ∨ Store.lookup (taskSamples b s) key = none) →
    let u := runTask b (runTask a s)
    let v := runTask a (runTask b s)
    sameSamples u v ∧ (∀ k, u.hasEngine k = v.hasEngine k ∧ u.engine k = v.engine k) ∧
      { u with engines := [], plane := [], written := [] } = { v with engines := [], plane := [], written := [] }

/-- A slice task writes nothing but its own engine and samples of its own region: no other engine, no
parameter, no byte of `IN`, no host register (R80, R262, R368). -/
def Obligations.SliceTasksAreIsolated : Prop :=
  ∀ (s : State) (a : Task),
    let t := runTask a s
    sameInput s t ∧ sameOtherEngines a.slice s t ∧ t.hasEngine a.slice = true ∧
      (∀ p x y, ¬ inRegion s.par (t.engine a.slice).sl p p x y → t.sample p x y = s.sample p x y) ∧
      t = { s with engines := t.engines, plane := t.plane, written := t.written, freeCtr := t.freeCtr }
end

