-- ==== Sys2Proof/Laws/State.lean ====
section
/-! SUPPORT. Sys2Proof/Laws/State.lean: what each update of the state leaves in each field, and reads through
the accessors. -/

namespace Sys2Proof.Machine

/-! ### `setEngine` -/

@[simp] theorem State.setEngine_cmd (s : State) (k : Nat) (e : Engine) :
    (s.setEngine k e).cmd = s.cmd := rfl

@[simp] theorem State.setEngine_arg0 (s : State) (k : Nat) (e : Engine) :
    (s.setEngine k e).arg0 = s.arg0 := rfl

@[simp] theorem State.setEngine_arg1 (s : State) (k : Nat) (e : Engine) :
    (s.setEngine k e).arg1 = s.arg1 := rfl

@[simp] theorem State.setEngine_result (s : State) (k : Nat) (e : Engine) :
    (s.setEngine k e).result = s.result := rfl

@[simp] theorem State.setEngine_busy (s : State) (k : Nat) (e : Engine) :
    (s.setEngine k e).busy = s.busy := rfl

@[simp] theorem State.setEngine_done (s : State) (k : Nat) (e : Engine) :
    (s.setEngine k e).done = s.done := rfl

@[simp] theorem State.setEngine_fail (s : State) (k : Nat) (e : Engine) :
    (s.setEngine k e).fail = s.fail := rfl

@[simp] theorem State.setEngine_underrun (s : State) (k : Nat) (e : Engine) :
    (s.setEngine k e).underrun = s.underrun := rfl

@[simp] theorem State.setEngine_lastError (s : State) (k : Nat) (e : Engine) :
    (s.setEngine k e).lastError = s.lastError := rfl

@[simp] theorem State.setEngine_errSlice (s : State) (k : Nat) (e : Engine) :
    (s.setEngine k e).errSlice = s.errSlice := rfl

@[simp] theorem State.setEngine_width (s : State) (k : Nat) (e : Engine) :
    (s.setEngine k e).width = s.width := rfl

@[simp] theorem State.setEngine_height (s : State) (k : Nat) (e : Engine) :
    (s.setEngine k e).height = s.height := rfl

@[simp] theorem State.setEngine_outInfo (s : State) (k : Nat) (e : Engine) :
    (s.setEngine k e).outInfo = s.outInfo := rfl

@[simp] theorem State.setEngine_parSel (s : State) (k : Nat) (e : Engine) :
    (s.setEngine k e).parSel = s.parSel := rfl

@[simp] theorem State.setEngine_keyframe (s : State) (k : Nat) (e : Engine) :
    (s.setEngine k e).keyframe = s.keyframe := rfl

@[simp] theorem State.setEngine_keyframeSeen (s : State) (k : Nat) (e : Engine) :
    (s.setEngine k e).keyframeSeen = s.keyframeSeen := rfl

@[simp] theorem State.setEngine_gopSlices (s : State) (k : Nat) (e : Engine) :
    (s.setEngine k e).gopSlices = s.gopSlices := rfl

@[simp] theorem State.setEngine_loc (s : State) (k : Nat) (e : Engine) :
    (s.setEngine k e).loc = s.loc := rfl

@[simp] theorem State.setEngine_tasks (s : State) (k : Nat) (e : Engine) :
    (s.setEngine k e).tasks = s.tasks := rfl

@[simp] theorem State.setEngine_par (s : State) (k : Nat) (e : Engine) :
    (s.setEngine k e).par = s.par := rfl

@[simp] theorem State.setEngine_engines (s : State) (k : Nat) (e : Engine) :
    (s.setEngine k e).engines = Store.insert s.engines k e := rfl

@[simp] theorem State.setEngine_inMem (s : State) (k : Nat) (e : Engine) :
    (s.setEngine k e).inMem = s.inMem := rfl

@[simp] theorem State.setEngine_plane (s : State) (k : Nat) (e : Engine) :
    (s.setEngine k e).plane = s.plane := rfl

@[simp] theorem State.setEngine_planeSizes (s : State) (k : Nat) (e : Engine) :
    (s.setEngine k e).planeSizes = s.planeSizes := rfl

@[simp] theorem State.setEngine_agenda (s : State) (k : Nat) (e : Engine) :
    (s.setEngine k e).agenda = s.agenda := rfl

@[simp] theorem State.setEngine_hostData (s : State) (k : Nat) (e : Engine) :
    (s.setEngine k e).hostData = s.hostData := rfl

@[simp] theorem State.setEngine_written (s : State) (k : Nat) (e : Engine) :
    (s.setEngine k e).written = s.written := rfl

@[simp] theorem State.setEngine_freeCtr (s : State) (k : Nat) (e : Engine) :
    (s.setEngine k e).freeCtr = s.freeCtr := rfl

@[simp] theorem State.setEngine_workers (s : State) (k : Nat) (e : Engine) :
    (s.setEngine k e).workers = s.workers := rfl

/-! ### `finish` -/

@[simp] theorem State.finish_cmd (s : State) (r : Option Word) :
    (s.finish r).cmd = s.cmd := rfl

@[simp] theorem State.finish_arg0 (s : State) (r : Option Word) :
    (s.finish r).arg0 = s.arg0 := rfl

@[simp] theorem State.finish_arg1 (s : State) (r : Option Word) :
    (s.finish r).arg1 = s.arg1 := rfl

@[simp] theorem State.finish_result (s : State) (r : Option Word) :
    (s.finish r).result = r.getD s.result := rfl

@[simp] theorem State.finish_busy (s : State) (r : Option Word) :
    (s.finish r).busy = false := rfl

@[simp] theorem State.finish_done (s : State) (r : Option Word) :
    (s.finish r).done = true := rfl

@[simp] theorem State.finish_fail (s : State) (r : Option Word) :
    (s.finish r).fail = false := rfl

@[simp] theorem State.finish_underrun (s : State) (r : Option Word) :
    (s.finish r).underrun = s.underrun := rfl

@[simp] theorem State.finish_lastError (s : State) (r : Option Word) :
    (s.finish r).lastError = s.lastError := rfl

@[simp] theorem State.finish_errSlice (s : State) (r : Option Word) :
    (s.finish r).errSlice = s.errSlice := rfl

@[simp] theorem State.finish_width (s : State) (r : Option Word) :
    (s.finish r).width = s.width := rfl

@[simp] theorem State.finish_height (s : State) (r : Option Word) :
    (s.finish r).height = s.height := rfl

@[simp] theorem State.finish_outInfo (s : State) (r : Option Word) :
    (s.finish r).outInfo = s.outInfo := rfl

@[simp] theorem State.finish_parSel (s : State) (r : Option Word) :
    (s.finish r).parSel = s.parSel := rfl

@[simp] theorem State.finish_keyframe (s : State) (r : Option Word) :
    (s.finish r).keyframe = s.keyframe := rfl

@[simp] theorem State.finish_keyframeSeen (s : State) (r : Option Word) :
    (s.finish r).keyframeSeen = s.keyframeSeen := rfl

@[simp] theorem State.finish_gopSlices (s : State) (r : Option Word) :
    (s.finish r).gopSlices = s.gopSlices := rfl

@[simp] theorem State.finish_loc (s : State) (r : Option Word) :
    (s.finish r).loc = s.loc := rfl

@[simp] theorem State.finish_tasks (s : State) (r : Option Word) :
    (s.finish r).tasks = s.tasks := rfl

@[simp] theorem State.finish_par (s : State) (r : Option Word) :
    (s.finish r).par = s.par := rfl

@[simp] theorem State.finish_engines (s : State) (r : Option Word) :
    (s.finish r).engines = s.engines := rfl

@[simp] theorem State.finish_inMem (s : State) (r : Option Word) :
    (s.finish r).inMem = s.inMem := rfl

@[simp] theorem State.finish_plane (s : State) (r : Option Word) :
    (s.finish r).plane = s.plane := rfl

@[simp] theorem State.finish_planeSizes (s : State) (r : Option Word) :
    (s.finish r).planeSizes = s.planeSizes := rfl

@[simp] theorem State.finish_agenda (s : State) (r : Option Word) :
    (s.finish r).agenda = s.agenda := rfl

@[simp] theorem State.finish_hostData (s : State) (r : Option Word) :
    (s.finish r).hostData = s.hostData := rfl

@[simp] theorem State.finish_written (s : State) (r : Option Word) :
    (s.finish r).written = s.written := rfl

@[simp] theorem State.finish_freeCtr (s : State) (r : Option Word) :
    (s.finish r).freeCtr = s.freeCtr := rfl

@[simp] theorem State.finish_workers (s : State) (r : Option Word) :
    (s.finish r).workers = s.workers := rfl

/-! ### `finishFailed` -/

@[simp] theorem State.finishFailed_cmd (s : State) :
    (s.finishFailed).cmd = s.cmd := rfl

@[simp] theorem State.finishFailed_arg0 (s : State) :
    (s.finishFailed).arg0 = s.arg0 := rfl

@[simp] theorem State.finishFailed_arg1 (s : State) :
    (s.finishFailed).arg1 = s.arg1 := rfl

@[simp] theorem State.finishFailed_result (s : State) :
    (s.finishFailed).result = s.result := rfl

@[simp] theorem State.finishFailed_busy (s : State) :
    (s.finishFailed).busy = false := rfl

@[simp] theorem State.finishFailed_done (s : State) :
    (s.finishFailed).done = false := rfl

@[simp] theorem State.finishFailed_fail (s : State) :
    (s.finishFailed).fail = true := rfl

@[simp] theorem State.finishFailed_underrun (s : State) :
    (s.finishFailed).underrun = s.underrun := rfl

@[simp] theorem State.finishFailed_lastError (s : State) :
    (s.finishFailed).lastError = s.lastError := rfl

@[simp] theorem State.finishFailed_errSlice (s : State) :
    (s.finishFailed).errSlice = s.errSlice := rfl

@[simp] theorem State.finishFailed_width (s : State) :
    (s.finishFailed).width = s.width := rfl

@[simp] theorem State.finishFailed_height (s : State) :
    (s.finishFailed).height = s.height := rfl

@[simp] theorem State.finishFailed_outInfo (s : State) :
    (s.finishFailed).outInfo = s.outInfo := rfl

@[simp] theorem State.finishFailed_parSel (s : State) :
    (s.finishFailed).parSel = s.parSel := rfl

@[simp] theorem State.finishFailed_keyframe (s : State) :
    (s.finishFailed).keyframe = s.keyframe := rfl

@[simp] theorem State.finishFailed_keyframeSeen (s : State) :
    (s.finishFailed).keyframeSeen = s.keyframeSeen := rfl

@[simp] theorem State.finishFailed_gopSlices (s : State) :
    (s.finishFailed).gopSlices = s.gopSlices := rfl

@[simp] theorem State.finishFailed_loc (s : State) :
    (s.finishFailed).loc = s.loc := rfl

@[simp] theorem State.finishFailed_tasks (s : State) :
    (s.finishFailed).tasks = s.tasks := rfl

@[simp] theorem State.finishFailed_par (s : State) :
    (s.finishFailed).par = s.par := rfl

@[simp] theorem State.finishFailed_engines (s : State) :
    (s.finishFailed).engines = s.engines := rfl

@[simp] theorem State.finishFailed_inMem (s : State) :
    (s.finishFailed).inMem = s.inMem := rfl

@[simp] theorem State.finishFailed_plane (s : State) :
    (s.finishFailed).plane = s.plane := rfl

@[simp] theorem State.finishFailed_planeSizes (s : State) :
    (s.finishFailed).planeSizes = s.planeSizes := rfl

@[simp] theorem State.finishFailed_agenda (s : State) :
    (s.finishFailed).agenda = s.agenda := rfl

@[simp] theorem State.finishFailed_hostData (s : State) :
    (s.finishFailed).hostData = s.hostData := rfl

@[simp] theorem State.finishFailed_written (s : State) :
    (s.finishFailed).written = s.written := rfl

@[simp] theorem State.finishFailed_freeCtr (s : State) :
    (s.finishFailed).freeCtr = s.freeCtr := rfl

@[simp] theorem State.finishFailed_workers (s : State) :
    (s.finishFailed).workers = s.workers := rfl

/-! ### `takeError` -/

@[simp] theorem State.takeError_cmd (s : State) (e : ErrorName) (n : BitVec 16) :
    (s.takeError e n).cmd = s.cmd := rfl

@[simp] theorem State.takeError_arg0 (s : State) (e : ErrorName) (n : BitVec 16) :
    (s.takeError e n).arg0 = s.arg0 := rfl

@[simp] theorem State.takeError_arg1 (s : State) (e : ErrorName) (n : BitVec 16) :
    (s.takeError e n).arg1 = s.arg1 := rfl

@[simp] theorem State.takeError_result (s : State) (e : ErrorName) (n : BitVec 16) :
    (s.takeError e n).result = s.result := rfl

@[simp] theorem State.takeError_busy (s : State) (e : ErrorName) (n : BitVec 16) :
    (s.takeError e n).busy = false := rfl

@[simp] theorem State.takeError_done (s : State) (e : ErrorName) (n : BitVec 16) :
    (s.takeError e n).done = false := rfl

@[simp] theorem State.takeError_fail (s : State) (e : ErrorName) (n : BitVec 16) :
    (s.takeError e n).fail = true := rfl

@[simp] theorem State.takeError_underrun (s : State) (e : ErrorName) (n : BitVec 16) :
    (s.takeError e n).underrun = e.isUnderrun := rfl

@[simp] theorem State.takeError_lastError (s : State) (e : ErrorName) (n : BitVec 16) :
    (s.takeError e n).lastError = e.code := rfl

@[simp] theorem State.takeError_errSlice (s : State) (e : ErrorName) (n : BitVec 16) :
    (s.takeError e n).errSlice = n := rfl

@[simp] theorem State.takeError_width (s : State) (e : ErrorName) (n : BitVec 16) :
    (s.takeError e n).width = s.width := rfl

@[simp] theorem State.takeError_height (s : State) (e : ErrorName) (n : BitVec 16) :
    (s.takeError e n).height = s.height := rfl

@[simp] theorem State.takeError_outInfo (s : State) (e : ErrorName) (n : BitVec 16) :
    (s.takeError e n).outInfo = s.outInfo := rfl

@[simp] theorem State.takeError_parSel (s : State) (e : ErrorName) (n : BitVec 16) :
    (s.takeError e n).parSel = s.parSel := rfl

@[simp] theorem State.takeError_keyframe (s : State) (e : ErrorName) (n : BitVec 16) :
    (s.takeError e n).keyframe = s.keyframe := rfl

@[simp] theorem State.takeError_keyframeSeen (s : State) (e : ErrorName) (n : BitVec 16) :
    (s.takeError e n).keyframeSeen = s.keyframeSeen := rfl

@[simp] theorem State.takeError_gopSlices (s : State) (e : ErrorName) (n : BitVec 16) :
    (s.takeError e n).gopSlices = s.gopSlices := rfl

@[simp] theorem State.takeError_loc (s : State) (e : ErrorName) (n : BitVec 16) :
    (s.takeError e n).loc = s.loc := rfl

@[simp] theorem State.takeError_tasks (s : State) (e : ErrorName) (n : BitVec 16) :
    (s.takeError e n).tasks = s.tasks := rfl

@[simp] theorem State.takeError_par (s : State) (e : ErrorName) (n : BitVec 16) :
    (s.takeError e n).par = s.par := rfl

@[simp] theorem State.takeError_engines (s : State) (e : ErrorName) (n : BitVec 16) :
    (s.takeError e n).engines = s.engines := rfl

@[simp] theorem State.takeError_inMem (s : State) (e : ErrorName) (n : BitVec 16) :
    (s.takeError e n).inMem = s.inMem := rfl

@[simp] theorem State.takeError_plane (s : State) (e : ErrorName) (n : BitVec 16) :
    (s.takeError e n).plane = s.plane := rfl

@[simp] theorem State.takeError_planeSizes (s : State) (e : ErrorName) (n : BitVec 16) :
    (s.takeError e n).planeSizes = s.planeSizes := rfl

@[simp] theorem State.takeError_agenda (s : State) (e : ErrorName) (n : BitVec 16) :
    (s.takeError e n).agenda = s.agenda := rfl

@[simp] theorem State.takeError_hostData (s : State) (e : ErrorName) (n : BitVec 16) :
    (s.takeError e n).hostData = s.hostData := rfl

@[simp] theorem State.takeError_written (s : State) (e : ErrorName) (n : BitVec 16) :
    (s.takeError e n).written = s.written := rfl

@[simp] theorem State.takeError_freeCtr (s : State) (e : ErrorName) (n : BitVec 16) :
    (s.takeError e n).freeCtr = s.freeCtr := rfl

@[simp] theorem State.takeError_workers (s : State) (e : ErrorName) (n : BitVec 16) :
    (s.takeError e n).workers = s.workers := rfl

/-! ### `setSliceSt` -/

@[simp] theorem State.setSliceSt_cmd (s : State) (k : Nat) (st : SliceSt) :
    (s.setSliceSt k st).cmd = s.cmd := rfl

@[simp] theorem State.setSliceSt_arg0 (s : State) (k : Nat) (st : SliceSt) :
    (s.setSliceSt k st).arg0 = s.arg0 := rfl

@[simp] theorem State.setSliceSt_arg1 (s : State) (k : Nat) (st : SliceSt) :
    (s.setSliceSt k st).arg1 = s.arg1 := rfl

@[simp] theorem State.setSliceSt_result (s : State) (k : Nat) (st : SliceSt) :
    (s.setSliceSt k st).result = s.result := rfl

@[simp] theorem State.setSliceSt_busy (s : State) (k : Nat) (st : SliceSt) :
    (s.setSliceSt k st).busy = s.busy := rfl

@[simp] theorem State.setSliceSt_done (s : State) (k : Nat) (st : SliceSt) :
    (s.setSliceSt k st).done = s.done := rfl

@[simp] theorem State.setSliceSt_fail (s : State) (k : Nat) (st : SliceSt) :
    (s.setSliceSt k st).fail = s.fail := rfl

@[simp] theorem State.setSliceSt_underrun (s : State) (k : Nat) (st : SliceSt) :
    (s.setSliceSt k st).underrun = s.underrun := rfl

@[simp] theorem State.setSliceSt_lastError (s : State) (k : Nat) (st : SliceSt) :
    (s.setSliceSt k st).lastError = s.lastError := rfl

@[simp] theorem State.setSliceSt_errSlice (s : State) (k : Nat) (st : SliceSt) :
    (s.setSliceSt k st).errSlice = s.errSlice := rfl

@[simp] theorem State.setSliceSt_width (s : State) (k : Nat) (st : SliceSt) :
    (s.setSliceSt k st).width = s.width := rfl

@[simp] theorem State.setSliceSt_height (s : State) (k : Nat) (st : SliceSt) :
    (s.setSliceSt k st).height = s.height := rfl

@[simp] theorem State.setSliceSt_outInfo (s : State) (k : Nat) (st : SliceSt) :
    (s.setSliceSt k st).outInfo = s.outInfo := rfl

@[simp] theorem State.setSliceSt_parSel (s : State) (k : Nat) (st : SliceSt) :
    (s.setSliceSt k st).parSel = s.parSel := rfl

@[simp] theorem State.setSliceSt_keyframe (s : State) (k : Nat) (st : SliceSt) :
    (s.setSliceSt k st).keyframe = s.keyframe := rfl

@[simp] theorem State.setSliceSt_keyframeSeen (s : State) (k : Nat) (st : SliceSt) :
    (s.setSliceSt k st).keyframeSeen = s.keyframeSeen := rfl

@[simp] theorem State.setSliceSt_gopSlices (s : State) (k : Nat) (st : SliceSt) :
    (s.setSliceSt k st).gopSlices = s.gopSlices := rfl

@[simp] theorem State.setSliceSt_loc (s : State) (k : Nat) (st : SliceSt) :
    (s.setSliceSt k st).loc = s.loc := rfl

@[simp] theorem State.setSliceSt_tasks (s : State) (k : Nat) (st : SliceSt) :
    (s.setSliceSt k st).tasks = s.tasks := rfl

@[simp] theorem State.setSliceSt_par (s : State) (k : Nat) (st : SliceSt) :
    (s.setSliceSt k st).par = s.par := rfl

@[simp] theorem State.setSliceSt_engines (s : State) (k : Nat) (st : SliceSt) :
    (s.setSliceSt k st).engines = Store.insert s.engines k st.eng := rfl

@[simp] theorem State.setSliceSt_inMem (s : State) (k : Nat) (st : SliceSt) :
    (s.setSliceSt k st).inMem = s.inMem := rfl

@[simp] theorem State.setSliceSt_plane (s : State) (k : Nat) (st : SliceSt) :
    (s.setSliceSt k st).plane = st.plane := rfl

@[simp] theorem State.setSliceSt_planeSizes (s : State) (k : Nat) (st : SliceSt) :
    (s.setSliceSt k st).planeSizes = s.planeSizes := rfl

@[simp] theorem State.setSliceSt_agenda (s : State) (k : Nat) (st : SliceSt) :
    (s.setSliceSt k st).agenda = s.agenda := rfl

@[simp] theorem State.setSliceSt_hostData (s : State) (k : Nat) (st : SliceSt) :
    (s.setSliceSt k st).hostData = s.hostData := rfl

@[simp] theorem State.setSliceSt_written (s : State) (k : Nat) (st : SliceSt) :
    (s.setSliceSt k st).written = s.written := rfl

@[simp] theorem State.setSliceSt_freeCtr (s : State) (k : Nat) (st : SliceSt) :
    (s.setSliceSt k st).freeCtr = s.freeCtr := rfl

@[simp] theorem State.setSliceSt_workers (s : State) (k : Nat) (st : SliceSt) :
    (s.setSliceSt k st).workers = s.workers := rfl

/-! ### `setParseSt` -/

@[simp] theorem State.setParseSt_cmd (s : State) (k : Nat) (st : ParseSt) :
    (s.setParseSt k st).cmd = s.cmd := rfl

@[simp] theorem State.setParseSt_arg0 (s : State) (k : Nat) (st : ParseSt) :
    (s.setParseSt k st).arg0 = s.arg0 := rfl

@[simp] theorem State.setParseSt_arg1 (s : State) (k : Nat) (st : ParseSt) :
    (s.setParseSt k st).arg1 = s.arg1 := rfl

@[simp] theorem State.setParseSt_result (s : State) (k : Nat) (st : ParseSt) :
    (s.setParseSt k st).result = s.result := rfl

@[simp] theorem State.setParseSt_busy (s : State) (k : Nat) (st : ParseSt) :
    (s.setParseSt k st).busy = s.busy := rfl

@[simp] theorem State.setParseSt_done (s : State) (k : Nat) (st : ParseSt) :
    (s.setParseSt k st).done = s.done := rfl

@[simp] theorem State.setParseSt_fail (s : State) (k : Nat) (st : ParseSt) :
    (s.setParseSt k st).fail = s.fail := rfl

@[simp] theorem State.setParseSt_underrun (s : State) (k : Nat) (st : ParseSt) :
    (s.setParseSt k st).underrun = s.underrun := rfl

@[simp] theorem State.setParseSt_lastError (s : State) (k : Nat) (st : ParseSt) :
    (s.setParseSt k st).lastError = s.lastError := rfl

@[simp] theorem State.setParseSt_errSlice (s : State) (k : Nat) (st : ParseSt) :
    (s.setParseSt k st).errSlice = s.errSlice := rfl

@[simp] theorem State.setParseSt_width (s : State) (k : Nat) (st : ParseSt) :
    (s.setParseSt k st).width = s.width := rfl

@[simp] theorem State.setParseSt_height (s : State) (k : Nat) (st : ParseSt) :
    (s.setParseSt k st).height = s.height := rfl

@[simp] theorem State.setParseSt_outInfo (s : State) (k : Nat) (st : ParseSt) :
    (s.setParseSt k st).outInfo = s.outInfo := rfl

@[simp] theorem State.setParseSt_parSel (s : State) (k : Nat) (st : ParseSt) :
    (s.setParseSt k st).parSel = s.parSel := rfl

@[simp] theorem State.setParseSt_keyframe (s : State) (k : Nat) (st : ParseSt) :
    (s.setParseSt k st).keyframe = s.keyframe := rfl

@[simp] theorem State.setParseSt_keyframeSeen (s : State) (k : Nat) (st : ParseSt) :
    (s.setParseSt k st).keyframeSeen = s.keyframeSeen := rfl

@[simp] theorem State.setParseSt_gopSlices (s : State) (k : Nat) (st : ParseSt) :
    (s.setParseSt k st).gopSlices = s.gopSlices := rfl

@[simp] theorem State.setParseSt_loc (s : State) (k : Nat) (st : ParseSt) :
    (s.setParseSt k st).loc = s.loc := rfl

@[simp] theorem State.setParseSt_tasks (s : State) (k : Nat) (st : ParseSt) :
    (s.setParseSt k st).tasks = s.tasks := rfl

@[simp] theorem State.setParseSt_par (s : State) (k : Nat) (st : ParseSt) :
    (s.setParseSt k st).par = st.par := rfl

@[simp] theorem State.setParseSt_engines (s : State) (k : Nat) (st : ParseSt) :
    (s.setParseSt k st).engines = Store.insert s.engines k st.eng := rfl

@[simp] theorem State.setParseSt_inMem (s : State) (k : Nat) (st : ParseSt) :
    (s.setParseSt k st).inMem = s.inMem := rfl

@[simp] theorem State.setParseSt_plane (s : State) (k : Nat) (st : ParseSt) :
    (s.setParseSt k st).plane = s.plane := rfl

@[simp] theorem State.setParseSt_planeSizes (s : State) (k : Nat) (st : ParseSt) :
    (s.setParseSt k st).planeSizes = s.planeSizes := rfl

@[simp] theorem State.setParseSt_agenda (s : State) (k : Nat) (st : ParseSt) :
    (s.setParseSt k st).agenda = s.agenda := rfl

@[simp] theorem State.setParseSt_hostData (s : State) (k : Nat) (st : ParseSt) :
    (s.setParseSt k st).hostData = s.hostData := rfl

@[simp] theorem State.setParseSt_written (s : State) (k : Nat) (st : ParseSt) :
    (s.setParseSt k st).written = s.written := rfl

@[simp] theorem State.setParseSt_freeCtr (s : State) (k : Nat) (st : ParseSt) :
    (s.setParseSt k st).freeCtr = s.freeCtr := rfl

@[simp] theorem State.setParseSt_workers (s : State) (k : Nat) (st : ParseSt) :
    (s.setParseSt k st).workers = s.workers := rfl

/-! ### `issue` -/

@[simp] theorem State.issue_cmd (s : State) (w : Word) :
    (s.issue w).cmd = w := rfl

@[simp] theorem State.issue_arg0 (s : State) (w : Word) :
    (s.issue w).arg0 = s.arg0 := rfl

@[simp] theorem State.issue_arg1 (s : State) (w : Word) :
    (s.issue w).arg1 = s.arg1 := rfl

@[simp] theorem State.issue_result (s : State) (w : Word) :
    (s.issue w).result = s.result := rfl

@[simp] theorem State.issue_busy (s : State) (w : Word) :
    (s.issue w).busy = true := rfl

@[simp] theorem State.issue_done (s : State) (w : Word) :
    (s.issue w).done = false := rfl

@[simp] theorem State.issue_fail (s : State) (w : Word) :
    (s.issue w).fail = false := rfl

@[simp] theorem State.issue_underrun (s : State) (w : Word) :
    (s.issue w).underrun = false := rfl

@[simp] theorem State.issue_lastError (s : State) (w : Word) :
    (s.issue w).lastError = s.lastError := rfl

@[simp] theorem State.issue_errSlice (s : State) (w : Word) :
    (s.issue w).errSlice = s.errSlice := rfl

@[simp] theorem State.issue_width (s : State) (w : Word) :
    (s.issue w).width = s.width := rfl

@[simp] theorem State.issue_height (s : State) (w : Word) :
    (s.issue w).height = s.height := rfl

@[simp] theorem State.issue_outInfo (s : State) (w : Word) :
    (s.issue w).outInfo = s.outInfo := rfl

@[simp] theorem State.issue_parSel (s : State) (w : Word) :
    (s.issue w).parSel = s.parSel := rfl

@[simp] theorem State.issue_keyframe (s : State) (w : Word) :
    (s.issue w).keyframe = s.keyframe := rfl

@[simp] theorem State.issue_keyframeSeen (s : State) (w : Word) :
    (s.issue w).keyframeSeen = s.keyframeSeen := rfl

@[simp] theorem State.issue_gopSlices (s : State) (w : Word) :
    (s.issue w).gopSlices = s.gopSlices := rfl

@[simp] theorem State.issue_loc (s : State) (w : Word) :
    (s.issue w).loc = s.loc := rfl

@[simp] theorem State.issue_tasks (s : State) (w : Word) :
    (s.issue w).tasks = s.tasks := rfl

@[simp] theorem State.issue_par (s : State) (w : Word) :
    (s.issue w).par = s.par := rfl

@[simp] theorem State.issue_engines (s : State) (w : Word) :
    (s.issue w).engines = s.engines := rfl

@[simp] theorem State.issue_inMem (s : State) (w : Word) :
    (s.issue w).inMem = s.inMem := rfl

@[simp] theorem State.issue_plane (s : State) (w : Word) :
    (s.issue w).plane = s.plane := rfl

@[simp] theorem State.issue_planeSizes (s : State) (w : Word) :
    (s.issue w).planeSizes = s.planeSizes := rfl

@[simp] theorem State.issue_agenda (s : State) (w : Word) :
    (s.issue w).agenda = s.agenda := rfl

@[simp] theorem State.issue_hostData (s : State) (w : Word) :
    (s.issue w).hostData = s.hostData := rfl

@[simp] theorem State.issue_written (s : State) (w : Word) :
    (s.issue w).written = s.written := rfl

@[simp] theorem State.issue_freeCtr (s : State) (w : Word) :
    (s.issue w).freeCtr = s.freeCtr := rfl

@[simp] theorem State.issue_workers (s : State) (w : Word) :
    (s.issue w).workers = s.workers := rfl

/-! ### `Engine.setState` -/

@[simp] theorem Engine.setState_rc (e : Engine) (r : StateRef) (v : Byte) :
    (e.setState r v).rc = e.rc := rfl

@[simp] theorem Engine.setState_bs (e : Engine) (r : StateRef) (v : Byte) :
    (e.setState r v).bs = e.bs := rfl

@[simp] theorem Engine.setState_gr (e : Engine) (r : StateRef) (v : Byte) :
    (e.setState r v).gr = e.gr := rfl

@[simp] theorem Engine.setState_lines (e : Engine) (r : StateRef) (v : Byte) :
    (e.setState r v).lines = e.lines := rfl

@[simp] theorem Engine.setState_posC (e : Engine) (r : StateRef) (v : Byte) :
    (e.setState r v).posC = e.posC := rfl

@[simp] theorem Engine.setState_posY (e : Engine) (r : StateRef) (v : Byte) :
    (e.setState r v).posY = e.posY := rfl

@[simp] theorem Engine.setState_posX (e : Engine) (r : StateRef) (v : Byte) :
    (e.setState r v).posX = e.posX := rfl

@[simp] theorem Engine.setState_sl (e : Engine) (r : StateRef) (v : Byte) :
    (e.setState r v).sl = e.sl := rfl

@[simp] theorem Engine.setState_sm (e : Engine) (r : StateRef) (v : Byte) :
    (e.setState r v).sm = Store.put smDefault e.sm r.key v := rfl

@[simp] theorem Engine.setState_gs (e : Engine) (r : StateRef) (v : Byte) :
    (e.setState r v).gs = e.gs := rfl

@[simp] theorem Engine.setState_psReady (e : Engine) (r : StateRef) (v : Byte) :
    (e.setState r v).psReady = e.psReady := rfl

@[simp] theorem Engine.setState_opened (e : Engine) (r : StateRef) (v : Byte) :
    (e.setState r v).opened = e.opened := rfl

/-! ### `Engine.setTuple` -/

@[simp] theorem Engine.setTuple_rc (e : Engine) (p : BitVec 2) (q : BitVec 3) (ctx : Nat) (t : GrTuple) :
    (e.setTuple p q ctx t).rc = e.rc := rfl

@[simp] theorem Engine.setTuple_bs (e : Engine) (p : BitVec 2) (q : BitVec 3) (ctx : Nat) (t : GrTuple) :
    (e.setTuple p q ctx t).bs = e.bs := rfl

@[simp] theorem Engine.setTuple_gr (e : Engine) (p : BitVec 2) (q : BitVec 3) (ctx : Nat) (t : GrTuple) :
    (e.setTuple p q ctx t).gr = e.gr := rfl

@[simp] theorem Engine.setTuple_lines (e : Engine) (p : BitVec 2) (q : BitVec 3) (ctx : Nat) (t : GrTuple) :
    (e.setTuple p q ctx t).lines = e.lines := rfl

@[simp] theorem Engine.setTuple_posC (e : Engine) (p : BitVec 2) (q : BitVec 3) (ctx : Nat) (t : GrTuple) :
    (e.setTuple p q ctx t).posC = e.posC := rfl

@[simp] theorem Engine.setTuple_posY (e : Engine) (p : BitVec 2) (q : BitVec 3) (ctx : Nat) (t : GrTuple) :
    (e.setTuple p q ctx t).posY = e.posY := rfl

@[simp] theorem Engine.setTuple_posX (e : Engine) (p : BitVec 2) (q : BitVec 3) (ctx : Nat) (t : GrTuple) :
    (e.setTuple p q ctx t).posX = e.posX := rfl

@[simp] theorem Engine.setTuple_sl (e : Engine) (p : BitVec 2) (q : BitVec 3) (ctx : Nat) (t : GrTuple) :
    (e.setTuple p q ctx t).sl = e.sl := rfl

@[simp] theorem Engine.setTuple_sm (e : Engine) (p : BitVec 2) (q : BitVec 3) (ctx : Nat) (t : GrTuple) :
    (e.setTuple p q ctx t).sm = e.sm := rfl

@[simp] theorem Engine.setTuple_gs (e : Engine) (p : BitVec 2) (q : BitVec 3) (ctx : Nat) (t : GrTuple) :
    (e.setTuple p q ctx t).gs = Store.put gsDefault e.gs (gsKey p q ctx) t := rfl

@[simp] theorem Engine.setTuple_psReady (e : Engine) (p : BitVec 2) (q : BitVec 3) (ctx : Nat) (t : GrTuple) :
    (e.setTuple p q ctx t).psReady = e.psReady := rfl

@[simp] theorem Engine.setTuple_opened (e : Engine) (p : BitVec 2) (q : BitVec 3) (ctx : Nat) (t : GrTuple) :
    (e.setTuple p q ctx t).opened = e.opened := rfl

/-! ### `Engine.setLine` -/

@[simp] theorem Engine.setLine_rc (e : Engine) (c : Fin 4) (b : LineBuf) :
    (e.setLine c b).rc = e.rc := rfl

@[simp] theorem Engine.setLine_bs (e : Engine) (c : Fin 4) (b : LineBuf) :
    (e.setLine c b).bs = e.bs := rfl

@[simp] theorem Engine.setLine_gr (e : Engine) (c : Fin 4) (b : LineBuf) :
    (e.setLine c b).gr = e.gr := rfl

@[simp] theorem Engine.setLine_lines (e : Engine) (c : Fin 4) (b : LineBuf) :
    (e.setLine c b).lines = e.lines.set c b := rfl

@[simp] theorem Engine.setLine_posC (e : Engine) (c : Fin 4) (b : LineBuf) :
    (e.setLine c b).posC = e.posC := rfl

@[simp] theorem Engine.setLine_posY (e : Engine) (c : Fin 4) (b : LineBuf) :
    (e.setLine c b).posY = e.posY := rfl

@[simp] theorem Engine.setLine_posX (e : Engine) (c : Fin 4) (b : LineBuf) :
    (e.setLine c b).posX = e.posX := rfl

@[simp] theorem Engine.setLine_sl (e : Engine) (c : Fin 4) (b : LineBuf) :
    (e.setLine c b).sl = e.sl := rfl

@[simp] theorem Engine.setLine_sm (e : Engine) (c : Fin 4) (b : LineBuf) :
    (e.setLine c b).sm = e.sm := rfl

@[simp] theorem Engine.setLine_gs (e : Engine) (c : Fin 4) (b : LineBuf) :
    (e.setLine c b).gs = e.gs := rfl

@[simp] theorem Engine.setLine_psReady (e : Engine) (c : Fin 4) (b : LineBuf) :
    (e.setLine c b).psReady = e.psReady := rfl

@[simp] theorem Engine.setLine_opened (e : Engine) (c : Fin 4) (b : LineBuf) :
    (e.setLine c b).opened = e.opened := rfl

/-! ### `Engine.takeSliceError` -/

@[simp] theorem Engine.takeSliceError_rc (e : Engine) (err : ErrorName) :
    (e.takeSliceError err).rc = e.rc := rfl

@[simp] theorem Engine.takeSliceError_bs (e : Engine) (err : ErrorName) :
    (e.takeSliceError err).bs = e.bs := rfl

@[simp] theorem Engine.takeSliceError_gr (e : Engine) (err : ErrorName) :
    (e.takeSliceError err).gr = e.gr := rfl

@[simp] theorem Engine.takeSliceError_lines (e : Engine) (err : ErrorName) :
    (e.takeSliceError err).lines = e.lines := rfl

@[simp] theorem Engine.takeSliceError_posC (e : Engine) (err : ErrorName) :
    (e.takeSliceError err).posC = e.posC := rfl

@[simp] theorem Engine.takeSliceError_posY (e : Engine) (err : ErrorName) :
    (e.takeSliceError err).posY = e.posY := rfl

@[simp] theorem Engine.takeSliceError_posX (e : Engine) (err : ErrorName) :
    (e.takeSliceError err).posX = e.posX := rfl

@[simp] theorem Engine.takeSliceError_sl (e : Engine) (err : ErrorName) :
    (e.takeSliceError err).sl = { e.sl with err := err.code, fsm := .error } := rfl

@[simp] theorem Engine.takeSliceError_sm (e : Engine) (err : ErrorName) :
    (e.takeSliceError err).sm = e.sm := rfl

@[simp] theorem Engine.takeSliceError_gs (e : Engine) (err : ErrorName) :
    (e.takeSliceError err).gs = e.gs := rfl

@[simp] theorem Engine.takeSliceError_psReady (e : Engine) (err : ErrorName) :
    (e.takeSliceError err).psReady = e.psReady := rfl

@[simp] theorem Engine.takeSliceError_opened (e : Engine) (err : ErrorName) :
    (e.takeSliceError err).opened = e.opened := rfl

end Sys2Proof.Machine
end

