-- ==== Sys2Proof/Laws/Store.lean ====
section
/-! SUPPORT. Sys2Proof/Laws/Store.lean: read after write for the sparse memories, and the canonical form is
kept by every operation. -/

namespace Sys2Proof.Machine.Store

variable {α : Type}

/-! ## Read after write -/

@[simp] theorem lookup_nil (k : Nat) : lookup ([] : List (Nat × α)) k = none := rfl

theorem lookup_cons (a : Nat) (v : α) (m : List (Nat × α)) (k : Nat) :
    lookup ((a, v) :: m) k = if k = a then some v else lookup m k := rfl

@[simp] theorem lookup_insert_self (m : List (Nat × α)) (k : Nat) (v : α) :
    lookup (insert m k v) k = some v := by
  induction m with
  | nil => simp [insert, lookup_cons]
  | cons c m ih =>
    obtain ⟨a, w⟩ := c
    simp only [insert]
    split
    · simp [lookup_cons]
    · split
      · simp [lookup_cons]
      · rename_i h; simp [lookup_cons, h, ih]

@[simp] theorem lookup_insert_ne (m : List (Nat × α)) {k j : Nat} (v : α) (h : j ≠ k) :
    lookup (insert m k v) j = lookup m j := by
  induction m with
  | nil => simp [insert, lookup_cons, h]
  | cons c m ih =>
    obtain ⟨a, w⟩ := c
    simp only [insert]
    split
    · simp [lookup_cons, h]
    · split
      · rename_i hk; subst hk; simp [lookup_cons, h]
      · simp [lookup_cons, ih]

theorem lookup_insert (m : List (Nat × α)) (k j : Nat) (v : α) :
    lookup (insert m k v) j = if j = k then some v else lookup m j := by
  split
  · rename_i h; subst h; simp
  · rename_i h; simp [h]

@[simp] theorem lookup_erase_self (m : List (Nat × α)) (k : Nat) : lookup (erase m k) k = none := by
  induction m with
  | nil => rfl
  | cons c m ih =>
    obtain ⟨a, w⟩ := c
    simp only [erase]
    split
    · exact ih
    · rename_i h; simp [lookup_cons, h, ih]

@[simp] theorem lookup_erase_ne (m : List (Nat × α)) {k j : Nat} (h : j ≠ k) :
    lookup (erase m k) j = lookup m j := by
  induction m with
  | nil => rfl
  | cons c m ih =>
    obtain ⟨a, w⟩ := c
    simp only [erase]
    split
    · rename_i hk; subst hk; simp [lookup_cons, h, ih]
    · simp [lookup_cons, ih]

variable [DecidableEq α]

@[simp] theorem get_put_self (d : Nat → α) (m : List (Nat × α)) (k : Nat) (v : α) :
    get d (put d m k v) k = v := by
  unfold get put; split
  · rename_i h; simp [h]
  · simp

@[simp] theorem get_put_ne (d : Nat → α) (m : List (Nat × α)) {k j : Nat} (v : α) (h : j ≠ k) :
    get d (put d m k v) j = get d m j := by
  unfold get put; split <;> simp [h]

theorem get_put (d : Nat → α) (m : List (Nat × α)) (k j : Nat) (v : α) :
    get d (put d m k v) j = if j = k then v else get d m j := by
  split
  · rename_i h; subst h; simp
  · rename_i h; simp [h]

omit [DecidableEq α] in
@[simp] theorem get_nil (d : Nat → α) (k : Nat) : get d [] k = d k := rfl

omit [DecidableEq α] in
theorem lookup_append (m n : List (Nat × α)) (k : Nat) :
    lookup (m ++ n) k = (lookup m k).or (lookup n k) := by
  induction m with
  | nil => simp
  | cons c m ih =>
    obtain ⟨a, v⟩ := c
    simp only [List.cons_append, lookup_cons]
    split <;> simp [ih]

omit [DecidableEq α] in
theorem lookup_filter_key (p : Nat → Bool) (m : List (Nat × α)) (k : Nat) :
    lookup (m.filter fun e => p e.1) k = if p k then lookup m k else none := by
  induction m with
  | nil => simp
  | cons c m ih =>
    obtain ⟨a, v⟩ := c
    by_cases ha : p a
    · simp only [List.filter_cons, ha, if_true, lookup_cons, ih]
      by_cases hk : k = a
      · simp [hk, ha]
      · simp [hk]
    · rw [List.filter_cons_of_neg (by simpa using ha), ih, lookup_cons]
      by_cases hk : k = a
      · simp [hk, ha]
      · simp [hk]

theorem lookup_blockEntries_below (d : Nat → α) (vs : List α) :
    ∀ base k, k < base → lookup (blockEntries d base vs) k = none := by
  induction vs with
  | nil => intros; rfl
  | cons v vs ih =>
    intro base k hk
    simp only [blockEntries]
    split
    · exact ih (base + 1) k (by omega)
    · simp [lookup_cons, ih (base + 1) k (by omega), Nat.ne_of_lt hk]

theorem lookup_blockEntries_above (d : Nat → α) (vs : List α) :
    ∀ base k, base + vs.length ≤ k → lookup (blockEntries d base vs) k = none := by
  induction vs with
  | nil => intros; rfl
  | cons v vs ih =>
    intro base k hk
    simp only [List.length_cons] at hk
    simp only [blockEntries]
    split
    · exact ih (base + 1) k (by omega)
    · simp [lookup_cons, ih (base + 1) k (by omega), show k ≠ base by omega]

theorem lookup_blockEntries_inside (d : Nat → α) (vs : List α) :
    ∀ base i (h : i < vs.length), (lookup (blockEntries d base vs) (base + i)).getD (d (base + i)) = vs[i] := by
  induction vs with
  | nil => intro base i h; simp at h
  | cons v vs ih =>
    intro base i h
    cases i with
    | zero =>
      simp only [blockEntries, Nat.add_zero, List.getElem_cons_zero]
      split
      · rename_i hv; simp [lookup_blockEntries_below, hv]
      · simp [lookup_cons]
    | succ i =>
      have := ih (base + 1) i (by simpa using h)
      rw [show base + 1 + i = base + (i + 1) by omega] at this
      simp only [blockEntries, List.getElem_cons_succ]
      split
      · exact this
      · simpa [lookup_cons] using this

/-- Reading inside a written block gives the value written. -/
theorem get_putBlock_inside (d : Nat → α) (m : List (Nat × α)) (base : Nat) (vs : List α) (i : Nat)
    (h : i < vs.length) : get d (putBlock d m base vs) (base + i) = vs[i] := by
  have h1 := lookup_filter_key (fun k => decide (k < base)) m (base + i)
  have h2 := lookup_filter_key (fun k => decide (base + vs.length ≤ k)) m (base + i)
  simp only [get, putBlock, lookup_append, h1, h2]
  simpa [show ¬ base + vs.length ≤ base + i by omega] using lookup_blockEntries_inside d vs base i h

/-- Reading outside a written block gives what it gave before. -/
theorem get_putBlock_outside (d : Nat → α) (m : List (Nat × α)) (base : Nat) (vs : List α) (k : Nat)
    (h : k < base ∨ base + vs.length ≤ k) : get d (putBlock d m base vs) k = get d m k := by
  have h1 := lookup_filter_key (fun k => decide (k < base)) m k
  have h2 := lookup_filter_key (fun k => decide (base + vs.length ≤ k)) m k
  simp only [get, putBlock, lookup_append, h1, h2]
  rcases h with h | h
  · simp [h, lookup_blockEntries_below d vs base k h, show ¬ base + vs.length ≤ k by omega]
  · simp [h, lookup_blockEntries_above d vs base k h, show ¬ k < base by omega]

/-! ## Rising keys -/

omit [DecidableEq α] in
theorem sorted_iff_pairwise (m : List (Nat × α)) :
    sorted m = true ↔ m.Pairwise (fun c e => c.1 < e.1) := by
  induction m with
  | nil => simp [sorted]
  | cons c m ih =>
    cases m with
    | nil => simp [sorted]
    | cons e m =>
      obtain ⟨a, v⟩ := c; obtain ⟨b, w⟩ := e
      simp only [sorted, Bool.and_eq_true, decide_eq_true_eq, ih, List.pairwise_cons, List.mem_cons]
      constructor
      · rintro ⟨hab, hb, hm⟩
        refine ⟨fun x hx => ?_, hb, hm⟩
        rcases hx with rfl | hx
        · exact hab
        · exact lt_trans hab (hb x hx)
      · rintro ⟨ha, hb, hm⟩
        exact ⟨ha (b, w) (Or.inl rfl), hb, hm⟩

omit [DecidableEq α] in
theorem mem_insert (m : List (Nat × α)) (k : Nat) (v : α) (c : Nat × α) (h : c ∈ insert m k v) :
    c = (k, v) ∨ c ∈ m := by
  induction m with
  | nil => simpa [insert] using h
  | cons e m ih =>
    obtain ⟨a, w⟩ := e
    simp only [insert] at h
    split at h
    · simpa using h
    · split at h
      · rcases List.mem_cons.1 h with h | h
        · exact Or.inl h
        · exact Or.inr (List.mem_cons_of_mem _ h)
      · rcases List.mem_cons.1 h with h | h
        · exact Or.inr (by simp [h])
        · rcases ih h with h | h
          · exact Or.inl h
          · exact Or.inr (List.mem_cons_of_mem _ h)

omit [DecidableEq α] in
theorem mem_erase (m : List (Nat × α)) (k : Nat) (c : Nat × α) (h : c ∈ erase m k) : c ∈ m := by
  induction m with
  | nil => simp [erase] at h
  | cons e m ih =>
    obtain ⟨a, w⟩ := e
    simp only [erase] at h
    split at h
    · exact List.mem_cons_of_mem _ (ih h)
    · rcases List.mem_cons.1 h with h | h
      · simp [h]
      · exact List.mem_cons_of_mem _ (ih h)

omit [DecidableEq α] in
theorem lookup_mem (m : List (Nat × α)) (k : Nat) (v : α) (h : lookup m k = some v) : (k, v) ∈ m := by
  induction m with
  | nil => simp at h
  | cons e m ih =>
    obtain ⟨a, w⟩ := e
    rw [lookup_cons] at h
    split at h
    · rename_i hk; simp only [Option.some.injEq] at h; simp [hk, h]
    · exact List.mem_cons_of_mem _ (ih h)

omit [DecidableEq α] in
/-- A sorted list answers the value that it lists. -/
theorem lookup_of_mem {m : List (Nat × α)} {c : Nat × α} (h : sorted m = true) (hc : c ∈ m) :
    lookup m c.1 = some c.2 := by
  rw [sorted_iff_pairwise] at h
  induction m with
  | nil => cases hc
  | cons a m ih =>
    rw [List.pairwise_cons] at h
    rcases List.mem_cons.mp hc with rfl | hc
    · simp [lookup]
    · have := h.1 c hc
      rw [lookup_cons, if_neg (by omega), ih h.2 hc]

omit [DecidableEq α] in
/-- Inserting keeps the keys rising. -/
theorem sorted_insert (m : List (Nat × α)) (k : Nat) (v : α) (h : sorted m = true) :
    sorted (insert m k v) = true := by
  rw [sorted_iff_pairwise] at *
  induction m with
  | nil => simp [insert]
  | cons e m ih =>
    obtain ⟨a, w⟩ := e
    have ⟨ha, hm⟩ := List.pairwise_cons.1 h
    simp only [insert]
    split
    · rename_i hk
      refine List.pairwise_cons.2 ⟨fun x hx => ?_, h⟩
      rcases List.mem_cons.1 hx with rfl | hx
      · exact hk
      · exact lt_trans hk (ha x hx)
    · split
      · rename_i hk; subst hk; exact List.pairwise_cons.2 ⟨ha, hm⟩
      · refine List.pairwise_cons.2 ⟨fun x hx => ?_, ih hm⟩
        rcases mem_insert m k v x hx with rfl | hx
        · show a < k; omega
        · exact ha x hx

omit [DecidableEq α] in
/-- Erasing keeps the keys rising. -/
theorem sorted_erase (m : List (Nat × α)) (k : Nat) (h : sorted m = true) : sorted (erase m k) = true := by
  rw [sorted_iff_pairwise] at *
  induction m with
  | nil => simp [erase]
  | cons e m ih =>
    obtain ⟨a, w⟩ := e
    have ⟨ha, hm⟩ := List.pairwise_cons.1 h
    simp only [erase]
    split
    · exact ih hm
    · exact List.pairwise_cons.2 ⟨fun x hx => ha x (mem_erase m k x hx), ih hm⟩

omit [DecidableEq α] in
/-- Dropping entries keeps the keys rising. -/
theorem sorted_filter (p : Nat × α → Bool) (m : List (Nat × α)) (h : sorted m = true) :
    sorted (m.filter p) = true := by
  rw [sorted_iff_pairwise] at *
  exact h.filter p

/-! ## The canonical form -/

theorem wf_iff (d : Nat → α) (m : List (Nat × α)) :
    wf d m = true ↔ sorted m = true ∧ ∀ c ∈ m, c.2 ≠ d c.1 := by
  simp [wf, List.all_eq_true]

@[simp] theorem wf_nil (d : Nat → α) : wf d [] = true := rfl

/-- Writing keeps the canonical form. -/
theorem wf_put (d : Nat → α) (m : List (Nat × α)) (k : Nat) (v : α) (h : wf d m = true) :
    wf d (put d m k v) = true := by
  rw [wf_iff] at *
  unfold put
  split
  · exact ⟨sorted_erase m k h.1, fun c hc => h.2 c (mem_erase m k c hc)⟩
  · rename_i hv
    refine ⟨sorted_insert m k v h.1, fun c hc => ?_⟩
    rcases mem_insert m k v c hc with rfl | hc
    · exact hv
    · exact h.2 c hc

/-- Dropping entries keeps the canonical form. -/
theorem wf_filter (d : Nat → α) (p : Nat × α → Bool) (m : List (Nat × α)) (h : wf d m = true) :
    wf d (m.filter p) = true := by
  rw [wf_iff] at *
  exact ⟨sorted_filter p m h.1, fun c hc => h.2 c (List.mem_filter.1 hc).1⟩

theorem blockEntries_key (d : Nat → α) (vs : List α) :
    ∀ base c, c ∈ blockEntries d base vs → base ≤ c.1 ∧ c.1 < base + vs.length ∧ c.2 ≠ d c.1 := by
  induction vs with
  | nil => intro base c h; simp [blockEntries] at h
  | cons v vs ih =>
    intro base c h
    simp only [blockEntries] at h
    simp only [List.length_cons]
    split at h
    · have := ih (base + 1) c h; exact ⟨by omega, by omega, this.2.2⟩
    · rename_i hv
      rcases List.mem_cons.1 h with rfl | h
      · exact ⟨le_refl _, by simp, hv⟩
      · have := ih (base + 1) c h; exact ⟨by omega, by omega, this.2.2⟩

theorem blockEntries_pairwise (d : Nat → α) (vs : List α) :
    ∀ base, (blockEntries d base vs).Pairwise (fun c e => c.1 < e.1) := by
  induction vs with
  | nil => intro; simp [blockEntries]
  | cons v vs ih =>
    intro base
    simp only [blockEntries]
    split
    · exact ih (base + 1)
    · refine List.pairwise_cons.2 ⟨fun x hx => ?_, ih (base + 1)⟩
      have := (blockEntries_key d vs (base + 1) x hx).1
      show base < x.1; omega

/-- Writing a block keeps the canonical form. -/
theorem wf_putBlock (d : Nat → α) (m : List (Nat × α)) (base : Nat) (vs : List α) (h : wf d m = true) :
    wf d (putBlock d m base vs) = true := by
  rw [wf_iff, sorted_iff_pairwise] at *
  obtain ⟨hs, hd⟩ := h
  refine ⟨?_, fun c hc => ?_⟩
  · unfold putBlock
    rw [List.pairwise_append, List.pairwise_append]
    refine ⟨⟨hs.filter _, blockEntries_pairwise d vs base, fun c hc e he => ?_⟩, hs.filter _,
      fun c hc e he => ?_⟩
    · have h1 := (List.mem_filter.1 hc).2
      have h2 := (blockEntries_key d vs base e he).1
      simp only [decide_eq_true_eq] at h1; omega
    · have h2 := (List.mem_filter.1 he).2
      simp only [decide_eq_true_eq] at h2
      rcases List.mem_append.1 hc with hc | hc
      · have h1 := (List.mem_filter.1 hc).2
        simp only [decide_eq_true_eq] at h1; omega
      · have h1 := (blockEntries_key d vs base c hc).2.1; omega
  · unfold putBlock at hc
    rcases List.mem_append.1 hc with hc | hc
    · rcases List.mem_append.1 hc with hc | hc
      · exact hd c (List.mem_filter.1 hc).1
      · exact (blockEntries_key d vs base c hc).2.2
    · exact hd c (List.mem_filter.1 hc).1

end Sys2Proof.Machine.Store
end

