-- ==== Sys2Proof/Laws/Ops.lean ====
section
/-! SUPPORT. Sys2Proof/Laws/Ops.lean: what the shared operations can do, and read after write through the
accessors of the engines and of the block's memories. -/

namespace Sys2Proof.Machine

/-! ## Widths and constants -/

/-- A byte cursor is below `2^(ADDR_W + 1)`. -/
theorem addr_toNat_lt (a : Addr) : a.toNat < 2 ^ 33 := a.isLt

/-- A bit cursor is below `2^(ADDR_W + 3)`. -/
theorem bitPos_toNat_lt (p : BitPos) : p.toNat < 2 ^ 35 := p.isLt

/-- A number as a byte cursor. -/
theorem addr_toNat_ofNat (n : Nat) : (BitVec.ofNat (Config.addrW + 1) n).toNat = n % 2 ^ 33 := rfl

/-- A number as a bit cursor. -/
theorem bitPos_toNat_ofNat (n : Nat) : (BitVec.ofNat (Config.addrW + 3) n).toNat = n % 2 ^ 35 := rfl

/-- An address register as a byte cursor. -/
theorem addr_ofNat_toNat (b : Word) : BitVec.ofNat (Config.addrW + 1) b.toNat = b.setWidth _ := by
  apply BitVec.eq_of_toNat_eq; simp [Config.addrW]

/-- The end of a buffer as a byte cursor. -/
theorem addr_ofNat_add (b n : Word) : BitVec.ofNat (Config.addrW + 1) (b.toNat + n.toNat) = bufferEnd b n := by
  apply BitVec.eq_of_toNat_eq; simp [bufferEnd, Config.addrW]

/-- The buffer constraint of R63, in numbers. -/
theorem bufferOk_iff (b n : Word) : bufferOk b n = true ↔ b.toNat + n.toNat ≤ 2 ^ 32 - 2 := by
  unfold bufferOk
  rw [decide_eq_true_iff]
  exact Iff.rfl

/-- Without reflection the CRC takes the bits as they stand. -/
@[simp] theorem crcOrder_default {n : Nat} (v : BitVec n) : crcOrder v = v := rfl

@[simp] theorem zeroByte_default : zeroByte = 0 := rfl

/-! ## Engines -/

@[simp] theorem engine_setEngine_self (s : State) (k : Nat) (e : Engine) : (s.setEngine k e).engine k = e := by
  simp [State.engine]

@[simp] theorem engine_setEngine_ne (s : State) {j k : Nat} (e : Engine) (h : j ≠ k) :
    (s.setEngine k e).engine j = s.engine j := by
  simp [State.engine, h]

@[simp] theorem hasEngine_setEngine_self (s : State) (k : Nat) (e : Engine) :
    (s.setEngine k e).hasEngine k = true := by
  simp [State.hasEngine]

@[simp] theorem hasEngine_setEngine_ne (s : State) {j k : Nat} (e : Engine) (h : j ≠ k) :
    (s.setEngine k e).hasEngine j = s.hasEngine j := by
  simp [State.hasEngine, h]

theorem engine_congr {s t : State} (h : t.engines = s.engines) (k : Nat) : t.engine k = s.engine k := by
  simp [State.engine, h]

theorem hasEngine_congr {s t : State} (h : t.engines = s.engines) (k : Nat) :
    t.hasEngine k = s.hasEngine k := by
  simp [State.hasEngine, h]

theorem sample_congr {s t : State} (h : t.plane = s.plane) (p : Fin 4) (x y : Nat) :
    t.sample p x y = s.sample p x y := by
  simp [State.sample, h]

@[simp] theorem engine_finish (s : State) (r : Option Word) (k : Nat) : (s.finish r).engine k = s.engine k := rfl

@[simp] theorem hasEngine_finish (s : State) (r : Option Word) (k : Nat) :
    (s.finish r).hasEngine k = s.hasEngine k := rfl

@[simp] theorem sample_finish (s : State) (r : Option Word) (p : Fin 4) (x y : Nat) :
    (s.finish r).sample p x y = s.sample p x y := rfl

@[simp] theorem engine_takeError (s : State) (e : ErrorName) (n : BitVec 16) (k : Nat) :
    (s.takeError e n).engine k = s.engine k := rfl

@[simp] theorem sample_setEngine (s : State) (k : Nat) (e : Engine) (p : Fin 4) (x y : Nat) :
    (s.setEngine k e).sample p x y = s.sample p x y := rfl

@[simp] theorem engine_setSliceSt_self (s : State) (k : Nat) (st : SliceSt) :
    (s.setSliceSt k st).engine k = st.eng := by
  simp [State.engine]

@[simp] theorem engine_setSliceSt_ne (s : State) {j k : Nat} (st : SliceSt) (h : j ≠ k) :
    (s.setSliceSt k st).engine j = s.engine j := by
  simp [State.engine, h]

@[simp] theorem engine_setParseSt_self (s : State) (k : Nat) (st : ParseSt) :
    (s.setParseSt k st).engine k = st.eng := by
  simp [State.engine]

@[simp] theorem engine_setParseSt_ne (s : State) {j k : Nat} (st : ParseSt) (h : j ≠ k) :
    (s.setParseSt k st).engine j = s.engine j := by
  simp [State.engine, h]

/-! ## The end of a command -/

/-- Everything that `complete` can do: it answers `s` with the command ended. -/
theorem complete_next {s t : State} : complete s = .next t ↔ t = s.finish none := by
  simp [complete, eq_comm]

/-- Everything that `completeWith` can do. -/
theorem completeWith_next {r : Word} {s t : State} : completeWith r s = .next t ↔ t = s.finish (some r) := by
  simp [completeWith, eq_comm]

/-- Everything that taking an error can do. -/
theorem failWith_next {e : ErrorName} {n : BitVec 16} {s t : State} :
    failWith e n s = .next t ↔ t = s.takeError e n := by
  simp [failWith, eq_comm]

/-- Everything that a legality check can do: the operation runs, or `E_BAD_COMMAND` is taken. -/
theorem checked_next {legal : Bool} {n : BitVec 16} {s t : State} {f : State → Out} :
    checked legal n s f = .next t ↔
      (legal = true ∧ f s = .next t) ∨ (legal = false ∧ t = s.takeError .badCommand n) := by
  cases legal <;> simp [checked, failWith_next]

theorem checked_of {legal : Bool} (n : BitVec 16) (s : State) (f : State → Out) (h : legal = true) :
    checked legal n s f = f s := by
  simp [checked, h]

theorem checked_not {legal : Bool} (n : BitVec 16) (s : State) (f : State → Out) (h : legal = false) :
    checked legal n s f = .next (s.takeError .badCommand n) := by
  simp [checked, h, failWith]

/-- Everything that an operation without a result on one engine can do. -/
theorem onEngine_next {k : BitVec 16} {s t : State} {f : Engine → Engine} :
    onEngine k s f = .next t ↔ t = (s.setEngine k.toNat (f (s.engine k.toNat))).finish none := by
  simp [onEngine, complete_next]

/-- Everything that an operation with a result on one engine can do. -/
theorem onEngineWith_next {k : BitVec 16} {s t : State} {f : Engine → Engine × Word} :
    onEngineWith k s f = .next t ↔
      t = (s.setEngine k.toNat (f (s.engine k.toNat)).1).finish (some (f (s.engine k.toNat)).2) := by
  simp [onEngineWith, completeWith_next]

/-- An operation without a result on one engine ends, and changes nothing but the engine. -/
theorem onEngine_unitDone (k : BitVec 16) (s : State) (f : Engine → Engine) :
    ∃ t, onEngine k s f = .next t ∧ unitDone k.toNat s t s.result ∧
      t.engine k.toNat = f (s.engine k.toNat) := by
  refine ⟨_, rfl, ⟨⟨rfl, rfl, rfl, rfl⟩, fun _ => rfl, fun _ _ _ => rfl, fun j hj => ?_, by simp, rfl⟩, by simp⟩
  exact ⟨by simp [hj], by simp [hj]⟩

/-- An operation with a result on one engine ends with it, and changes nothing but the engine. -/
theorem onEngineWith_unitDone (k : BitVec 16) (s : State) (f : Engine → Engine × Word) :
    ∃ t, onEngineWith k s f = .next t ∧ unitDone k.toNat s t (f (s.engine k.toNat)).2 ∧
      t.engine k.toNat = (f (s.engine k.toNat)).1 := by
  refine ⟨_, rfl, ⟨⟨rfl, rfl, rfl, rfl⟩, fun _ => rfl, fun _ _ _ => rfl, fun j hj => ?_, by simp, rfl⟩, by simp⟩
  exact ⟨by simp [hj], by simp [hj]⟩

/-- Everything that an operation which writes samples can do. -/
theorem onSlice_next {k : BitVec 16} {s t : State} {f : SliceIn → SliceSt → SliceSt} :
    onSlice k s f = .next t ↔ t = (s.setSliceSt k.toNat (f s.sliceIn (s.sliceSt k.toNat))).finish none := by
  simp [onSlice, complete_next]

/-- Everything that a slice operation which the host issued can do. -/
theorem endSlice_next {k : BitVec 16} {s t : State} {r : SliceRes} :
    endSlice k s r = .next t ↔
      (∃ st, r = .ok () st ∧ t = (s.setSliceSt k.toNat st).finish none) ∨
      (∃ e st, r = .raise e st ∧
        t = (s.setSliceSt k.toNat { st with eng := st.eng.takeSliceError e }).takeError e k) := by
  cases r <;> simp [endSlice, settle, complete_next, failWith_next]

/-- Everything that a parser operation which the host issued can do. -/
theorem endParse_next {k : BitVec 16} {s t : State} {r : Res ParseSt Unit} :
    endParse k s r = .next t ↔
      (∃ st, r = .ok () st ∧ t = (s.setParseSt k.toNat st).finish none) ∨
      (∃ e st, r = .raise e st ∧ t = (s.setParseSt k.toNat st).takeError e noSlice) := by
  cases r <;> simp [endParse, complete_next, failWith_next]

/-- Everything that a parser operation with a result can do. -/
theorem endParseNat_next {k : BitVec 16} {s t : State} {r : Res ParseSt Nat} :
    endParseNat k s r = .next t ↔
      (∃ n st, r = .ok n st ∧ t = (s.setParseSt k.toNat st).finish (some (BitVec.ofNat 32 n))) ∨
      (∃ e st, r = .raise e st ∧ t = (s.setParseSt k.toNat st).takeError e noSlice) := by
  cases r <;> simp [endParseNat, completeWith_next, failWith_next]

/-- Everything that ending a frame-level operation can do. -/
theorem endFrame_next {t : State} {r : Res State Unit} :
    endFrame r = .next t ↔
      (∃ s, r = .ok () s ∧ t = s.finish none) ∨ (∃ e s, r = .raise e s ∧ t = s.takeError e noSlice) := by
  cases r <;> simp [endFrame, complete_next, failWith_next]

/-- A sequence ends well when both parts do. -/
theorem Res.bind_ok {σ α β : Type} {r : Res σ α} {f : α → σ → Res σ β} {b : β} {s : σ} :
    r.bind f = .ok b s ↔ ∃ a s', r = .ok a s' ∧ f a s' = .ok b s := by
  cases r <;> simp [Res.bind]

/-- A sequence raises when its first part does, or the second after it. -/
theorem Res.bind_raise {σ α β : Type} {r : Res σ α} {f : α → σ → Res σ β} {e : ErrorName} {s : σ} :
    r.bind f = .raise e s ↔ r = .raise e s ∨ ∃ a s', r = .ok a s' ∧ f a s' = .raise e s := by
  cases r <;> simp [Res.bind]

/-! ## State references -/

theorem StateRef.key_hb (i : BitVec 5) : (StateRef.hb i).key = i.toNat := by
  have := i.isLt
  simp only [StateRef.key, StateRef.word, BitVec.toNat_append, BitVec.toNat_ofNat]
  simp

theorem StateRef.key_ks : StateRef.ks.key = 2 ^ 28 := by decide

theorem StateRef.key_ts : StateRef.ts.key = 2 * 2 ^ 28 := by decide

theorem StateRef.key_qb (i : BitVec 5) : (StateRef.qb i).key = 3 * 2 ^ 28 + i.toNat := by
  have := i.isLt
  simp only [StateRef.key, StateRef.word, BitVec.toNat_append, BitVec.toNat_ofNat]
  rw [← Nat.shiftLeft_add_eq_or_of_lt (by omega)]
  simp [Nat.shiftLeft_eq]

theorem StateRef.key_ib (k i : BitVec 5) : (StateRef.ib k i).key = 4 * 2 ^ 28 + k.toNat * 2 ^ 5 + i.toNat := by
  have := i.isLt; have := k.isLt
  simp only [StateRef.key, StateRef.word, BitVec.toNat_append, BitVec.toNat_ofNat]
  rw [← Nat.shiftLeft_add_eq_or_of_lt (by omega), ← Nat.shiftLeft_add_eq_or_of_lt (by omega)]
  simp [Nat.shiftLeft_eq, Nat.add_mul]

theorem StateRef.key_ps (p : BitVec 2) (q : BitVec 3) (ctx : BitVec 14) (i : BitVec 5) :
    (StateRef.ps p q ctx i).key =
      5 * 2 ^ 28 + p.toNat * 2 ^ 26 + q.toNat * 2 ^ 23 + ctx.toNat * 2 ^ 5 + i.toNat := by
  have := i.isLt; have := ctx.isLt; have := q.isLt; have := p.isLt
  simp only [StateRef.key, StateRef.word, BitVec.toNat_append, BitVec.toNat_ofNat]
  rw [← Nat.shiftLeft_add_eq_or_of_lt (by omega), ← Nat.shiftLeft_add_eq_or_of_lt (by omega),
    ← Nat.shiftLeft_add_eq_or_of_lt (by omega), ← Nat.shiftLeft_add_eq_or_of_lt (by omega),
    ← Nat.shiftLeft_add_eq_or_of_lt (by omega)]
  simp only [Nat.shiftLeft_eq]
  omega

/-- Two references with the same encoding are the same. -/
theorem StateRef.key_injective {r r' : StateRef} (h : r.key = r'.key) : r = r' := by
  cases r <;> cases r' <;>
    simp only [StateRef.key_hb, StateRef.key_ks, StateRef.key_ts, StateRef.key_qb, StateRef.key_ib,
      StateRef.key_ps] at h <;>
    simp only [StateRef.hb.injEq, StateRef.qb.injEq, StateRef.ib.injEq, StateRef.ps.injEq, reduceCtorEq,
      ← BitVec.toNat_inj] <;>
    bv_omega

/-- A field of a reference's encoding, as a number. -/
theorem StateRef.word_field (r : StateRef) (start len : Nat) :
    (r.word.extractLsb' start len).toNat = r.key / 2 ^ start % 2 ^ len := by
  simp [StateRef.key, BitVec.extractLsb'_toNat, Nat.shiftRight_eq_div_pow]

/-- The encoding of a reference decodes to it. -/
theorem StateRef.ofWord_word (r : StateRef) : StateRef.ofWord r.word = some r := by
  have field : ∀ (start len : Nat) (v : BitVec len), r.key / 2 ^ start % 2 ^ len = v.toNat →
      r.word.extractLsb' start len = v := fun start len v h =>
    BitVec.eq_of_toNat_eq ((StateRef.word_field r start len).trans h)
  cases r with
  | hb i =>
    have := i.isLt; have hk := StateRef.key_hb i
    simp only [StateRef.ofWord, field 28 4 0#4 (by rw [hk]; simp; omega), field 0 5 i (by rw [hk]; omega)]
    simp
  | ks => decide
  | ts => decide
  | qb i =>
    have := i.isLt; have hk := StateRef.key_qb i
    simp only [StateRef.ofWord, field 28 4 3#4 (by rw [hk]; simp; omega), field 0 5 i (by rw [hk]; omega)]
    simp
  | ib k i =>
    have := i.isLt; have := k.isLt; have hk := StateRef.key_ib k i
    simp only [StateRef.ofWord, field 28 4 4#4 (by rw [hk]; simp; omega), field 0 5 i (by rw [hk]; omega),
      field 5 5 k (by rw [hk]; omega)]
    simp
  | ps p q ctx i =>
    have := i.isLt; have := ctx.isLt; have := q.isLt; have := p.isLt
    have hk := StateRef.key_ps p q ctx i
    simp only [StateRef.ofWord, field 28 4 5#4 (by rw [hk]; simp; omega), field 0 5 i (by rw [hk]; omega),
      field 26 2 p (by rw [hk]; omega), field 23 3 q (by rw [hk]; omega), field 5 14 ctx (by rw [hk]; omega)]
    simp

@[simp] theorem state_setState_self (e : Engine) (r : StateRef) (v : Byte) : (e.setState r v).state r = v := by
  simp [Engine.state, Engine.setState]

@[simp] theorem state_setState_ne (e : Engine) {r r' : StateRef} (v : Byte) (h : r' ≠ r) :
    (e.setState r v).state r' = e.state r' := by
  simp only [Engine.state, Engine.setState]
  exact Store.get_put_ne _ _ _ fun hk => h (StateRef.key_injective hk)

/-! ## Line buffers, samples -/

@[simp] theorem line_setLine_self (e : Engine) (c : Fin 4) (b : LineBuf) : (e.setLine c b).line c = b := by
  simp [Engine.line, Engine.setLine, Vector.get_eq_getElem]

theorem line_setLine_ne (e : Engine) {c d : Fin 4} (b : LineBuf) (h : d ≠ c) :
    (e.setLine c b).line d = e.line d := by
  simp only [Engine.line, Engine.setLine, Vector.get_eq_getElem]
  exact Vector.getElem_set_ne c.isLt d.isLt (fun hc => h (Fin.ext hc.symm))

/-- Two samples with the same key are the same. -/
theorem sampleKey_inj {p p' : Fin 4} {x x' y y' : Nat} :
    sampleKey p x y = sampleKey p' x' y' ↔ p = p' ∧ x = x' ∧ y = y' := by
  constructor
  · intro h
    have hp := p.isLt; have hp' := p'.isLt
    simp only [sampleKey] at h
    have h1 : p = p' := Fin.ext (by omega)
    have h2 := Nat.pair_eq_pair.1 (show Nat.pair x y = Nat.pair x' y' by omega)
    exact ⟨h1, h2.1, h2.2⟩
  · rintro ⟨rfl, rfl, rfl⟩; rfl

/-- A sample of a store into which sample `(p, x, y)` has been put. -/
theorem lookup_insert_sample (m : List (Nat × Word)) (p p' : Fin 4) (x x' y y' : Nat) (v : Word) :
    Store.lookup (Store.insert m (sampleKey p x y) v) (sampleKey p' x' y') =
      if p' = p ∧ x' = x ∧ y' = y then some v else Store.lookup m (sampleKey p' x' y') := by
  simp only [Store.lookup_insert, sampleKey_inj]

/-! ## Slice tasks -/

/-- Putting the samples of a task into the store changes nothing but the store and the record of what ended
tasks wrote. -/
theorem mergeSamples_frame (cs : List (Nat × Word)) (s : State) :
    cs.foldl mergeSample s = { s with
      plane := (cs.foldl mergeSample s).plane
      written := (cs.foldl mergeSample s).written
      freeCtr := (cs.foldl mergeSample s).freeCtr } := by
  induction cs generalizing s with
  | nil => rfl
  | cons c cs ih =>
    rw [List.foldl_cons, ih]
    rfl

/-- Everything that a slice task can change (R262, R368). -/
theorem runTask_frame (a : Task) (s : State) :
    runTask a s = { s with
      engines := (runTask a s).engines
      plane := (runTask a s).plane
      written := (runTask a s).written
      freeCtr := (runTask a s).freeCtr } := by
  unfold runTask
  dsimp only
  rw [mergeSamples_frame]
  rfl

/-- Everything that running tasks one after another can change (R302). -/
theorem runTasks_frame (ts : List Task) (s : State) :
    runTasks ts s = { s with
      engines := (runTasks ts s).engines
      plane := (runTasks ts s).plane
      written := (runTasks ts s).written
      freeCtr := (runTasks ts s).freeCtr } := by
  induction ts generalizing s with
  | nil => rfl
  | cons a ts ih =>
    have h := ih (runTask a s)
    rw [runTask_frame] at h
    unfold runTasks at *
    rw [List.foldl_cons, runTask_frame]
    exact h

@[simp] theorem awaitTasks_tasks (s : State) : (awaitTasks s).tasks = [] := by
  unfold awaitTasks
  rw [runTasks_frame]

@[simp] theorem awaitTasks_written (s : State) : (awaitTasks s).written = [] := rfl

/-- With no task in flight there is nothing to await. -/
theorem awaitTasks_of_none {s : State} (h : s.tasks = []) : awaitTasks s = { s with written := [] } := by
  unfold awaitTasks
  rw [h]
  rfl

/-- With more than one worker `FR_DISPATCH` submits its tasks and returns (R301). -/
theorem frDispatch_pool {s : State} (h : 2 ≤ s.workers) : frDispatch s = submitTasks s :=
  if_neg (by show ¬ s.workers ≤ 1; omega)

/-- With one worker it runs them (R302). -/
theorem frDispatch_inline {s : State} (h : s.workers ≤ 1) : frDispatch s = awaitTasks (submitTasks s) :=
  if_pos h

/-- Behind the join barrier the number of workers makes no difference (R87, R302). -/
theorem awaitTasks_frDispatch (s : State) : awaitTasks (frDispatch s) = awaitTasks (submitTasks s) := by
  by_cases h : s.workers ≤ 1
  · rw [frDispatch_inline h, awaitTasks_of_none (awaitTasks_tasks _)]
    rfl
  · rw [frDispatch_pool (by omega)]

/-! ## The canonical form of `IN` -/

/-- A write of a byte keeps the canonical form of `IN`. -/
theorem memory_wf_write {im : List Host.Cell} (a : Nat) (v : Byte) (h : Memory.wf im = true) :
    Memory.wf (Store.put inDefault im a v) = true := Store.wf_put _ _ _ _ h

/-- `IN` has its canonical form at reset. -/
theorem memory_wf_reset : Memory.wf State.reset.inMem = true := rfl

/-- A written byte reads as written, every other byte as before. -/
theorem inByte_write (im : List Host.Cell) (a b : Nat) (v : Byte) :
    inByte (Store.put inDefault im a v) b = if b = a then v else inByte im b := Store.get_put _ _ _ _ _

/-! ## The hardware reset -/

@[simp] theorem abandoned_nil (run : State → Out) (s : State) : abandoned run [] s = s := rfl

/-- With no command pending and no task in flight, a hardware reset keeps every sample (R360, R361). -/
theorem hwReset_idle (run : State → Out) {s : State} (hb : s.busy = false) (ht : s.tasks = [])
    (hp : Store.sorted s.plane = true) :
    hwReset run s =
      { s.resetBlock with plane := s.plane, planeSizes := s.planeSizes, freeCtr := s.freeCtr + 1 } := by
  have h : ∀ a v, (a, v) ∈ s.plane → Store.lookup s.plane a = some v := fun _ _ h => Store.lookup_of_mem hp h
  simpa [hwReset, hb, ht] using h

/-- A hardware reset leaves no sample with a value that it did not have before (R360). -/
theorem mem_hwReset_plane (run : State → Out) (s : State) (c : Nat × Word) (h : c ∈ (hwReset run s).plane) :
    c ∈ s.plane := (List.mem_filter.mp h).1
end Sys2Proof.Machine
end

