-- ==== Sys2Proof/Laws/Coder.lean ====
section
/-! SUPPORT. Sys2Proof/Laws/Coder.lean: for each operation of the range decoder, of the bitstream reader, of
the Golomb-Rice decoder and of the sample path, everything that it can change. -/

namespace Sys2Proof.Machine

/-! ## Frames compose -/

theorem onlyDecisions_refl (P : StateRef → Prop) (e : Engine) : onlyDecisions P e e := ⟨fun _ _ => rfl, rfl⟩

theorem onlyDecisions_trans {P : StateRef → Prop} {e f g : Engine} (h : onlyDecisions P e f)
    (h' : onlyDecisions P f g) : onlyDecisions P e g := by
  refine ⟨fun r hr => (h'.1 r hr).trans (h.1 r hr), ?_⟩
  have h2 := h'.2
  rw [h.2] at h2
  exact h2

theorem onlyDecisions_mono {P Q : StateRef → Prop} {e f : Engine} (h : onlyDecisions P e f)
    (hPQ : ∀ r, P r → Q r) : onlyDecisions Q e f := ⟨fun r hr => h.1 r fun hp => hr (hPQ r hp), h.2⟩

theorem onlyReads_refl (e : Engine) : onlyReads e e := rfl

theorem onlyReads_trans {e f g : Engine} (h : onlyReads e f) (h' : onlyReads f g) : onlyReads e g := by
  unfold onlyReads at *
  rw [h] at h'
  exact h'

theorem onlyReads_tuples {e f : Engine} (h : onlyReads e f) : onlyReadsAndTuples e f := by
  unfold onlyReads onlyReadsAndTuples at *
  rw [h]

theorem onlyReadsAndTuples_trans {e f g : Engine} (h : onlyReadsAndTuples e f)
    (h' : onlyReadsAndTuples f g) : onlyReadsAndTuples e g := by
  unfold onlyReadsAndTuples at *
  rw [h] at h'
  exact h'

/-! ## The range decoder -/

/-- A byte of a bank, as a member of the bank. -/
theorem inBank_byte (bank : StateRef) (i : BitVec 5) : inBank bank (bank.byte i) := ⟨i, rfl⟩

/-- The refill moves nothing but the three working registers (R136). -/
theorem rcRefill_frame (im : List Host.Cell) (rc : Rc) :
    (rcRefill im rc).1 = { rc with
      current := (rcRefill im rc).1.current
      mask := (rcRefill im rc).1.mask
      bufCur := (rcRefill im rc).1.bufCur } := by
  unfold rcRefill
  dsimp only
  split
  · rfl
  · split <;> rfl

/-- Writing one state byte and the working registers. -/
theorem onlyDecisions_setState (e : Engine) (rc : Rc) (r : StateRef) (v : Byte)
    (h : rc = { e.rc with current := rc.current, mask := rc.mask, bufCur := rc.bufCur }) :
    onlyDecisions (· = r) e ({ e with rc := rc }.setState r v) := by
  refine ⟨fun r' hr => ?_, ?_⟩
  · rw [state_setState_ne _ _ hr]; rfl
  · simp only [Engine.setState]
    rw [← h]

theorem rcDecide_onlyDecisions (r : StateRef) (e : Engine) : onlyDecisions (· = r) e (rcDecide r e).1 := by
  unfold rcDecide
  dsimp only
  split
  · exact onlyDecisions_setState e _ r _ rfl
  · exact onlyDecisions_setState e _ r _ rfl

theorem onlyDecisions_refill (P : StateRef → Prop) (im : List Host.Cell) (e : Engine) :
    onlyDecisions P e { e with rc := (rcRefill im e.rc).1 } := by
  refine ⟨fun _ _ => rfl, ?_⟩
  dsimp only
  rw [← rcRefill_frame]

/-- A decision changes nothing but its state byte and the working registers (R134). -/
theorem rcBit_onlyDecisions (im : List Host.Cell) (r : StateRef) (e : Engine) :
    onlyDecisions (· = r) e (rcBit im r e).1 := by
  unfold rcBit
  split
  · split
    · exact onlyDecisions_trans (onlyDecisions_refill _ im e) (rcDecide_onlyDecisions r _)
    · exact onlyDecisions_refill _ im e
  · exact rcDecide_onlyDecisions r e

theorem rcBit_inBank (im : List Host.Cell) (bank : StateRef) (i : BitVec 5) (e : Engine) :
    onlyDecisions (inBank bank) e (rcBit im (bank.byte i) e).1 :=
  onlyDecisions_mono (rcBit_onlyDecisions im _ e) fun _ h => h ▸ inBank_byte bank i

theorem rcForce_onlyDecisions (P : StateRef → Prop) (e : Engine) : onlyDecisions P e (rcForce e) :=
  ⟨fun _ _ => rfl, rfl⟩

theorem rcExponent_onlyDecisions (im : List Host.Cell) (bank : StateRef) (steps n : Nat) (e : Engine) :
    onlyDecisions (inBank bank) e (rcExponent im bank steps n e).1 := by
  induction steps generalizing n e with
  | zero => exact rcForce_onlyDecisions _ e
  | succ steps ih =>
    unfold rcExponent
    dsimp only
    split
    · exact onlyDecisions_trans (rcBit_inBank im bank _ e) (ih _ _)
    · exact rcBit_inBank im bank _ e

theorem rcMantissa_onlyDecisions (im : List Host.Cell) (bank : StateRef) (n : Nat) (a : Word) (e : Engine) :
    onlyDecisions (inBank bank) e (rcMantissa im bank n a e).1 := by
  induction n generalizing a e with
  | zero => exact onlyDecisions_refl _ e
  | succ n ih => exact onlyDecisions_trans (rcBit_inBank im bank _ e) (ih _ _)

theorem rcMagnitude_onlyDecisions (im : List Host.Cell) (bank : StateRef) (e : Engine) :
    onlyDecisions (inBank bank) e (rcMagnitude im bank e).1 := by
  have h0 := rcBit_inBank im bank zeroByte e
  have h1 := rcExponent_onlyDecisions im bank Config.expSteps 0 (rcBit im (bank.byte zeroByte) e).1
  unfold rcMagnitude
  dsimp only
  split
  · exact h0
  · split
    · rename_i f h
      rw [h] at h1
      exact onlyDecisions_trans h0 h1
    · rename_i f n h
      rw [h] at h1
      exact onlyDecisions_trans h0 (onlyDecisions_trans h1 (rcMantissa_onlyDecisions im bank n 1 f))

/-- An unsigned symbol changes nothing but its bank and the working registers (R138). -/
theorem rcUsym_onlyDecisions (im : List Host.Cell) (bank : StateRef) (e : Engine) :
    onlyDecisions (inBank bank) e (rcUsym im bank e).1 := by
  have h := rcMagnitude_onlyDecisions im bank e
  unfold rcUsym
  split <;> rename_i heq <;> rw [heq] at h <;> exact h

/-- A signed symbol changes nothing but its bank and the working registers (R139). -/
theorem rcSsym_onlyDecisions (im : List Host.Cell) (bank : StateRef) (e : Engine) :
    onlyDecisions (inBank bank) e (rcSsym im bank e).1 := by
  have h := rcMagnitude_onlyDecisions im bank e
  unfold rcSsym
  split <;> rename_i heq <;> rw [heq] at h
  · exact h
  · exact onlyDecisions_trans h (rcBit_inBank im bank _ _)

/-- A decision of an exhausted decoder answers 0, writes no state byte, and leaves it exhausted (R136). -/
theorem rcBit_exhausted (im : List Host.Cell) (r : StateRef) (e : Engine) (h : exhausted e.rc) :
    rcBit im r e = ({ e with rc := { e.rc with current := e.rc.current <<< 8 } }, false) := by
  have h1 : ¬ e.rc.bufCur < e.rc.bufEnd := by have := h.2; bv_omega
  simp [rcBit, rcRefill, h.1, h.2, h1]

/-! ## The bitstream reader -/

/-- A bit read moves nothing but the cursor and the flag (R161). -/
theorem bsBit_onlyReads (im : List Host.Cell) (e : Engine) : onlyReads e (bsBit im e).1 := by
  unfold bsBit
  split <;> rfl

theorem bsTake_onlyReads (im : List Host.Cell) (n : Nat) (v : Word) (e : Engine) :
    onlyReads e (bsTake im n v e).1 := by
  induction n generalizing v e with
  | zero => exact onlyReads_refl e
  | succ n ih => exact onlyReads_trans (bsBit_onlyReads im e) (ih _ _)

/-- A read of bits moves nothing but the cursor and the flag (R163). -/
theorem bsBits_onlyReads (im : List Host.Cell) (n : Nat) (e : Engine) : onlyReads e (bsBits im n e).1 := by
  unfold bsBits
  split
  · rfl
  · exact bsTake_onlyReads im n 0 e

/-! ## Golomb-Rice -/

theorem ricePrefix_onlyReads (im : List Host.Cell) (left z : Nat) (e : Engine) :
    onlyReads e (ricePrefix im left z e).1 := by
  induction left generalizing z e with
  | zero => exact onlyReads_refl e
  | succ left ih =>
    unfold ricePrefix
    dsimp only
    split
    · exact bsBit_onlyReads im e
    · exact onlyReads_trans (bsBit_onlyReads im e) (ih _ _)

theorem riceValue_onlyReads (im : List Host.Cell) (k m : Nat) (e : Engine) :
    onlyReads e (riceValue im k m e).1 := by
  unfold riceValue
  dsimp only
  split <;> exact onlyReads_trans (ricePrefix_onlyReads im _ 0 e) (bsBits_onlyReads im _ _)

/-- A Rice symbol changes nothing but the reader's cursor and flag and the tuples (R165). -/
theorem grRice_onlyReadsAndTuples (im : List Host.Cell) (m : Nat) (p : BitVec 2) (q : BitVec 3) (ctx : Nat)
    (e : Engine) : onlyReadsAndTuples e (grRice im m p q ctx e).1 :=
  onlyReadsAndTuples_trans (onlyReads_tuples (riceValue_onlyReads im _ m e)) rfl

/-- A tuple of a context that fits 16 bits is at a place of its own. -/
theorem gsKey_inj {p p' : BitVec 2} {q q' : BitVec 3} {ctx ctx' : Nat} (h : ctx < 2 ^ 16) (h' : ctx' < 2 ^ 16) :
    gsKey p q ctx = gsKey p' q' ctx' ↔ p = p' ∧ q = q' ∧ ctx = ctx' := by
  constructor
  · intro hk
    simp only [gsKey] at hk
    have hp := p.isLt; have hq := q.isLt; have hp' := p'.isLt; have hq' := q'.isLt
    exact ⟨BitVec.eq_of_toNat_eq (by omega), BitVec.eq_of_toNat_eq (by omega), by omega⟩
  · rintro ⟨rfl, rfl, rfl⟩; rfl

/-- A written tuple reads as written, every other tuple as before. -/
theorem tuple_setTuple (e : Engine) {p p' : BitVec 2} {q q' : BitVec 3} {ctx ctx' : Nat} (t : GrTuple)
    (h : ctx < 2 ^ 16) (h' : ctx' < 2 ^ 16) :
    (e.setTuple p q ctx t).tuple p' q' ctx' =
      if p' = p ∧ q' = q ∧ ctx' = ctx then t else e.tuple p' q' ctx' := by
  simp only [Engine.tuple, Engine.setTuple, Store.get_put, gsKey_inj h' h]

/-- The update of a tuple counts `N` from 1 to 128 and then goes back to 65 (R166). -/
theorem riceUpdate_n (t : GrTuple) (code : Word) :
    (riceUpdate t code).n = BitVec.ofNat 8 ((if t.n = Config.grHalveAt then 64 else t.n.toNat) + 1) := by
  unfold riceUpdate
  dsimp only
  repeat' split
  all_goals rfl

/-- After an update, `-N < B <= 0` (R166). -/
theorem riceUpdate_b (t : GrTuple) (code : Word) (h1 : 1 ≤ t.n.toNat) (h128 : t.n.toNat ≤ 128) :
    -((riceUpdate t code).n.toNat : Int) < (riceUpdate t code).b.toInt ∧ (riceUpdate t code).b.toInt ≤ 0 := by
  have small : ∀ z : Int, -256 ≤ z → z ≤ 0 → (BitVec.ofInt 32 z).toInt = z := fun z hl hh => by
    rw [BitVec.toInt_ofInt]; simp only [Int.bmod]; omega
  have hn : ∃ n : Nat, n = (if t.n = Config.grHalveAt then 64 else t.n.toNat) + 1 ∧ 1 ≤ n ∧ n ≤ 128 := by
    refine ⟨_, rfl, by split <;> omega, ?_⟩
    split
    · omega
    · rename_i h
      have : t.n.toNat ≠ 128 := fun h' => h (BitVec.eq_of_toNat_eq (h'.trans rfl))
      omega
  obtain ⟨n, hn, hlo, hhi⟩ := hn
  rw [riceUpdate_n, ← hn, BitVec.toNat_ofNat, Nat.mod_eq_of_lt (by omega)]
  unfold riceUpdate
  simp only [← hn]
  generalize (if t.n = Config.grHalveAt then (BitVec.toInt (t.b + code)) >>> 1 else (t.b + code).toInt) = b
  split
  · dsimp only
    split <;> rw [small _ (by omega) (by omega)] <;> omega
  · split
    · dsimp only
      split
      · rw [small _ (by omega) (by omega)]; omega
      · rw [small _ (by omega) (by omega)]; omega
    · dsimp only
      rw [small _ (by omega) (by omega)]; omega

/-- A run token changes nothing but the cursor, the flag and the run registers (R171). -/
theorem grToken_frame (im : List Host.Cell) (x : Nat) (e : Engine) :
    onlyReads { e with gr := (grToken im x e).gr } (grToken im x e) := by
  have hb := bsBit_onlyReads im e
  have hbs := bsBits_onlyReads im (grLog2 (bsBit im e).1.gr.runIndex) (bsBit im e).1
  unfold onlyReads at hb hbs
  unfold onlyReads grToken
  dsimp only
  split
  · dsimp only
    rw [hb]
  · dsimp only
    rw [hbs, hb]

/-- `GR_DELTA` changes nothing but the cursor, the flag, the tuples and the run registers (R171). -/
theorem grDelta_frame (im : List Host.Cell) (m ctx : Nat) (e : Engine) :
    onlyReadsAndTuples { e with gr := (grDelta im m ctx e).1.gr } (grDelta im m ctx e).1 := by
  have rice : ∀ f : Engine, onlyReadsAndTuples { e with gr := f.gr } f →
      ∀ p q, onlyReadsAndTuples { e with gr := (grRice im m p q ctx f).1.gr } (grRice im m p q ctx f).1 := by
    intro f hf p q
    have h := grRice_onlyReadsAndTuples im m p q ctx f
    have hgr : (grRice im m p q ctx f).1.gr = f.gr := by rw [h]
    rw [hgr]
    exact onlyReadsAndTuples_trans hf h
  have regs : ∀ (f : Engine) (g : Gr), onlyReadsAndTuples { e with gr := f.gr } f →
      onlyReadsAndTuples { e with gr := g } { f with gr := g } := by
    intro f g hf
    unfold onlyReadsAndTuples at *
    rw [hf]
  have step : ∀ f : Engine, onlyReadsAndTuples { e with gr := f.gr } f →
      onlyReadsAndTuples { e with gr := (grRunStep im m ctx f).1.gr } (grRunStep im m ctx f).1 := by
    intro f hf
    unfold grRunStep
    dsimp only
    split
    · exact regs _ _ (rice _ (regs f _ hf) _ _)
    · exact regs f _ hf
  have token : ∀ (x : Nat) (f : Engine), onlyReadsAndTuples { e with gr := f.gr } f →
      onlyReadsAndTuples { e with gr := (grToken im x f).gr } (grToken im x f) := by
    intro x f hf
    have h := onlyReads_tuples (grToken_frame im x f)
    exact onlyReadsAndTuples_trans (regs f (grToken im x f).gr hf) h
  have start : ∀ g : Gr, onlyReadsAndTuples { e with gr := g } { e with gr := g } := fun _ => rfl
  unfold grDelta
  dsimp only
  split
  · exact rice _ (start _) _ _
  · have either : ∀ (d : Prop) [Decidable d] (f g : Engine), onlyReadsAndTuples { e with gr := f.gr } f →
        onlyReadsAndTuples { e with gr := g.gr } g →
        onlyReadsAndTuples { e with gr := (if d then f else g).gr } (if d then f else g) := by
      intro d _ f g hf hg
      split
      · exact hf
      · exact hg
    have first := either (e.gr.runMode = .stop) _ _
      (start { e.gr with x := e.gr.x + 1, runMode := .processing }) (start { e.gr with x := e.gr.x + 1 })
    exact step _ (either _ _ _ (token _ _ first) first)

/-! ## The state memory -/

theorem fillBytes_frame (bank : StateRef) (v : Byte) (n : Nat) (e : Engine) :
    fillBytes bank v n e = { e with sm := (fillBytes bank v n e).sm } := by
  induction n with
  | zero => rfl
  | succ n ih =>
    unfold fillBytes
    simp only [Engine.setState]
    rw [ih]

/-- `ST_FILL` changes nothing but the state memory (R144). -/
theorem stFill_frame (bank : StateRef) (v : Byte) (e : Engine) :
    stFill bank v e = { e with sm := (stFill bank v e).sm } := by
  unfold stFill
  split
  · rfl
  · exact fillBytes_frame bank v 32 e

theorem fillBytes_other (bank : StateRef) (v : Byte) (n : Nat) (e : Engine) (r : StateRef)
    (h : ∀ i, r ≠ bank.byte i) : (fillBytes bank v n e).state r = e.state r := by
  induction n with
  | zero => rfl
  | succ n ih =>
    unfold fillBytes
    rw [state_setState_ne _ _ (h _), ih]

/-- `ST_FILL` leaves every byte of another bank (R144). -/
theorem stFill_other (bank : StateRef) (v : Byte) (e : Engine) (r : StateRef) (h : ∀ i, r ≠ bank.byte i)
    (hs : bank.isBank = true) : (stFill bank v e).state r = e.state r := by
  unfold stFill
  split
  · refine state_setState_ne _ _ ?_
    have := h 0
    simp only [StateRef.isBank, beq_iff_eq] at hs
    rwa [← hs] at this
  · exact fillBytes_other bank v 32 e r h

theorem fillBytes_inside (bank : StateRef) (v : Byte) (n : Nat) (e : Engine) (i : Nat) (h : i < n) :
    (fillBytes bank v n e).state (bank.byte (BitVec.ofNat 5 i)) = v := by
  induction n with
  | zero => omega
  | succ n ih =>
    unfold fillBytes
    by_cases hi : bank.byte (BitVec.ofNat 5 i) = bank.byte (BitVec.ofNat 5 n)
    · rw [hi, state_setState_self]
    · rw [state_setState_ne _ _ hi]
      refine ih ?_
      by_contra hn
      have : i = n := by omega
      exact hi (by rw [this])

/-- `ST_FILL` gives every byte of its bank the value (R144). -/
theorem stFill_inside (bank : StateRef) (v : Byte) (e : Engine) (i : BitVec 5) (hs : bank.isBank = true) :
    (stFill bank v e).state (bank.byte i) = v := by
  unfold stFill
  split
  · rename_i h
    have : bank.byte i = bank := by
      cases bank <;> simp_all [StateRef.isSingle, StateRef.byte]
    rw [this, state_setState_self]
  · have := fillBytes_inside bank v 32 e i.toNat i.isLt
    rwa [BitVec.ofNat_toNat, BitVec.setWidth_eq] at this

/-! ## Samples -/

/-- A written entry of the line being decoded reads as written. -/
@[simp] theorem cur_setCur_self (b : LineBuf) (j : Int) (v : Word) : (b.setCur j v).cur j = v := by
  by_cases h : b.sel = true <;> simp [LineBuf.cur, LineBuf.setCur, h]

/-- Two entries of a line buffer with the same key are the same. -/
theorem lineKey_inj {i j : Int} (hi : -2 ≤ i) (hj : -2 ≤ j) : lineKey j = lineKey i ↔ j = i := by
  unfold lineKey; omega

/-- An entry of the line being decoded after a write. -/
theorem cur_setCur (b : LineBuf) {i j : Int} (v : Word) (hi : -2 ≤ i) (hj : -2 ≤ j) :
    (b.setCur i v).cur j = if j = i then v else b.cur j := by
  by_cases h : b.sel = true <;> simp [LineBuf.cur, LineBuf.setCur, h, Store.get_put, lineKey_inj hi hj]

/-- An entry of the line above after a write. -/
theorem top_setTop (b : LineBuf) {i j : Int} (v : Word) (hi : -2 ≤ i) (hj : -2 ≤ j) :
    (b.setTop i v).top j = if j = i then v else b.top j := by
  by_cases h : b.sel = true <;> simp [LineBuf.top, LineBuf.setTop, h, Store.get_put, lineKey_inj hi hj]

@[simp] theorem top_setCur (b : LineBuf) (i j : Int) (v : Word) : (b.setCur i v).top j = b.top j := by
  by_cases h : b.sel = true <;> simp [LineBuf.top, LineBuf.setCur, h]

@[simp] theorem cur_setTop (b : LineBuf) (i j : Int) (v : Word) : (b.setTop i v).cur j = b.cur j := by
  by_cases h : b.sel = true <;> simp [LineBuf.cur, LineBuf.setTop, h]

/-- Swapping the roles of the two buffers exchanges the two lines (R206). -/
@[simp] theorem cur_swap (b : LineBuf) (j : Int) : ({ b with sel := !b.sel } : LineBuf).cur j = b.top j := by
  by_cases h : b.sel = true <;> simp [LineBuf.cur, LineBuf.top, h]

@[simp] theorem top_swap (b : LineBuf) (j : Int) : ({ b with sel := !b.sel } : LineBuf).top j = b.cur j := by
  by_cases h : b.sel = true <;> simp [LineBuf.cur, LineBuf.top, h]

/-- A residual changes nothing of the engine but the two coders and their memories (R203). -/
theorem delta_frame (i : SliceIn) (p : BitVec 2) (q : BitVec 3) (n : Nat) (e : Engine) :
    (delta i p q n e).1 = { e with
      rc := (delta i p q n e).1.rc
      sm := (delta i p q n e).1.sm
      bs := (delta i p q n e).1.bs
      gr := (delta i p q n e).1.gr
      gs := (delta i p q n e).1.gs } := by
  unfold delta
  split
  · have h := (rcSsym_onlyDecisions i.im (.ps p q (BitVec.ofNat 14 (contextSlot i.par p q n)) 0) e).2
    unfold rcDelta
    rw [h]
  · have h := grDelta_frame i.im i.par.bitsMax.toNat (contextSlot i.par e.gr.selP e.gr.selQ n) e
    unfold onlyReadsAndTuples at h
    rw [h]

/-- A residual leaves the line buffers alone. -/
theorem delta_line (i : SliceIn) (p : BitVec 2) (q : BitVec 3) (n : Nat) (e : Engine) (c : Fin 4) :
    (delta i p q n e).1.line c = e.line c := by
  rw [delta_frame]; rfl

/-- One sample, whole: the engine and the value of `sampleStep`, and the store with the value in it (R203). -/
theorem smpDec_step (i : SliceIn) (c : Fin 4) (x : Nat) (st : SliceSt) :
    let r := sampleStep i c x st.eng
    smpDec i c x st = (⟨r.1, Store.insert st.plane (sampleKey c ((region i.par st.eng.sl c).ox + x)
      ((region i.par st.eng.sl c).oy + st.eng.posY)) r.2⟩, r.2) := by
  have h := delta_frame i (slot c) (st.eng.sl.qtiAt (slot c))
    (ctxIdx i.par (st.eng.line c) x (st.eng.sl.qtiAt (slot c))).natAbs st.eng
  unfold smpDec mirroredDelta pxWrite sampleStep
  dsimp only
  rw [delta_line]
  rw [h]
  rfl

/-- One sample: where it goes, and what of the engine stays (R203, R204). -/
theorem smpDec_frame (i : SliceIn) (c : Fin 4) (x : Nat) (st : SliceSt) :
    let r := smpDec i c x st
    r.1.plane = Store.insert st.plane (sampleKey c ((region i.par st.eng.sl c).ox + x)
      ((region i.par st.eng.sl c).oy + st.eng.posY)) r.2 ∧
    r.2 &&& i.par.bitsMask = r.2 ∧
    r.1.eng.sl = st.eng.sl ∧ r.1.eng.posY = st.eng.posY ∧ r.1.eng.posC = st.eng.posC ∧
    r.1.eng.posX = x + 1 ∧ r.1.eng.psReady = st.eng.psReady ∧ r.1.eng.opened = st.eng.opened ∧
    (r.1.eng.line c).cur x = r.2 := by
  have h := delta_frame i (slot c) (st.eng.sl.qtiAt (slot c))
    (ctxIdx i.par (st.eng.line c) x (st.eng.sl.qtiAt (slot c))).natAbs st.eng
  unfold smpDec mirroredDelta pxWrite
  dsimp only
  rw [h]
  refine ⟨rfl, ?_, rfl, rfl, rfl, rfl, rfl, rfl, ?_⟩
  · rw [BitVec.and_assoc, BitVec.and_self]
  · exact (congrArg (fun b => LineBuf.cur b x) (line_setLine_self _ c _)).trans (cur_setCur_self _ _ _)

/-! ## What a line, a plane and a slice leave in the engine -/

theorem smpDec_eng (i : SliceIn) (c : Fin 4) (x : Nat) (st : SliceSt) :
    (smpDec i c x st).1.eng = (sampleStep i c x st.eng).1 := by rw [smpDec_step]

theorem smpLoop_eng (i : SliceIn) (c : Fin 4) (e : Engine) (n x : Nat) (st : SliceSt)
    (h : st.eng = rowEngine i c e x) : (smpLoop i c n x st).eng = rowEngine i c e (x + n) := by
  induction n generalizing x st with
  | zero => exact h
  | succ n ih =>
    rw [smpLoop, ih (x + 1) _ (by rw [smpDec_eng, h]; rfl), Nat.add_right_comm, Nat.add_assoc]

/-- `LINE_DEC` leaves the engine of `lineEngine` (R206). -/
theorem lineDec_eng (i : SliceIn) (c : Fin 4) (y : Nat) (st : SliceSt) :
    (lineDec i c y st).eng = lineEngine i c y st.eng := by
  rw [lineDec, smpLoop_eng i c (startLine i c y st.eng) _ 0 _ rfl, Nat.zero_add]; rfl

theorem lineLoop_eng (i : SliceIn) (c : Fin 4) (e : Engine) (n y : Nat) (st : SliceSt)
    (h : st.eng = planeRows i c e y) : (lineLoop i c n y st).eng = planeRows i c e (y + n) := by
  induction n generalizing y st with
  | zero => exact h
  | succ n ih =>
    rw [lineLoop, ih (y + 1) _ (by rw [lineDec_eng, h]; rfl), Nat.add_right_comm, Nat.add_assoc]

/-- `PLANE_DEC` leaves the engine of `planeEngine` (R208). -/
theorem planeDec_eng (i : SliceIn) (c : Fin 4) (st : SliceSt) :
    (planeDec i c st).eng = planeEngine i c st.eng := by
  rw [planeDec, lineLoop_eng i c (startPlanes i (· == c) st.eng) _ 0 _ rfl, Nat.zero_add]; rfl

theorem rgbLine_eng (i : SliceIn) (y n : Nat) (st : SliceSt) :
    (rgbLine i y ([0, 1, 2, 3].take n) st).eng = rgbRow i y st.eng (min n 4) := by
  match n with
  | 0 => rfl
  | 1 => exact lineDec_eng ..
  | 2 => simp [rgbLine, lineDec_eng, rgbRow]; rfl
  | 3 => simp [rgbLine, lineDec_eng, rgbRow]; rfl
  | n + 4 => simp [rgbLine, lineDec_eng, rgbRow]; rfl

theorem rgbLoop_eng (i : SliceIn) (e : Engine) (n y : Nat) (st : SliceSt) (h : st.eng = rgbRows i e y) :
    (rgbLoop i ([0, 1, 2, 3].take i.par.planeCount.toNat) n y st).eng = rgbRows i e (y + n) := by
  induction n generalizing y st with
  | zero => exact h
  | succ n ih =>
    rw [rgbLoop, ih (y + 1) _ (by rw [rgbLine_eng, h]; rfl), Nat.add_right_comm, Nat.add_assoc]

/-- `RGB_DEC` leaves the engine after its interleaved rows (R212). -/
theorem rgbDec_eng (i : SliceIn) (st : SliceSt) :
    (rgbDec i st).eng = rgbRows i (rgbStart i st.eng) st.eng.sl.h := by
  dsimp only [rgbDec]
  rw [rgbLoop_eng i (rgbStart i st.eng) _ 0 _ rfl, Nat.zero_add]

/-- The planes of a slice leave the engine of `contentEngine` (R209, R269). -/
theorem decodePlanes_eng (i : SliceIn) (st : SliceSt) :
    (decodePlanes i st).eng = contentEngine i st.eng := by
  unfold decodePlanes contentEngine ycbcrPlanes
  split
  · exact rgbDec_eng i st
  · cases i.par.chromaPlanes <;> cases i.par.alphaPlane <;> simp [planeDec_eng]

end Sys2Proof.Machine
end

