-- ==== Sys2Proof/Laws/Encoding.lean ====
section
/-! SUPPORT. Sys2Proof/Laws/Encoding.lean: the three fields of a command word read back. -/

namespace Sys2Proof

/-- A command word as a number: its three fields at their places. -/
theorem cmdWord_toNat (op : BitVec 8) (k : BitVec 16) (imm : BitVec 8) :
    (cmdWord op k imm).toNat = op.toNat * 2 ^ 24 + k.toNat * 2 ^ 8 + imm.toNat := by
  have hi := imm.isLt
  have hk := k.isLt
  change (op ++ k ++ imm).toNat = _
  rw [BitVec.toNat_append, BitVec.toNat_append, ← Nat.shiftLeft_add_eq_or_of_lt hi,
    ← Nat.shiftLeft_add_eq_or_of_lt hk, Nat.shiftLeft_eq, Nat.shiftLeft_eq]
  omega

@[simp] theorem opField_cmdWord (op : BitVec 8) (k : BitVec 16) (imm : BitVec 8) :
    opField (cmdWord op k imm) = op := by
  apply BitVec.eq_of_toNat_eq
  simp only [opField, BitVec.extractLsb'_toNat, cmdWord_toNat, Nat.shiftRight_eq_div_pow]
  omega

@[simp] theorem sliceField_cmdWord (op : BitVec 8) (k : BitVec 16) (imm : BitVec 8) :
    sliceField (cmdWord op k imm) = k := by
  apply BitVec.eq_of_toNat_eq
  simp only [sliceField, BitVec.extractLsb'_toNat, cmdWord_toNat, Nat.shiftRight_eq_div_pow]
  omega

@[simp] theorem immField_cmdWord (op : BitVec 8) (k : BitVec 16) (imm : BitVec 8) :
    immField (cmdWord op k imm) = imm := by
  apply BitVec.eq_of_toNat_eq
  simp only [immField, BitVec.extractLsb'_toNat, cmdWord_toNat, Nat.shiftRight_eq_div_pow]
  omega

/-- A word is its three fields. -/
theorem cmdWord_fields (w : Word) : cmdWord (opField w) (sliceField w) (immField w) = w := by
  apply BitVec.eq_of_toNat_eq
  simp only [opField, sliceField, immField, BitVec.extractLsb'_toNat, cmdWord_toNat,
    Nat.shiftRight_eq_div_pow]
  omega

theorem cmdWord_inj {op op' : BitVec 8} {k k' : BitVec 16} {imm imm' : BitVec 8} :
    cmdWord op k imm = cmdWord op' k' imm' ↔ op = op' ∧ k = k' ∧ imm = imm' := by
  refine ⟨fun h => ⟨?_, ?_, ?_⟩, by rintro ⟨rfl, rfl, rfl⟩; rfl⟩
  · simpa using congrArg opField h
  · simpa using congrArg sliceField h
  · simpa using congrArg immField h

/-- The conjunction of two command words, field by field. -/
theorem cmdWord_and (op op' : BitVec 8) (k k' : BitVec 16) (imm imm' : BitVec 8) :
    cmdWord op k imm &&& cmdWord op' k' imm' = cmdWord (op &&& op') (k &&& k') (imm &&& imm') := by
  have hf : ∀ w w' : Word, opField (w &&& w') = opField w &&& opField w' ∧
      sliceField (w &&& w') = sliceField w &&& sliceField w' ∧
      immField (w &&& w') = immField w &&& immField w' := by
    intro w w'
    refine ⟨?_, ?_, ?_⟩ <;> ext i hi <;> simp [opField, sliceField, immField]
  rw [← cmdWord_fields (_ &&& _)]
  simp [hf]

end Sys2Proof
end

