-- ==== Sys2Proof/Laws/PerInstr.lean ====
section
/-! SUPPORT. Sys2Proof/Laws/PerInstr.lean: statements about every command, one lemma per constructor. -/

namespace Sys2Proof.Laws

open Sys2Proof Sys2Proof.Machine

/-- The word of a command matches row `r` and carries the row's `op`, and its `slice` field names the engine
that the command runs on (R92). -/
def MatchesRow (i : Instr) (r : OpRow) : Prop :=
  encode i &&& r.mask = r.bits ∧ opField (encode i) = opField r.bits ∧
    ∀ k, engineOf i = some k → sliceField (encode i) = k

/-- The word of a command matches a row of the opcode table, and carries the row's `op` and the command's
`slice` (R92). -/
def EncodesItsRow.Statement (i : Instr) : Prop := ∃ r ∈ opRows, MatchesRow i r

/-- A command whose row does not use `slice` and `imm`. -/
theorem encodesItsRow_plain {i : Instr} (op : BitVec 8) (hr : rowPlain op ∈ opRows)
    (he : encode i = cmdWord op 0 0) (hk : engineOf i = none) : EncodesItsRow.Statement i := by
  refine ⟨rowPlain op, hr, ?_, ?_, by simp [hk]⟩
  · rw [he]; simp only [rowPlain]; exact BitVec.and_allOnes
  · simp [he, rowPlain]

/-- A command whose row uses `slice`, and the bits `used` of `imm`. -/
theorem encodesItsRow_slice {i : Instr} (op used : BitVec 8) (k : BitVec 16) (imm : BitVec 8)
    (hr : rowSlice op used ∈ opRows) (he : encode i = cmdWord op k imm) (hu : imm &&& ~~~used = 0)
    (hk : engineOf i = none ∨ engineOf i = some k) : EncodesItsRow.Statement i := by
  refine ⟨rowSlice op used, hr, ?_, ?_, ?_⟩
  · have h : op &&& 0xFF#8 = op := BitVec.and_allOnes
    simp [he, rowSlice, cmdWord_and, hu, h]
  · simp [he, rowSlice]
  · intro j hj
    rcases hk with hk | hk <;> simp_all

theorem EncodesItsRow.reset : EncodesItsRow.Statement .reset :=
  encodesItsRow_plain 0x01 (by decide) rfl rfl

theorem EncodesItsRow.procOob : EncodesItsRow.Statement .procOob :=
  encodesItsRow_plain 0x02 (by decide) rfl rfl

theorem EncodesItsRow.procFrame : EncodesItsRow.Statement .procFrame :=
  encodesItsRow_plain 0x03 (by decide) rfl rfl

theorem EncodesItsRow.getErr : EncodesItsRow.Statement .getErr :=
  encodesItsRow_plain 0x04 (by decide) rfl rfl

theorem EncodesItsRow.outCreate : EncodesItsRow.Statement .outCreate :=
  encodesItsRow_plain 0x05 (by decide) rfl rfl

theorem EncodesItsRow.rcArm (k : BitVec 16) (custom : Bool) : EncodesItsRow.Statement (.rcArm k custom) :=
  encodesItsRow_slice 0x10 0x01 k (0#7 ++ BitVec.ofBool custom) (by decide) rfl (by revert custom; decide) (.inr rfl)

theorem EncodesItsRow.rcRearm (k : BitVec 16) (custom : Bool) : EncodesItsRow.Statement (.rcRearm k custom) :=
  encodesItsRow_slice 0x11 0x01 k (0#7 ++ BitVec.ofBool custom) (by decide) rfl (by revert custom; decide) (.inr rfl)

theorem EncodesItsRow.rcBit (k : BitVec 16) : EncodesItsRow.Statement (.rcBit k) :=
  encodesItsRow_slice 0x12 0 k 0 (by decide) rfl (by decide) (.inr rfl)

theorem EncodesItsRow.rcUsym (k : BitVec 16) : EncodesItsRow.Statement (.rcUsym k) :=
  encodesItsRow_slice 0x13 0 k 0 (by decide) rfl (by decide) (.inr rfl)

theorem EncodesItsRow.rcSsym (k : BitVec 16) : EncodesItsRow.Statement (.rcSsym k) :=
  encodesItsRow_slice 0x14 0 k 0 (by decide) rfl (by decide) (.inr rfl)

theorem EncodesItsRow.rcUsed (k : BitVec 16) : EncodesItsRow.Statement (.rcUsed k) :=
  encodesItsRow_slice 0x15 0 k 0 (by decide) rfl (by decide) (.inr rfl)

theorem EncodesItsRow.rcUndr (k : BitVec 16) : EncodesItsRow.Statement (.rcUndr k) :=
  encodesItsRow_slice 0x16 0 k 0 (by decide) rfl (by decide) (.inr rfl)

theorem EncodesItsRow.rcForce (k : BitVec 16) : EncodesItsRow.Statement (.rcForce k) :=
  encodesItsRow_slice 0x17 0 k 0 (by decide) rfl (by decide) (.inr rfl)

theorem EncodesItsRow.rcGopinit (k : BitVec 16) : EncodesItsRow.Statement (.rcGopinit k) :=
  encodesItsRow_slice 0x18 0 k 0 (by decide) rfl (by decide) (.inr rfl)

theorem EncodesItsRow.rcDelta (k : BitVec 16) : EncodesItsRow.Statement (.rcDelta k) :=
  encodesItsRow_slice 0x19 0 k 0 (by decide) rfl (by decide) (.inr rfl)

theorem EncodesItsRow.stFill (k : BitVec 16) (v : BitVec 8) : EncodesItsRow.Statement (.stFill k v) :=
  encodesItsRow_slice 0x1A 0xFF k v (by decide) rfl (by simp) (.inr rfl)

theorem EncodesItsRow.bsArm (k : BitVec 16) : EncodesItsRow.Statement (.bsArm k) :=
  encodesItsRow_slice 0x20 0 k 0 (by decide) rfl (by decide) (.inr rfl)

theorem EncodesItsRow.bsBit (k : BitVec 16) : EncodesItsRow.Statement (.bsBit k) :=
  encodesItsRow_slice 0x21 0 k 0 (by decide) rfl (by decide) (.inr rfl)

theorem EncodesItsRow.bsBits (k : BitVec 16) (n : BitVec 6) : EncodesItsRow.Statement (.bsBits k n) :=
  encodesItsRow_slice 0x22 0x3F k (0#2 ++ n) (by decide) rfl (by revert n; decide) (.inr rfl)

theorem EncodesItsRow.bsUsed (k : BitVec 16) : EncodesItsRow.Statement (.bsUsed k) :=
  encodesItsRow_slice 0x23 0 k 0 (by decide) rfl (by decide) (.inr rfl)

theorem EncodesItsRow.bsUndr (k : BitVec 16) : EncodesItsRow.Statement (.bsUndr k) :=
  encodesItsRow_slice 0x24 0 k 0 (by decide) rfl (by decide) (.inr rfl)

theorem EncodesItsRow.grGopinit (k : BitVec 16) : EncodesItsRow.Statement (.grGopinit k) :=
  encodesItsRow_slice 0x28 0 k 0 (by decide) rfl (by decide) (.inr rfl)

theorem EncodesItsRow.grPlaneinit (k : BitVec 16) : EncodesItsRow.Statement (.grPlaneinit k) :=
  encodesItsRow_slice 0x29 0 k 0 (by decide) rfl (by decide) (.inr rfl)

theorem EncodesItsRow.grLineinit (k : BitVec 16) : EncodesItsRow.Statement (.grLineinit k) :=
  encodesItsRow_slice 0x2A 0 k 0 (by decide) rfl (by decide) (.inr rfl)

theorem EncodesItsRow.grDelta (k : BitVec 16) : EncodesItsRow.Statement (.grDelta k) :=
  encodesItsRow_slice 0x2B 0 k 0 (by decide) rfl (by decide) (.inr rfl)

theorem EncodesItsRow.grRice (k : BitVec 16) : EncodesItsRow.Statement (.grRice k) :=
  encodesItsRow_slice 0x2C 0 k 0 (by decide) rfl (by decide) (.inr rfl)

theorem EncodesItsRow.ctxIdx (k : BitVec 16) (q : BitVec 3) : EncodesItsRow.Statement (.ctxIdx k q) :=
  encodesItsRow_slice 0x30 0x07 k (0#5 ++ q) (by decide) rfl (by revert q; decide) (.inr rfl)

theorem EncodesItsRow.predMed (k : BitVec 16) : EncodesItsRow.Statement (.predMed k) :=
  encodesItsRow_slice 0x31 0 k 0 (by decide) rfl (by decide) (.inr rfl)

theorem EncodesItsRow.smpDec (k : BitVec 16) : EncodesItsRow.Statement (.smpDec k) :=
  encodesItsRow_slice 0x32 0 k 0 (by decide) rfl (by decide) (.inr rfl)

theorem EncodesItsRow.lineDec (k : BitVec 16) : EncodesItsRow.Statement (.lineDec k) :=
  encodesItsRow_slice 0x33 0 k 0 (by decide) rfl (by decide) (.inr rfl)

theorem EncodesItsRow.planeDec (k : BitVec 16) : EncodesItsRow.Statement (.planeDec k) :=
  encodesItsRow_slice 0x34 0 k 0 (by decide) rfl (by decide) (.inr rfl)

theorem EncodesItsRow.rgbDec (k : BitVec 16) : EncodesItsRow.Statement (.rgbDec k) :=
  encodesItsRow_slice 0x35 0 k 0 (by decide) rfl (by decide) (.inr rfl)

theorem EncodesItsRow.pxWrite (k : BitVec 16) (c : BitVec 2) : EncodesItsRow.Statement (.pxWrite k c) :=
  encodesItsRow_slice 0x36 0x03 k (0#6 ++ c) (by decide) rfl (by revert c; decide) (.inr rfl)

theorem EncodesItsRow.parParse (k : BitVec 16) (oob : Bool) : EncodesItsRow.Statement (.parParse k oob) :=
  encodesItsRow_slice 0x40 0x01 k (0#7 ++ BitVec.ofBool oob) (by decide) rfl (by revert oob; decide) (.inr rfl)

theorem EncodesItsRow.parQtset (k : BitVec 16) (q : BitVec 3) : EncodesItsRow.Statement (.parQtset k q) :=
  encodesItsRow_slice 0x41 0x07 k (0#5 ++ q) (by decide) rfl (by revert q; decide) (.inr rfl)

theorem EncodesItsRow.parQtab (k : BitVec 16) (q : BitVec 3) (j : BitVec 3) : EncodesItsRow.Statement (.parQtab k q j) :=
  encodesItsRow_slice 0x42 0x77 k (0#1 ++ j ++ 0#1 ++ q) (by decide) rfl (by revert q j; decide) (.inr rfl)

theorem EncodesItsRow.parInist (k : BitVec 16) (q : BitVec 3) : EncodesItsRow.Statement (.parInist k q) :=
  encodesItsRow_slice 0x43 0x07 k (0#5 ++ q) (by decide) rfl (by revert q; decide) (.inr rfl)

theorem EncodesItsRow.parDerive : EncodesItsRow.Statement .parDerive :=
  encodesItsRow_plain 0x44 (by decide) rfl rfl

theorem EncodesItsRow.slHeader (k : BitVec 16) : EncodesItsRow.Statement (.slHeader k) :=
  encodesItsRow_slice 0x50 0 k 0 (by decide) rfl (by decide) (.inr rfl)

theorem EncodesItsRow.slContent (k : BitVec 16) : EncodesItsRow.Statement (.slContent k) :=
  encodesItsRow_slice 0x51 0 k 0 (by decide) rfl (by decide) (.inr rfl)

theorem EncodesItsRow.slFooter (k : BitVec 16) : EncodesItsRow.Statement (.slFooter k) :=
  encodesItsRow_slice 0x52 0 k 0 (by decide) rfl (by decide) (.inr rfl)

theorem EncodesItsRow.slRun (k : BitVec 16) (cont : Bool) : EncodesItsRow.Statement (.slRun k cont) :=
  encodesItsRow_slice 0x53 0x01 k (0#7 ++ BitVec.ofBool cont) (by decide) rfl (by revert cont; decide) (.inl rfl)

theorem EncodesItsRow.slCrc (k : BitVec 16) : EncodesItsRow.Statement (.slCrc k) :=
  encodesItsRow_slice 0x54 0 k 0 (by decide) rfl (by decide) (.inr rfl)

theorem EncodesItsRow.slOpen (k : BitVec 16) (cont : Bool) : EncodesItsRow.Statement (.slOpen k cont) :=
  encodesItsRow_slice 0x55 0x01 k (0#7 ++ BitVec.ofBool cont) (by decide) rfl (by revert cont; decide) (.inl rfl)

theorem EncodesItsRow.frKeybit : EncodesItsRow.Statement .frKeybit :=
  encodesItsRow_plain 0x60 (by decide) rfl rfl

theorem EncodesItsRow.frLocate : EncodesItsRow.Statement .frLocate :=
  encodesItsRow_plain 0x61 (by decide) rfl rfl

theorem EncodesItsRow.frGopinit : EncodesItsRow.Statement .frGopinit :=
  encodesItsRow_plain 0x62 (by decide) rfl rfl

theorem EncodesItsRow.frDispatch : EncodesItsRow.Statement .frDispatch :=
  encodesItsRow_plain 0x63 (by decide) rfl rfl

theorem EncodesItsRow.frJoin : EncodesItsRow.Statement .frJoin :=
  encodesItsRow_plain 0x64 (by decide) rfl rfl

theorem EncodesItsRow.frFinal : EncodesItsRow.Statement .frFinal :=
  encodesItsRow_plain 0x65 (by decide) rfl rfl

end Sys2Proof.Laws
end

