-- ==== Sys2Proof/Tests/Slice0.lean ====
section
/-! SUPPORT. Sys2Proof/Tests/Slice0.lean: decode tests, one-step tests with results from the spec's examples
or worked out by hand from its rules, and for each statement with hypotheses a state that meets them. -/

namespace Sys2Proof.Tests

open Sys2Proof Sys2Proof.Machine

-- One theorem at a time: a kernel evaluation holds a thread while it waits for the ones before it.
set_option Elab.async false

/-! ## Helpers -/

/-- Bytes placed in `IN` from an address on. -/
def place : Nat → List Byte → List Host.Cell → List Host.Cell
  | _, [], m => m
  | a, b :: bs, m => place (a + 1) bs (Store.put inDefault m a b)

/-- The reset state with bytes in `IN` from address 0 on. -/
def withBytes (bs : List Byte) : State := { State.reset with inMem := place 0 bs [] }

/-- `s` with the two argument registers. -/
def args (a b : Word) (s : State) : State := { s with arg0 := a, arg1 := b }

/-- `s` with engine 0 changed. -/
def eng (f : Engine → Engine) (s : State) : State := s.setEngine 0 (f (s.engine 0))

/-- The state after a command. -/
def ran (i : Instr) (s : State) : State :=
  match exec i s with
  | .next t => t
  | .fault _ => s
  | .refused _ => s

/-- The operation raised no error. -/
def isOk {σ α : Type} : Res σ α → Bool
  | .ok _ _ => true
  | .raise _ _ => false

theorem ok_of_isOk {σ α : Type} {r : Res σ α} (h : isOk r = true) : ∃ a s, r = .ok a s := by
  cases r with
  | ok a s => exact ⟨a, s, rfl⟩
  | raise e s => cases h

theorem raise_of_isOk {σ α : Type} {r : Res σ α} (h : isOk r = false) : ∃ e s, r = .raise e s := by
  cases r with
  | ok a s => cases h
  | raise e s => exact ⟨e, s, rfl⟩

/-- A record of one table set with one context: 8 bits, one plane, no configuration record. -/
def onePar : Par := { Par.reset with
  bitsPerRawSample := 8, numHSlices := 1, numVSlices := 1, qtSetCount := 1
  contextCount := Par.reset.contextCount.set 0 1
  valid := true, bitsMax := 8, bitsMask := 255, planeCount := 1, qtiCount := 2 }

/-- A frame of `w` by `h` samples with the record `p`; the region of engine 0 is the frame. -/
def framed (p : Par) (w h : Nat) (s : State) : State :=
  eng (fun e => { e with sl := { e.sl with w := w, h := h } })
    { s with par := p, width := BitVec.ofNat 32 w, height := BitVec.ofNat 32 h }

/-- `s` with the reader of engine 0 on the first `n` bytes. -/
def reading (n : Nat) (s : State) : State := eng (bsArm 0 (BitVec.ofNat _ n)) s

/-- `s` with the range decoder of engine 0 on the first `n` bytes. -/
def arming (n : Nat) (s : State) : State :=
  eng (rcArm s.inMem 0 (BitVec.ofNat 32 n) Config.defaultTransition) s

/-- `s` with plane 0 of engine 0 open. -/
def opened (s : State) : State := eng (openPlanes (· == 0)) s

/-- The table with the runs 1, 2, 125 at a running scale (R231). -/
def smallTable (scale : Nat) : List (BitVec 16) :=
  let lower := 0 :: List.replicate 2 (BitVec.ofNat 16 scale) ++ List.replicate 125 (BitVec.ofNat 16 (2 * scale))
  lower ++ qtUpper lower

/-- The record of program P5 of the test vectors: range coder, one set of 63 contexts, a configuration record. -/
def smallPar : Par :=
  let p := { onePar with
    version := 3, microVersion := 4, coderType := true, configPresent := true, tailSize := 3
    contextCount := Par.reset.contextCount.set 0 63 }
  ((p.setQt 0 0 (smallTable 1)).setQt 0 1 (smallTable 5)).setQt 0 2 (smallTable 25)

/-! ## Well-formedness -/

theorem test_wf_refuses_33_bits : Instr.wf (.bsBits 0 33) = false := by decide
theorem test_wf_refuses_table_5 : Instr.wf (.parQtab 0 0 5) = false := by decide
theorem test_decode_refuses_33_bits : decode 0x22000021 = .rejected .immOutOfRange := by decide
theorem test_decode_refuses_table_5 : decode 0x42000050 = .rejected .immOutOfRange := by decide

/-! ## Decoding: words written out from `op[31:24] slice[23:8] imm[7:0]` (R92) -/

theorem test_decode_host :
    decode 0x01000000 = .instr .reset ∧ decode 0x02000000 = .instr .procOob ∧
    decode 0x03000000 = .instr .procFrame ∧ decode 0x04000000 = .instr .getErr ∧
    decode 0x05000000 = .instr .outCreate := by decide

theorem test_decode_range :
    decode 0x10000701 = .instr (.rcArm 7 true) ∧ decode 0x11010000 = .instr (.rcRearm 0x100 false) ∧
    decode 0x12000100 = .instr (.rcBit 1) ∧ decode 0x13000200 = .instr (.rcUsym 2) ∧
    decode 0x14000300 = .instr (.rcSsym 3) ∧ decode 0x15000400 = .instr (.rcUsed 4) ∧
    decode 0x16000500 = .instr (.rcUndr 5) ∧ decode 0x17000600 = .instr (.rcForce 6) ∧
    decode 0x18FFFF00 = .instr (.rcGopinit 0xFFFF) ∧ decode 0x19800000 = .instr (.rcDelta 0x8000) ∧
    decode 0x1A000080 = .instr (.stFill 0 128) := by decide

theorem test_decode_golomb :
    decode 0x20000100 = .instr (.bsArm 1) ∧ decode 0x21000200 = .instr (.bsBit 2) ∧
    decode 0x22000320 = .instr (.bsBits 3 32) ∧ decode 0x23000400 = .instr (.bsUsed 4) ∧
    decode 0x24000500 = .instr (.bsUndr 5) ∧ decode 0x28000600 = .instr (.grGopinit 6) ∧
    decode 0x29000700 = .instr (.grPlaneinit 7) ∧ decode 0x2A000800 = .instr (.grLineinit 8) ∧
    decode 0x2B000900 = .instr (.grDelta 9) ∧ decode 0x2C000A00 = .instr (.grRice 10) := by decide

theorem test_decode_planes :
    decode 0x30000107 = .instr (.ctxIdx 1 7) ∧ decode 0x31000200 = .instr (.predMed 2) ∧
    decode 0x32000300 = .instr (.smpDec 3) ∧ decode 0x33000400 = .instr (.lineDec 4) ∧
    decode 0x34000500 = .instr (.planeDec 5) ∧ decode 0x35000600 = .instr (.rgbDec 6) ∧
    decode 0x36000703 = .instr (.pxWrite 7 3) := by decide

theorem test_decode_parameters :
    decode 0x40000001 = .instr (.parParse 0 true) ∧ decode 0x41000005 = .instr (.parQtset 0 5) ∧
    decode 0x42000146 = .instr (.parQtab 1 6 4) ∧ decode 0x43000202 = .instr (.parInist 2 2) ∧
    decode 0x44000000 = .instr .parDerive := by decide

theorem test_decode_slice :
    decode 0x50000100 = .instr (.slHeader 1) ∧ decode 0x51000200 = .instr (.slContent 2) ∧
    decode 0x52000300 = .instr (.slFooter 3) ∧ decode 0x53000401 = .instr (.slRun 4 true) ∧
    decode 0x54000500 = .instr (.slCrc 5) ∧ decode 0x55000600 = .instr (.slOpen 6 false) := by decide

theorem test_decode_frame :
    decode 0x60000000 = .instr .frKeybit ∧ decode 0x61000000 = .instr .frLocate ∧
    decode 0x62000000 = .instr .frGopinit ∧ decode 0x63000000 = .instr .frDispatch ∧
    decode 0x64000000 = .instr .frJoin ∧ decode 0x65000000 = .instr .frFinal := by decide

/-- A reserved opcode, a slice field and an imm bit that must be 0 (R93, R111). -/
theorem test_decode_refuses :
    decode 0x66000000 = .rejected .reservedOpcode ∧ decode 0x03000100 = .rejected .sliceNotZero ∧
    decode 0x12000001 = .rejected .immNotZero ∧ decode 0x42000008 = .rejected .immNotZero := by decide

/-! ## Host and frame-level commands -/

/-- R360: after `RESET` none of `BUSY`, `DONE`, `FAIL` is set. -/
theorem test_reset : (ran .reset { State.reset with busy := true, lastError := 5 }).status = 0 ∧
    (ran .reset { State.reset with busy := true, lastError := 5 }).lastError = 0 := by decide +kernel

/-- R307. -/
theorem test_getErr : (ran .getErr { State.reset with lastError := 0x123 }).result = 0x123 := by decide +kernel

/-- R306: the example, 8-bit YCbCr without chroma and alpha. -/
theorem test_outCreate : (ran .outCreate { State.reset with par := onePar }).result = 0x00040008 := by
  decide +kernel

/-- R291: no dimensions. -/
theorem test_procOob_dimensions : (ran .procOob State.reset).lastError = 0x402 := by decide +kernel

/-- The record of program P1 of the test vectors. -/
def recordP1 : State :=
  { withBytes [0x56, 0x00, 0x2F, 0xE2, 0x72, 0xBF, 0xB0, 0x54, 0x0F, 0x36, 0x5A, 0xF4, 0xE9, 0xD3, 0x8C] with
    arg1 := 15, width := 64, height := 64 }

/-- R221: the record of the example parses to 63 contexts. -/
theorem test_procOob :
    (let t := ran .procOob recordP1
     (t.done, t.par.ctxCount 0)) = (true, 63) := by decide +kernel

/-- The frame of program P5 with its record already in `PAR`. -/
def frameP5 : State :=
  args 0 9 (framed smallPar 4 2 (withBytes [0xFE, 0x79, 0x83, 0x36, 0x56, 0xB6, 0x00, 0x00, 0x06]))

/-- Program P5: the picture ends in 103, 90, and the slice used 6 bytes. -/
theorem test_procFrame :
    (let t := ran .procFrame frameP5
     (t.done, t.sample 0 2 1, t.sample 0 3 1, (t.engine 0).sl.used)) = (true, some 103, some 90, 6) := by
  decide +kernel

/-- R295: the first frame of a stream is no keyframe. -/
theorem test_procFrame_noKeyframe :
    (ran .procFrame { frameP5 with inMem := place 0 [0x7F, 0x7F] [] }).lastError = 0x123 := by decide +kernel

/-- R294: `80 00` is a keyframe, `7F 7F` is not. -/
theorem test_frKeybit : (ran .frKeybit (args 0 2 (withBytes [0x80, 0x00]))).result = 1 ∧
    (ran .frKeybit (args 0 2 (withBytes [0x7F, 0x7F]))).result = 0 := by decide +kernel

/-- R296: the example, two slices of 22 bytes. -/
def twoSlices : State :=
  { args 0 44 State.reset with
    inMem := place 41 [0x00, 0x00, 0x13] (place 19 [0x00, 0x00, 0x13] [])
    keyframe := true
    par := { onePar with configPresent := true, tailSize := 3, numHSlices := 2 } }

theorem test_frLocate : (ran .frLocate twoSlices).loc = [⟨0, 22⟩, ⟨22, 22⟩] := by decide +kernel

/-- R299: engine 1 comes to exist and `FR.gop_slices` is written. -/
theorem test_frGopinit :
    (let t := ran .frGopinit { State.reset with par := onePar, loc := [⟨0, 22⟩, ⟨22, 22⟩] }
     (t.hasEngine 1, t.gopSlices)) = (true, 2) := by decide +kernel

/-- R301: with two workers the tasks are submitted. -/
theorem test_frDispatch :
    (ran .frDispatch { State.reset with loc := [⟨0, 22⟩, ⟨22, 22⟩], workers := 2 }).tasks =
      [⟨0, 0, 22, true⟩, ⟨1, 22, 22, true⟩] := by decide +kernel

/-- R302: with one worker the task has run when the command ends. -/
theorem test_frDispatch_inline :
    (let t := ran .frDispatch { framed onePar 1 1 (arming 2 (withBytes [0x00, 0x80])) with loc := [⟨0, 2⟩] }
     (t.tasks.length, (t.engine 0).sl.fsm, t.sample 0 0 0)) = (0, .done, some 0) := by decide +kernel

/-- R304: the failed slice of index 1 is surfaced. -/
theorem test_frJoin :
    (let t := ran .frJoin { State.reset with
        loc := [⟨0, 22⟩, ⟨22, 22⟩]
        engines := [(0, Engine.reset), (1, Engine.reset.takeSliceError .sliceJunk)] }
     (t.result, t.lastError, t.errSlice)) = (1, 0x114, 1) := by decide +kernel

/-- R305. -/
theorem test_frFinal : (ran .frFinal { State.reset with result := 9 }).result = 9 := by decide +kernel

/-! ## Range decoder -/

/-- R131: the example. -/
theorem test_rcArm :
    (let rc := ((ran (.rcArm 0 false) (args 0 4 (withBytes [0x80, 0x00, 0x12, 0x34]))).engine 0).rc
     (rc.current, rc.mask, rc.bufCur)) = (0x8000, 0xFF00, 2) := by decide +kernel

/-- R131: the custom table needs a record that has one. -/
theorem test_rcArm_noTable : (ran (.rcArm 0 true) (args 0 4 State.reset)).lastError = 0x401 := by decide +kernel

/-- R135: the example, 40 bytes cut to 32. -/
theorem test_rcRearm :
    ((ran (.rcRearm 0 false) (args 0 32 (arming 40 State.reset))).engine 0).rc.bufEnd = 32 := by decide +kernel

/-- R134: the example over `KS`. -/
theorem test_rcBit :
    (let t := ran (.rcBit 0) (args 0x10000000 0 (arming 4 (withBytes [0x80, 0x00, 0x12, 0x34])))
     (t.result, (t.engine 0).rc.current, (t.engine 0).rc.mask, (t.engine 0).state .ks)) =
      (1, 0x0080, 0x7F80, 134) := by decide +kernel

/-- R98: a reference of kind 6 is refused. -/
theorem test_rcBit_badReference : (ran (.rcBit 0) (args 0x60000000 0 State.reset)).lastError = 0x401 := by
  decide +kernel

/-- R138: the example, eight zero bytes. -/
theorem test_rcUsym :
    (let t := ran (.rcUsym 0) (arming 8 State.reset)
     (t.result, (t.engine 0).state (.hb 0), (t.engine 0).state (.hb 1))) = (1, 122, 122) := by decide +kernel

/-- The decoder at the top of its interval after a zero flag of 0: every further step answers 1. -/
def allOnes : State :=
  args 0 0 (eng (fun e => (stFill (.hb 0) 248 e).setState (.hb 0) 1)
    (arming 8 (withBytes [0xFE, 0x00, 0xFF, 0xFF, 0xFF, 0xFF, 0xFF, 0xFF])))

/-- R138: the example, bytes `FF`; and a 32nd step that answers 1 forces an underrun and gives 0. -/
theorem test_rcUsym_zero :
    (let t := ran (.rcUsym 0) (arming 8 (withBytes (List.replicate 8 0xFF)))
     (t.result, (t.engine 0).state (.hb 0))) = (0, 134) ∧
    (let t := ran (.rcUsym 0) allOnes
     (t.result, (t.engine 0).rc.mask, (t.engine 0).rc.bufCur)) = (0, 0, 9) := by decide +kernel

/-- R139: the example, the most negative value. -/
theorem test_rcSsym :
    (ran (.rcSsym 0) (arming 7 (withBytes [0x7F, 0x7F, 0xFC, 0x19, 0x00, 0x03, 0x90]))).result = 0x80000000 := by
  decide +kernel

/-- R142: just after arming. -/
theorem test_rcUsed : (ran (.rcUsed 0) (arming 4 State.reset)).result = 1 := by decide +kernel

/-- R143: false on the empty window of reset, true after `RC_FORCE`. -/
theorem test_rcUndr : (ran (.rcUndr 0) State.reset).result = 0 ∧
    (ran (.rcUndr 0) (eng rcForce State.reset)).result = 1 := by decide +kernel

/-- R141. -/
theorem test_rcForce :
    (let rc := ((ran (.rcForce 0) (arming 4 State.reset)).engine 0).rc
     (rc.mask, rc.bufCur)) = (0, 5) := by decide +kernel

/-- R145: all three slots are filled. -/
theorem test_rcGopinit :
    (let t := ran (.rcGopinit 0) { State.reset with par := { onePar with init := [(7, 99)] } }
     ((t.engine 0).state (.ps 0 0 0 7), (t.engine 0).state (.ps 2 0 0 7), (t.engine 0).state (.ps 2 0 0 8))) =
      (99, 99, 128) := by decide +kernel

/-- R146, R139: eight zero bytes give +1. -/
theorem test_rcDelta :
    (ran (.rcDelta 0) (eng (rcGopinit onePar) (arming 8 { State.reset with par := onePar }))).result = 1 := by
  decide +kernel

/-- R98: a context at the count is refused. -/
theorem test_rcDelta_context :
    (ran (.rcDelta 0) (args 0 1 (eng (rcGopinit onePar) { State.reset with par := onePar }))).lastError = 0x401 := by
  decide +kernel

/-- R144. -/
theorem test_stFill :
    (let t := ran (.stFill 0 7) (args 0x30000000 0 State.reset)
     ((t.engine 0).state (.qb 31), (t.engine 0).state (.hb 31))) = (7, 128) := by decide +kernel

/-! ## Bitstream reader and Golomb-Rice -/

/-- R160. -/
theorem test_bsArm : ((ran (.bsArm 0) (args 5 9 State.reset)).engine 0).bs = ⟨5, 14, 0, false⟩ := by decide +kernel

/-- R161: the byte `A0` starts 1, 0. -/
theorem test_bsBit : (ran (.bsBit 0) (reading 1 (withBytes [0xA0]))).result = 1 ∧
    (ran (.bsBit 0) (ran (.bsBit 0) (reading 1 (withBytes [0xA0])))).result = 0 := by decide +kernel

/-- R163: the example. -/
theorem test_bsBits : (ran (.bsBits 0 12) (reading 2 (withBytes [0xA0, 0x0F]))).result = 0xA00 := by decide +kernel

/-- R162, R163: 9 bits of one byte. -/
theorem test_bsBits_exhausted :
    (let t := ran (.bsBits 0 9) (reading 1 (withBytes [0xA0]))
     (t.result, (t.engine 0).bs.pos, (t.engine 0).bs.underflow)) = (0, 8, true) := by decide +kernel

/-- R164: 12 bits are two bytes. -/
theorem test_bsUsed :
    (ran (.bsUsed 0) (eng (fun e => { e with bs := { e.bs with pos := 12 } }) (reading 2 State.reset))).result = 2 := by
  decide +kernel

/-- R175: reading the window to its last bit does not set the flag. -/
theorem test_bsUndr : (ran (.bsUndr 0) (ran (.bsBits 0 8) (reading 1 State.reset))).result = 0 ∧
    (ran (.bsUndr 0) (ran (.bsBits 0 9) (reading 1 State.reset))).result = 1 := by decide +kernel

/-- R165: the example `0 1 01`. -/
theorem test_grRice :
    (let t := ran (.grRice 0) (reading 1 (framed onePar 1 1 (withBytes [0x50])))
     (t.result, (t.engine 0).tuple 0 0 0)) = (BitVec.ofInt 32 (-3), ⟨2, 7, BitVec.ofInt 32 (-1), BitVec.ofInt 8 (-1)⟩) := by
  decide +kernel

/-- R165: the example of the escape. -/
theorem test_grRice_escape :
    (let t := ran (.grRice 0) (reading 3 (framed onePar 1 1 (withBytes [0x00, 0x00, 0x50])))
     (t.result, (t.engine 0).tuple 0 0 0)) = (8, ⟨2, 12, 0, 1⟩) := by decide +kernel

/-- R171: the first of four hits. -/
theorem test_grDelta :
    (let t := ran (.grDelta 0) (eng (grLineinit 0 0 4) (reading 1 (framed onePar 4 1 (withBytes [0xF0]))))
     (t.result, (t.engine 0).gr.runIndex, (t.engine 0).gr.x)) = (0, 1, 1) := by decide +kernel

/-- R167. -/
theorem test_grGopinit :
    ((ran (.grGopinit 0) (eng (fun e => e.setTuple 0 0 0 ⟨9, 9, 9, 9⟩) { State.reset with par := onePar })).engine 0).tuple
      0 0 0 = ⟨1, 4, 0, 0⟩ := by decide +kernel

/-- R168. -/
theorem test_grPlaneinit :
    ((ran (.grPlaneinit 0) (eng (fun e => { e with gr := { e.gr with runIndex := 5, x := 3 } }) State.reset)).engine 0).gr =
      { Gr.reset with x := 3 } := by decide +kernel

/-- R169: a width of 0 is refused, a width of 7 is stored. -/
theorem test_grLineinit :
    (ran (.grLineinit 0) (args 1 0 { State.reset with par := onePar })).lastError = 0x401 ∧
    ((ran (.grLineinit 0) (args 1 7 { State.reset with par := onePar })).engine 0).gr =
      { Gr.reset with w := 7, selP := 1 } := by decide +kernel

/-! ## Context, predictor, samples -/

/-- R192, R196: `L = 10`, `TL = 12`, `T = 13`, `TR = 13` at column 1 of a line of 2. -/
def exampleLine (p : Par) (l tl t tr : Word) : State :=
  args 0 1 (eng (fun e => e.setLine 0 (((((e.line 0).setCur 0 l).setTop 0 tl).setTop 1 t).setTop 2 tr))
    (opened (framed p 2 1 State.reset)))

/-- R192: the example. -/
theorem test_ctxIdx : (ran (.ctxIdx 0 0) (exampleLine smallPar 10 12 13 13)).result = BitVec.ofInt 32 (-6) := by
  decide +kernel

/-- R196: the example. -/
theorem test_predMed : (ran (.predMed 0) (exampleLine smallPar 10 12 13 13)).result = 11 := by decide +kernel

/-- R196: the example with the 16-bit flag, whose inputs straddle 32768. -/
theorem test_predMed_16 :
    (ran (.predMed 0) (exampleLine { smallPar with isOverflow16 := true } 32760 32700 32770 0)).result =
      BitVec.ofInt 32 (-32706) := by decide +kernel

/-- R203: predictor 11, context -6, and the delta 1 of an exhausted decoder, mirrored. -/
theorem test_smpDec :
    (let t := ran (.smpDec 0) (eng (fun e => rcForce (rcGopinit smallPar e)) (exampleLine smallPar 10 12 13 13))
     (t.result, t.sample 0 1 0)) = (10, some 10) := by decide +kernel

/-- R206, R171: the bit 1 is a hit, so the one sample is the predictor, 0. -/
theorem test_lineDec :
    (ran (.lineDec 0) (opened (reading 1 (framed onePar 1 1 (withBytes [0x80]))))).sample 0 0 0 = some 0 := by
  decide +kernel

/-- R208: token 0, then the word `0 1 01`, which is -3 and masked 253. -/
theorem test_planeDec :
    (ran (.planeDec 0) (reading 1 (framed onePar 1 1 (withBytes [0x28])))).sample 0 0 0 = some 253 := by
  decide +kernel

/-- R212: three planes, three hits; `run_index` runs through all of them. -/
theorem test_rgbDec :
    (let t := ran (.rgbDec 0) (reading 1 (framed { onePar with colorspaceType := true, planeCount := 3 } 1 1 (withBytes [0xE0])))
     (t.sample 2 0 0, (t.engine 0).gr.runIndex)) = (some 0, 3) := by decide +kernel

/-- R204. -/
theorem test_pxWrite : (ran (.pxWrite 0 0) (args 1 77 (framed onePar 2 1 State.reset))).sample 0 1 0 = some 77 := by
  decide +kernel

/-! ## Parameters -/

/-- The in-band record of version 0: Golomb-Rice, one set of one context. -/
def recordV0 : State :=
  { arming 10 (withBytes [0xE6, 0x59, 0xFF, 0xFF, 0xFF, 0xFF, 0xFF, 0xFF, 0xFF, 0xFD]) with width := 1, height := 1 }

/-- R221, R222: version 0 in band; the same bytes are refused as a configuration record. -/
theorem test_parParse : (ran (.parParse 0 false) recordV0).par.valid = true ∧
    (ran (.parParse 0 true) recordV0).lastError = 0x101 := by decide +kernel

/-- R230: five runs of 128. -/
def setStream : State := arming 9 (withBytes [0x7E, 0x7E, 0xFD, 0xFB, 0xF7, 0xEF, 0xDF, 0xBF, 0x7E])

theorem test_parQtset : (ran (.parQtset 0 3) setStream).result = 1 := by decide +kernel

/-- R230: zero bytes give tables of 64 runs, and the scale passes 32768. -/
theorem test_parQtset_scale : (ran (.parQtset 0 3) (arming 8 State.reset)).lastError = 0x108 := by decide +kernel

/-- R231: the example, runs 1, 2, 125 at scale 1. -/
def tableStream : State := args 1 0 (arming 3 (withBytes [0x8E, 0xB1, 0x0E]))

theorem test_parQtab :
    (let t := ran (.parQtab 0 0 0) tableStream
     (t.result, t.par.qtAt 0 0 2, t.par.qtAt 0 0 3, t.par.qtAt 0 0 128, t.par.qtAt 0 0 254)) =
      (5, 1, 2, BitVec.ofInt 16 (-2), BitVec.ofInt 16 (-1)) := by decide +kernel

/-- R236: zero bytes signal no coded states. -/
theorem test_parInist :
    (ran (.parInist 0 0) (arming 8 { State.reset with par := onePar })).result = 0 ∧
    (ran (.parInist 0 0) (arming 8 { withBytes [0xFF, 0xFF] with par := onePar })).result = 1 := by decide +kernel

/-- R240: the RGB model has one bit more, and depth 17 is refused. -/
theorem test_parDerive :
    (ran .parDerive { State.reset with par := { onePar with colorspaceType := true } }).par.bitsMask = 511 ∧
    (ran .parDerive { State.reset with par := { onePar with bitsPerRawSample := 17 } }).lastError = 0x203 := by
  decide +kernel

/-! ## Slices -/

/-- A record with a grid of two columns. -/
def gridPar : Par := { onePar with configPresent := true, tailSize := 3, numHSlices := 2 }

/-- R264: the header of the slice in the right column, for `WIDTH = 9`. -/
def headerStream : State := arming 2 (framed gridPar 9 1 (withBytes [0x3F, 0x2B]))

theorem test_slHeader :
    (let t := ran (.slHeader 0) headerStream
     ((t.engine 0).sl.x, (t.engine 0).sl.w, (t.engine 0).sl.fsm)) = (4, 5, .headerParsed) := by decide +kernel

/-- R275 (a): an extent outside the grid. -/
theorem test_slHeader_geometry : (ran (.slHeader 0) (arming 8 (framed gridPar 9 1 State.reset))).lastError = 0x110 := by
  decide +kernel

/-- R263. -/
theorem test_slOpen :
    (let t := ran (.slOpen 1 false) (args 6 4 (framed onePar 1 1 State.reset))
     ((t.engine 1).sl.bufBeg, (t.engine 1).sl.bufEnd, (t.engine 1).sl.fsm)) = (6, 10, .created) := by decide +kernel

/-- R274: a buffer shorter than a tail. -/
theorem test_slOpen_short : (ran (.slOpen 1 false) (args 0 2 (framed gridPar 1 1 State.reset))).lastError = 0x401 := by
  decide +kernel

/-- The frame of program P4 as a slice buffer. -/
def sliceP4 : State :=
  eng (fun e => { e with opened := true, sl := { e.sl with bufEnd := 16, contEnd := 8, used := 8 } })
    (framed { smallPar with coderType := false, ec := true, tailSize := 8 } 4 2
      (withBytes [0xFD, 0xF6, 0x00, 0x05, 0xDC, 0x94, 0x94, 0x0C, 0x00, 0x00, 0x08, 0x00, 0x53, 0xD7, 0x0C, 0x16]))

/-- Program P4: the remainder is 0. -/
theorem test_slCrc : (ran (.slCrc 0) sliceP4).result = 0 := by decide +kernel

/-- R274: before any `SL_OPEN`. -/
theorem test_slCrc_notOpened : (ran (.slCrc 0) State.reset).lastError = 0x401 := by decide +kernel

/-- A slice of one sample without record: its reader starts behind the first byte. -/
def sliceOne : State :=
  eng (fun e => { e with sl := { e.sl with fsm := .headerParsed, bufEnd := 2 } })
    (arming 2 (framed onePar 1 1 (withBytes [0x00, 0x80])))

/-- R266, R268, R272: one byte of the range decoder and one of the reader. -/
theorem test_slContent :
    (let t := ran (.slContent 0) sliceOne
     (t.sample 0 0 0, (t.engine 0).sl.used, (t.engine 0).sl.fsm)) = (some 0, 2, .contentDecoded) := by decide +kernel

/-- Engine 0 behind the content of a slice of 22 bytes. -/
def footerAt (used : Nat) : State :=
  eng (fun e => { e with sl := { e.sl with fsm := .contentDecoded, bufEnd := 22, contEnd := 19, used := used } })
    (framed smallPar 1 1 State.reset)

/-- R271: the example. -/
theorem test_slFooter : ((ran (.slFooter 0) (footerAt 19)).engine 0).sl.fsm = .done ∧
    (ran (.slFooter 0) (footerAt 18)).lastError = 0x114 := by decide +kernel

/-- R262: the task of a slice of one sample, without the keyframe bit of slice 0. -/
theorem test_slRun :
    (let t := ran (.slRun 1 false) (args 0 2 (framed onePar 1 1 (withBytes [0x00, 0x80])))
     (t.done, t.sample 0 0 0, (t.engine 1).sl.fsm)) = (true, some 0, .done) := by decide +kernel

/-! ## Witnesses: for each statement with hypotheses, states and operands that meet them, clause by clause -/

/-- The operation ends without error, in a state that `f` accepts. -/
def okAnd {σ α : Type} (f : σ → Bool) : Res σ α → Bool
  | .ok _ s => f s
  | .raise _ _ => false

theorem ok_of_okAnd {σ α : Type} {f : σ → Bool} {r : Res σ α} (h : okAnd f r = true) :
    ∃ a s, r = .ok a s ∧ f s = true := by
  cases r with
  | ok a s => exact ⟨a, s, rfl, h⟩
  | raise e s => cases h

/-- The outcome is a next state. -/
def isNext (o : Out) : Bool :=
  match o with
  | .next _ => true
  | .fault _ => false
  | .refused _ => false

theorem next_of_isNext {o : Out} (h : isNext o = true) : ∃ t, o = .next t := by
  cases o with
  | next t => exact ⟨t, rfl⟩
  | fault f => cases h
  | refused r => cases h

/-- `s` with a command pending. -/
def issued (w : Word) (s : State) : State := s.withFetchWord 32 w.toNat

theorem witness_DecodeEncodeRoundTrip :
    Instr.wf (.bsBits 0xFFFF 32) = true ∧ Instr.wf (.parQtab 0xFFFF 7 4) = true := by decide

theorem witness_EncodeDecodeRoundTrip : decode 0x22FFFF20 = .instr (.bsBits 0xFFFF 32) := by decide

theorem witness_TableRowsAreTheCommands :
    (∃ r ∈ opRows, 0x42000074 &&& r.mask = r.bits) ∧ opField 0x22000020 = 0x22 ∧ opField 0x42000074 = 0x42 := by
  decide

theorem witness_StepRunsTheDecodedCommand :
    (let s := State.reset.issue 0x12000000
     s.busy = true ∧ decode s.cmd = .instr (.rcBit 0) ∧ s.agenda = []) ∧
    (let s := { State.reset.issue 0x12000000 with agenda := [.wait, .read 0x0C] }
     s.busy = true ∧ decode s.cmd = .instr (.rcBit 0) ∧ s.agenda = .wait :: [.read 0x0C]) := by decide

theorem witness_RefusedWordsTakeBadCommand :
    (let s := State.reset.issue 0x66000000
     s.busy = true ∧ decode s.cmd = .rejected .reservedOpcode ∧ s.agenda = []) ∧
    (let s := State.reset.issue 0x55FFFE02
     s.busy = true ∧ decode s.cmd = .rejected .immNotZero ∧ s.agenda = [] ∧
       0x50 ≤ (opField s.cmd).toNat ∧ (opField s.cmd).toNat ≤ 0x55) := by decide

theorem witness_MissingEngineIsRefused :
    (engineOf (.rcBit 1) = some 1 ∧ State.reset.hasEngine (1 : BitVec 16).toNat = false) ∧
    (engineOf (.slCrc 0xFFFF) = some 0xFFFF ∧ State.reset.hasEngine (0xFFFF : BitVec 16).toNat = false) := by decide

/-- Kind 6 is no reference: no reference has its word (R98). -/
theorem reserved_reference (r : StateRef) : (0x60000000 : Word) ≠ r.word := by
  intro h
  have := StateRef.ofWord_word r
  rw [← h, show StateRef.ofWord 0x60000000 = none by decide] at this
  cases this

theorem witness_MissingEngineIsRefused_operands :
    badOperands (args 0x60000000 0 State.reset) (.rcBit 0) ∧
    badOperands (args 0xFFFFFFFE 1 State.reset) (.bsArm 0) ∧
    badOperands (args 0 1 { State.reset with par := onePar }) (.rcDelta 0) ∧
    badOperands (args 0 1 { State.reset with par := onePar }) (.grDelta 0) ∧
    badOperands State.reset (.slContent 0) ∧ badOperands { State.reset with par := onePar } (.slOpen 0xFFFF false) ∧
    badOperands (args 3 0 { State.reset with par := onePar }) (.smpDec 0) ∧
    badOperands (args 4 0 { State.reset with par := onePar }) (.planeDec 0) :=
  ⟨fun r h _ => absurd h (reserved_reference r), by show badBuffer _; unfold badBuffer; decide,
    .inr (by unfold badContext; decide), by show badContext _ _; unfold badContext; decide,
    by show _ ≠ Fsm.headerParsed; decide, .inl rfl, by show badColumn _ _; unfold badColumn; decide,
    by show ∀ c : Fin 4, _; decide⟩

/-- R93 check 4, R274: a context at its count, `SL_CONTENT` before its header, and `SL_RUN` of slice 65535. -/
theorem test_refused_operands :
    (ran (.grDelta 0) (args 0 1 { State.reset with par := onePar })).lastError = 0x401 ∧
    (ran (.slContent 0) State.reset).errSlice = 0 ∧
    (ran (.slRun 0xFFFF false) { State.reset with par := onePar }).errSlice = 0xFFFF := by decide +kernel

theorem witness_RegisterWritesReachThePort :
    (∀ o ∈ [(0x00 : BitVec 8), 0x04, 0x08, 0x1C, 0x20, 0x28],
      ({ State.reset with agenda := [.write o 0xFFFFFFFF] }).agenda = .write o 0xFFFFFFFF :: []) ∧
    State.reset.busy = false ∧ (State.reset.issue 0x12000000).busy = true ∧
    (0x0C : BitVec 8) ∉ [0x00#8, 0x04, 0x08, 0x1C, 0x20, 0x28, 0x2C] ∧
    ({ State.reset with agenda := [.read 0x10] }).agenda = .read 0x10 :: [] ∧
    (0x00 : BitVec 8) ∉ [0x04#8, 0x08, 0x0C, 0x10, 0x14, 0x18, 0x1C, 0x20, 0x24, 0x28, 0x2C] ∧
    ((0x0E209FE0 : Word).extractLsb' 24 8).toNat = 14 ∧ ((0x0E209FE0 : Word).extractLsb' 5 16).toNat = 1279 := by
  decide +kernel

/-- R96, R97: a write to the read-only `RESULT` is ignored, `STATUS` reads at 0x10, `CMD` reads 0. -/
theorem test_registers :
    hostWrite 0x0C 7 State.reset = State.reset ∧
    (hostRead 0x10 { State.reset with done := true, keyframeSeen := true }).hostData = 0x22 ∧
    (hostRead 0x00 { State.reset with cmd := 7 }).hostData = 0 := by decide +kernel

theorem witness_CommandsLeaveTheCallersMemories :
    (∃ t, exec (.stFill 0 7) (args 0x30000000 0 recordP1) = .next t) ∧
    Instr.stFill 0 7 ≠ .reset ∧ mayWriteSamples (.stFill 0 7) = false :=
  ⟨next_of_isNext (by decide +kernel), by decide, by decide⟩

theorem witness_ErrorCodesNameTheirClass :
    ErrorName.underrun.isUnderrun = true ∧ ErrorName.sliceJunk.isUnderrun = false := by decide

theorem witness_StatusStaysOneHot :
    portInv (issued 0x05000000 frameP5) ∧ ∃ t, step (issued 0x05000000 frameP5) = .next t :=
  ⟨by unfold portInv; decide, next_of_isNext (by decide +kernel)⟩

theorem witness_MemoriesStayCanonical :
    memoryInv (issued 0x03000000 frameP5) ∧ ∃ t, step (issued 0x03000000 frameP5) = .next t :=
  ⟨by unfold memoryInv Engine.canonical; decide +kernel, next_of_isNext (by decide +kernel)⟩

/-- The tuple of context 0 is at the end of its range. -/
def lastTuple : State :=
  issued 0x2C000000
    (eng (fun e => e.setTuple 0 0 0 ⟨128, 4, 0, 0⟩) (reading 1 (framed onePar 1 1 (withBytes [0x50]))))

theorem witness_TuplesStayInRange :
    tupleInv lastTuple ∧ ((lastTuple.engine 0).tuple 0 0 0).n = 128 ∧ ∃ t, step lastTuple = .next t :=
  ⟨by unfold tupleInv; decide +kernel, by decide +kernel, next_of_isNext (by decide +kernel)⟩

theorem witness_ValidRecordsStayLegal :
    paramInv (issued 0x03000000 frameP5) ∧ frameP5.par.valid = true ∧
    (∀ v, (issued 0x03000000 frameP5).agenda.head? ≠ some (.write 0x2C v)) ∧
    ∃ t, step (issued 0x03000000 frameP5) = .next t :=
  ⟨fun _ => by unfold Par.ok; decide +kernel, rfl, fun _ h => by simp [issued, State.withFetchWord] at h,
    next_of_isNext (by decide +kernel)⟩

theorem witness_ZeroTableIsDerived :
    (1 : Fin 256).val + (255 : Fin 256).val = 256 ∧ (128 : Fin 256).val + (128 : Fin 256).val = 256 := by decide

/-- A buffer that ends at the last legal address, and a record with a custom table. -/
def lastBuffer : State := args 0xFFFFFFF0 14 { State.reset with par := { onePar with customPresent := true } }

theorem witness_RcArmAndRearmSetTheWindow :
    (lastBuffer.hasEngine (0 : BitVec 16).toNat = true ∧ lastBuffer.par.customPresent = true ∧
      lastBuffer.arg0.toNat + lastBuffer.arg1.toNat = 2 ^ 32 - 2) ∧
    (let s := args 0 40 (arming 40 State.reset)
     s.hasEngine 0 = true ∧ s.arg1.toNat = (s.engine 0).rc.bufEnd.toNat - (s.engine 0).rc.bufBeg.toNat) := by
  decide +kernel

/-- Engine 0 with its `PS` states for the record `onePar`, armed on four bytes. -/
def contexts : State :=
  eng (rcGopinit onePar) (arming 4 { withBytes [0x80, 0x00, 0x12, 0x34] with par := onePar })

theorem witness_RcBitRefillsThenDecides :
    (let s := args (StateRef.ps 2 0 0 31).word 0 contexts
     s.hasEngine (0 : BitVec 16).toNat = true ∧ s.arg0 = (StateRef.ps 2 0 0 31).word ∧
       (StateRef.ps 2 0 0 31).legal s.par (s.engine 0) = true ∧ ¬ (s.engine 0).rc.mask.toNat < 0x100) ∧
    (let s := args StateRef.ks.word 0 (eng rcForce contexts)
     s.hasEngine (0 : BitVec 16).toNat = true ∧ s.arg0 = StateRef.ks.word ∧
       StateRef.ks.legal s.par (s.engine 0) = true ∧ (s.engine 0).rc.mask.toNat < 0x100 ∧
       (s.engine 0).rc.bufEnd < (s.engine 0).rc.bufCur) := by decide +kernel

/-- The answers of the first `n` exponent steps over `HB` in engine 0. -/
def exponentAnswers (s : State) (n : Nat) : List Bool :=
  (decisions s.inMem ((List.range n).map fun j => .hb (BitVec.ofNat 5 (1 + min j 9)))
    (rcBit s.inMem (.hb 0) (s.engine 0)).1).2

theorem witness_SymbolsTouchOnlyTheirBank_clauses :
    (let s := arming 8 (withBytes (List.replicate 8 0xFF))
     (rcBit s.inMem (.hb 0) (s.engine 0)).2 = true) ∧
    (let s := arming 8 State.reset
     (rcBit s.inMem (.hb 0) (s.engine 0)).2 = false ∧ exponentAnswers s 1 = [false]) ∧
    (let s := arming 7 (withBytes [0x7F, 0x7F, 0xFC, 0x19, 0x00, 0x03, 0x90])
     (rcBit s.inMem (.hb 0) (s.engine 0)).2 = false ∧
       exponentAnswers s 32 = List.replicate 31 true ++ [false]) ∧
    (rcBit allOnes.inMem (.hb 0) (allOnes.engine 0)).2 = false ∧
      exponentAnswers allOnes 32 = List.replicate 32 true := by decide +kernel

theorem witness_SymbolsTouchOnlyTheirBank :
    let s := args (StateRef.ps 2 0 0 0).word 0 contexts
    s.hasEngine (0 : BitVec 16).toNat = true ∧ s.arg0 = (StateRef.ps 2 0 0 0).word ∧
      (StateRef.ps 2 0 0 0).isBank = true ∧ (StateRef.ps 2 0 0 0).isSingle = false ∧
      (StateRef.ps 2 0 0 0).legal s.par (s.engine 0) = true := by decide +kernel

theorem witness_RcForceExhaustsTheDecoder :
    (let s := eng (rcArm [] 0xFFFFFFF0 14 Config.defaultTransition) State.reset
     s.hasEngine (0 : BitVec 16).toNat = true ∧ (s.engine 0).rc.bufEnd.toNat = 2 ^ 32 - 2) ∧
    exhausted ((eng rcForce contexts).engine 0).rc := by
  unfold exhausted; decide +kernel

theorem witness_AccountingCommandsOnlyRead :
    contexts.hasEngine (0 : BitVec 16).toNat = true ∧
      (contexts.engine 0).rc.bufBeg.toNat ≤ (contexts.engine 0).rc.bufEnd.toNat ∧
      (contexts.engine 0).rc.bufBeg.toNat + 1 ≤ (contexts.engine 0).rc.bufCur.toNat := by decide +kernel

theorem witness_RcGopinitCopiesTheTemplate :
    let s := { State.reset with par := { onePar with init := [(7, 99)] } }
    s.hasEngine (0 : BitVec 16).toNat = true ∧ s.par.valid = true ∧ Store.sorted s.par.init = true := by
  decide +kernel

theorem witness_RcDeltaIsASignedSymbol :
    let s := args 2 0 contexts
    s.hasEngine (0 : BitVec 16).toNat = true ∧ (s.engine 0).psReady = true ∧
      s.arg0.extractLsb' 0 2 = (2 : BitVec 2) ∧ s.arg0.extractLsb' 2 3 = (0 : BitVec 3) ∧
      s.arg1.toNat = (0 : BitVec 14).toNat ∧ (0 : BitVec 3).toNat < s.par.qtSetCount.toNat ∧
      (0 : BitVec 14).toNat < s.par.ctxCount 0 := by decide +kernel

theorem witness_StFillSetsTheBank :
    (let s := args (StateRef.ib 31 0).word 0 State.reset
     s.hasEngine (0 : BitVec 16).toNat = true ∧ s.arg0 = (StateRef.ib 31 0).word ∧
       (StateRef.ib 31 0).isBank = true ∧ (StateRef.ib 31 0).legal s.par (s.engine 0) = true) ∧
    (let s := args (StateRef.ts).word 0 State.reset
     s.arg0 = (StateRef.ts).word ∧ (StateRef.ts).isBank = true ∧ (StateRef.ts).legal s.par (s.engine 0) = true) := by
  decide +kernel

theorem witness_BsArmAndBitFollowTheWindow :
    (State.reset.hasEngine (0 : BitVec 16).toNat = true ∧
      lastBuffer.arg0.toNat + lastBuffer.arg1.toNat = 2 ^ 32 - 2) ∧
    (let bs := (State.reset.engine 0).bs
     8 * (bs.bufEnd.toNat - bs.bufBeg.toNat) ≤ bs.pos.toNat) ∧
    (let bs := ((reading 1 State.reset).engine 0).bs
     bs.pos.toNat < 8 * (bs.bufEnd.toNat - bs.bufBeg.toNat)) := by decide +kernel

theorem witness_BsBitsIsMsbFirst :
    let bs := ((reading 4 State.reset).engine 0).bs
    (reading 4 State.reset).hasEngine (0 : BitVec 16).toNat = true ∧ (32 : BitVec 6).toNat ≤ 32 ∧
      8 * (bs.bufEnd.toNat - bs.bufBeg.toNat) < 2 ^ 35 ∧
      (32 : BitVec 6).toNat ≤ 8 * (bs.bufEnd.toNat - bs.bufBeg.toNat) - bs.pos.toNat ∧
      8 * ((State.reset.engine 0).bs.bufEnd.toNat - (State.reset.engine 0).bs.bufBeg.toNat) -
        (State.reset.engine 0).bs.pos.toNat < (32 : BitVec 6).toNat := by decide +kernel

theorem witness_GrInitCommandsRestartTheRun :
    let s := args 2 0xFFFFFF { State.reset with par := onePar }
    s.hasEngine (0 : BitVec 16).toNat = true ∧ (s.arg0.extractLsb' 0 2).toNat ≤ 2 ∧
      (s.arg0.extractLsb' 2 3).toNat < s.par.qtSetCount.toNat ∧ 1 ≤ s.arg1.toNat ∧
      s.arg1.toNat = 2 ^ 24 - 1 := by decide +kernel

theorem witness_GrGopinitResetsTheTuples :
    contexts.hasEngine (0 : BitVec 16).toNat = true ∧ contexts.par.valid = true := by decide +kernel

theorem witness_GrRiceKeepsTheTupleLaw :
    lastTuple.hasEngine (0 : BitVec 16).toNat = true ∧ lastTuple.arg0.extractLsb' 0 2 = (0 : BitVec 2) ∧
      lastTuple.arg0.extractLsb' 2 3 = (0 : BitVec 3) ∧ lastTuple.arg1.toNat = 0 ∧
      (0 : BitVec 3).toNat < lastTuple.par.qtSetCount.toNat ∧ 0 < lastTuple.par.ctxCount 0 ∧
      lastTuple.par.bitsMax.toNat = 8 ∧ ((lastTuple.engine 0).tuple 0 0 0).n.toNat = 128 ∧
      ((lastTuple.engine 0).tuple 0 0 0).a.toNat ≤ 128 * 2 ^ 0 ∧
      (nextBits lastTuple.inMem 2 (lastTuple.engine 0)).2 = List.replicate 1 false ++ [true] ∧
      (nextBits [] 12 (State.reset.engine 0)).2 = List.replicate 12 false := by decide +kernel

theorem witness_GrDeltaCountsTheRun :
    (let s := eng (fun e => { grLineinit 0 0 4 e with gr := { (grLineinit 0 0 4 e).gr with
        runMode := .processing, runLen := 1 } }) (framed onePar 4 1 State.reset)
     s.hasEngine (0 : BitVec 16).toNat = true ∧ s.arg1.toNat = 0 ∧ 0 < s.par.ctxCount (s.engine 0).gr.selQ ∧
       (s.engine 0).gr.runMode ≠ .stop ∧ 0 < (s.engine 0).gr.runLen) ∧
    (let s := args 0 62 (eng (grLineinit 0 0 4) (framed smallPar 4 1 State.reset))
     s.hasEngine (0 : BitVec 16).toNat = true ∧ s.arg1.toNat = 62 ∧ 62 < s.par.ctxCount (s.engine 0).gr.selQ ∧
       (s.engine 0).gr.runMode = .stop) ∧
    (let e := (grLineinit 0 0 4 Engine.reset)
     e.gr.runLen = 0 ∧ e.gr.runMode = .stop ∧ (bsBit [(0, 0xF0)] (bsArm 0 1 e)).2 = true ∧
       (bsBit [] (bsArm 0 1 e)).2 = false ∧ (bsBits [] (grLog2 0) (bsBit [] (bsArm 0 1 e)).1).2 = 0) ∧
    (let token := bsBit [(0, 0x40)] (bsArm 0 1 Engine.reset)
     token.2 = false ∧ (bsBits [(0, 0x40)] (grLog2 4) token.1).2 ≠ 0) := by decide +kernel

/-- R171: a miss at `run_index` 4 with the terminator 1 owes one zero delta; the next sample ends the run with
the word `0 1 01`, which is -3 and stays -3. -/
theorem test_grDelta_miss :
    (let s := eng (fun e => { e with gr := { e.gr with runIndex := 4 } })
       (eng (grLineinit 0 0 9) (reading 2 (framed onePar 9 1 (withBytes [0x54]))))
     let t := ran (.grDelta 0) s
     let u := ran (.grDelta 0) t
     (t.result, (t.engine 0).gr.runIndex, u.result, (u.engine 0).gr.runMode)) =
      (0, 3, BitVec.ofInt 32 (-3), .stop) := by decide +kernel

theorem witness_ContextAndPredictorReadTheNeighbours :
    let s := exampleLine { smallPar with isOverflow16 := true } 32760 32700 32770 0
    s.hasEngine (0 : BitVec 16).toNat = true ∧ s.arg0 = BitVec.ofNat 32 (0 : Fin 4).val ∧
      ((s.engine 0).line 0).isOpen = true ∧ s.arg1.toNat < (region s.par (s.engine 0).sl 0).w ∧
      (0 : BitVec 3).toNat < s.par.qtSetCount.toNat := by decide +kernel

theorem witness_PxWriteStoresOneSample :
    let s := args 1 255 (framed { onePar with alphaPlane := true } 2 1 State.reset)
    s.hasEngine (0 : BitVec 16).toNat = true ∧ s.par.present (3 : BitVec 2).toFin = true ∧
      s.arg0.toNat < (region s.par (s.engine 0).sl (3 : BitVec 2).toFin).w ∧
      s.arg1.toNat = s.par.bitsMask.toNat := by decide +kernel

theorem witness_SmpDecReconstructsOneSample :
    let s := exampleLine smallPar 10 12 13 13
    s.hasEngine (0 : BitVec 16).toNat = true ∧ s.arg0 = BitVec.ofNat 32 (0 : Fin 4).val ∧
      ((s.engine 0).line 0).isOpen = true ∧ s.arg1.toNat < (region s.par (s.engine 0).sl 0).w := by decide +kernel

/-- R206, R192, R203: the second line starts with `cur[-1] = top[0]` and `top[2] = top[1]`; predictor 40, context
2 - 10 - 50, and the delta 1 of an exhausted decoder, mirrored. -/
theorem test_lineDec_edges :
    (let s := opened (framed { smallPar with planeCount := 1 } 2 2 State.reset)
     let t := ran (.lineDec 0) (args 0 1 (eng (fun e => rcForce (rcGopinit smallPar
       (e.setLine 0 (((e.line 0).setCur 0 40).setCur 1 50)))) s))
     (((t.engine 0).line 0).cur (-1), ((t.engine 0).line 0).top 2, t.sample 0 0 1)) = (40, 50, some 39) := by
  decide +kernel

/-- Both coders, with a context of the sets in use. -/
theorem witness_SmpDecReconstructsOneSample_coder :
    (let s := exampleLine smallPar 10 12 13 13
     let q := (s.engine 0).sl.qtiAt (slot 0)
     let n := (ctxIdx s.par ((s.engine 0).line 0) 1 q).natAbs
     s.par.coderType = true ∧ n = 6 ∧ q.toNat < s.par.qtSetCount.toNat ∧ n < s.par.ctxCount q) ∧
    (let s := exampleLine { smallPar with coderType := false } 10 12 13 13
     s.par.coderType = false ∧ (s.engine 0).gr.selP.toNat ≤ 2 ∧
       (s.engine 0).gr.selQ.toNat < s.par.qtSetCount.toNat ∧ 6 < s.par.ctxCount (s.engine 0).gr.selQ) := by
  decide +kernel

theorem witness_LineDecWritesOneRow :
    let s := args 0 1 (opened (framed onePar 3 2 State.reset))
    s.hasEngine (0 : BitVec 16).toNat = true ∧ s.arg0 = BitVec.ofNat 32 (0 : Fin 4).val ∧
      ((s.engine 0).line 0).isOpen = true ∧ s.arg1.toNat < (region s.par (s.engine 0).sl 0).h := by decide +kernel

theorem witness_PlaneDecWritesItsRegion :
    let s := args 3 0 (framed { onePar with alphaPlane := true } 3 2 State.reset)
    s.hasEngine (0 : BitVec 16).toNat = true ∧ s.arg0 = BitVec.ofNat 32 (3 : Fin 4).val ∧
      s.par.present 3 = true := by decide +kernel

theorem witness_RgbDecWritesItsPlanes :
    let s := framed { onePar with colorspaceType := true, planeCount := 3 } 1 1 State.reset
    s.hasEngine (0 : BitVec 16).toNat = true ∧ (2 : Fin 4).val < s.par.planeCount.toNat := by decide +kernel

theorem witness_ParDeriveComputesTheFields :
    ({ onePar with bitsPerRawSample := 16 }).bitsPerRawSample.toNat ≤ 16 ∧
    16 < ({ onePar with bitsPerRawSample := 17 }).bitsPerRawSample.toNat := by decide +kernel

/-- A run of 63 and a run of 66, which passes entry 127. -/
def longRun : State := args 32768 0 (arming 4 (withBytes [0x7F, 0xFF, 0xFF, 0xFF]))

theorem witness_ParQtabBuildsAMirroredTable :
    (let s := tableStream
     s.hasEngine (0 : BitVec 16).toNat = true ∧ (4 : BitVec 3).toNat ≤ 4 ∧ s.arg0.toNat = 1 ∧
       (qtabRuns s.inMem s.arg0.toNat 128 0 0 (stFill (.qb 0) 128 (s.engine 0))).full = true) ∧
    (let s := longRun
     s.hasEngine (0 : BitVec 16).toNat = true ∧ s.arg0.toNat = 32768 ∧
       (qtabRuns s.inMem s.arg0.toNat 128 0 0 (stFill (.qb 0) 128 (s.engine 0))).full = false) := by decide +kernel

theorem witness_ParQtabBuildsAMirroredTable_runs :
    let r := symbolsRead tableStream.inMem (.qb 0) 3 (stFill (.qb 0) 128 (tableStream.engine 0))
    let lengths := r.2.map (· + 1)
    lengths = [1, 2, 125] ∧ lengths.sum = 128 ∧ (lengths.take 2).sum ≤ 127 ∧ 127 < (lengths.take 3).sum ∧
      tableStream.arg0.toNat * 2 ≤ 32767 := by
  decide +kernel

/-- The running scales of a set in engine 0 after `n` tables, for `n` from 0 to `m`. -/
def scales (s : State) (m : Nat) : List (Option Nat) :=
  (List.range (m + 1)).map fun n => (scaleAfter s.inMem 3 (s.parseSt 0) n).map (·.1)

theorem witness_ParQtsetBoundsTheScale :
    (setStream.hasEngine (0 : BitVec 16).toNat = true ∧
      scales setStream 5 = [some 1, some 1, some 1, some 1, some 1, some 1]) ∧
    ((arming 8 State.reset).hasEngine (0 : BitVec 16).toNat = true ∧
      scales (arming 8 State.reset) 3 = [some 1, some 127, some 16129, some 2048383]) ∧
    (longRun.hasEngine (0 : BitVec 16).toNat = true ∧ scales longRun 1 = [some 1, none]) := by decide +kernel

theorem witness_ParInistFillsTheSet :
    let s := arming 8 { State.reset with par := onePar }
    s.hasEngine (0 : BitVec 16).toNat = true ∧ (rcBit s.inMem (.hb 0) (s.engine 0)).2 = false ∧
      (0 : BitVec 3) ≠ 7 ∧ 0 < s.par.ctxCount 0 ∧
      (rcBit [(0, 0xFF), (1, 0xFF)] (.hb 0) ((arming 8 { s with inMem := [(0, 0xFF), (1, 0xFF)] }).engine 0)).2 =
        true := by decide +kernel

theorem witness_ParParseEndsValidOrNot :
    (recordV0.hasEngine (0 : BitVec 16).toNat = true ∧ recordV0.width.toNat = 1 ∧ recordV0.height.toNat = 1 ∧
      (recordV0.engine 0).rc.one = Config.defaultTransition) ∧
    (∃ st, recordParse (recordV0.parseIn false) (recordV0.parseSt 0) = .ok () st) ∧
    ∃ err st, recordParse (recordV0.parseIn true) (recordV0.parseSt 0) = .raise err st := by
  obtain ⟨⟨⟩, st, h⟩ := ok_of_isOk (r := recordParse (recordV0.parseIn false) (recordV0.parseSt 0)) (by decide +kernel)
  exact ⟨by decide +kernel, ⟨st, h⟩, raise_of_isOk (by decide +kernel)⟩

theorem witness_SlOpenStartsTheSlice :
    (let s := { State.reset with par := onePar }
     (0 : BitVec 16).toNat < 65535 ∧ s.par.valid = true ∧ s.par.configPresent = false) ∧
    (let s := args 0xFFFFFFFB 3 { State.reset with par := gridPar }
     (0xFFFE : BitVec 16).toNat < 65535 ∧ s.par.valid = true ∧ s.par.tailSize.toNat = s.arg1.toNat ∧
       s.arg0.toNat + s.arg1.toNat = 2 ^ 32 - 2) := by decide +kernel

/-- A header whose decoder has run out, so that every symbol is 1, in a grid of `n` by `n` with `m` sets. -/
def headerOnes (n : Word) (m : BitVec 4) : State :=
  eng rcForce (framed { gridPar with numHSlices := n, numVSlices := n, qtSetCount := m } 9 9 State.reset)

/-- The first `n` symbols of a header in engine 0. -/
def headerSymbols (s : State) (n : Nat) : List Nat :=
  (symbolsRead s.inMem (.hb 0) n (stFill (.hb 0) 128 (s.engine 0))).2

theorem witness_SlHeaderPlacesTheRegion :
    (State.reset.hasEngine (0 : BitVec 16).toNat = true ∧ (State.reset.engine 0).sl.fsm = .created ∧
      State.reset.par.configPresent = false) ∧
    (headerStream.hasEngine (0 : BitVec 16).toNat = true ∧ (headerStream.engine 0).sl.fsm = .created ∧
      headerStream.par.configPresent = true ∧ headerStream.par.qtiCount = 2 ∧
      headerStream.par.numHSlices.toNat = 2 ∧ headerStream.par.numVSlices.toNat = 1 ∧
      headerStream.par.qtSetCount.toNat = 1 ∧ headerSymbols headerStream 9 = [1, 0, 0, 0, 0, 0, 0, 0, 0]) := by
  decide +kernel

/-- With every symbol 1 the extent ends at column 3: outside a grid of 2, inside one of 3; and the index 1 is a
set of two, and none of one. -/
theorem witness_SlHeaderPlacesTheRegion_errors :
    (let s := headerOnes 3 1
     s.hasEngine (0 : BitVec 16).toNat = true ∧ (s.engine 0).sl.fsm = .created ∧ s.par.configPresent = true ∧
       s.par.qtiCount = 2) ∧
    headerSymbols (headerOnes 3 1) 9 = [1, 1, 1, 1, 1, 1, 1, 1, 1] := by decide +kernel

/-- R264: the same headers run. -/
theorem test_slHeader_errors :
    (ran (.slHeader 0) (headerOnes 2 2)).lastError = 0x110 ∧
    (ran (.slHeader 0) (headerOnes 3 1)).lastError = 0x111 ∧
    ((ran (.slHeader 0) (headerOnes 3 2)).engine 0).sl.fsm = .headerParsed := by decide +kernel

/-- The buffer of program P4 with one bit of its content changed, ready for its content. -/
def sliceBadCrc : State :=
  eng (fun e => e.setFsm .headerParsed) { sliceP4 with inMem := Store.put inDefault sliceP4.inMem 6 0x95 }

/-- A range-coded slice of one sample without record, with `n` bytes of buffer. -/
def sliceRange (n : Nat) : State :=
  eng (fun e => { e with sl := { e.sl with fsm := .headerParsed, bufEnd := BitVec.ofNat _ n } })
    (arming n (framed { onePar with coderType := true } 1 1 State.reset))

/-- R270: a range-coded slice that runs out is `E_UNDERRUN`, with its sample written. -/
theorem test_slContent_underrun :
    (let t := ran (.slContent 0) (sliceRange 0)
     (t.lastError, t.underrun, (t.engine 0).sl.underrun, (t.sample 0 0 0).isSome)) = (0x301, true, true, true) := by
  decide +kernel

/-- The engine of a slice without a tail as its content starts, with the default table (R266). -/
def windowed (s : State) : Engine :=
  let e := s.engine 0
  { e with
    sl := { e.sl with contEnd := e.sl.bufEnd }
    rc := { e.rc with
      bufEnd := e.sl.bufEnd, one := Config.defaultTransition, zero := zeroTable Config.defaultTransition } }

theorem witness_SlContentStaysInItsRegion_ends :
    (∀ n ∈ [0, 8], (sliceRange n).hasEngine (0 : BitVec 16).toNat = true ∧
      ((sliceRange n).engine 0).sl.fsm = .headerParsed ∧ (sliceRange n).par.coderType = true ∧
      (sliceRange n).par.configPresent = false ∧ (sliceRange n).par.tailSize = 0) ∧
    (∀ n ∈ [0, 8], rcUnderrun (rcBit [] .ts ((contentEngine (sliceRange n).sliceIn
      (windowed (sliceRange n))).setState .ts 129)).1.rc = (n == 0)) ∧
    (sliceOne.par.coderType = false ∧ sliceOne.par.version = 0 ∧ sliceOne.par.tailSize = 0) ∧
    rcUnderrun (windowed sliceOne).rc = false ∧ rcUsedBytes (windowed sliceOne).rc = 1 ∧
    rcUnderrun (windowed (eng rcForce sliceOne)).rc = true ∧
    (∀ n ∈ [0, 1], (contentEngine sliceOne.sliceIn
      (bsArm 1 (BitVec.ofNat _ n) (windowed sliceOne))).bs.underflow = (n == 0)) := by decide +kernel

theorem witness_SlContentStaysInItsRegion :
    (sliceP4.hasEngine (0 : BitVec 16).toNat = true ∧ (sliceP4.engine 0).opened = true) ∧
    (sliceOne.hasEngine (0 : BitVec 16).toNat = true ∧ (sliceOne.engine 0).sl.fsm = .headerParsed) ∧
    (∃ a st, slContent sliceOne.sliceIn (sliceOne.sliceSt 0) = .ok a st) ∧
    (sliceBadCrc.hasEngine (0 : BitVec 16).toNat = true ∧ (sliceBadCrc.engine 0).sl.fsm = .headerParsed ∧
      sliceBadCrc.par.configPresent = true ∧ sliceBadCrc.par.ec = true ∧
      slCrc sliceBadCrc.inMem (sliceBadCrc.engine 0).sl ≠ 0) :=
  ⟨by decide +kernel, by decide +kernel, ok_of_isOk (by decide +kernel), by decide +kernel⟩

/-- Behind the content, with the error status byte of `sliceP4` set to `v`. -/
def statusAt (v : Byte) : State :=
  eng (fun e => e.setFsm .contentDecoded) { sliceP4 with inMem := Store.put inDefault sliceP4.inMem 11 v }

theorem witness_SlFooterAccountsForEveryByte :
    (let s := statusAt 1
     s.hasEngine (0 : BitVec 16).toNat = true ∧ (s.engine 0).sl.fsm = .contentDecoded ∧
       s.par.configPresent = true ∧ s.par.ec = true ∧
       inByte s.inMem ((s.engine 0).sl.contEnd.toNat + 3) ≠ 0) ∧
    (let s := footerAt 18
     s.hasEngine (0 : BitVec 16).toNat = true ∧ (s.engine 0).sl.fsm = .contentDecoded ∧ s.par.ec = false ∧
       (s.engine 0).sl.used + s.par.tailSize.toNat ≠ 22) ∧
    (let s := statusAt 0
     s.hasEngine (0 : BitVec 16).toNat = true ∧ (s.engine 0).sl.fsm = .contentDecoded ∧
       inByte s.inMem ((s.engine 0).sl.contEnd.toNat + 3) = 0 ∧
       (s.engine 0).sl.used + s.par.tailSize.toNat =
         (s.engine 0).sl.bufEnd.toNat - (s.engine 0).sl.bufBeg.toNat) := by decide +kernel

/-- The arguments of `SL_RUN` for a slice of one sample, in engine 1. -/
def runOne (n : Word) : State := args 0 n (framed onePar 1 1 (withBytes [0x00, 0x80]))

theorem witness_SlRunEndsDoneOrError :
    (runOne 2).openOk 1 false = true ∧
    (∃ a st, slRun (runOne 2).sliceIn (1 : BitVec 16).toNat 0 2 false ((runOne 2).sliceSt 1) = .ok a st) ∧
    (runOne 3).openOk 1 false = true ∧
    ∃ err st, slRun (runOne 3).sliceIn (1 : BitVec 16).toNat 0 3 false ((runOne 3).sliceSt 1) = .raise err st :=
  ⟨by decide +kernel, ok_of_isOk (by decide +kernel), by decide +kernel, raise_of_isOk (by decide +kernel)⟩

theorem witness_FrKeybitReadsTheFirstDecision :
    lastBuffer.arg0.toNat + lastBuffer.arg1.toNat = 2 ^ 32 - 2 ∧ 2 ≤ lastBuffer.arg1.toNat := by decide +kernel

theorem witness_FrLocateTilesTheBuffer :
    (runOne 2).arg0.toNat + (runOne 2).arg1.toNat ≤ 2 ^ 32 - 2 ∧ (runOne 2).par.configPresent = false ∧
    twoSlices.arg0.toNat + twoSlices.arg1.toNat ≤ 2 ^ 32 - 2 ∧ twoSlices.par.configPresent = true ∧
    (∃ a u, frLocate twoSlices.arg0 twoSlices.arg1 twoSlices = .ok a u) ∧
    ∃ err u, frLocate twoSlices.arg0 0 twoSlices = .raise err u :=
  ⟨by decide +kernel, rfl, by decide +kernel, rfl, ok_of_isOk (by decide +kernel), raise_of_isOk (by decide +kernel)⟩

theorem witness_FrGopinitPreparesEveryLocatedSlice :
    let s := { State.reset with par := onePar, loc := [⟨0, 22⟩, ⟨22, 22⟩] }
    1 < s.loc.length ∧ s.loc.length ≤ 2 ∧ s.hasEngine 1 = false := by decide +kernel

theorem witness_FrameBookkeepingCommands_workers :
    2 ≤ ({ State.reset with workers := 2 }).workers ∧ State.reset.workers ≤ 1 := by decide

theorem witness_FrameBookkeepingCommands :
    let s := { State.reset with par := onePar, loc := [⟨0, 22⟩, ⟨22, 22⟩], tasks := [⟨5, 0, 0, false⟩] }
    s.par.valid = true ∧ s.loc[1]? = some ⟨22, 22⟩ ∧ 0 < s.tasks.length := by decide +kernel

theorem witness_FrJoinSurfacesTheFirstError :
    let s := { State.reset with
      loc := [⟨0, 22⟩, ⟨22, 22⟩]
      engines := [(0, Engine.reset), (1, Engine.reset.takeSliceError .sliceJunk)] }
    s.tasks = [] ∧ 1 < s.loc.length ∧ (s.engine 1).sl.err ≠ 0 ∧ (s.engine 0).sl.err = 0 := by decide +kernel

theorem witness_ProcOobStartsAStream :
    (recordP1.width.toNat = 64 ∧ recordP1.height.toNat = 64 ∧
      recordP1.arg0.toNat + recordP1.arg1.toNat ≤ 2 ^ 32 - 2) ∧
    (∃ a u, procOob recordP1.arg0 recordP1.arg1 recordP1 = .ok a u) ∧
    ∃ err u, procOob recordP1.arg0 2 recordP1 = .raise err u :=
  ⟨by decide +kernel, ok_of_isOk (by decide +kernel), raise_of_isOk (by decide +kernel)⟩

/-- Two slices of one sample each, 5 and 9, in their own buffers. -/
def twoTasks : State :=
  framed { gridPar with version := 3, microVersion := 4, coderType := true } 2 1
    (withBytes [0xFE, 0x5E, 0x00, 0x00, 0x02, 0x3F, 0x6C, 0x3A, 0x00, 0x00, 0x03])

/-- The task of the left slice. -/
def leftTask : Task := ⟨0, 0, 5, false⟩

/-- The task of the right slice. -/
def rightTask : Task := ⟨1, 5, 6, false⟩

/-- A frame of two slices in flight, the right one without the last byte of its buffer. -/
def inFlight : State :=
  { twoTasks with loc := [⟨0, 5⟩, ⟨5, 5⟩], tasks := [leftTask, { rightTask with len := 5 }] }

/-- R304: the tasks have run; the left slice is done, the right one failed and is surfaced. -/
theorem test_frJoin_tasks :
    (let t := ran .frJoin inFlight
     (t.result, t.errSlice, (t.engine 0).sl.fsm, (t.engine 1).sl.fsm, t.tasks.length, t.sample 0 0 0)) =
      (1, 1, .done, .error, 0, some 5) := by decide +kernel

/-- Dimensions at the upper limit. -/
def largest : State := { State.reset with width := 0xFFFFFF, height := 0xFFFFFF }

theorem witness_FrameCommandsCheckInOrder :
    (2 ^ 24 - 1 < ({ largest with width := 0x1000000 }).width.toNat) ∧
    (largest.width.toNat = 2 ^ 24 - 1 ∧ largest.height.toNat = 2 ^ 24 - 1 ∧
      ¬ (args 0xFFFFFFFE 1 largest).arg0.toNat + (args 0xFFFFFFFE 1 largest).arg1.toNat ≤ 2 ^ 32 - 2) ∧
    (let s := args 0xFFFFFFF0 14 { largest with inMem := place 0xFFFFFFF0 [0x7F, 0x7F] [] }
     s.arg0.toNat + s.arg1.toNat = 2 ^ 32 - 2 ∧ s.keyframeSeen = false ∧
       (frKeybit s.arg0 s.arg1 s).keyframe = false) := by decide +kernel

/-- Program P5's frame before its record has parsed, and after a keyframe of an `intra` stream, with the bytes
of no keyframe. -/
theorem witness_FrameCommandsCheckInOrder_parameters :
    (let s := { frameP5 with par := { smallPar with valid := false } }
     (frKeybit s.arg0 s.arg1 s).keyframe = true ∧ s.par.configPresent = true ∧ s.par.valid = false) ∧
    (let s := { frameP5 with
       par := { smallPar with intra := true }, keyframeSeen := true, inMem := place 0 [0x7F, 0x7F] [] }
     s.keyframeSeen = true ∧ (frKeybit s.arg0 s.arg1 s).keyframe = false ∧ s.par.valid = true ∧
       s.par.intra = true) := by decide +kernel

/-- R292 steps 4 and 5. -/
theorem test_procFrame_turnedAway :
    (ran .procFrame { frameP5 with par := { smallPar with valid := false } }).lastError = 0x124 ∧
    (ran .procFrame { frameP5 with
      par := { smallPar with intra := true }, keyframeSeen := true
      inMem := place 0 [0x7F, 0x7F] [] }).lastError = 0x122 := by decide +kernel

/-- Program P5's frame with one byte too many in its slice. -/
def frameJunk : State :=
  args 0 10 (framed smallPar 4 2 (withBytes [0xFE, 0x79, 0x83, 0x36, 0x56, 0xB6, 0x00, 0x00, 0x00, 0x07]))

theorem witness_ProcFrameEndsWithItsSlices :
    frameP5.tasks = [] ∧ frameJunk.tasks = [] ∧
    (frameP5.width.toNat = 4 ∧ frameP5.height.toNat = 2 ∧
      frameP5.arg0.toNat + frameP5.arg1.toNat ≤ 2 ^ 32 - 2) ∧
    (∃ a u, frameSetup frameP5.arg0 frameP5.arg1 frameP5 = .ok a u ∧ decide ((frameSlices u).2 = 0) = true) ∧
    ∃ a u, frameSetup frameJunk.arg0 frameJunk.arg1 frameJunk = .ok a u ∧
      decide ((frameSlices u).2 ≠ 0) = true :=
  ⟨rfl, rfl, by decide +kernel, ok_of_okAnd (f := fun u => decide ((frameSlices u).2 = 0)) (by decide +kernel),
    ok_of_okAnd (f := fun u => decide ((frameSlices u).2 ≠ 0)) (by decide +kernel)⟩

theorem lookup_of_not_mem {α : Type} (k : Nat) (m : List (Nat × α)) (h : k ∉ m.map (·.1)) :
    Store.lookup m k = none := by
  induction m with
  | nil => rfl
  | cons c m ih =>
    simp only [List.map_cons, List.mem_cons, not_or] at h
    obtain ⟨a, v⟩ := c
    simp only [Store.lookup]
    rw [if_neg h.1, ih h.2]

/-- `twoTasks` after a third task of the same set has written a sample elsewhere. -/
def thirdEnded : State := { twoTasks with written := [(sampleKey 1 0 0, 3)] }

/-- The two tasks write the samples 5 and 9, at different places. -/
theorem test_taskSamples :
    taskSamples leftTask thirdEnded = [(sampleKey 0 0 0, 5)] ∧
    taskSamples rightTask thirdEnded = [(sampleKey 0 1 0, 9)] := by decide +kernel

theorem witness_SliceTasksCommute :
    leftTask.slice ≠ rightTask.slice ∧
    (∀ key, (Store.lookup thirdEnded.written key).isSome = true →
      Store.lookup (taskSamples leftTask thirdEnded) key = none ∧
      Store.lookup (taskSamples rightTask thirdEnded) key = none) ∧
    ∀ key, Store.lookup (taskSamples leftTask thirdEnded) key = none ∨
      Store.lookup (taskSamples rightTask thirdEnded) key = none := by
  rw [test_taskSamples.1, test_taskSamples.2]
  refine ⟨by decide, fun key h => ?_, fun key => ?_⟩
  · by_cases hk : key = sampleKey 1 0 0
    · subst hk; decide +kernel
    · rw [show thirdEnded.written = [(sampleKey 1 0 0, 3)] from rfl, lookup_of_not_mem _ _ (by simpa using hk)] at h
      cases h
  · by_cases h : key = sampleKey 0 0 0
    · exact .inr (lookup_of_not_mem _ _ (by rw [h]; decide +kernel))
    · exact .inl (lookup_of_not_mem _ _ (by simpa using h))

/-- R361: a hardware reset with nothing running keeps the samples. -/
theorem test_hwReset :
    (hwReset runCommand { State.reset with plane := [(sampleKey 0 0 0, 7)], lastError := 5 }).sample 0 0 0 = some 7 := by
  decide +kernel

end Sys2Proof.Tests
end

/-! # The scope of a command: every command ends (R91), and a step runs the pending one (R16) -/

namespace Sys2Proof.Machine

/-! ## How the shared endings end a command (R91, R330) -/

/-- The command ended: `BUSY` fell, and exactly one of `DONE` and `FAIL` is set (R91). -/
def Ended (o : Out) : Prop := ∃ t, o = .next t ∧ t.busy = false ∧ t.done = !t.fail

theorem ended_complete (s : State) : Ended (complete s) := ⟨_, rfl, rfl, rfl⟩

theorem ended_completeWith (r : Word) (s : State) : Ended (completeWith r s) := ⟨_, rfl, rfl, rfl⟩

theorem ended_finishFailed (s : State) : Ended (.next s.finishFailed) := ⟨_, rfl, rfl, rfl⟩

theorem ended_failWith (e : ErrorName) (n : BitVec 16) (s : State) : Ended (failWith e n s) := ⟨_, rfl, rfl, rfl⟩

theorem ended_checked {legal : Bool} {n : BitVec 16} {s : State} {f : State → Out} (h : ∀ u, Ended (f u)) :
    Ended (checked legal n s f) := by
  cases legal
  case false => exact checked_not n s f rfl ▸ ended_failWith .badCommand n s
  case true => exact checked_of n s f rfl ▸ h s

theorem ended_onEngine (k : BitVec 16) (s : State) (f : Engine → Engine) : Ended (onEngine k s f) :=
  ended_complete _

theorem ended_onEngineWith (k : BitVec 16) (s : State) (f : Engine → Engine × Word) :
    Ended (onEngineWith k s f) :=
  ended_completeWith _ _

theorem ended_onSlice (k : BitVec 16) (s : State) (f : SliceIn → SliceSt → SliceSt) : Ended (onSlice k s f) :=
  ended_complete _

theorem ended_endSlice (k : BitVec 16) (s : State) (r : SliceRes) : Ended (endSlice k s r) := by
  cases r
  case ok => exact ended_complete _
  case raise e _ => exact ended_failWith e _ _

theorem ended_endParse (k : BitVec 16) (s : State) (r : Res ParseSt Unit) : Ended (endParse k s r) := by
  cases r
  case ok => exact ended_complete _
  case raise e _ => exact ended_failWith e _ _

theorem ended_endParseNat (k : BitVec 16) (s : State) (r : Res ParseSt Nat) : Ended (endParseNat k s r) := by
  cases r
  case ok => exact ended_completeWith _ _
  case raise e _ => exact ended_failWith e _ _

theorem ended_endFrame (r : Res State Unit) : Ended (endFrame r) := by
  cases r
  case ok => exact ended_complete _
  case raise e _ => exact ended_failWith e _ _

theorem ended_dimensionsChecked {s : State} {f : State → Out} (h : ∀ u, Ended (f u)) :
    Ended (dimensionsChecked s f) := by
  unfold dimensionsChecked
  split
  · exact ended_checked h
  · exact ended_failWith _ _ _

/-! ## Meanings that end a command in their own way -/

theorem ended_execParDerive (s : State) : Ended (execParDerive s) := by
  unfold execParDerive
  split
  · exact ended_complete _
  · exact ended_failWith _ _ _

/-- A frame whose set-up raises ends with that error; else the number of failed slices decides (R292). -/
theorem ended_execProcFrame (s : State) : Ended (execProcFrame s) := by
  refine ended_dimensionsChecked fun u => ?_
  split
  · exact ended_failWith _ _ _
  · dsimp only
    split
    · exact ended_complete _
    · exact ended_finishFailed _

theorem ended_execFrLocate (s : State) : Ended (execFrLocate s) := by
  refine ended_checked fun u => ?_
  split
  · exact ended_completeWith _ _
  · exact ended_failWith _ _ _

/-! ## Every command -/

/-- Every command but `RESET` ends through one of the shared endings (R91); the cases are grouped by the ending,
those with an operand that can name nothing (R93 check 4, R98) last. The meanings are opened by name: left to
find them by itself, the unifier runs the parser and the slice. -/
theorem ended_exec {i : Instr} (s : State) (h : i ≠ .reset) : Ended (exec i s) := by
  cases i with
  | reset => exact absurd rfl h
  | frGopinit | frDispatch | frFinal =>
    dsimp only [exec, execFrGopinit, execFrDispatch, execFrFinal]
    exact ended_complete _
  | getErr | frJoin =>
    dsimp only [exec, execGetErr, execFrJoin]
    exact ended_completeWith _ _
  | outCreate | frKeybit | rcUsed | rcUndr | bsUsed | bsUndr | slCrc | parInist =>
    dsimp only [exec, execOutCreate, execFrKeybit, execRcUsed, execRcUndr, execBsUsed, execBsUndr,
      execSlCrc, execParInist]
    exact ended_checked fun _ => ended_completeWith _ _
  | rcArm | rcRearm | rcForce | rcGopinit | bsArm | grGopinit | grPlaneinit | grLineinit | slOpen =>
    dsimp only [exec, execRcArm, execRcRearm, execRcForce, execRcGopinit, execBsArm, execGrGopinit,
      execGrPlaneinit, execGrLineinit, execSlOpen]
    exact ended_checked fun _ => ended_onEngine _ _ _
  | rcDelta | bsBit | bsBits | grDelta | grRice =>
    dsimp only [exec, execRcDelta, execBsBit, execBsBits, execGrDelta, execGrRice]
    exact ended_checked fun _ => ended_onEngineWith _ _ _
  | rgbDec | pxWrite =>
    dsimp only [exec, execRgbDec, execPxWrite]
    exact ended_checked fun _ => ended_onSlice _ _ _
  | slHeader | slContent | slFooter | slRun =>
    dsimp only [exec, execSlHeader, execSlContent, execSlFooter, execSlRun]
    exact ended_checked fun _ => ended_endSlice _ _ _
  | parParse =>
    dsimp only [exec, execParParse]
    exact ended_checked fun _ => ended_endParse _ _ _
  | parQtset | parQtab =>
    dsimp only [exec, execParQtset, execParQtab]
    exact ended_checked fun _ => ended_endParseNat _ _ _
  | procOob =>
    dsimp only [exec, execProcOob]
    exact ended_dimensionsChecked fun _ => ended_endFrame _
  | stFill =>
    dsimp only [exec, execStFill]
    split
    · exact ended_failWith _ _ _
    · exact ended_onEngine _ _ _
  | rcBit | rcUsym | rcSsym =>
    dsimp only [exec, execRcBit, execRcUsym, execRcSsym]
    split
    · exact ended_failWith _ _ _
    · exact ended_onEngineWith _ _ _
  | ctxIdx | predMed | smpDec =>
    dsimp only [exec, execCtxIdx, execPredMed, execSmpDec]
    split
    · exact ended_failWith _ _ _
    · exact ended_completeWith _ _
  | lineDec | planeDec =>
    dsimp only [exec, execLineDec, execPlaneDec]
    split
    · exact ended_failWith _ _ _
    · exact ended_onSlice _ _ _
  | procFrame => exact ended_execProcFrame s
  | frLocate => exact ended_execFrLocate s
  | parDerive => exact ended_execParDerive s

/-- `RESET` ends as well, and leaves `BUSY`, `DONE` and `FAIL` clear (R360). -/
theorem exec_reset_ends (s : State) :
    ∃ t, exec .reset s = .next t ∧ t.busy = false ∧ t.done = false ∧ t.fail = false :=
  ⟨s.resetBlock, rfl, rfl, rfl, rfl⟩

/-- Settles O10, from the way each command ends and, apart from it, from what `RESET` leaves. -/
theorem everyCommandEnds : Obligations.EveryCommandEnds := by
  intro i s
  by_cases hi : i = .reset
  · subst hi
    obtain ⟨t, hnext, hbusy, hdone, hfail⟩ := exec_reset_ends s
    exact ⟨t, hnext, hbusy, fun h => absurd rfl h, fun _ => ⟨hdone, hfail⟩⟩
  · obtain ⟨t, hnext, hbusy, hone⟩ := ended_exec s hi
    exact ⟨t, hnext, hbusy, fun _ => hone, fun h => absurd h hi⟩

/-! ## The step of a pending command (R16, R91) -/

/-- A pending word that decodes runs as `exec` of its command. -/
theorem runPending_exec {s : State} {i : Instr} (hb : s.busy = true) (hd : decode s.cmd = .instr i) :
    runPending s = exec i s := by
  simp [runPending, runCommand, hb, hd]

/-- With no event left the pending command is the step. -/
theorem step_nil {s : State} (h : s.agenda = []) : step s = runPending s := by
  simp [step, advance, h]

/-- A `wait` runs the pending command behind the rest of the agenda. -/
theorem step_wait {s : State} {rest : List HostEvent} (h : s.agenda = .wait :: rest) :
    step s = runPending { s with agenda := rest } := by
  simp [step, advance, handle, h]

/-- `withFetchWord` of a whole word writes that word to `CMD` and waits. -/
theorem withFetchWord_toNat (s : State) (w : Word) :
    s.withFetchWord 32 w.toNat = { s.issue w with agenda := .wait :: s.agenda } := by
  have hw : BitVec.ofNat 32 (w.toNat % 2 ^ 32) = w := by
    rw [Nat.mod_eq_of_lt w.isLt, BitVec.ofNat_toNat, BitVec.setWidth_eq]
  rw [State.withFetchWord, hw]

/-- Settles O5: the step is the run of the pending command, which decodes and executes it. -/
theorem stepRunsTheDecodedCommand : Obligations.StepRunsTheDecodedCommand := by
  intro s i
  refine ⟨fun hb hd => ⟨fun hnil => ?_, fun rest hwait => ?_⟩, fun w hd => ?_⟩
  · rw [step_nil hnil, runPending_exec hb hd]
  · rw [step_wait hwait]
    exact runPending_exec hb hd
  · rw [withFetchWord_toNat, step_wait rfl]
    exact runPending_exec rfl hd

end Sys2Proof.Machine

/-! # The memories: everything that a step can do to them

One relation per part of the state says which single writes there are; `Writes` is any number of them in a row.
Every operation of the model is shown once to be such a row of writes, and an invariant of the memories is then a
statement about single writes. -/

namespace Sys2Proof.Machine

-- One theorem at a time: each that waits for the kernel holds a thread, and here they are many and short.
set_option Elab.async false

/-! ## Single writes -/

/-- One write to a pair of line buffers (R25, R43, R206). -/
inductive LineBuf.Write : LineBuf → LineBuf → Prop
  /-- The selector or the open mark changes. -/
  | flags {b b' : LineBuf} (h0 : b'.buf0 = b.buf0) (h1 : b'.buf1 = b.buf1) : LineBuf.Write b b'
  | cur (b : LineBuf) (i : Int) (v : Word) : LineBuf.Write b (b.setCur i v)
  | top (b : LineBuf) (i : Int) (v : Word) : LineBuf.Write b (b.setTop i v)
  | cleared {b b' : LineBuf} (h0 : b'.buf0 = []) (h1 : b'.buf1 = []) : LineBuf.Write b b'

abbrev LineBuf.Writes : LineBuf → LineBuf → Prop := Relation.ReflTransGen LineBuf.Write

/-- One write to the memories of an engine (R40, R42, R43, R166). -/
inductive Engine.Write : Engine → Engine → Prop
  /-- Registers change, and line buffers are written. -/
  | lines {e f : Engine} (hsm : f.sm = e.sm) (hgs : f.gs = e.gs) (h : ∀ c, (e.line c).Writes (f.line c)) :
      Engine.Write e f
  | state (e : Engine) (r : StateRef) (v : Byte) : Engine.Write e (e.setState r v)
  | dropStates (e : Engine) (p : Nat × Byte → Bool) : Engine.Write e { e with sm := e.sm.filter p }
  /-- A tuple is only ever written by its own update (R166). -/
  | tuple (e : Engine) (p : BitVec 2) (q : BitVec 3) (ctx : Nat) (code : Word) :
      Engine.Write e (e.setTuple p q ctx (riceUpdate (e.tuple p q ctx) code))
  | dropTuples (e : Engine) (p : Nat × GrTuple → Bool) : Engine.Write e { e with gs := e.gs.filter p }

abbrev Engine.Writes : Engine → Engine → Prop := Relation.ReflTransGen Engine.Write

/-- One write to the tables and the templates of the record (R37, R39). -/
inductive Par.Write : Par → Par → Prop
  | fields {p p' : Par} (hqt : p'.qt = p.qt) (hinit : p'.init = p.init) : Par.Write p p'
  | qtEntry (p : Par) (k : Nat) (v : BitVec 16) : Par.Write p { p with qt := Store.put qtDefault p.qt k v }
  | qtTable (p : Par) (q : BitVec 3) (j : Nat) (vs : List (BitVec 16)) : Par.Write p (p.setQt q j vs)
  | initByte (p : Par) (k : Nat) (v : Byte) : Par.Write p { p with init := Store.put initDefault p.init k v }
  | initSet (p : Par) (q : BitVec 3) (vs : List Byte) : Par.Write p (p.setInit q vs)

abbrev Par.Writes : Par → Par → Prop := Relation.ReflTransGen Par.Write

/-- One write to the sample store (R75, R204, R306, R360). -/
inductive PlaneWrite : List (Nat × Word) → List (Nat × Word) → Prop
  | sample (m : List (Nat × Word)) (k : Nat) (v : Word) : PlaneWrite m (Store.insert m k v)
  | drop (m : List (Nat × Word)) (p : Nat × Word → Bool) : PlaneWrite m (m.filter p)

abbrev PlaneWrites : List (Nat × Word) → List (Nat × Word) → Prop := Relation.ReflTransGen PlaneWrite

/-- One write to the memories of the machine. -/
inductive State.Write : State → State → Prop
  /-- Registers change, the record's tables and templates and the sample store are written. -/
  | memories {s t : State} (him : t.inMem = s.inMem) (hen : t.engines = s.engines)
      (hpar : s.par.Writes t.par) (hpl : PlaneWrites s.plane t.plane) : State.Write s t
  | input (s : State) (a : Nat) (v : Byte) : State.Write s { s with inMem := Store.put inDefault s.inMem a v }
  | engine (s : State) (k : Nat) (e : Engine) (h : (s.engine k).Writes e) : State.Write s (s.setEngine k e)
  /-- A stream starts anew with engine 0 alone (R48, R291). -/
  | stream (s : State) (e : Engine) (h : Engine.reset.Writes e) : State.Write s { s with engines := [(0, e)] }
  | reset (s : State) : State.Write s s.resetBlock

abbrev State.Writes : State → State → Prop := Relation.ReflTransGen State.Write

/-! ## Rows of writes -/

section Rows

variable {σ α β : Type}

/-- A row of writes through a sequence of two operations. -/
theorem Res.state_bind {R : σ → σ → Prop} (ht : ∀ {a b c}, R a b → R b c → R a c) {s : σ} {r : Res σ α}
    {f : α → σ → Res σ β} (hr : R s r.state) (hf : ∀ a u, R u (f a u).state) : R s (r.bind f).state := by
  cases r with
  | ok a u => exact ht hr (hf a u)
  | raise e u => exact hr

/-- A row of writes through a list of operations. -/
theorem writes_foldl {r : σ → σ → Prop} {f : σ → α → σ} (h : ∀ s a, Relation.ReflTransGen r s (f s a))
    (as : List α) (s : σ) : Relation.ReflTransGen r s (as.foldl f s) := by
  induction as generalizing s with
  | nil => exact .refl
  | cons a as ih => exact (h s a).trans (ih _)

/-- What both branches can do. -/
theorem writes_ite {r : σ → σ → Prop} {c : Prop} [Decidable c] {s a b : σ} (ha : Relation.ReflTransGen r s a)
    (hb : Relation.ReflTransGen r s b) : Relation.ReflTransGen r s (if c then a else b) := by
  split
  · exact ha
  · exact hb

end Rows

/-- Registers of an engine change, its memories do not. -/
theorem regs_writes {e f : Engine} (hsm : f.sm = e.sm) (hgs : f.gs = e.gs) (hl : f.lines = e.lines) :
    e.Writes f :=
  .single (.lines hsm hgs fun c => by rw [Engine.line, Engine.line, hl])

/-- Registers change before further writes. -/
theorem writes_afterRegs {e f g : Engine} (h : f.Writes g) (hsm : f.sm = e.sm) (hgs : f.gs = e.gs)
    (hl : f.lines = e.lines) : e.Writes g := (regs_writes hsm hgs hl).trans h

/-- Registers change after some writes. -/
theorem writes_thenRegs {e f g : Engine} (h : e.Writes f) (hsm : g.sm = f.sm) (hgs : g.gs = f.gs)
    (hl : g.lines = f.lines) : e.Writes g := h.trans (regs_writes hsm hgs hl)

/-- One pair of line buffers is written. -/
theorem setLine_writes {e : Engine} {c : Fin 4} {b : LineBuf} (h : (e.line c).Writes b) :
    e.Writes (e.setLine c b) := by
  refine .single (.lines rfl rfl fun d => ?_)
  by_cases hd : d = c
  · subst hd
    rwa [line_setLine_self]
  · rw [line_setLine_ne e b hd]

theorem setState_writes (e : Engine) (r : StateRef) (v : Byte) : e.Writes (e.setState r v) :=
  .single (.state e r v)

/-- Reads of bits write no memory (R161). -/
theorem onlyReads_writes {e f : Engine} (h : onlyReads e f) : e.Writes f := by
  unfold onlyReads at h
  exact regs_writes (congrArg Engine.sm h :) (congrArg Engine.gs h :) (congrArg Engine.lines h :)

/-! ## The range decoder (R131 to R146) -/

theorem rcDecide_writes (r : StateRef) (e : Engine) : e.Writes (rcDecide r e).1 := by
  unfold rcDecide
  dsimp only
  split
  · exact writes_afterRegs (setState_writes _ r _) rfl rfl rfl
  · exact writes_afterRegs (setState_writes _ r _) rfl rfl rfl

theorem rcBit_writes (im : List Host.Cell) (r : StateRef) (e : Engine) : e.Writes (rcBit im r e).1 := by
  unfold rcBit
  split
  · split
    · exact writes_afterRegs (rcDecide_writes r _) rfl rfl rfl
    · exact regs_writes rfl rfl rfl
  · exact rcDecide_writes r e

theorem rcExponent_writes (im : List Host.Cell) (bank : StateRef) (steps n : Nat) (e : Engine) :
    e.Writes (rcExponent im bank steps n e).1 := by
  induction steps generalizing n e with
  | zero => exact regs_writes rfl rfl rfl
  | succ steps ih =>
    unfold rcExponent
    dsimp only
    split
    · exact (rcBit_writes im _ e).trans (ih _ _)
    · exact rcBit_writes im _ e

theorem rcMantissa_writes (im : List Host.Cell) (bank : StateRef) (n : Nat) (a : Word) (e : Engine) :
    e.Writes (rcMantissa im bank n a e).1 := by
  induction n generalizing a e with
  | zero => exact .refl
  | succ n ih => exact (rcBit_writes im _ e).trans (ih _ _)

theorem rcMagnitude_writes (im : List Host.Cell) (bank : StateRef) (e : Engine) :
    e.Writes (rcMagnitude im bank e).1 := by
  have hzero := rcBit_writes im (bank.byte zeroByte) e
  have hexp := hzero.trans (rcExponent_writes im bank Config.expSteps 0 _)
  unfold rcMagnitude
  dsimp only
  split
  · exact hzero
  · split <;> rename_i heq <;> rw [heq] at hexp
    · exact hexp
    · exact hexp.trans (rcMantissa_writes im bank _ 1 _)

theorem rcUsym_writes (im : List Host.Cell) (bank : StateRef) (e : Engine) :
    e.Writes (rcUsym im bank e).1 := by
  have h := rcMagnitude_writes im bank e
  unfold rcUsym
  split <;> rename_i heq <;> rw [heq] at h <;> exact h

theorem rcSsym_writes (im : List Host.Cell) (bank : StateRef) (e : Engine) :
    e.Writes (rcSsym im bank e).1 := by
  have h := rcMagnitude_writes im bank e
  unfold rcSsym
  split <;> rename_i heq <;> rw [heq] at h
  · exact h
  · exact h.trans (rcBit_writes im _ _)

theorem fillBytes_writes (bank : StateRef) (v : Byte) (n : Nat) (e : Engine) :
    e.Writes (fillBytes bank v n e) := by
  induction n with
  | zero => exact .refl
  | succ n ih => exact ih.trans (setState_writes _ _ v)

theorem stFill_writes (bank : StateRef) (v : Byte) (e : Engine) : e.Writes (stFill bank v e) := by
  unfold stFill
  split
  · exact setState_writes e bank v
  · exact fillBytes_writes bank v 32 e

theorem copyInit_writes (par : Par) (p : BitVec 2) (e : Engine) (c : Nat × Byte) :
    e.Writes (copyInit par p e c) := by
  unfold copyInit
  split
  · split
    · exact setState_writes e _ _
    · exact .refl
  · exact .refl

theorem rcGopinit_writes (par : Par) (e : Engine) : e.Writes (rcGopinit par e) := by
  have hdrop : e.Writes { e with sm := e.sm.filter fun c => !inPs par c.1, psReady := true } :=
    writes_thenRegs (.single (.dropStates e _)) rfl rfl rfl
  have hcopy : ∀ (p : BitVec 2) (f : Engine), f.Writes (par.init.foldl (copyInit par p) f) :=
    fun p f => writes_foldl (copyInit_writes par p) par.init f
  exact ((hdrop.trans (hcopy 0 _)).trans (hcopy 1 _)).trans (hcopy 2 _)

theorem rcArm_writes (im : List Host.Cell) (b n : Word) (t : Table) (e : Engine) :
    e.Writes (rcArm im b n t e) := regs_writes rfl rfl rfl

theorem rcRearm_writes (n : Nat) (t : Table) (e : Engine) : e.Writes (rcRearm n t e) := regs_writes rfl rfl rfl

/-! ## The Golomb-Rice decoder (R165 to R171) -/

/-- A Rice symbol writes the update of the tuple that it has read (R165, R166). -/
theorem grRice_writes (im : List Host.Cell) (m : Nat) (p : BitVec 2) (q : BitVec 3) (ctx : Nat) (e : Engine) :
    e.Writes (grRice im m p q ctx e).1 := by
  unfold grRice
  dsimp only
  generalize riceK (e.tuple p q ctx).n.toNat (e.tuple p q ctx).a.toNat 33 0 = k
  have hread := riceValue_onlyReads im k m e
  have hsame : (riceValue im k m e).1.tuple p q ctx = e.tuple p q ctx := by
    simp only [Engine.tuple]
    rw [congrArg Engine.gs hread]
  rw [← hsame]
  exact (onlyReads_writes hread).tail (.tuple _ p q ctx _)

theorem grToken_writes (im : List Host.Cell) (x : Nat) (e : Engine) : e.Writes (grToken im x e) :=
  writes_afterRegs (onlyReads_writes (grToken_frame im x e)) rfl rfl rfl

theorem grRunStep_writes (im : List Host.Cell) (m ctx : Nat) (e : Engine) :
    e.Writes (grRunStep im m ctx e).1 := by
  unfold grRunStep
  extract_lets _ f
  have hcount : e.Writes f := regs_writes rfl rfl rfl
  clear_value f
  have hrice := hcount.trans (grRice_writes im m f.gr.selP f.gr.selQ ctx f)
  generalize grRice im m f.gr.selP f.gr.selQ ctx f = r at hrice ⊢
  split
  · exact writes_thenRegs hrice rfl rfl rfl
  · exact hcount

theorem grDelta_writes (im : List Host.Cell) (m ctx : Nat) (e : Engine) :
    e.Writes (grDelta im m ctx e).1 := by
  have hstep : e.Writes { e with gr := { e.gr with x := e.gr.x + 1 } } := regs_writes rfl rfl rfl
  unfold grDelta
  dsimp only
  split
  · exact hstep.trans (grRice_writes im m _ _ ctx _)
  · refine .trans ?_ (grRunStep_writes im m ctx _)
    have hmode := writes_ite (c := e.gr.runMode = .stop)
      (writes_thenRegs (g := { e with gr := { e.gr with x := e.gr.x + 1, runMode := .processing } })
        hstep rfl rfl rfl) hstep
    exact writes_ite (hmode.trans (grToken_writes im _ _)) hmode

theorem grGopinit_writes (par : Par) (e : Engine) : e.Writes (grGopinit par e) := .single (.dropTuples e _)

theorem delta_writes (i : SliceIn) (p : BitVec 2) (q : BitVec 3) (n : Nat) (e : Engine) :
    e.Writes (delta i p q n e).1 := by
  unfold delta
  split
  · exact rcSsym_writes i.im _ e
  · exact grDelta_writes i.im _ _ e

/-! ## Lines and planes (R203 to R212) -/

/-- A slice operation writes the memories of its engine and the sample store. -/
structure SliceSt.Writes (st u : SliceSt) : Prop where
  eng : st.eng.Writes u.eng
  plane : PlaneWrites st.plane u.plane

theorem SliceSt.Writes.refl (st : SliceSt) : st.Writes st := ⟨.refl, .refl⟩

theorem SliceSt.Writes.trans {st u v : SliceSt} (h : st.Writes u) (h' : u.Writes v) : st.Writes v :=
  ⟨h.eng.trans h'.eng, h.plane.trans h'.plane⟩

/-- An operation that writes no sample. -/
theorem SliceSt.Writes.ofEngine {st : SliceSt} {e : Engine} (h : st.eng.Writes e) :
    st.Writes { st with eng := e } := ⟨h, .refl⟩

theorem pxWrite_writes (i : SliceIn) (c : Fin 4) (x : Nat) (v : Word) (st : SliceSt) :
    st.Writes (pxWrite i c x v st) := ⟨.refl, .single (.sample _ _ v)⟩

theorem sampleStep_writes (i : SliceIn) (c : Fin 4) (x : Nat) (e : Engine) :
    e.Writes (sampleStep i c x e).1 := by
  unfold sampleStep
  dsimp only
  refine writes_thenRegs ((delta_writes i _ _ _ e).trans (setLine_writes (c := c) ?_)) rfl rfl rfl
  rw [delta_line]
  exact .single (.cur _ x _)

theorem smpDec_writes (i : SliceIn) (c : Fin 4) (x : Nat) (st : SliceSt) : st.Writes (smpDec i c x st).1 := by
  have h := smpDec_step i c x st
  dsimp only at h
  rw [h]
  exact ⟨sampleStep_writes i c x st.eng, .single (.sample _ _ _)⟩

theorem smpLoop_writes (i : SliceIn) (c : Fin 4) (n x : Nat) (st : SliceSt) :
    st.Writes (smpLoop i c n x st) := by
  induction n generalizing x st with
  | zero => exact .refl st
  | succ n ih => exact (smpDec_writes i c x st).trans (ih _ _)

theorem lineBuf_startLine_writes (b : LineBuf) (w : Nat) : b.Writes (b.startLine w) :=
  .tail (.tail (.single (.flags (b' := { b with sel := !b.sel }) rfl rfl)) (.cur _ _ _)) (.top _ _ _)

theorem startLine_writes (i : SliceIn) (c : Fin 4) (y : Nat) (e : Engine) : e.Writes (startLine i c y e) := by
  have hline := setLine_writes (lineBuf_startLine_writes (e.line c) (region i.par e.sl c).w)
  unfold startLine
  dsimp only
  split
  · exact writes_thenRegs hline rfl rfl rfl
  · exact writes_thenRegs hline rfl rfl rfl

theorem lineDec_writes (i : SliceIn) (c : Fin 4) (y : Nat) (st : SliceSt) : st.Writes (lineDec i c y st) :=
  .trans (.ofEngine (startLine_writes i c y st.eng)) (smpLoop_writes i c _ 0 _)

theorem lineLoop_writes (i : SliceIn) (c : Fin 4) (n y : Nat) (st : SliceSt) :
    st.Writes (lineLoop i c n y st) := by
  induction n generalizing y st with
  | zero => exact .refl st
  | succ n ih => exact (lineDec_writes i c y st).trans (ih _ _)

/-- Of the four pairs, those named are cleared and the others keep their entries (R43, R208). -/
theorem openPlanes_writes (which : Fin 4 → Bool) (e : Engine) : e.Writes (openPlanes which e) := by
  have hpair : ∀ c, (e.line c).Writes
      (if which c then (e.line c).opened else { e.line c with isOpen := false }) := fun c =>
    writes_ite (.single (.cleared rfl rfl)) (.single (.flags rfl rfl))
  refine .single (.lines rfl rfl fun c => ?_)
  match c with
  | 0 => exact hpair 0
  | 1 => exact hpair 1
  | 2 => exact hpair 2
  | 3 => exact hpair 3

theorem startPlanes_writes (i : SliceIn) (which : Fin 4 → Bool) (e : Engine) :
    e.Writes (startPlanes i which e) :=
  writes_ite (openPlanes_writes which e) (writes_thenRegs (openPlanes_writes which e) rfl rfl rfl)

theorem planeDec_writes (i : SliceIn) (c : Fin 4) (st : SliceSt) : st.Writes (planeDec i c st) :=
  .trans (.ofEngine (startPlanes_writes i _ st.eng)) (lineLoop_writes i c _ 0 _)

theorem rgbLine_writes (i : SliceIn) (y : Nat) (cs : List (Fin 4)) (st : SliceSt) :
    st.Writes (rgbLine i y cs st) := by
  induction cs generalizing st with
  | nil => exact .refl st
  | cons c cs ih => exact (lineDec_writes i c y st).trans (ih _)

theorem rgbLoop_writes (i : SliceIn) (cs : List (Fin 4)) (n y : Nat) (st : SliceSt) :
    st.Writes (rgbLoop i cs n y st) := by
  induction n generalizing y st with
  | zero => exact .refl st
  | succ n ih => exact (rgbLine_writes i y cs st).trans (ih _ _)

theorem rgbDec_writes (i : SliceIn) (st : SliceSt) : st.Writes (rgbDec i st) :=
  .trans (.ofEngine (startPlanes_writes i _ st.eng)) (rgbLoop_writes i _ _ 0 _)

theorem decodePlanes_writes (i : SliceIn) (st : SliceSt) : st.Writes (decodePlanes i st) := by
  have hy := planeDec_writes i 0 st
  have hc := hy.trans ((planeDec_writes i 1 _).trans (planeDec_writes i 2 _))
  unfold decodePlanes
  dsimp only
  split
  · exact rgbDec_writes i st
  · split <;> split
    · exact hc.trans (planeDec_writes i 3 _)
    · exact hy.trans (planeDec_writes i 3 _)
    · exact hc
    · exact hy

/-! ## The slice (R262 to R273) -/

theorem keyDecision_writes (im : List Host.Cell) (e : Engine) : e.Writes (keyDecision im e).1 :=
  (stFill_writes .ks _ e).trans (rcBit_writes im .ks _)

theorem slOpen_writes (im : List Host.Cell) (k : Nat) (b n : Word) (cont : Bool) (e : Engine) :
    e.Writes (slOpen im k b n cont e) := by
  unfold slOpen
  dsimp only
  split
  · exact regs_writes rfl rfl rfl
  · split
    · exact writes_afterRegs (keyDecision_writes im _) rfl rfl rfl
    · exact regs_writes rfl rfl rfl

theorem headerSym_writes (im : List Host.Cell) (e : Engine) : e.Writes (headerSym im e).1 :=
  rcUsym_writes im _ e

theorem headerIndices_writes (i : SliceIn) (n p : Nat) (e : Engine) :
    e.Writes (headerIndices i n p e).state := by
  induction n generalizing p e with
  | zero => exact .refl
  | succ n ih =>
    have hsym := headerSym_writes i.im e
    unfold headerIndices
    dsimp only
    split
    · exact hsym
    · exact hsym.trans (writes_afterRegs (ih _ _) rfl rfl rfl)

theorem headerGeometry_writes (im : List Host.Cell) (e : Engine) : e.Writes (headerGeometry im e) := by
  have hsym := headerSym_writes im
  unfold headerGeometry
  generalize headerSym im = sym at hsym ⊢
  exact writes_thenRegs ((((hsym e).trans (hsym _)).trans (hsym _)).trans (hsym _)) rfl rfl rfl

theorem headerAdvisory_writes (im : List Host.Cell) (e : Engine) : e.Writes (headerAdvisory im e) := by
  have hsym := headerSym_writes im
  unfold headerAdvisory
  generalize headerSym im = sym at hsym ⊢
  exact writes_thenRegs (((hsym e).trans (hsym _)).trans (hsym _)) rfl rfl rfl

theorem thirdIndex_writes (par : Par) (e : Engine) : e.Writes (thirdIndex par e) :=
  writes_ite (regs_writes rfl rfl rfl) .refl

theorem headerCoded_writes (i : SliceIn) (e : Engine) : e.Writes (headerCoded i e).state := by
  have hgeo := headerGeometry_writes i.im e
  unfold headerCoded
  dsimp only
  generalize headerGeometry i.im e = g at hgeo ⊢
  split
  · refine Res.state_bind .trans (hgeo.trans (writes_afterRegs (headerIndices_writes i _ 0 _) rfl rfl rfl))
      fun _ f => ?_
    exact (thirdIndex_writes i.par f).trans (headerAdvisory_writes i.im _)
  · exact hgeo

theorem headerOf_writes (i : SliceIn) (e : Engine) : e.Writes (headerOf i e).state := by
  have hfill := stFill_writes (.hb 0) Config.stateMid e
  unfold headerOf
  generalize stFill (.hb 0) Config.stateMid e = f at hfill ⊢
  refine Res.state_bind .trans ?_ fun _ g => regs_writes rfl rfl rfl
  split
  · exact hfill.trans (headerCoded_writes i _)
  · exact writes_thenRegs hfill rfl rfl rfl

theorem slHeader_writes (i : SliceIn) (st : SliceSt) : st.Writes (slHeader i st).state := by
  have h := headerOf_writes i st.eng
  unfold slHeader liftEngine
  split <;> rename_i heq <;> rw [heq] at h
  · exact .ofEngine h
  · exact .ofEngine h

theorem markerDecision_writes (im : List Host.Cell) (e : Engine) : e.Writes (markerDecision im e) :=
  (stFill_writes .ts _ e).trans (rcBit_writes im .ts _)

theorem raiseUnderrun_writes {α : Type} (st : SliceSt) :
    st.Writes (raiseUnderrun st : Res SliceSt α).state := .ofEngine (regs_writes rfl rfl rfl)

theorem contentDone_writes (n : Nat) (st : SliceSt) : st.Writes (contentDone n st).state :=
  .ofEngine (regs_writes rfl rfl rfl)

theorem trimTail_writes (i : SliceIn) (e : Engine) : e.Writes (trimTail i e) := regs_writes rfl rfl rfl

theorem openGolombRice_writes (i : SliceIn) (st : SliceSt) : st.Writes (openGolombRice i st).state := by
  have hmark : st.eng.Writes (if hasSentinel i.par then markerDecision i.im st.eng else st.eng) :=
    writes_ite (markerDecision_writes i.im _) .refl
  unfold openGolombRice
  dsimp only
  generalize (if hasSentinel i.par then markerDecision i.im st.eng else st.eng) = e at hmark ⊢
  split
  · exact .trans (.ofEngine hmark) (raiseUnderrun_writes _)
  · exact .ofEngine (writes_thenRegs hmark rfl rfl rfl)

theorem contentRange_writes (i : SliceIn) (st : SliceSt) : st.Writes (contentRange i st).state := by
  have hend := (decodePlanes_writes i st).trans (.ofEngine (markerDecision_writes i.im _))
  unfold contentRange
  dsimp only
  split
  · exact hend.trans (raiseUnderrun_writes _)
  · exact hend.trans (contentDone_writes _ _)

theorem contentRice_writes (i : SliceIn) (st : SliceSt) : st.Writes (contentRice i st).state := by
  refine Res.state_bind .trans (openGolombRice_writes i st) fun off u => ?_
  dsimp only
  split
  · exact (decodePlanes_writes i u).trans (raiseUnderrun_writes _)
  · exact (decodePlanes_writes i u).trans (contentDone_writes _ _)

theorem slContent_writes (i : SliceIn) (st : SliceSt) : st.Writes (slContent i st).state := by
  have htrim : st.Writes { st with eng := trimTail i st.eng } := .ofEngine (trimTail_writes i st.eng)
  unfold slContent
  dsimp only
  split
  · exact .refl st
  · split
    · exact htrim.trans (contentRange_writes i _)
    · exact htrim.trans (contentRice_writes i _)

theorem slFooter_writes (i : SliceIn) (st : SliceSt) : st.Writes (slFooter i st).state := by
  unfold slFooter
  dsimp only
  split
  · exact .refl st
  · split
    · exact .refl st
    · exact .ofEngine (regs_writes rfl rfl rfl)

theorem slRun_writes (i : SliceIn) (k : Nat) (b n : Word) (cont : Bool) (st : SliceSt) :
    st.Writes (slRun i k b n cont st).state := by
  refine Res.state_bind .trans (.trans (.ofEngine (slOpen_writes i.im k b n cont st.eng))
    (slHeader_writes i _)) fun _ u => ?_
  exact Res.state_bind .trans (slContent_writes i u) fun _ v => slFooter_writes i v

/-- Recording the error of an ended task writes no memory (R273). -/
theorem settle_writes {st : SliceSt} {r : SliceRes} (h : st.Writes r.state) : st.Writes (settle r) := by
  cases r with
  | ok a u => exact h
  | raise e u => exact h.trans (.ofEngine (regs_writes rfl rfl rfl))

/-! ## Commands on one engine -/

theorem setEngine_writes {s : State} {k : Nat} {e : Engine} (h : (s.engine k).Writes e) :
    s.Writes (s.setEngine k e) := .single (.engine s k e h)

/-- Registers of the machine change, its memories do not. -/
theorem stateRegs_writes {s t : State} (him : t.inMem = s.inMem) (hen : t.engines = s.engines)
    (hpar : t.par = s.par) (hpl : t.plane = s.plane) : s.Writes t :=
  .single (.memories him hen (hpar ▸ .refl) (hpl ▸ .refl))

/-- Registers of the machine change after some writes. -/
theorem writes_thenStateRegs {s t u : State} (h : s.Writes t) (him : u.inMem = t.inMem)
    (hen : u.engines = t.engines) (hpar : u.par = t.par) (hpl : u.plane = t.plane) : s.Writes u :=
  h.trans (stateRegs_writes him hen hpar hpl)

/-- Registers of the machine change before further writes. -/
theorem writes_afterStateRegs {s t u : State} (h : t.Writes u) (him : t.inMem = s.inMem)
    (hen : t.engines = s.engines) (hpar : t.par = s.par) (hpl : t.plane = s.plane) : s.Writes u :=
  (stateRegs_writes him hen hpar hpl).trans h

theorem setPar_writes {s t : State} (him : t.inMem = s.inMem) (hen : t.engines = s.engines)
    (hpar : s.par.Writes t.par) (hpl : t.plane = s.plane) : s.Writes t :=
  .single (.memories him hen hpar (hpl ▸ .refl))

theorem setPlane_writes {s t : State} (him : t.inMem = s.inMem) (hen : t.engines = s.engines)
    (hpar : t.par = s.par) (hpl : PlaneWrites s.plane t.plane) : s.Writes t :=
  .single (.memories him hen (hpar ▸ .refl) hpl)

theorem setSliceSt_writes {s : State} {k : Nat} {st : SliceSt} (h : (s.sliceSt k).Writes st) :
    s.Writes (s.setSliceSt k st) :=
  (setEngine_writes h.eng).trans (setPlane_writes rfl rfl rfl h.plane)

/-- What a command answers, if it answers a next state, is reached by writes. -/
def Wrote (s : State) (o : Out) : Prop := ∀ t, o = .next t → s.Writes t

theorem wrote_next {s t : State} (h : s.Writes t) : Wrote s (.next t) := by
  rintro _ ⟨⟩
  exact h

theorem wrote_complete {s t : State} (h : s.Writes t) : Wrote s (complete t) :=
  wrote_next (writes_thenStateRegs h rfl rfl rfl rfl)

theorem wrote_completeWith {r : Word} {s t : State} (h : s.Writes t) : Wrote s (completeWith r t) :=
  wrote_next (writes_thenStateRegs h rfl rfl rfl rfl)

theorem wrote_failWith {e : ErrorName} {n : BitVec 16} {s t : State} (h : s.Writes t) :
    Wrote s (failWith e n t) := wrote_next (writes_thenStateRegs h rfl rfl rfl rfl)

theorem wrote_checked {legal : Bool} {n : BitVec 16} {s : State} {f : State → Out} (h : Wrote s (f s)) :
    Wrote s (checked legal n s f) := by
  cases legal
  case false => exact checked_not n s f rfl ▸ wrote_failWith .refl
  case true => exact checked_of n s f rfl ▸ h

theorem wrote_onEngine {k : BitVec 16} {s : State} {f : Engine → Engine} (h : ∀ e : Engine, e.Writes (f e)) :
    Wrote s (onEngine k s f) := wrote_complete (setEngine_writes (h _))

theorem wrote_onEngineWith {k : BitVec 16} {s : State} {f : Engine → Engine × Word}
    (h : ∀ e : Engine, e.Writes (f e).1) : Wrote s (onEngineWith k s f) :=
  wrote_completeWith (setEngine_writes (h _))

theorem wrote_onSlice {k : BitVec 16} {s : State} {f : SliceIn → SliceSt → SliceSt}
    (h : ∀ (i : SliceIn) (st : SliceSt), st.Writes (f i st)) : Wrote s (onSlice k s f) :=
  wrote_complete (setSliceSt_writes (h _ _))

theorem wrote_endSlice {k : BitVec 16} {s : State} {r : SliceRes} (h : (s.sliceSt k.toNat).Writes r.state) :
    Wrote s (endSlice k s r) := by
  have hset : s.Writes (s.setSliceSt k.toNat (settle r)) := setSliceSt_writes (settle_writes h)
  unfold endSlice
  split
  · exact wrote_complete hset
  · exact wrote_failWith hset

/-! ## The parser (R220 to R246)

A step of the parse fills in the record: it writes the memories of its engine and of the record, and leaves the
marks `valid` and `config_present` alone, which only the start and the end of the parse set. When it goes on, the
record obeys a condition on the fields read so far. -/

/-- What is written between the start and the end of a parse. -/
structure ParseSt.Fills (st u : ParseSt) : Prop where
  eng : st.eng.Writes u.eng
  par : st.par.Writes u.par
  valid : u.par.valid = st.par.valid
  config : u.par.configPresent = st.par.configPresent

theorem ParseSt.Fills.refl (st : ParseSt) : st.Fills st := ⟨.refl, .refl, rfl, rfl⟩

theorem ParseSt.Fills.trans {st u v : ParseSt} (h : st.Fills u) (h' : u.Fills v) : st.Fills v :=
  ⟨h.eng.trans h'.eng, h.par.trans h'.par, h'.valid.trans h.valid, h'.config.trans h.config⟩

/-- A result reached from `st` by filling in the record; one that is no error meets `Q`. -/
def Res.Fills {α : Type} (r : Res ParseSt α) (st : ParseSt) (Q : α → Par → Prop) : Prop :=
  match r with
  | .ok a u => st.Fills u ∧ Q a u.par
  | .raise _ u => st.Fills u

/-- A step of the parse fills in the record, and one that does not raise leads from `A` to `B`. -/
def Meets (A B : Par → Prop) (f : ParseStep) : Prop := ∀ st, (f st).Fills st fun _ p => A st.par → B p

section Rules

variable {α β : Type} {A B C : Par → Prop}

theorem Res.Fills.state {r : Res ParseSt α} {st : ParseSt} {Q : α → Par → Prop} (h : r.Fills st Q) :
    st.Fills r.state := by
  cases r with
  | ok a u => exact h.1
  | raise e u => exact h

theorem Res.Fills.after {r : Res ParseSt α} {st u : ParseSt} {Q Q' : α → Par → Prop} (h : r.Fills u Q)
    (hu : st.Fills u) (hQ : ∀ a p, Q a p → Q' a p) : r.Fills st Q' := by
  cases r with
  | ok a v => exact ⟨hu.trans h.1, hQ _ _ h.2⟩
  | raise e v => exact hu.trans h

theorem Res.Fills.bind {r : Res ParseSt α} {f : α → ParseSt → Res ParseSt β} {st : ParseSt}
    {Q : α → Par → Prop} {Q' : β → Par → Prop} (h : r.Fills st Q)
    (hf : ∀ a u, Q a u.par → (f a u).Fills u Q') : (r.bind f).Fills st Q' := by
  cases r with
  | ok a u => exact (hf a u h.2).after h.1 fun _ _ hq => hq
  | raise e u => exact h

theorem Meets.fills {f : ParseStep} (h : Meets A B f) (st : ParseSt) :
    (f st).Fills st fun _ p => A st.par → B p := h st

theorem meets_skip : Meets A A (.ok ()) := fun st => ⟨.refl st, id⟩

theorem meets_bind {f g : ParseStep} (hf : Meets A B f) (hg : Meets B C g) :
    Meets A C fun st => (f st).bind fun _ => g := fun st =>
  (hf st).bind fun _ u hB => (hg u).after (.refl u) fun _ _ hC hA => hC (hB hA)

theorem meets_ite {c : ParseSt → Prop} [DecidablePred c] {f g : ParseStep} (hf : Meets A B f)
    (hg : Meets A B g) : Meets A B fun st => if c st then f st else g st := fun st => by
  dsimp only
  split
  · exact hf st
  · exact hg st

theorem meets_withU (im : List Host.Cell) {f : Nat → ParseStep} (h : ∀ v, v < 2 ^ 32 → Meets A B (f v)) :
    Meets A B (withU im f) := fun st =>
  (h _ (BitVec.isLt _) _).after ⟨rcUsym_writes im _ st.eng, .refl, rfl, rfl⟩ fun _ _ hB => hB

theorem meets_withB (im : List Host.Cell) {f : Bool → ParseStep} (h : ∀ v, Meets A B (f v)) :
    Meets A B (withB im f) := fun st =>
  (h _ _).after ⟨rcBit_writes im _ st.eng, .refl, rfl, rfl⟩ fun _ _ hB => hB

theorem meets_guardThen {bad : Bool} {err : ErrorName} {f : ParseStep} (h : bad = false → Meets A B f) :
    Meets A B (guardThen bad err f) := fun st => by
  cases bad with
  | true => exact .refl st
  | false => exact h rfl st

/-- A function on the record that leaves its memories and marks alone. -/
def KeepsMemories (f : Par → Par) : Prop :=
  ∀ p, (f p).qt = p.qt ∧ (f p).init = p.init ∧ (f p).valid = p.valid ∧ (f p).configPresent = p.configPresent

theorem KeepsMemories.fills {f : Par → Par} (hf : KeepsMemories f) (st : ParseSt) :
    st.Fills { st with par := f st.par } := by
  obtain ⟨hqt, hinit, hvalid, hconfig⟩ := hf st.par
  exact ⟨.refl, .single (.fields hqt hinit), hvalid, hconfig⟩

theorem meets_storePar {f : Par → Par} (h : ∀ p, A p → B (f p))
    (hf : KeepsMemories f := by exact fun _ => ⟨rfl, rfl, rfl, rfl⟩) : Meets A B (storePar f) := fun st =>
  ⟨hf.fills st, h st.par⟩

theorem meets_runSteps_cons {f : ParseStep} {fs : List ParseStep} (hf : Meets A B f)
    (hfs : Meets B C (runSteps fs)) : Meets A C (runSteps (f :: fs)) := meets_bind hf hfs

theorem meets_runSteps_nil : Meets A A (runSteps []) := meets_skip

theorem runSteps_append (fs gs : List ParseStep) (st : ParseSt) :
    runSteps (fs ++ gs) st = (runSteps fs st).bind fun _ => runSteps gs := by
  induction fs generalizing st with
  | nil => rfl
  | cons f fs ih =>
    simp only [List.cons_append, runSteps]
    cases f st with
    | ok a u => exact ih u
    | raise e u => rfl

end Rules

/-! ### What R246 says, row by row -/

/-- A context count is legal (R246). -/
def Par.ctxLegal (p : Par) (q : BitVec 3) : Prop := 1 ≤ p.ctxCount q ∧ p.ctxCount q ≤ 16384

/-- The record obeys R246 as far as the rows up to `n` of R222 decide it; 18 stands for the derivation. -/
structure Par.OkUpTo (n : Nat) (p : Par) : Prop where
  version : 1 ≤ n → p.version = 0 ∨ p.version = 1 ∨ p.version = 3
  depth : 6 ≤ n → 1 ≤ p.bitsPerRawSample.toNat
  columns : 11 ≤ n → 1 ≤ p.numHSlices.toNat
  rows : 12 ≤ n → 1 ≤ p.numVSlices.toNat
  sets : 13 ≤ n → p.qtSetCount.toNat ≤ 8
  contexts : 14 ≤ n → ∀ q : BitVec 3, q.toNat < p.qtSetCount.toNat → p.ctxLegal q
  decodable : 18 ≤ n → p.bitsPerRawSample.toNat ≤ 16

theorem Par.OkUpTo.ok {p : Par} (h : p.OkUpTo 18) : p.ok :=
  ⟨h.sets (by decide), h.columns (by decide), h.rows (by decide), h.version (by decide),
    h.depth (by decide), h.decodable (by decide), h.contexts (by decide)⟩

theorem Par.okUpTo_zero (p : Par) : p.OkUpTo 0 := by
  constructor <;> intro h <;> omega

/-- Two records agree in the fields that R246 speaks of, context counts apart. -/
structure Par.SameShape (p p' : Par) : Prop where
  version : p'.version = p.version
  bits : p'.bitsPerRawSample = p.bitsPerRawSample
  columns : p'.numHSlices = p.numHSlices
  rows : p'.numVSlices = p.numVSlices
  sets : p'.qtSetCount = p.qtSetCount

/-- Two records agree in the fields that R246 speaks of. -/
structure Par.SameLegality (p p' : Par) : Prop extends Par.SameShape p p' where
  counts : p'.contextCount = p.contextCount

theorem Par.SameShape.trans {p p' p'' : Par} (h : p.SameShape p') (h' : p'.SameShape p'') : p.SameShape p'' :=
  ⟨h'.version.trans h.version, h'.bits.trans h.bits, h'.columns.trans h.columns, h'.rows.trans h.rows,
    h'.sets.trans h.sets⟩

theorem Par.SameLegality.refl (p : Par) : p.SameLegality p := ⟨⟨rfl, rfl, rfl, rfl, rfl⟩, rfl⟩

theorem Par.SameLegality.trans {p p' p'' : Par} (h : p.SameLegality p') (h' : p'.SameLegality p'') :
    p.SameLegality p'' := ⟨h.toSameShape.trans h'.toSameShape, h'.counts.trans h.counts⟩

theorem Par.SameLegality.ctxCount {p p' : Par} (h : p.SameLegality p') (q : BitVec 3) :
    p'.ctxCount q = p.ctxCount q := by
  rw [Par.ctxCount, h.counts, ← Par.ctxCount]

theorem Par.OkUpTo.congr {n : Nat} {p p' : Par} (h : p.OkUpTo n) (hs : p.SameLegality p') : p'.OkUpTo n where
  version := by rw [hs.version]; exact h.version
  depth := by rw [hs.bits]; exact h.depth
  columns := by rw [hs.columns]; exact h.columns
  rows := by rw [hs.rows]; exact h.rows
  sets := by rw [hs.sets]; exact h.sets
  contexts := by
    simp only [Par.ctxLegal, hs.ctxCount, hs.sets]
    exact h.contexts
  decodable := by rw [hs.bits]; exact h.decodable

/-- A store into a field that R246 does not speak of. -/
theorem meets_storePar_same {n : Nat} {f : Par → Par}
    (hf : KeepsMemories f := by exact fun _ => ⟨rfl, rfl, rfl, rfl⟩)
    (h : ∀ p : Par, p.SameLegality (f p) := by exact fun _ => ⟨⟨rfl, rfl, rfl, rfl, rfl⟩, rfl⟩) :
    Meets (Par.OkUpTo n) (Par.OkUpTo n) (storePar f) := meets_storePar (fun p hp => hp.congr (h p)) hf

/-! ### Quantization tables -/

theorem qtabRuns_writes (im : List Host.Cell) (scale fuel k v : Nat) (e : Engine) :
    e.Writes (qtabRuns im scale fuel k v e).eng := by
  induction fuel generalizing k v e with
  | zero => exact .refl
  | succ fuel ih =>
    have hsym := rcUsym_writes im (.qb 0) e
    unfold qtabRuns
    split
    · exact .refl
    · dsimp only
      split
      · exact hsym
      · exact hsym.trans (ih _ _ _)

theorem le_qtabRuns_runs (im : List Host.Cell) (scale fuel k v : Nat) (e : Engine) :
    v ≤ (qtabRuns im scale fuel k v e).runs := by
  induction fuel generalizing k v e with
  | zero => exact le_rfl
  | succ fuel ih =>
    unfold qtabRuns
    split
    · exact le_rfl
    · dsimp only
      split
      · exact le_rfl
      · exact (Nat.le_succ v).trans (ih _ _ _)

/-- A covered table has a run, so its factor is not 0 (R231). -/
theorem one_le_qtabRuns_runs (im : List Host.Cell) (scale : Nat) (e : Engine)
    (h : (qtabRuns im scale 128 0 0 e).full = true) : 1 ≤ (qtabRuns im scale 128 0 0 e).runs := by
  unfold qtabRuns at h ⊢
  rw [if_neg (by decide)] at h ⊢
  dsimp only at h ⊢
  split at h
  · cases h
  · rename_i hlen
    rw [if_neg hlen]
    exact le_qtabRuns_runs im scale 127 _ 1 _

theorem setQt_fills (st : ParseSt) {e : Engine} (he : st.eng.Writes e) (q : BitVec 3) (j : Nat)
    (vs : List (BitVec 16)) : st.Fills { eng := e, par := st.par.setQt q j vs } :=
  ⟨he, .single (.qtTable st.par q j vs), rfl, rfl⟩

theorem parQtab_fills (im : List Host.Cell) (q : BitVec 3) (j scale : Nat) (st : ParseSt) :
    (parQtab im q j scale st).Fills st fun factor p => 1 ≤ factor ∧ st.par.SameLegality p := by
  have hruns := (stFill_writes (.qb 0) Config.stateMid st.eng).trans
    (qtabRuns_writes im scale 128 0 0 (stFill (.qb 0) Config.stateMid st.eng))
  unfold parQtab
  dsimp only
  split
  · rename_i hfull
    have := one_le_qtabRuns_runs im scale _ hfull
    exact ⟨setQt_fills st hruns q j _, by omega, ⟨⟨rfl, rfl, rfl, rfl, rfl⟩, rfl⟩⟩
  · exact setQt_fills st hruns q j _

/-- The running scale stays in 1..32768 (R230). -/
theorem qtsetLoop_fills (im : List Host.Cell) (q : BitVec 3) (js : List Nat) (scale : Nat) (st : ParseSt)
    (h1 : 1 ≤ scale) (h2 : scale ≤ 32768) :
    (qtsetLoop im q js scale st).Fills st fun n p => (1 ≤ n ∧ n ≤ 32768) ∧ st.par.SameLegality p := by
  induction js generalizing scale st with
  | nil => exact ⟨.refl st, ⟨h1, h2⟩, .refl st.par⟩
  | cons j js ih =>
    refine (parQtab_fills im q j scale st).bind fun factor u ⟨hf, hsame⟩ => ?_
    split
    · exact .refl u
    · rename_i hmax
      have hmax : scale * factor ≤ 32768 := Nat.le_of_not_lt hmax
      exact (ih _ u (Nat.mul_pos h1 hf) hmax).after (.refl u) fun _ _ ⟨hn, hs⟩ => ⟨hn, hsame.trans hs⟩

theorem ctxCount_setContextCount (p : Par) (q q' : BitVec 3) (n : Nat) (hn : n < 2 ^ 15) :
    Par.ctxCount { p with contextCount := p.contextCount.set q.toFin (BitVec.ofNat 15 n) } q' =
      if q' = q then n else p.ctxCount q' := by
  simp only [Par.ctxCount, Vector.get_eq_getElem]
  split
  · rename_i h
    subst h
    simpa using hn
  · rename_i h
    rw [Vector.getElem_set_ne]
    exact fun hv => h (BitVec.eq_of_toNat_eq hv.symm)

/-- `PAR_QTSET` gives its set a legal count and leaves the others (R230). -/
theorem parQtset_fills (im : List Host.Cell) (q : BitVec 3) (st : ParseSt) :
    (parQtset im q st).Fills st fun _ p =>
      st.par.SameShape p ∧ p.ctxLegal q ∧ ∀ q', q' ≠ q → p.ctxCount q' = st.par.ctxCount q' := by
  refine (qtsetLoop_fills im q [0, 1, 2, 3, 4] 1 st le_rfl (by decide)).bind fun scale u ⟨hscale, hsame⟩ => ?_
  have hcount := ctxCount_setContextCount u.par q
  refine ⟨⟨.refl, .single (.fields rfl rfl), rfl, rfl⟩,
    hsame.toSameShape.trans ⟨rfl, rfl, rfl, rfl, rfl⟩, ?_, fun q' hq => ?_⟩
  · rw [Par.ctxLegal, hcount q _ (by omega), if_pos rfl]
    omega
  · rw [hcount q' _ (by omega), if_neg hq, hsame.ctxCount]

theorem qtSets_fills (i : ParseIn) (qs : List (BitVec 3)) (st : ParseSt) :
    (qtSets i qs st).Fills st fun _ p =>
      st.par.SameShape p ∧ ∀ q, q ∈ qs ∨ st.par.ctxLegal q → p.ctxLegal q := by
  induction qs generalizing st with
  | nil => exact ⟨.refl st, ⟨rfl, rfl, rfl, rfl, rfl⟩, fun q h => h.resolve_left (List.not_mem_nil)⟩
  | cons q qs ih =>
    refine (parQtset_fills i.im q st).bind fun _ u ⟨hshape, hq, hother⟩ => ?_
    refine (ih u).after (.refl u) fun _ p ⟨hshape', hp⟩ => ⟨hshape.trans hshape', fun q' h => hp q' ?_⟩
    by_cases hqq : q' = q
    · exact .inr (hqq ▸ hq)
    · rcases h with h | h
      · exact .inl ((List.mem_cons.1 h).resolve_left hqq)
      · exact .inr (by rwa [Par.ctxLegal, hother q' hqq])

theorem mem_sets {p : Par} {q : BitVec 3} (h : q.toNat < p.qtSetCount.toNat) : q ∈ p.sets := by
  have hq : ∀ q : BitVec 3, ([0, 1, 2, 3, 4, 5, 6, 7] : List (BitVec 3))[q.toNat]? = some q := by decide
  exact List.mem_of_getElem? (i := q.toNat) (by rw [Par.sets, List.getElem?_take_of_lt h, hq])

/-! ### Initial states -/

theorem inistContext_writes (im : List Host.Cell) (prev : List Byte) (k : Nat) (e : Engine) :
    e.Writes (inistContext im prev k e).1 := by
  induction prev generalizing k e with
  | nil => exact .refl
  | cons p ps ih => exact (rcSsym_writes im _ e).trans (ih _ _)

theorem inistContexts_writes (im : List Host.Cell) (n : Nat) (prev : List Byte) (e : Engine) :
    e.Writes (inistContexts im n prev e).1 := by
  induction n generalizing prev e with
  | zero => exact .refl
  | succ n ih => exact (inistContext_writes im prev 0 e).trans (ih _ _)

theorem setInit_fills (st : ParseSt) {e : Engine} (he : st.eng.Writes e) (q : BitVec 3) (vs : List Byte) :
    st.Fills { eng := e, par := st.par.setInit q vs } :=
  ⟨he, .single (.initSet st.par q vs), rfl, rfl⟩

theorem parInist_fills (im : List Host.Cell) (q : BitVec 3) (st : ParseSt) :
    st.Fills (parInist im q st).1 ∧ st.par.SameLegality (parInist im q st).1.par := by
  have hbit := rcBit_writes im (.hb 0) st.eng
  unfold parInist
  dsimp only
  split
  · exact ⟨setInit_fills st (hbit.trans (inistContexts_writes im _ _ _)) q _, ⟨⟨rfl, rfl, rfl, rfl, rfl⟩, rfl⟩⟩
  · exact ⟨setInit_fills st hbit q _, ⟨⟨rfl, rfl, rfl, rfl, rfl⟩, rfl⟩⟩

theorem initialStates_fills (i : ParseIn) (st : ParseSt) (q : BitVec 3) :
    st.Fills (initialStates i st q) ∧ st.par.SameLegality (initialStates i st q).par := by
  unfold initialStates
  split
  · exact parInist_fills i.im q st
  · exact ⟨setInit_fills st .refl q _, ⟨⟨rfl, rfl, rfl, rfl, rfl⟩, rfl⟩⟩

theorem foldl_initialStates_fills (i : ParseIn) (qs : List (BitVec 3)) (st : ParseSt) :
    st.Fills (qs.foldl (initialStates i) st) ∧ st.par.SameLegality (qs.foldl (initialStates i) st).par := by
  induction qs generalizing st with
  | nil => exact ⟨.refl st, .refl st.par⟩
  | cons q qs ih =>
    obtain ⟨hf, hs⟩ := initialStates_fills i st q
    obtain ⟨hf', hs'⟩ := ih (initialStates i st q)
    exact ⟨hf.trans hf', hs.trans hs'⟩

/-! ### The rows of R222 -/

/-- Row 1 leaves a version that is supported where it was found. -/
theorem fieldVersion_meets (i : ParseIn) : Meets (Par.OkUpTo 0) (Par.OkUpTo 5) (fieldVersion i) :=
  meets_withU _ fun v _ => meets_guardThen fun _ => meets_guardThen fun _ => meets_guardThen fun h2 =>
    meets_guardThen fun h3 => meets_storePar fun p _ => by
      have hv : v = 0 ∨ v = 1 ∨ v = 3 := by
        simp only [decide_eq_false_iff_not] at h2 h3
        omega
      refine ⟨fun _ => ?_, ?_, ?_, ?_, ?_, ?_, ?_⟩
      · rcases hv with rfl | rfl | rfl <;> simp
      all_goals exact fun h => absurd h (by decide)

theorem fieldMicroVersion_meets (i : ParseIn) {n : Nat} :
    Meets (Par.OkUpTo n) (Par.OkUpTo n) (fieldMicroVersion i) :=
  meets_ite (meets_withU _ fun _ _ => meets_storePar_same) meets_storePar_same

theorem transitionLoop_meets (i : ParseIn) (ds : List Byte) (k : Nat) {n : Nat} :
    Meets (Par.OkUpTo n) (Par.OkUpTo n) (transitionLoop i ds k) := by
  induction ds generalizing k with
  | nil => exact meets_skip
  | cons d ds ih =>
    intro st
    have hread : st.Fills { st with eng := (rcSsym i.im (.hb 0) st.eng).1 } :=
      ⟨rcSsym_writes i.im _ st.eng, .refl, rfl, rfl⟩
    unfold transitionLoop
    dsimp only
    exact (meets_bind (meets_guardThen fun _ => meets_storePar_same) (ih (k + 1)) _).after hread
      fun _ _ h => h

theorem fieldTransitions_meets (i : ParseIn) {n : Nat} :
    Meets (Par.OkUpTo n) (Par.OkUpTo n) (fieldTransitions i) := transitionLoop_meets i _ 1

theorem fieldCoderType_meets (i : ParseIn) {n : Nat} :
    Meets (Par.OkUpTo n) (Par.OkUpTo n) (fieldCoderType i) :=
  meets_withU _ fun v _ => meets_guardThen fun _ => meets_bind meets_storePar_same
    (meets_ite (c := fun _ => v = 2) (fieldTransitions_meets i) meets_skip)

theorem fieldColorspace_meets (i : ParseIn) {n : Nat} :
    Meets (Par.OkUpTo n) (Par.OkUpTo n) (fieldColorspace i) :=
  meets_withU _ fun _ _ => meets_guardThen fun _ => meets_storePar_same

/-- Row 6: a depth of 0 stands for 8, so the depth is at least 1. -/
theorem fieldBitdepth_meets (i : ParseIn) : Meets (Par.OkUpTo 5) (Par.OkUpTo 10) (fieldBitdepth i) := by
  have hstore : ∀ (p : Par) (b : BitVec 7), 1 ≤ b.toNat → p.OkUpTo 5 →
      Par.OkUpTo 10 { p with bitsPerRawSample := b } := fun p b hb hp => by
    refine ⟨fun _ => hp.version (by decide), fun _ => hb, ?_, ?_, ?_, ?_, ?_⟩
    all_goals exact fun h => absurd h (by decide)
  refine meets_ite (meets_withU _ fun v _ => meets_guardThen fun hv => meets_storePar fun p hp =>
    hstore p _ ?_ hp) (meets_storePar fun p hp => hstore p 8 (by decide) hp)
  have hv : v ≤ 64 := Nat.le_of_not_lt (of_decide_eq_false hv)
  split
  · decide
  · rw [BitVec.toNat_ofNat]
    omega

theorem fieldChromaPlanes_meets (i : ParseIn) {n : Nat} :
    Meets (Par.OkUpTo n) (Par.OkUpTo n) (fieldChromaPlanes i) := meets_withB _ fun _ => meets_storePar_same

theorem fieldChromaHShift_meets (i : ParseIn) {n : Nat} :
    Meets (Par.OkUpTo n) (Par.OkUpTo n) (fieldChromaHShift i) := meets_withU _ fun _ _ => meets_storePar_same

theorem fieldChromaVShift_meets (i : ParseIn) {n : Nat} :
    Meets (Par.OkUpTo n) (Par.OkUpTo n) (fieldChromaVShift i) := meets_withU _ fun _ _ => meets_storePar_same

theorem fieldAlphaPlane_meets (i : ParseIn) {n : Nat} :
    Meets (Par.OkUpTo n) (Par.OkUpTo n) (fieldAlphaPlane i) := meets_withB _ fun _ => meets_storePar_same

/-- A number of slices that the picture has room for is stored without wrapping. -/
theorem one_le_sliceCount {size v : Nat} (hsize : size < 2 ^ 32) (h : decide (size < v + 1) = false) :
    1 ≤ (BitVec.ofNat 32 (v + 1)).toNat := by
  have hv : v + 1 ≤ size := Nat.le_of_not_lt (of_decide_eq_false h)
  rw [BitVec.toNat_ofNat]
  omega

/-- Row 11. -/
theorem fieldHSlices_meets (i : ParseIn) (hi : i.width < 2 ^ 32) :
    Meets (Par.OkUpTo 10) (Par.OkUpTo 11) (fieldHSlices i) := by
  have hstore : ∀ (p : Par) (n : Word), 1 ≤ n.toNat → p.OkUpTo 10 →
      Par.OkUpTo 11 { p with numHSlices := n } := fun p n hn hp => by
    refine ⟨fun _ => hp.version (by decide), fun _ => hp.depth (by decide), fun _ => hn, ?_, ?_, ?_, ?_⟩
    all_goals exact fun h => absurd h (by decide)
  exact meets_ite (meets_withU _ fun v _ => meets_guardThen fun hv => meets_storePar fun p hp =>
    hstore p _ (one_le_sliceCount hi hv) hp) (meets_storePar fun p hp => hstore p 1 (by decide) hp)

/-- Row 12. -/
theorem fieldVSlices_meets (i : ParseIn) (hi : i.height < 2 ^ 32) :
    Meets (Par.OkUpTo 11) (Par.OkUpTo 12) (fieldVSlices i) := by
  have hstore : ∀ (p : Par) (n : Word), 1 ≤ n.toNat → p.OkUpTo 11 →
      Par.OkUpTo 12 { p with numVSlices := n } := fun p n hn hp => by
    refine ⟨fun _ => hp.version (by decide), fun _ => hp.depth (by decide),
      fun _ => hp.columns (by decide), fun _ => hn, ?_, ?_, ?_⟩
    all_goals exact fun h => absurd h (by decide)
  exact meets_ite (meets_withU _ fun v _ => meets_guardThen fun hv => meets_storePar fun p hp =>
    hstore p _ (one_le_sliceCount hi hv) hp) (meets_storePar fun p hp => hstore p 1 (by decide) hp)

/-- Row 13. -/
theorem fieldQtSetCount_meets (i : ParseIn) :
    Meets (Par.OkUpTo 12) (Par.OkUpTo 13) (fieldQtSetCount i) := by
  have hstore : ∀ (p : Par) (n : BitVec 4), n.toNat ≤ 8 → p.OkUpTo 12 →
      Par.OkUpTo 13 { p with qtSetCount := n } := fun p n hn hp => by
    refine ⟨fun _ => hp.version (by decide), fun _ => hp.depth (by decide),
      fun _ => hp.columns (by decide), fun _ => hp.rows (by decide), fun _ => hn, ?_, ?_⟩
    all_goals exact fun h => absurd h (by decide)
  refine meets_ite (meets_withU _ fun v _ => meets_guardThen fun hv => meets_storePar fun p hp =>
    hstore p _ ?_ hp) (meets_storePar fun p hp => hstore p 1 (by decide) hp)
  have hv : v ≤ 8 := Nat.le_of_not_lt (of_decide_eq_false hv)
  rw [BitVec.toNat_ofNat]
  omega

/-- Row 14 gives every set in use a legal count. -/
theorem fieldQtSets_meets (i : ParseIn) : Meets (Par.OkUpTo 13) (Par.OkUpTo 17) (fieldQtSets i) := fun st =>
  (qtSets_fills i st.par.sets st).after (.refl st) fun _ p ⟨hshape, hlegal⟩ hp => by
    refine ⟨fun _ => ?_, fun _ => ?_, fun _ => ?_, fun _ => ?_, fun _ => ?_, fun _ q hq => ?_,
      fun h => absurd h (by decide)⟩
    · rw [hshape.version]; exact hp.version (by decide)
    · rw [hshape.bits]; exact hp.depth (by decide)
    · rw [hshape.columns]; exact hp.columns (by decide)
    · rw [hshape.rows]; exact hp.rows (by decide)
    · rw [hshape.sets]; exact hp.sets (by decide)
    · exact hlegal q (.inl (mem_sets (hshape.sets ▸ hq)))

theorem fieldInitialStates_meets (i : ParseIn) {n : Nat} :
    Meets (Par.OkUpTo n) (Par.OkUpTo n) (fieldInitialStates i) := fun st =>
  have ⟨hfills, hsame⟩ := foldl_initialStates_fills i st.par.sets st
  ⟨hfills, fun hp => hp.congr hsame⟩

theorem fieldEc_meets (i : ParseIn) {n : Nat} : Meets (Par.OkUpTo n) (Par.OkUpTo n) (fieldEc i) :=
  meets_ite (meets_withU _ fun _ _ => meets_guardThen fun _ => meets_storePar_same) meets_storePar_same

theorem fieldIntra_meets (i : ParseIn) {n : Nat} : Meets (Par.OkUpTo n) (Par.OkUpTo n) (fieldIntra i) :=
  meets_ite (meets_withU _ fun _ _ => meets_guardThen fun _ => meets_storePar_same) meets_storePar_same

theorem parDerive_cases (p : Par) :
    (parDerive p = .raise .bitdepthUnsupported p ∧ 16 < p.bitsPerRawSample.toNat) ∨
    (parDerive p = .ok () p.derived ∧ p.bitsPerRawSample.toNat ≤ 16) := by
  unfold parDerive
  split
  · rename_i h
    exact .inl ⟨rfl, h⟩
  · rename_i h
    exact .inr ⟨rfl, Nat.le_of_not_lt h⟩

theorem keepsMemories_derived : KeepsMemories Par.derived := fun _ => ⟨rfl, rfl, rfl, rfl⟩

/-- The derivation turns away the depths above 16 (R240). -/
theorem fieldDerived_meets : Meets (Par.OkUpTo 17) (Par.OkUpTo 18) fieldDerived := fun st => by
  unfold fieldDerived
  rcases parDerive_cases st.par with ⟨hderive, -⟩ | ⟨hderive, hdepth⟩
  · rw [hderive]
    exact .refl st
  · rw [hderive]
    refine ⟨keepsMemories_derived.fills st, fun hp => ?_⟩
    have hp' : st.par.derived.OkUpTo 17 := hp.congr ⟨⟨rfl, rfl, rfl, rfl, rfl⟩, rfl⟩
    exact ⟨fun _ => hp'.version (by decide), fun _ => hp'.depth (by decide),
      fun _ => hp'.columns (by decide), fun _ => hp'.rows (by decide), fun _ => hp'.sets (by decide),
      fun _ => hp'.contexts (by decide), fun _ => hdepth⟩

theorem fieldUnderrun_meets {n : Nat} : Meets (Par.OkUpTo n) (Par.OkUpTo n) fieldUnderrun := fun st =>
  meets_guardThen (fun _ => meets_skip) st

/-! ### The parse as a whole -/

/-- The steps of the parse before the record is marked valid (R221). -/
def fieldSteps (i : ParseIn) : List ParseStep := (parseSteps i).take 18

theorem parseSteps_eq (i : ParseIn) : parseSteps i = fieldSteps i ++ [fieldValid] := rfl

theorem fieldSteps_meets (i : ParseIn) (hw : i.width < 2 ^ 32) (hh : i.height < 2 ^ 32) :
    Meets (Par.OkUpTo 0) (Par.OkUpTo 18) (runSteps (fieldSteps i)) :=
  meets_runSteps_cons (fieldVersion_meets i) <|
  meets_runSteps_cons (fieldMicroVersion_meets i) <|
  meets_runSteps_cons (fieldCoderType_meets i) <|
  meets_runSteps_cons (fieldColorspace_meets i) <|
  meets_runSteps_cons (fieldBitdepth_meets i) <|
  meets_runSteps_cons (fieldChromaPlanes_meets i) <|
  meets_runSteps_cons (fieldChromaHShift_meets i) <|
  meets_runSteps_cons (fieldChromaVShift_meets i) <|
  meets_runSteps_cons (fieldAlphaPlane_meets i) <|
  meets_runSteps_cons (fieldHSlices_meets i hw) <|
  meets_runSteps_cons (fieldVSlices_meets i hh) <|
  meets_runSteps_cons (fieldQtSetCount_meets i) <|
  meets_runSteps_cons (fieldQtSets_meets i) <|
  meets_runSteps_cons (fieldInitialStates_meets i) <|
  meets_runSteps_cons (fieldEc_meets i) <|
  meets_runSteps_cons (fieldIntra_meets i) <|
  meets_runSteps_cons fieldDerived_meets <|
  meets_runSteps_cons fieldUnderrun_meets meets_runSteps_nil

theorem parParse_eq (i : ParseIn) (st : ParseSt) :
    parParse i st = (runSteps (fieldSteps i) (parseStart i st)).bind fun _ => runSteps [fieldValid] := by
  rw [parParse, parseSteps_eq, runSteps_append]

/-- A parse that succeeds has filled in a record that obeys R246, and marked it valid (R221). -/
theorem parParse_ok {i : ParseIn} {st u : ParseSt} (hw : i.width < 2 ^ 32) (hh : i.height < 2 ^ 32)
    (h : parParse i st = .ok () u) :
    ∃ v, (parseStart i st).Fills v ∧ v.par.ok ∧ u = { v with par := { v.par with valid := true } } := by
  rw [parParse_eq, Res.bind_ok] at h
  generalize parseStart i st = start at h ⊢
  have hmeets := (fieldSteps_meets i hw hh).fills start
  obtain ⟨_, v, hfields, hvalid⟩ := h
  rw [hfields] at hmeets
  obtain ⟨hfills, hok⟩ := hmeets
  exact ⟨v, hfills, (hok (Par.okUpTo_zero _)).ok, by injection hvalid with _ hu; exact hu.symm⟩

/-- A parse that fails has filled in part of the record, and marked nothing (R221). -/
theorem parParse_raise {i : ParseIn} {st u : ParseSt} {err : ErrorName} (hw : i.width < 2 ^ 32)
    (hh : i.height < 2 ^ 32) (h : parParse i st = .raise err u) : (parseStart i st).Fills u := by
  rw [parParse_eq, Res.bind_raise] at h
  generalize parseStart i st = start at h ⊢
  have hmeets := (fieldSteps_meets i hw hh).fills start
  rcases h with hfields | ⟨-, v, -, hvalid⟩
  · rwa [hfields] at hmeets
  · cases hvalid

theorem fillIb_writes (n : Nat) (e : Engine) : e.Writes (fillIb n e) := by
  induction n with
  | zero => exact .refl
  | succ n ih => exact ih.trans (stFill_writes _ _ _)

theorem parseStart_writes (i : ParseIn) (st : ParseSt) :
    st.eng.Writes (parseStart i st).eng ∧ st.par.Writes (parseStart i st).par :=
  ⟨(stFill_writes (.hb 0) _ st.eng).trans (fillIb_writes 32 _), .single (.fields rfl rfl)⟩

/-- What a parse writes, whether or not it succeeds. -/
theorem parParse_writes (i : ParseIn) (st : ParseSt) (hw : i.width < 2 ^ 32) (hh : i.height < 2 ^ 32) :
    st.eng.Writes (parParse i st).state.eng ∧ st.par.Writes (parParse i st).state.par := by
  obtain ⟨heng, hpar⟩ := parseStart_writes i st
  cases h : parParse i st with
  | ok a u =>
    obtain ⟨v, hfills, -, rfl⟩ := parParse_ok hw hh h
    exact ⟨heng.trans hfills.eng, (hpar.trans hfills.par).tail (.fields rfl rfl)⟩
  | raise e u =>
    have hfills := parParse_raise hw hh h
    exact ⟨heng.trans hfills.eng, hpar.trans hfills.par⟩

/-! ## Commands of the parser -/

theorem setParseSt_writes {s : State} {k : Nat} {st : ParseSt} (heng : (s.engine k).Writes st.eng)
    (hpar : s.par.Writes st.par) : s.Writes (s.setParseSt k st) :=
  (setEngine_writes heng).trans (setPar_writes rfl rfl hpar rfl)

/-- The dimensions that the parser reads come from 32-bit registers. -/
theorem State.parParse_writes (s : State) (oob : Bool) (k : Nat) :
    (s.engine k).Writes (parParse (s.parseIn oob) (s.parseSt k)).state.eng ∧
      s.par.Writes (parParse (s.parseIn oob) (s.parseSt k)).state.par :=
  Machine.parParse_writes (s.parseIn oob) (s.parseSt k) s.width.isLt s.height.isLt

theorem wrote_endParse {k : BitVec 16} {s : State} {r : Res ParseSt Unit}
    (heng : (s.engine k.toNat).Writes r.state.eng) (hpar : s.par.Writes r.state.par) :
    Wrote s (endParse k s r) := by
  cases r with
  | ok a u => exact wrote_complete (setParseSt_writes heng hpar)
  | raise e u => exact wrote_failWith (setParseSt_writes heng hpar)

theorem wrote_endParseNat {k : BitVec 16} {s : State} {r : Res ParseSt Nat}
    (h : (s.parseSt k.toNat).Fills r.state) : Wrote s (endParseNat k s r) := by
  cases r with
  | ok a u => exact wrote_completeWith (setParseSt_writes h.eng h.par)
  | raise e u => exact wrote_failWith (setParseSt_writes h.eng h.par)

theorem wrote_execParDerive (s : State) : Wrote s (execParDerive s) := by
  unfold execParDerive
  rcases parDerive_cases s.par with ⟨hderive, -⟩ | ⟨hderive, -⟩ <;> rw [hderive]
  · exact wrote_failWith .refl
  · exact wrote_complete (setPar_writes rfl rfl (.single (.fields rfl rfl)) rfl)

/-! ## The frame (R291 to R306) -/

theorem dropAll_writes (m : List (Nat × Word)) : PlaneWrites m [] := by
  have h := PlaneWrite.drop m fun _ => false
  rw [List.filter_false] at h
  exact .single h

theorem outCreate_writes (s : State) : s.Writes (outCreate s) := setPlane_writes rfl rfl rfl (dropAll_writes _)

theorem frKeybit_writes (b n : Word) (s : State) : s.Writes (frKeybit b n s) :=
  writes_thenStateRegs (setEngine_writes ((rcArm_writes s.inMem b n _ _).trans (keyDecision_writes s.inMem _)))
    rfl rfl rfl rfl

theorem frParse_state (oob : Bool) (s : State) :
    (frParse oob s).state = s.setParseSt 0 (parParse (s.parseIn oob) (s.parseSt 0)).state := by
  unfold frParse
  split <;> rename_i heq <;> rw [heq] <;> rfl

theorem frParse_writes (oob : Bool) (s : State) : s.Writes (frParse oob s).state := by
  obtain ⟨heng, hpar⟩ := s.parParse_writes oob 0
  rw [frParse_state]
  exact setParseSt_writes heng hpar

theorem newStream_writes (b n : Word) (s : State) : s.Writes (newStream b n s) :=
  writes_thenStateRegs (.single (.stream s _ (rcArm_writes s.inMem b n _ _))) rfl rfl rfl rfl

theorem procOob_writes (b n : Word) (s : State) : s.Writes (procOob b n s).state :=
  Res.state_bind .trans ((newStream_writes b n s).trans (frParse_writes true _)) fun _ u => outCreate_writes u

theorem frLocate_writes (b n : Word) (s : State) : s.Writes (frLocate b n s).state := by
  unfold frLocate
  dsimp only
  split
  · split
    · exact stateRegs_writes rfl rfl rfl rfl
    · exact .refl
  · exact stateRegs_writes rfl rfl rfl rfl

theorem engine_of_not_hasEngine {s : State} {k : Nat} (h : ¬ s.hasEngine k = true) :
    s.engine k = Engine.reset := by
  rw [State.hasEngine, Option.isSome_iff_ne_none, not_not] at h
  rw [State.engine, h]
  rfl

theorem createEngines_writes (n : Nat) (s : State) : s.Writes (createEngines n s) := by
  induction n with
  | zero => exact .refl
  | succ n ih =>
    unfold createEngines
    dsimp only
    split
    · exact ih
    · rename_i h
      exact ih.trans (setEngine_writes (engine_of_not_hasEngine h ▸ .refl))

theorem gopInit_writes (par : Par) (e : Engine) : e.Writes (gopInit par e) :=
  writes_ite (rcGopinit_writes par e) (grGopinit_writes par e)

theorem gopInitLoop_writes (n : Nat) (s : State) : s.Writes (gopInitLoop n s) := by
  induction n with
  | zero => exact .refl
  | succ n ih => exact ih.trans (setEngine_writes (gopInit_writes _ _))

theorem frGopinit_writes (s : State) : s.Writes (frGopinit s) :=
  writes_thenStateRegs (gopInitLoop_writes _ s) rfl rfl rfl rfl

theorem submitTasks_writes (s : State) : s.Writes (submitTasks s) := stateRegs_writes rfl rfl rfl rfl

theorem mergeSample_writes (s : State) (c : Nat × Word) : s.Writes (mergeSample s c) :=
  setPlane_writes rfl rfl rfl (writes_ite .refl (.single (.sample _ _ _)))

theorem runTask_writes (t : Task) (s : State) : s.Writes (runTask t s) :=
  .trans (setEngine_writes (settle_writes (slRun_writes s.sliceIn t.slice t.base t.len t.cont
    ⟨s.engine t.slice, []⟩)).eng) (writes_foldl mergeSample_writes _ _)

theorem runTasks_writes (ts : List Task) (s : State) : s.Writes (runTasks ts s) :=
  writes_foldl (fun u t => runTask_writes t u) ts s

theorem poolRun_writes (i : Nat) (s : State) : s.Writes (poolRun i s) := by
  unfold poolRun
  split
  · exact .refl
  · exact writes_afterStateRegs (runTask_writes _ _) rfl rfl rfl rfl

theorem awaitTasks_writes (s : State) : s.Writes (awaitTasks s) :=
  writes_thenStateRegs (writes_afterStateRegs (t := { s with tasks := [] }) (runTasks_writes s.tasks _)
    rfl rfl rfl rfl) rfl rfl rfl rfl

theorem frDispatch_writes (s : State) : s.Writes (frDispatch s) :=
  writes_ite ((submitTasks_writes s).trans (awaitTasks_writes _)) (submitTasks_writes s)

theorem frJoin_writes (s : State) : s.Writes (frJoin s).1 := by
  unfold frJoin
  dsimp only
  split
  · exact awaitTasks_writes s
  · exact writes_thenStateRegs (awaitTasks_writes s) rfl rfl rfl rfl

theorem frameKey_writes (b n : Word) (s : State) : s.Writes (frameKey b n s).state := by
  have hkey := frKeybit_writes b n s
  unfold frameKey
  dsimp only
  split
  · exact Res.state_bind .trans (hkey.trans (frParse_writes false _)) fun _ u => outCreate_writes u
  · exact hkey

theorem frameChecks_writes (s : State) : s.Writes (frameChecks s).state := by
  unfold frameChecks
  split
  · exact .refl
  · split
    · exact .refl
    · split
      · exact .refl
      · exact stateRegs_writes rfl rfl rfl rfl

theorem frameSetup_writes (b n : Word) (s : State) : s.Writes (frameSetup b n s).state :=
  Res.state_bind .trans (frameKey_writes b n s) fun _ u =>
    Res.state_bind .trans (frameChecks_writes u) fun _ v => frLocate_writes b n v

theorem frameSlices_writes (s : State) : s.Writes (frameSlices s).1 := by
  have hengines := createEngines_writes s.loc.length s
  unfold frameSlices
  dsimp only
  exact ((writes_ite (hengines.trans (frGopinit_writes _)) hengines).trans (frDispatch_writes _)).trans
    (frJoin_writes _)

theorem resetBlock_writes (s : State) : s.Writes s.resetBlock := .single (.reset s)

theorem wrote_dimensionsChecked {s : State} {f : State → Out} (h : Wrote s (f s)) :
    Wrote s (dimensionsChecked s f) := by
  unfold dimensionsChecked
  split
  · exact wrote_checked h
  · exact wrote_failWith .refl

theorem wrote_endFrame {s : State} {r : Res State Unit} (h : s.Writes r.state) : Wrote s (endFrame r) := by
  cases r with
  | ok a u => exact wrote_complete h
  | raise e u => exact wrote_failWith h

theorem wrote_execProcFrame (s : State) : Wrote s (execProcFrame s) := by
  refine wrote_dimensionsChecked ?_
  have hsetup := frameSetup_writes s.arg0 s.arg1 s
  split <;> rename_i heq <;> rw [heq] at hsetup
  · exact wrote_failWith hsetup
  · rename_i u
    have hslices := hsetup.trans (frameSlices_writes u)
    generalize frameSlices u = r at hslices ⊢
    dsimp only
    split
    · exact wrote_complete hslices
    · exact wrote_next (writes_thenStateRegs hslices rfl rfl rfl rfl)

theorem wrote_execFrLocate (s : State) : Wrote s (execFrLocate s) := by
  refine wrote_checked ?_
  have hlocate := frLocate_writes s.arg0 s.arg1 s
  split <;> rename_i heq <;> rw [heq] at hlocate
  · exact wrote_completeWith hlocate
  · exact wrote_failWith hlocate

/-! ## Every command and every step -/

theorem wrote_execSmpDec (k : BitVec 16) (s : State) : Wrote s (execSmpDec k s) := by
  unfold execSmpDec
  split
  · exact wrote_failWith .refl
  · exact wrote_completeWith (setSliceSt_writes (smpDec_writes _ _ _ _))

theorem wrote_execParInist (k : BitVec 16) (q : BitVec 3) (s : State) : Wrote s (execParInist k q s) := by
  have h := (parInist_fills s.inMem q (s.parseSt k.toNat)).1
  exact wrote_checked (wrote_completeWith (setParseSt_writes h.eng h.par))

theorem wrote_execParParse (k : BitVec 16) (oob : Bool) (s : State) : Wrote s (execParParse k oob s) := by
  obtain ⟨heng, hpar⟩ := s.parParse_writes oob k.toNat
  exact wrote_checked (wrote_endParse heng hpar)

/-- The memories change by writes only, whatever the command. -/
theorem wrote_exec (i : Instr) (s : State) : Wrote s (exec i s) := by
  cases i with
  | reset => exact wrote_next (resetBlock_writes s)
  | procOob =>
    dsimp only [exec, execProcOob]
    exact wrote_dimensionsChecked (wrote_endFrame (procOob_writes _ _ s))
  | procFrame => exact wrote_execProcFrame s
  | getErr => exact wrote_completeWith .refl
  | outCreate =>
    dsimp only [exec, execOutCreate]
    exact wrote_checked (wrote_completeWith (outCreate_writes s))
  | rcUsed | rcUndr | bsUsed | bsUndr | slCrc =>
    dsimp only [exec, execRcUsed, execRcUndr, execBsUsed, execBsUndr, execSlCrc]
    exact wrote_checked (wrote_completeWith .refl)
  | rcArm =>
    dsimp only [exec, execRcArm]
    exact wrote_checked (wrote_onEngine fun e => rcArm_writes _ _ _ _ e)
  | rcRearm =>
    dsimp only [exec, execRcRearm]
    exact wrote_checked (wrote_onEngine fun e => rcRearm_writes _ _ e)
  | rcForce | bsArm | grPlaneinit | grLineinit =>
    dsimp only [exec, execRcForce, execBsArm, execGrPlaneinit, execGrLineinit]
    exact wrote_checked (wrote_onEngine fun _ => regs_writes rfl rfl rfl)
  | rcGopinit =>
    dsimp only [exec, execRcGopinit]
    exact wrote_checked (wrote_onEngine fun e => rcGopinit_writes _ e)
  | grGopinit =>
    dsimp only [exec, execGrGopinit]
    exact wrote_checked (wrote_onEngine fun e => grGopinit_writes _ e)
  | slOpen =>
    dsimp only [exec, execSlOpen]
    exact wrote_checked (wrote_onEngine fun e => slOpen_writes _ _ _ _ _ e)
  | rcDelta =>
    dsimp only [exec, execRcDelta]
    exact wrote_checked (wrote_onEngineWith fun e => rcSsym_writes _ _ e)
  | bsBit =>
    dsimp only [exec, execBsBit]
    exact wrote_checked (wrote_onEngineWith fun e => onlyReads_writes (bsBit_onlyReads _ e))
  | bsBits =>
    dsimp only [exec, execBsBits]
    exact wrote_checked (wrote_onEngineWith fun e => onlyReads_writes (bsBits_onlyReads _ _ e))
  | grDelta =>
    dsimp only [exec, execGrDelta]
    exact wrote_checked (wrote_onEngineWith fun e => grDelta_writes _ _ _ e)
  | grRice =>
    dsimp only [exec, execGrRice]
    exact wrote_checked (wrote_onEngineWith fun e => grRice_writes _ _ _ _ _ e)
  | rcBit =>
    dsimp only [exec, execRcBit]
    split
    · exact wrote_failWith .refl
    · exact wrote_onEngineWith fun e => rcBit_writes _ _ e
  | rcUsym =>
    dsimp only [exec, execRcUsym]
    split
    · exact wrote_failWith .refl
    · exact wrote_onEngineWith fun e => rcUsym_writes _ _ e
  | rcSsym =>
    dsimp only [exec, execRcSsym]
    split
    · exact wrote_failWith .refl
    · exact wrote_onEngineWith fun e => rcSsym_writes _ _ e
  | stFill =>
    dsimp only [exec, execStFill]
    split
    · exact wrote_failWith .refl
    · exact wrote_onEngine fun e => stFill_writes _ _ e
  | ctxIdx | predMed =>
    dsimp only [exec, execCtxIdx, execPredMed]
    split
    · exact wrote_failWith .refl
    · exact wrote_completeWith .refl
  | smpDec k => exact wrote_execSmpDec k s
  | lineDec =>
    dsimp only [exec, execLineDec]
    split
    · exact wrote_failWith .refl
    · exact wrote_onSlice fun i st => lineDec_writes i _ _ st
  | planeDec =>
    dsimp only [exec, execPlaneDec]
    split
    · exact wrote_failWith .refl
    · exact wrote_onSlice fun i st => planeDec_writes i _ st
  | rgbDec =>
    dsimp only [exec, execRgbDec]
    exact wrote_checked (wrote_onSlice rgbDec_writes)
  | pxWrite =>
    dsimp only [exec, execPxWrite]
    exact wrote_checked (wrote_onSlice fun i st => pxWrite_writes i _ _ _ st)
  | parParse k oob => exact wrote_execParParse k oob s
  | parQtset =>
    dsimp only [exec, execParQtset]
    exact wrote_checked (wrote_endParseNat (parQtset_fills _ _ _).state)
  | parQtab =>
    dsimp only [exec, execParQtab]
    exact wrote_checked (wrote_endParseNat (parQtab_fills _ _ _ _ _).state)
  | parInist k q => exact wrote_execParInist k q s
  | parDerive => exact wrote_execParDerive s
  | slHeader =>
    dsimp only [exec, execSlHeader]
    exact wrote_checked (wrote_endSlice (slHeader_writes _ _))
  | slContent =>
    dsimp only [exec, execSlContent]
    exact wrote_checked (wrote_endSlice (slContent_writes _ _))
  | slFooter =>
    dsimp only [exec, execSlFooter]
    exact wrote_checked (wrote_endSlice (slFooter_writes _ _))
  | slRun =>
    dsimp only [exec, execSlRun]
    exact wrote_checked (wrote_endSlice (slRun_writes _ _ _ _ _ _))
  | frKeybit =>
    dsimp only [exec, execFrKeybit]
    exact wrote_checked (wrote_completeWith (frKeybit_writes _ _ s))
  | frLocate => exact wrote_execFrLocate s
  | frGopinit => exact wrote_complete (frGopinit_writes s)
  | frDispatch => exact wrote_complete (frDispatch_writes s)
  | frJoin => exact wrote_completeWith (frJoin_writes s)
  | frFinal => exact wrote_complete .refl

theorem wrote_runPending (s : State) : Wrote s (runPending s) := by
  unfold runPending runCommand
  split
  · split
    · exact wrote_exec _ s
    · exact wrote_failWith .refl
  · exact wrote_next .refl

/-- A direct load writes one field of the record (R99). -/
theorem parStore_writes (p : Par) (sel v : Word) : p.Writes (parStore p sel v) := by
  unfold parStore
  split
  case h_15 => exact writes_ite (.single (.qtEntry p _ _)) .refl
  case h_17 => exact writes_ite (.single (.initByte p _ _)) .refl
  all_goals exact .single (.fields rfl rfl)

theorem hostWrite_writes (offset : BitVec 8) (v : Word) (s : State) : s.Writes (hostWrite offset v s) := by
  have hload : s.Writes (s.writeParData v) :=
    writes_ite (setPar_writes rfl rfl (parStore_writes s.par s.parSel v) rfl) .refl
  unfold hostWrite
  split
  · exact .refl
  · split
    case h_7 => exact hload
    all_goals exact stateRegs_writes rfl rfl rfl rfl

/-- A hardware reset drops samples, then resets the block (R360). -/
theorem hwReset_writes (run : State → Out) (s : State) : s.Writes (hwReset run s) := by
  have hdrop : ∀ p, s.Writes { s with plane := s.plane.filter p } := fun p =>
    setPlane_writes rfl rfl rfl (.single (.drop s.plane p))
  exact writes_thenStateRegs ((hdrop _).trans (resetBlock_writes _)) rfl rfl rfl rfl

theorem wrote_handle (ev : HostEvent) (s : State) : Wrote s (handle ev s) := by
  cases ev with
  | write offset v => exact wrote_next (hostWrite_writes offset v s)
  | read offset => exact wrote_next (stateRegs_writes rfl rfl rfl rfl)
  | poke a v =>
    dsimp only [handle, hostPoke]
    split
    · rintro t ⟨⟩
    · exact wrote_next (.single (.input s _ v))
  | wait => exact wrote_runPending s
  | poolRun i => exact wrote_next (poolRun_writes i s)
  | hwReset => exact wrote_next (hwReset_writes runCommand s)

/-- The memories change by writes only, whatever the step. -/
theorem step_writes {s t : State} (h : step s = .next t) : s.Writes t := by
  unfold step advance at h
  split at h
  · exact wrote_runPending s t h
  · exact writes_afterStateRegs (wrote_handle _ _ t h) rfl rfl rfl rfl

end Sys2Proof.Machine

/-! # The invariants: each is kept by a single write (R31, R40, R42, R60, R75, R166) -/

namespace Sys2Proof.Machine

-- One theorem at a time: each that waits for the kernel holds a thread, and here they are many and short.
set_option Elab.async false

/-- What single writes keep, a row of writes keeps. -/
theorem keeps_writes {σ : Type} {r : σ → σ → Prop} {P : σ → Prop} (h : ∀ s t, r s t → P s → P t) {s t : σ}
    (hst : Relation.ReflTransGen r s t) (hs : P s) : P t := by
  induction hst with
  | refl => exact hs
  | tail _ hlast ih => exact h _ _ hlast ih

/-! ## Engines -/

/-- Every engine has the property. -/
def State.EveryEngine (P : Engine → Prop) (s : State) : Prop := ∀ c ∈ s.engines, P c.2

theorem everyEngine_engine {P : Engine → Prop} {s : State} (hreset : P Engine.reset) (h : s.EveryEngine P)
    (k : Nat) : P (s.engine k) := by
  unfold State.engine
  cases hk : Store.lookup s.engines k with
  | none => exact hreset
  | some e => exact h _ (Store.lookup_mem _ _ _ hk)

/-- A property of engines that holds at reset and that single writes keep is kept in every engine. -/
theorem everyEngine_write {P : Engine → Prop} (hreset : P Engine.reset)
    (hkeeps : ∀ e f : Engine, e.Write f → P e → P f) {s t : State} (hst : s.Write t) (hs : s.EveryEngine P) :
    t.EveryEngine P := by
  cases hst with
  | memories him hen hpar hpl =>
    unfold State.EveryEngine
    rwa [hen]
  | input => exact hs
  | engine k e h =>
    intro c hc
    rcases Store.mem_insert _ _ _ c hc with rfl | hc
    · exact keeps_writes hkeeps h (everyEngine_engine hreset hs k)
    · exact hs c hc
  | stream e h =>
    intro c hc
    rw [List.mem_singleton.1 hc]
    exact keeps_writes hkeeps h hreset
  | reset =>
    intro c hc
    rw [List.mem_singleton.1 hc]
    exact hreset

/-- Engine 0 never ceases to exist (R48). -/
theorem hasEngine_zero_write {s t : State} (hst : s.Write t) (hs : s.hasEngine 0 = true) :
    t.hasEngine 0 = true := by
  cases hst with
  | memories him hen hpar hpl => rwa [hasEngine_congr hen]
  | input => exact hs
  | engine k e h =>
    by_cases hk : 0 = k
    · subst hk
      exact hasEngine_setEngine_self s 0 e
    · rwa [hasEngine_setEngine_ne s e hk]
  | stream => rfl
  | reset => rfl

/-! ## The status bits (R31, R91) -/

/-- At most one of `BUSY`, `DONE`, `FAIL` is set. -/
def State.OneHot (s : State) : Prop :=
  (s.busy && s.done) = false ∧ (s.busy && s.fail) = false ∧ (s.done && s.fail) = false

theorem portInv_iff (s : State) : portInv s ↔ s.OneHot ∧ s.hasEngine 0 = true := by
  simp only [portInv, State.OneHot, and_assoc]

theorem State.OneHot.congr {s t : State} (h : s.OneHot) (hb : t.busy = s.busy) (hd : t.done = s.done)
    (hf : t.fail = s.fail) : t.OneHot := by
  unfold State.OneHot
  rwa [hb, hd, hf]

/-- A command that ended has set one of `DONE` and `FAIL`. -/
theorem Ended.oneHot {o : Out} (h : Ended o) {t : State} (ho : o = .next t) : t.OneHot := by
  obtain ⟨u, rfl, hbusy, hone⟩ := h
  cases ho
  simp [State.OneHot, hbusy, hone]

theorem oneHot_exec {i : Instr} {s t : State} (h : exec i s = .next t) : t.OneHot := by
  by_cases hi : i = .reset
  · subst hi
    obtain ⟨u, hu, hbusy, hdone, hfail⟩ := exec_reset_ends s
    cases hu.symm.trans h
    simp [State.OneHot, hbusy, hdone, hfail]
  · exact (ended_exec s hi).oneHot h

theorem oneHot_runPending {s t : State} (hs : s.OneHot) (h : runPending s = .next t) : t.OneHot := by
  unfold runPending runCommand at h
  split at h
  · split at h
    · exact oneHot_exec h
    · exact (ended_failWith _ _ _).oneHot h
  · cases h
    exact hs

/-- A register write issues a command, or leaves the three bits alone (R91, R96). -/
theorem oneHot_hostWrite (offset : BitVec 8) (v : Word) {s : State} (hs : s.OneHot) :
    (hostWrite offset v s).OneHot := by
  unfold hostWrite
  split
  · exact hs
  · split
    case h_1 => exact ⟨rfl, rfl, rfl⟩
    case h_7 =>
      unfold State.writeParData
      split
      · exact hs.congr rfl rfl rfl
      · exact hs
    all_goals exact hs.congr rfl rfl rfl

theorem oneHot_poolRun (i : Nat) {s : State} (hs : s.OneHot) : (poolRun i s).OneHot := by
  unfold poolRun
  split
  · exact hs
  · rw [runTask_frame]
    exact hs.congr rfl rfl rfl

theorem oneHot_handle {ev : HostEvent} {s t : State} (hs : s.OneHot) (h : handle ev s = .next t) :
    t.OneHot := by
  cases ev with
  | write offset v =>
    cases h
    exact oneHot_hostWrite offset v hs
  | read offset =>
    cases h
    exact hs.congr rfl rfl rfl
  | poke a v =>
    simp only [handle, hostPoke] at h
    split at h
    · cases h
    · cases h
      exact hs.congr rfl rfl rfl
  | wait => exact oneHot_runPending hs h
  | poolRun i =>
    cases h
    exact oneHot_poolRun i hs
  | hwReset =>
    cases h
    exact ⟨rfl, rfl, rfl⟩

theorem oneHot_step {s t : State} (hs : s.OneHot) (h : step s = .next t) : t.OneHot := by
  unfold step advance at h
  split at h
  · exact oneHot_runPending hs h
  · rename_i ev rest _
    exact oneHot_handle (s := { s with agenda := rest }) (hs.congr rfl rfl rfl) h

/-- Settles O13: the status bits by the way each event and each command ends, engine 0 by the writes of a step. -/
theorem statusStaysOneHot : Obligations.StatusStaysOneHot := by
  intro s t hs h
  rw [portInv_iff] at hs ⊢
  exact ⟨oneHot_step hs.1 h, keeps_writes (P := fun u => u.hasEngine 0 = true)
    (fun _ _ => hasEngine_zero_write) (step_writes h) hs.2⟩

/-! ## Canonical memories (R40, R42, R60, R75) -/

/-- A pair of line buffers has its canonical form. -/
def LineBuf.canonical (b : LineBuf) : Prop :=
  Store.wf lineDefault b.buf0 = true ∧ Store.wf lineDefault b.buf1 = true

theorem lineBuf_canonical_write (b b' : LineBuf) (h : b.Write b') (hb : b.canonical) : b'.canonical := by
  obtain ⟨h0, h1⟩ := hb
  cases h with
  | flags e0 e1 =>
    unfold LineBuf.canonical
    rw [e0, e1]
    exact ⟨h0, h1⟩
  | cur i v =>
    unfold LineBuf.setCur
    split
    · exact ⟨h0, Store.wf_put _ _ _ _ h1⟩
    · exact ⟨Store.wf_put _ _ _ _ h0, h1⟩
  | top i v =>
    unfold LineBuf.setTop
    split
    · exact ⟨Store.wf_put _ _ _ _ h0, h1⟩
    · exact ⟨h0, Store.wf_put _ _ _ _ h1⟩
  | cleared e0 e1 =>
    unfold LineBuf.canonical
    rw [e0, e1]
    exact ⟨Store.wf_nil _, Store.wf_nil _⟩

theorem engine_reset_canonical : Engine.reset.canonical := by
  refine ⟨rfl, rfl, fun c => ?_⟩
  rw [show Engine.reset.line c = LineBuf.reset by
    simp [Engine.line, Engine.reset, Vector.get_eq_getElem]]
  exact ⟨rfl, rfl⟩

theorem engine_canonical_write (e f : Engine) (h : e.Write f) (he : e.canonical) : f.canonical := by
  obtain ⟨hsm, hgs, hlines⟩ := he
  cases h with
  | lines esm egs hl =>
    refine ⟨esm ▸ hsm, egs ▸ hgs, fun c => ?_⟩
    exact keeps_writes lineBuf_canonical_write (hl c) (hlines c)
  | state r v => exact ⟨Store.wf_put _ _ _ _ hsm, hgs, hlines⟩
  | dropStates p => exact ⟨Store.wf_filter _ p _ hsm, hgs, hlines⟩
  | tuple p q ctx code => exact ⟨hsm, Store.wf_put _ _ _ _ hgs, hlines⟩
  | dropTuples p => exact ⟨hsm, Store.wf_filter _ p _ hgs, hlines⟩

/-- The tables and the templates of a record have their canonical form. -/
def Par.canonical (p : Par) : Prop := Store.wf qtDefault p.qt = true ∧ Store.wf initDefault p.init = true

theorem par_canonical_write (p p' : Par) (h : p.Write p') (hp : p.canonical) : p'.canonical := by
  obtain ⟨hqt, hinit⟩ := hp
  cases h with
  | fields eqt einit => exact ⟨eqt ▸ hqt, einit ▸ hinit⟩
  | qtEntry k v => exact ⟨Store.wf_put _ _ k v hqt, hinit⟩
  | qtTable q j vs => exact ⟨Store.wf_putBlock _ _ _ vs hqt, hinit⟩
  | initByte k v => exact ⟨hqt, Store.wf_put _ _ k v hinit⟩
  | initSet q vs => exact ⟨hqt, Store.wf_putBlock _ _ _ vs hinit⟩

theorem sorted_planeWrite (m m' : List (Nat × Word)) (h : PlaneWrite m m') (hm : Store.sorted m = true) :
    Store.sorted m' = true := by
  cases h with
  | sample k v => exact Store.sorted_insert m k v hm
  | drop p => exact Store.sorted_filter p m hm

theorem memoryInv_iff (s : State) :
    memoryInv s ↔ Memory.wf s.inMem = true ∧ Store.sorted s.plane = true ∧ Store.sorted s.engines = true ∧
      s.par.canonical ∧ s.EveryEngine Engine.canonical := by
  simp only [memoryInv, Par.canonical, State.EveryEngine, and_assoc]

theorem memoryInv_write (s t : State) (h : s.Write t) (hs : memoryInv s) : memoryInv t := by
  rw [memoryInv_iff] at hs ⊢
  obtain ⟨hin, hplane, hsorted, hpar, hengines⟩ := hs
  have hengines' := everyEngine_write engine_reset_canonical engine_canonical_write h hengines
  cases h with
  | memories him hen hp hpl =>
    exact ⟨him ▸ hin, keeps_writes sorted_planeWrite hpl hplane, hen ▸ hsorted,
      keeps_writes par_canonical_write hp hpar, hengines'⟩
  | input a v => exact ⟨memory_wf_write a v hin, hplane, hsorted, hpar, hengines'⟩
  | engine k e _ => exact ⟨hin, hplane, Store.sorted_insert _ k e hsorted, hpar, hengines'⟩
  | stream e _ => exact ⟨hin, hplane, rfl, hpar, hengines'⟩
  | reset => exact ⟨hin, hplane, rfl, ⟨rfl, rfl⟩, hengines'⟩

/-- Settles O14: a step is a row of writes, and each write keeps the canonical form. -/
theorem memoriesStayCanonical : Obligations.MemoriesStayCanonical := by
  intro s t hs h
  exact keeps_writes memoryInv_write (step_writes h) hs

/-! ## The range of `N` (R42, R166) -/

/-- `N` of a tuple is in 1..128. -/
def GrTuple.InRange (t : GrTuple) : Prop := 1 ≤ t.n.toNat ∧ t.n.toNat ≤ 128

/-- In every tuple of an engine `N` is in 1..128. -/
def Engine.TuplesInRange (e : Engine) : Prop := ∀ d ∈ e.gs, d.2.InRange

theorem grInit_inRange : grInit.InRange := ⟨by decide, by decide⟩

/-- The update counts up to 128 and then starts again at 65, so that it never leaves the range (R166). -/
theorem riceUpdate_inRange {t : GrTuple} (h : t.InRange) (code : Word) : (riceUpdate t code).InRange := by
  obtain ⟨hlo, hhi⟩ := h
  unfold GrTuple.InRange
  rw [riceUpdate_n]
  split
  · decide
  · rename_i hn
    have hne : t.n.toNat ≠ 128 := fun h128 => hn (BitVec.eq_of_toNat_eq (h128.trans rfl))
    rw [BitVec.toNat_ofNat, Nat.mod_eq_of_lt (by omega)]
    omega

/-- A tuple that is not listed reads as `GR_INIT`, which is in range as well. -/
theorem tuple_inRange {e : Engine} (h : e.TuplesInRange) (p : BitVec 2) (q : BitVec 3) (ctx : Nat) :
    (e.tuple p q ctx).InRange := by
  unfold Engine.tuple Store.get
  cases hk : Store.lookup e.gs (gsKey p q ctx) with
  | none => exact grInit_inRange
  | some t => exact h _ (Store.lookup_mem _ _ _ hk)

theorem mem_put {α : Type} [DecidableEq α] {d : Nat → α} {m : List (Nat × α)} {k : Nat} {v : α} {c : Nat × α}
    (h : c ∈ Store.put d m k v) : c = (k, v) ∨ c ∈ m := by
  unfold Store.put at h
  split at h
  · exact .inr (Store.mem_erase m k c h)
  · exact Store.mem_insert m k v c h

theorem tuplesInRange_write (e f : Engine) (h : e.Write f) (he : e.TuplesInRange) : f.TuplesInRange := by
  cases h with
  | lines _ hgs _ =>
    unfold Engine.TuplesInRange
    rwa [hgs]
  | state | dropStates => exact he
  | tuple p q ctx code =>
    intro d hd
    rcases mem_put hd with rfl | hd
    · exact riceUpdate_inRange (tuple_inRange he p q ctx) code
    · exact he d hd
  | dropTuples p => exact fun d hd => he d (List.mem_filter.1 hd).1

theorem tupleInv_write (s t : State) (h : s.Write t) (hs : tupleInv s) : tupleInv t :=
  everyEngine_write (P := Engine.TuplesInRange) (fun _ hd => absurd hd List.not_mem_nil) tuplesInRange_write h hs

/-- Settles O15: the only write of a tuple is its update, which stays in range. -/
theorem tuplesStayInRange : Obligations.TuplesStayInRange := by
  intro s t hs h
  exact keeps_writes tupleInv_write (step_writes h) hs

/-! ## The reset state (R46) -/

theorem everyEngine_reset {P : Engine → Prop} (h : P Engine.reset) : State.reset.EveryEngine P := by
  intro c hc
  rw [List.mem_singleton.1 hc]
  exact h

/-- Settles O17: nothing is listed in any memory, and the record is not valid. -/
theorem resetMeetsTheInvariants : Obligations.ResetMeetsTheInvariants := by
  refine ⟨⟨rfl, rfl, rfl, rfl⟩, ?_, ?_, fun h => ?_⟩
  · exact (memoryInv_iff _).2 ⟨rfl, rfl, rfl, ⟨rfl, rfl⟩, everyEngine_reset engine_reset_canonical⟩
  · exact everyEngine_reset (P := Engine.TuplesInRange) fun _ hd => absurd hd List.not_mem_nil
  · cases h

/-- A state byte that nothing has written is 128, `TS` apart (R46). -/
theorem state_unwritten {e : Engine} (h : e.sm = []) {r : StateRef} (hr : r ≠ .ts) : e.state r = 128 := by
  rw [Engine.state, h, Store.get_nil, smDefault, if_neg fun hk => hr (StateRef.key_injective hk)]
  rfl

theorem hasEngine_reset {k : Nat} (h : k ≠ 0) : State.reset.hasEngine k = false := by
  simp [State.hasEngine, State.reset, Store.lookup_cons, h]

/-- Settles O18: the registers as written in the reset state, the state bytes because none is listed. -/
theorem resetLeavesTheTableValues : Obligations.ResetLeavesTheTableValues := by
  have hbyte : ∀ r : StateRef, r ≠ .ts → (State.reset.engine 0).state r = 128 := fun r hr =>
    state_unwritten rfl hr
  refine ⟨rfl, rfl, rfl, rfl, rfl, rfl, rfl, rfl, rfl, rfl, rfl, rfl, rfl, rfl, rfl, rfl, rfl,
    fun _ => hasEngine_reset, rfl, rfl, rfl, rfl, rfl, rfl, rfl, rfl, rfl, rfl, rfl, rfl, rfl, rfl, rfl, rfl,
    rfl, rfl, rfl, rfl, rfl, rfl, fun i => hbyte _ (by simp), fun i => hbyte _ (by simp),
    fun j i => hbyte _ (by simp), hbyte _ (by simp), ?_⟩
  decide

end Sys2Proof.Machine

/-! # `PROC_OOB` (R48, R291, R363) -/

namespace Sys2Proof.Machine

-- One theorem at a time: each that waits for the kernel holds a thread, and here they are many and short.
set_option Elab.async false

/-- The checks before any state change, in numbers (R35, R63, R291). -/
theorem dimensionsChecked_of {s : State} (f : State → Out)
    (hw : 1 ≤ s.width.toNat ∧ s.width.toNat ≤ 2 ^ 24 - 1) (hh : 1 ≤ s.height.toNat ∧ s.height.toNat ≤ 2 ^ 24 - 1)
    (hbuf : s.arg0.toNat + s.arg1.toNat ≤ 2 ^ 32 - 2) : dimensionsChecked s f = f s := by
  have hdims : s.dimensionsOk = true := decide_eq_true ⟨hw.1, hw.2, hh.1, hh.2⟩
  rw [dimensionsChecked, if_pos hdims, checked_of _ _ _ ((bufferOk_iff _ _).2 hbuf)]

/-- A parse of the frame controller that succeeds leaves a legal record, marked valid (R221, R246). -/
theorem frParse_ok {oob : Bool} {s u : State} (h : frParse oob s = .ok () u) :
    ∃ st, u = s.setParseSt 0 st ∧ st.par.ok ∧ st.par.valid = true ∧ st.par.configPresent = oob := by
  unfold frParse at h
  split at h
  · rename_i st hparse
    cases h
    obtain ⟨v, hfills, hok, rfl⟩ := parParse_ok s.width.isLt s.height.isLt hparse
    exact ⟨_, rfl, hok, rfl, hfills.config⟩
  · cases h

/-- One that fails leaves a record that is not valid (R221). -/
theorem frParse_raise {oob : Bool} {s u : State} {err : ErrorName} (h : frParse oob s = .raise err u) :
    ∃ st, u = s.setParseSt 0 st ∧ st.par.valid = false ∧ st.par.configPresent = oob := by
  unfold frParse at h
  split at h
  · cases h
  · rename_i e st hparse
    cases h
    have hfills := parParse_raise s.width.isLt s.height.isLt hparse
    exact ⟨st, rfl, hfills.valid, hfills.config⟩

/-- `u` is a new stream, started in `s`: engine 0 is the only one, no keyframe has been seen, and what the host
has written and what the last commands have left is as it was (R48, R291). -/
structure Restarted (s u : State) : Prop where
  input : u.inMem = s.inMem
  samples : u.plane = s.plane
  result : u.result = s.result
  width : u.width = s.width
  height : u.height = s.height
  lastError : u.lastError = s.lastError
  errSlice : u.errSlice = s.errSlice
  keyframeSeen : u.keyframeSeen = false
  gopSlices : u.gopSlices = 0
  engineZero : u.hasEngine 0 = true
  noOther : ∀ k, k ≠ 0 → u.hasEngine k = false

theorem newStream_restarted (b n : Word) (s : State) (st : ParseSt) :
    Restarted s ((newStream b n s).setParseSt 0 st) := by
  constructor
  case engineZero => exact hasEngine_setEngine_self (newStream b n s) 0 st.eng
  case noOther =>
    intro k hk
    simp [State.hasEngine, newStream, Store.lookup_cons, hk]
  all_goals simp [newStream]

/-- `PROC_OOB` that succeeds announces the legal record of a new stream. -/
theorem procOob_ok {b n : Word} {s u : State} (h : procOob b n s = .ok () u) :
    ∃ v, u = outCreate v ∧ Restarted s v ∧ v.par.ok ∧ v.par.valid = true ∧ v.par.configPresent = true := by
  rw [procOob, Res.bind_ok] at h
  obtain ⟨_, w, hparse, hcreate⟩ := h
  obtain ⟨st, rfl, hrecord⟩ := frParse_ok hparse
  cases hcreate
  exact ⟨_, rfl, newStream_restarted b n s st, hrecord⟩

/-- `PROC_OOB` that fails leaves a new stream without a valid record. -/
theorem procOob_raise {b n : Word} {s u : State} {err : ErrorName} (h : procOob b n s = .raise err u) :
    Restarted s u ∧ u.par.valid = false ∧ u.par.configPresent = true := by
  rw [procOob, Res.bind_raise] at h
  rcases h with hparse | ⟨_, w, -, hcreate⟩
  · obtain ⟨st, rfl, hrecord⟩ := frParse_raise hparse
    exact ⟨newStream_restarted b n s st, hrecord⟩
  · cases hcreate

/-- Settles O56: both ends leave a new stream, and the parse its record as the two cases say. -/
theorem procOobStartsAStream : Obligations.ProcOobStartsAStream := by
  intro s hw1 hw2 hh1 hh2 hbuf
  have hexec : exec .procOob s = endFrame (procOob s.arg0 s.arg1 s) :=
    dimensionsChecked_of _ ⟨hw1, hw2⟩ ⟨hh1, hh2⟩ hbuf
  refine ⟨fun u hu => ?_, fun err u hu => ?_⟩
  · obtain ⟨v, rfl, hstream, hok, hvalid, hconfig⟩ := procOob_ok hu
    rw [hexec, hu]
    exact ⟨(outCreate v).finish none, rfl, ⟨rfl, rfl, rfl, hstream.result⟩,
      fun a => congrArg (inByte · a) hstream.input, hstream.keyframeSeen, hstream.gopSlices,
      hstream.engineZero, hstream.noOther, hvalid, hconfig, hok, rfl, hstream.width, hstream.height,
      hstream.lastError, hstream.errSlice⟩
  · obtain ⟨hstream, hvalid, hconfig⟩ := procOob_raise hu
    rw [hexec, hu]
    exact ⟨u.takeError err noSlice, rfl, ⟨rfl, rfl, rfl, rfl, rfl, rfl⟩,
      fun a => congrArg (inByte · a) hstream.input, fun p x y => sample_congr hstream.samples p x y,
      hstream.keyframeSeen, hstream.gopSlices, hstream.noOther, hvalid, hconfig⟩

end Sys2Proof.Machine

/-! # Refusals: operands that name nothing or are out of range (R93, R98, R274) -/

namespace Sys2Proof.Machine

-- One theorem at a time: each that waits for the kernel holds a thread, and here they are many and short.
set_option Elab.async false

/-! ## Operands -/

/-- A check that does not hold refuses the command. -/
theorem checked_refuses {legal : Bool} {n : BitVec 16} {s : State} {f : State → Out} (h : legal = false) :
    checked legal n s f = failWith .badCommand n s := checked_not n s f h

/-- A word that decodes to a reference is the encoding of it (R98). -/
theorem StateRef.word_of_ofWord {w : Word} {r : StateRef} (h : StateRef.ofWord w = some r) : w = r.word := by
  unfold StateRef.ofWord at h
  exact (beq_iff_eq.1 (Option.filter_eq_some_iff.1 h).2).symm

/-- The reference in `ARG0`, when there is one, is the one encoded there, on an engine that exists, and legal. -/
theorem refArg_eq_some {s : State} {k : BitVec 16} {r : StateRef} (h : s.refArg k = some r) :
    s.arg0 = r.word ∧ s.hasEngine k.toNat = true ∧ r.legal s.par (s.engine k.toNat) = true := by
  obtain ⟨hword, hlegal⟩ := Option.filter_eq_some_iff.1 h
  exact ⟨StateRef.word_of_ofWord hword, Bool.and_eq_true_iff.1 hlegal⟩

theorem refArg_noEngine {s : State} {k : BitVec 16} (hk : s.hasEngine k.toNat = false) : s.refArg k = none := by
  simp [State.refArg, hk]

/-- A reference that the operation does not take is none of its operands. -/
theorem refArg_filter_eq_none {s : State} {k : BitVec 16} {takes : StateRef → Bool}
    (h : badReference s k takes) : (s.refArg k).filter takes = none := by
  rw [Option.filter_eq_none_iff]
  intro r hr
  obtain ⟨hword, -, hlegal⟩ := refArg_eq_some hr
  simp [h r hword hlegal]

theorem refArg_eq_none {s : State} {k : BitVec 16} (h : badReference s k fun _ => true) : s.refArg k = none := by
  exact Option.eq_none_iff_forall_ne_some.2 (by simpa using refArg_filter_eq_none h)

/-- The plane in an argument register has the register's number. -/
theorem argPlane_eq_some {w : Word} {c : Fin 4} (h : argPlane w = some c) : w.toNat = c.val := by
  unfold argPlane at h
  split at h
  · cases h
    rfl
  · cases h

/-- A plane operand that fails its test for every plane number that the register can hold. -/
theorem argPlane_filter_eq_none {w : Word} {p : Fin 4 → Bool} (h : ∀ c : Fin 4, w.toNat = c.val → p c = false) :
    (argPlane w).filter p = none := by
  rw [Option.filter_eq_none_iff]
  intro c hc
  simp [h c (argPlane_eq_some hc)]

theorem sampleArg_eq_none {s : State} {k : BitVec 16} (h : s.hasEngine k.toNat = false ∨ badColumn s k) :
    s.sampleArg k = none := by
  refine argPlane_filter_eq_none fun c hc => ?_
  rcases h with hk | hcol
  · simp [hk]
  · simp [Nat.not_lt.2 (hcol c hc)]

theorem bufferOk_of_bad {s : State} (h : badBuffer s) : bufferOk s.arg0 s.arg1 = false := by
  rw [← Bool.not_eq_true, bufferOk_iff]
  exact Nat.not_le.2 h

theorem hasPair_of_bad {s : State} (h : badPair s) : s.par.hasPair (argP s.arg0) (argQ s.arg0) = false := by
  unfold Par.hasPair
  rcases h with hslot | hset
  · rw [show decide ((argP s.arg0).toNat ≤ 2) = false from decide_eq_false (Nat.not_le.2 hslot), Bool.false_and]
  · rw [show decide ((argQ s.arg0).toNat < _) = false from decide_eq_false (Nat.not_lt.2 hset), Bool.and_false]

theorem tableOk_of_absent {par : Par} {custom : Bool} (hc : custom = true) (h : par.customPresent = false) :
    tableOk par custom = false := by simp [tableOk, hc, h]

/-- `SL_OPEN` and `SL_RUN` without their preconditions are not legal (R93, R274). -/
theorem openOk_of_bad {s : State} {k : BitVec 16} {cont : Bool} (h : badOpen s k cont) :
    s.openOk k cont = false := by
  unfold State.openOk
  rcases h with rfl | hvalid | ⟨rfl, hk | hconfig⟩ | ⟨rfl, htail | hbuf⟩
  · rfl
  · simp [hvalid]
  · rw [if_pos rfl, beq_false_of_ne hk, Bool.false_and, Bool.and_false]
  · simp [hconfig]
  · simp [Nat.not_le.2 htail]
  · simp [bufferOk_of_bad hbuf]

theorem fsmIs_of_ne {s : State} {k : BitVec 16} {f : Fsm} (h : (s.engine k.toNat).sl.fsm ≠ f) :
    s.fsmIs k f = false := by
  simp [State.fsmIs, h]

/-- A command whose `slice` names no engine is refused (R93 check 2). -/
theorem exec_noEngine {s : State} {i : Instr} {k : BitVec 16} (hi : engineOf i = some k)
    (hk : s.hasEngine k.toNat = false) : exec i s = failWith .badCommand (refusalSlice i) s := by
  cases i with
  | reset | procOob | procFrame | getErr | outCreate | parDerive | slRun | slOpen | frKeybit | frLocate | frGopinit
  | frDispatch | frJoin | frFinal => cases hi
  | rcBit | rcUsym | rcSsym | stFill =>
    cases hi
    simp [exec, execRcBit, execRcUsym, execRcSsym, execStFill, State.bankArg, State.fillArg, refArg_noEngine hk,
      refusalSlice]
  | ctxIdx | predMed | smpDec =>
    cases hi
    simp [exec, execCtxIdx, execPredMed, execSmpDec, sampleArg_eq_none (.inl hk), refusalSlice]
  | lineDec | planeDec =>
    cases hi
    simp [exec, execLineDec, execPlaneDec, State.lineArg, State.planeArg, hk, refusalSlice]
  | rcArm | rcRearm | rcUsed | rcUndr | rcForce | rcGopinit | rcDelta | bsArm | bsBit | bsBits | bsUsed | bsUndr
  | grGopinit | grPlaneinit | grLineinit | grDelta | grRice | rgbDec | pxWrite =>
    cases hi
    dsimp only [exec, execRcArm, execRcRearm, execRcUsed, execRcUndr, execRcForce, execRcGopinit, execRcDelta,
      execBsArm, execBsBit, execBsBits, execBsUsed, execBsUndr, execGrGopinit, execGrPlaneinit, execGrLineinit,
      execGrDelta, execGrRice, execRgbDec, execPxWrite, State.deltaArgsOk]
    exact checked_refuses (by simp only [hk, Bool.false_and])
  | parParse | parQtset | parQtab | parInist | slHeader | slContent | slFooter | slCrc =>
    cases hi
    dsimp only [exec, execParParse, execParQtset, execParQtab, execParInist, execSlHeader, execSlContent,
      execSlFooter, execSlCrc, State.fsmIs]
    exact checked_refuses (by simp only [hk, Bool.false_and])

/-- A command with operands outside the ranges of its rule is refused (R93 checks 3 and 4, R98, R274). -/
theorem exec_badOperands {s : State} {i : Instr} (h : badOperands s i) :
    exec i s = failWith .badCommand (refusalSlice i) s := by
  cases i with
  | rcUsed | rcUndr | rcForce | rcGopinit | bsBit | bsUsed | bsUndr | grGopinit | grPlaneinit | rgbDec | parParse
  | parQtset | parInist | parDerive | reset | procOob | procFrame | getErr | frGopinit | frDispatch | frJoin
  | frFinal => exact h.elim
  | rcArm k custom =>
    dsimp only [exec, execRcArm]
    rcases h with hbuf | ⟨hcustom, habsent⟩
    · exact checked_refuses (by simp [bufferOk_of_bad hbuf])
    · exact checked_refuses (by simp [tableOk_of_absent hcustom habsent])
  | rcRearm k custom =>
    dsimp only [exec, execRcRearm]
    rcases h with hlen | ⟨hcustom, habsent⟩
    · exact checked_refuses (by simp [Nat.not_le.2 hlen])
    · exact checked_refuses (by simp [tableOk_of_absent hcustom habsent])
  | rcBit k =>
    dsimp only [exec, execRcBit]
    rw [refArg_eq_none h]
    rfl
  | rcUsym k | rcSsym k =>
    dsimp only [exec, execRcUsym, execRcSsym, State.bankArg]
    rw [refArg_filter_eq_none h]
    rfl
  | stFill k v =>
    dsimp only [exec, execStFill, State.fillArg]
    rw [refArg_filter_eq_none h]
    rfl
  | rcDelta k =>
    dsimp only [exec, execRcDelta]
    rcases h with hpair | hctx
    · exact checked_refuses (by simp [State.deltaArgsOk, hasPair_of_bad hpair])
    · exact checked_refuses (by simp [State.deltaArgsOk, argQ, Nat.not_lt.2 hctx])
  | grRice k =>
    dsimp only [exec, execGrRice]
    rcases h with hpair | hctx
    · exact checked_refuses (by simp [hasPair_of_bad hpair])
    · exact checked_refuses (by simp [argQ, Nat.not_lt.2 hctx])
  | grDelta k =>
    dsimp only [exec, execGrDelta]
    exact checked_refuses (by simp [Nat.not_lt.2 h])
  | grLineinit k =>
    dsimp only [exec, execGrLineinit]
    rcases h with hpair | hzero | hwide
    · exact checked_refuses (by simp [hasPair_of_bad hpair])
    · exact checked_refuses (by simp [hzero])
    · have hrange : ¬ (1 ≤ s.arg1.toNat ∧ s.arg1.toNat ≤ Config.maxWidth) := fun hle => Nat.not_le.2 hwide hle.2
      exact checked_refuses (by rw [decide_eq_false hrange, Bool.and_false])
  | bsArm k =>
    dsimp only [exec, execBsArm]
    exact checked_refuses (by simp [bufferOk_of_bad h])
  | frKeybit | frLocate =>
    dsimp only [exec, execFrKeybit, execFrLocate]
    exact checked_refuses (bufferOk_of_bad h)
  | bsBits k n =>
    dsimp only [exec, execBsBits]
    have hn : ¬ n ≤ 32 := fun hle => Nat.not_lt.2 (BitVec.le_def.1 hle) h
    exact checked_refuses (by rw [decide_eq_false hn, Bool.and_false])
  | ctxIdx k q =>
    dsimp only [exec, execCtxIdx]
    rcases h with hset | hcol
    · simp [Nat.not_lt.2 hset, refusalSlice]
    · simp [sampleArg_eq_none (.inr hcol), refusalSlice]
  | predMed k | smpDec k =>
    dsimp only [exec, execPredMed, execSmpDec]
    rw [sampleArg_eq_none (.inr h)]
    rfl
  | lineDec k =>
    dsimp only [exec, execLineDec, State.lineArg]
    rw [argPlane_filter_eq_none fun c hc => by simp [Nat.not_lt.2 (h c hc)]]
    rfl
  | planeDec k =>
    dsimp only [exec, execPlaneDec, State.planeArg]
    rw [argPlane_filter_eq_none fun c hc => by simp [h c hc]]
    rfl
  | pxWrite k c =>
    dsimp only [exec, execPxWrite]
    rcases h with hcol | hval
    · exact checked_refuses (by simp [Nat.not_lt.2 hcol])
    · have hmask : ¬ s.arg1 ≤ s.par.bitsMask := fun hle => Nat.not_lt.2 (BitVec.le_def.1 hle) hval
      exact checked_refuses (by simp [hmask])
  | parQtab k q j =>
    dsimp only [exec, execParQtab]
    rcases h with htable | hzero | hscale
    · have hj : ¬ j.toNat < Config.maxContextInputs := Nat.not_lt.2 htable
      exact checked_refuses (by simp [hj])
    · exact checked_refuses (by simp [hzero])
    · exact checked_refuses (by simp [Config.qtScaleMax, Nat.not_le.2 hscale])
  | outCreate =>
    dsimp only [exec, execOutCreate]
    exact checked_refuses h
  | slHeader k | slContent k | slFooter k =>
    dsimp only [exec, execSlHeader, execSlContent, execSlFooter]
    exact checked_refuses (fsmIs_of_ne h)
  | slCrc k =>
    dsimp only [exec, execSlCrc]
    have hclosed : (s.engine k.toNat).opened = false := h
    exact checked_refuses (by simp [hclosed])
  | slOpen k cont | slRun k cont =>
    dsimp only [exec, execSlOpen, execSlRun]
    exact checked_refuses (openOk_of_bad h)

/-- Settles O7: either refusal takes `E_BAD_COMMAND` in the state as it stands. -/
theorem missingEngineIsRefused : Obligations.MissingEngineIsRefused := by
  rintro s i (⟨k, hi, hk⟩ | hbad)
  · exact exec_noEngine hi hk
  · exact exec_badOperands hbad

end Sys2Proof.Machine

/-! # What a command leaves to the caller (R60, R76, R90) -/

namespace Sys2Proof.Machine

-- One theorem at a time: each that waits for the kernel holds a thread, and here they are many and short.
set_option Elab.async false

/-! ## What no command writes, `RESET` apart -/

/-- The registers that the host writes, its memory, and the model's fields of the world outside (R60, R96). -/
structure HostSide where
  cmd : Word
  arg0 : Word
  arg1 : Word
  width : Word
  height : Word
  parSel : Word
  inMem : List Host.Cell
  agenda : List HostEvent
  workers : Nat

/-- The host's side of a state. -/
def State.hostSide (s : State) : HostSide :=
  ⟨s.cmd, s.arg0, s.arg1, s.width, s.height, s.parSel, s.inMem, s.agenda, s.workers⟩

/-- Beside the host's side, what the steps of a frame before its dispatch leave alone when none raises. -/
structure FrameSide where
  host : HostSide
  result : Word
  lastError : BitVec 12
  errSlice : BitVec 16
  tasks : List Task

/-- The part of a state that these steps leave alone. -/
def State.frameSide (s : State) : FrameSide := ⟨s.hostSide, s.result, s.lastError, s.errSlice, s.tasks⟩

theorem hostSide_of_frameSide {s t : State} (h : t.frameSide = s.frameSide) : t.hostSide = s.hostSide :=
  congrArg FrameSide.host h

/-! ### The steps of a frame -/

theorem createEngines_frame (n : Nat) (s : State) :
    createEngines n s = { s with engines := (createEngines n s).engines } := by
  induction n with
  | zero => rfl
  | succ n ih =>
    unfold createEngines
    dsimp only
    split
    · exact ih
    · rw [ih]
      rfl

theorem gopInitLoop_frame (n : Nat) (s : State) :
    gopInitLoop n s = { s with engines := (gopInitLoop n s).engines } := by
  induction n with
  | zero => rfl
  | succ n ih =>
    unfold gopInitLoop
    dsimp only
    rw [ih]
    rfl

/-- `FR_GOPINIT` changes nothing but engines and the number of slices (R299). -/
theorem frGopinit_frame (s : State) :
    frGopinit s = { s with engines := (frGopinit s).engines, gopSlices := s.loc.length } := by
  have h := gopInitLoop_frame s.loc.length s
  unfold frGopinit
  generalize gopInitLoop s.loc.length s = u at h ⊢
  dsimp only
  rw [h]

theorem frameSide_setParseSt (s : State) (k : Nat) (st : ParseSt) :
    (s.setParseSt k st).frameSide = s.frameSide := rfl

theorem frParse_frameSide (oob : Bool) (s : State) : (frParse oob s).state.frameSide = s.frameSide := by
  rw [frParse_state, frameSide_setParseSt]

/-- `FR_LOCATE` changes nothing but the list of slices (R296). -/
theorem frLocate_frame (b n : Word) (s : State) :
    (frLocate b n s).state = { s with loc := (frLocate b n s).state.loc } := by
  unfold frLocate
  dsimp only
  split
  · split <;> rfl
  · rfl

theorem frLocate_frameSide (b n : Word) (s : State) : (frLocate b n s).state.frameSide = s.frameSide := by
  rw [frLocate_frame]
  rfl

/-- The frame side through a sequence of two operations. -/
theorem Res.frameSide_bind {α β : Type} {s : State} {r : Res State α} {f : α → State → Res State β}
    (hr : r.state.frameSide = s.frameSide) (hf : ∀ a u, (f a u).state.frameSide = u.frameSide) :
    (r.bind f).state.frameSide = s.frameSide :=
  Res.state_bind (R := fun s t : State => t.frameSide = s.frameSide) (fun h h' => h'.trans h) hr hf

theorem procOob_frameSide (b n : Word) (s : State) :
    (procOob b n s).state.frameSide = s.frameSide :=
  Res.frameSide_bind (frParse_frameSide true (newStream b n s)) fun _ _ => rfl

theorem frameKey_frameSide (b n : Word) (s : State) : (frameKey b n s).state.frameSide = s.frameSide := by
  unfold frameKey
  dsimp only
  split
  · exact Res.frameSide_bind (frParse_frameSide false (frKeybit b n s)) fun _ _ => rfl
  · rfl

theorem frameChecks_frameSide (s : State) : (frameChecks s).state.frameSide = s.frameSide := by
  unfold frameChecks
  split
  · rfl
  · split
    · rfl
    · split <;> rfl

/-- Steps 1 to 7 of a frame (R292). -/
theorem frameSetup_frameSide (b n : Word) (s : State) : (frameSetup b n s).state.frameSide = s.frameSide :=
  Res.frameSide_bind (frameKey_frameSide b n s) fun _ u =>
    Res.frameSide_bind (frameChecks_frameSide u) fun _ v => frLocate_frameSide b n v

/-- The engines, and with a keyframe their templates, made ready for the tasks of a frame: steps 8 and 9 of
R292. -/
def frameReady (s : State) : State :=
  if (createEngines s.loc.length s).keyframe then frGopinit (createEngines s.loc.length s)
  else createEngines s.loc.length s

theorem frameSlices_eq (s : State) : frameSlices s = frJoin (frDispatch (frameReady s)) := rfl

theorem frameReady_frame (s : State) : frameReady s = { s with
    engines := (frameReady s).engines
    gopSlices := if s.keyframe then s.loc.length else s.gopSlices } := by
  have hkey : (createEngines s.loc.length s).keyframe = s.keyframe := by rw [createEngines_frame]
  unfold frameReady
  rw [hkey]
  split
  · rw [frGopinit_frame, createEngines_frame]
  · exact createEngines_frame _ s

/-! ### Tasks and the join -/

/-- Everything that awaiting the tasks in flight can change (R83, R304). -/
theorem awaitTasks_frame (s : State) : awaitTasks s = { s with
    engines := (awaitTasks s).engines
    plane := (awaitTasks s).plane
    tasks := []
    written := []
    freeCtr := (awaitTasks s).freeCtr } := by
  unfold awaitTasks
  rw [runTasks_frame]

theorem awaitTasks_hostSide (s : State) : (awaitTasks s).hostSide = s.hostSide := by
  rw [awaitTasks_frame]
  rfl

theorem frDispatch_hostSide (s : State) : (frDispatch s).hostSide = s.hostSide := by
  unfold frDispatch
  dsimp only
  split
  · exact awaitTasks_hostSide (submitTasks s)
  · rfl

theorem frJoin_hostSide (s : State) : (frJoin s).1.hostSide = s.hostSide := by
  unfold frJoin
  dsimp only
  split
  · exact awaitTasks_hostSide s
  · exact awaitTasks_hostSide s

theorem frameSlices_hostSide (s : State) : (frameSlices s).1.hostSide = s.hostSide := by
  rw [frameSlices_eq, frJoin_hostSide, frDispatch_hostSide, frameReady_frame]
  rfl

/-! ### Slice steps that write no sample -/

theorem slHeader_plane (i : SliceIn) (st : SliceSt) : (slHeader i st).state.plane = st.plane := by
  unfold slHeader liftEngine
  split <;> rfl

theorem slFooter_plane (i : SliceIn) (st : SliceSt) : (slFooter i st).state.plane = st.plane := by
  unfold slFooter
  dsimp only
  split
  · rfl
  · split <;> rfl

/-- What an ended task leaves in the sample store is what its steps have written. -/
theorem settle_plane (r : SliceRes) : (settle r).plane = r.state.plane := by
  cases r <;> rfl

/-! ### Every command -/

/-- What a command answers has the host's side as it was, and the samples too unless `writes` is set. -/
def Spares (writes : Bool) (s : State) (o : Out) : Prop :=
  ∀ t, o = .next t → t.hostSide = s.hostSide ∧ (writes = false → t.plane = s.plane)

theorem spares_next {w : Bool} {s t : State} (hs : t.hostSide = s.hostSide) (hp : w = false → t.plane = s.plane) :
    Spares w s (.next t) := by
  rintro _ ⟨⟩
  exact ⟨hs, hp⟩

theorem spares_checked {w : Bool} {legal : Bool} {n : BitVec 16} {s : State} {f : State → Out}
    (h : Spares w s (f s)) : Spares w s (checked legal n s f) := by
  cases legal
  case false => exact checked_not n s f rfl ▸ spares_next rfl fun _ => rfl
  case true => exact checked_of n s f rfl ▸ h

theorem spares_dimensionsChecked {w : Bool} {s : State} {f : State → Out} (h : Spares w s (f s)) :
    Spares w s (dimensionsChecked s f) := by
  unfold dimensionsChecked
  split
  · exact spares_checked h
  · exact spares_next rfl fun _ => rfl

theorem spares_onEngine (w : Bool) (k : BitVec 16) (s : State) (f : Engine → Engine) :
    Spares w s (onEngine k s f) := spares_next rfl fun _ => rfl

theorem spares_onEngineWith (w : Bool) (k : BitVec 16) (s : State) (f : Engine → Engine × Word) :
    Spares w s (onEngineWith k s f) := spares_next rfl fun _ => rfl

theorem spares_onSlice (k : BitVec 16) (s : State) (f : SliceIn → SliceSt → SliceSt) :
    Spares true s (onSlice k s f) := spares_next rfl (by simp)

theorem spares_endSlice {w : Bool} {k : BitVec 16} {s : State} {r : SliceRes}
    (h : w = false → r.state.plane = s.plane) : Spares w s (endSlice k s r) := by
  cases r with
  | ok a st => exact spares_next rfl h
  | raise e st => exact spares_next rfl h

theorem spares_endParse {w : Bool} {k : BitVec 16} {s : State} (r : Res ParseSt Unit) :
    Spares w s (endParse k s r) := by
  cases r
  all_goals exact spares_next rfl fun _ => rfl

theorem spares_endParseNat {w : Bool} {k : BitVec 16} {s : State} (r : Res ParseSt Nat) :
    Spares w s (endParseNat k s r) := by
  cases r
  all_goals exact spares_next rfl fun _ => rfl

theorem spares_execProcOob (s : State) : Spares true s (execProcOob s) := by
  refine spares_dimensionsChecked ?_
  have h := hostSide_of_frameSide (procOob_frameSide s.arg0 s.arg1 s)
  generalize procOob s.arg0 s.arg1 s = r at h ⊢
  cases r with
  | ok a u => exact spares_next h (by simp)
  | raise e u => exact spares_next h (by simp)

theorem spares_execProcFrame (s : State) : Spares true s (execProcFrame s) := by
  refine spares_dimensionsChecked ?_
  have hsetup := hostSide_of_frameSide (frameSetup_frameSide s.arg0 s.arg1 s)
  split <;> rename_i heq <;> rw [heq] at hsetup
  · exact spares_next hsetup (by simp)
  · rename_i u
    have hslices := (frameSlices_hostSide u).trans hsetup
    generalize frameSlices u = r at hslices ⊢
    dsimp only
    split
    · exact spares_next hslices (by simp)
    · exact spares_next hslices (by simp)

theorem spares_execFrLocate (w : Bool) (s : State) : Spares w s (execFrLocate s) := by
  refine spares_checked ?_
  have hside := hostSide_of_frameSide (frLocate_frameSide s.arg0 s.arg1 s)
  have hplane : (frLocate s.arg0 s.arg1 s).state.plane = s.plane := by rw [frLocate_frame]
  split <;> rename_i heq <;> rw [heq] at hside hplane
  · exact spares_next hside fun _ => hplane
  · exact spares_next hside fun _ => hplane

theorem spares_execParDerive (w : Bool) (s : State) : Spares w s (execParDerive s) := by
  unfold execParDerive
  split
  · exact spares_next rfl fun _ => rfl
  · exact spares_next rfl fun _ => rfl

/-- Every command but `RESET`; the cases are grouped by the way they end. -/
theorem spares_exec {i : Instr} (s : State) (hi : i ≠ .reset) : Spares (mayWriteSamples i) s (exec i s) := by
  cases i with
  | reset => exact absurd rfl hi
  | procOob => exact spares_execProcOob s
  | procFrame => exact spares_execProcFrame s
  | frLocate => exact spares_execFrLocate _ s
  | parDerive => exact spares_execParDerive _ s
  | getErr | frFinal => exact spares_next rfl fun _ => rfl
  | frGopinit =>
    refine spares_next ?_ fun _ => ?_
    · rw [frGopinit_frame]
      rfl
    · rw [frGopinit_frame]
      rfl
  | frDispatch => exact spares_next (frDispatch_hostSide s) (by simp [mayWriteSamples])
  | frJoin => exact spares_next (frJoin_hostSide s) (by simp [mayWriteSamples])
  | outCreate =>
    dsimp only [exec, execOutCreate]
    exact spares_checked (spares_next rfl (by simp [mayWriteSamples]))
  | frKeybit | rcUsed | rcUndr | bsUsed | bsUndr | slCrc | parInist =>
    dsimp only [exec, execFrKeybit, execRcUsed, execRcUndr, execBsUsed, execBsUndr, execSlCrc, execParInist]
    exact spares_checked (spares_next rfl fun _ => rfl)
  | rcArm | rcRearm | rcForce | rcGopinit | bsArm | grGopinit | grPlaneinit | grLineinit | slOpen =>
    dsimp only [exec, execRcArm, execRcRearm, execRcForce, execRcGopinit, execBsArm, execGrGopinit,
      execGrPlaneinit, execGrLineinit, execSlOpen]
    exact spares_checked (spares_onEngine _ _ s _)
  | rcDelta | bsBit | bsBits | grDelta | grRice =>
    dsimp only [exec, execRcDelta, execBsBit, execBsBits, execGrDelta, execGrRice]
    exact spares_checked (spares_onEngineWith _ _ s _)
  | rcBit | rcUsym | rcSsym =>
    dsimp only [exec, execRcBit, execRcUsym, execRcSsym]
    split
    · exact spares_next rfl fun _ => rfl
    · exact spares_onEngineWith _ _ s _
  | stFill =>
    dsimp only [exec, execStFill]
    split
    · exact spares_next rfl fun _ => rfl
    · exact spares_onEngine _ _ s _
  | ctxIdx | predMed =>
    dsimp only [exec, execCtxIdx, execPredMed]
    split
    · exact spares_next rfl fun _ => rfl
    · exact spares_next rfl fun _ => rfl
  | smpDec =>
    dsimp only [exec, execSmpDec]
    split
    · exact spares_next rfl fun _ => rfl
    · exact spares_next rfl (by simp [mayWriteSamples])
  | lineDec | planeDec =>
    dsimp only [exec, execLineDec, execPlaneDec]
    split
    · exact spares_next rfl fun _ => rfl
    · exact spares_onSlice _ s _
  | rgbDec | pxWrite =>
    dsimp only [exec, execRgbDec, execPxWrite]
    exact spares_checked (spares_onSlice _ s _)
  | parParse =>
    dsimp only [exec, execParParse]
    exact spares_checked (spares_endParse _)
  | parQtset | parQtab =>
    dsimp only [exec, execParQtset, execParQtab]
    exact spares_checked (spares_endParseNat _)
  | slHeader =>
    dsimp only [exec, execSlHeader]
    exact spares_checked (spares_endSlice fun _ => slHeader_plane _ _)
  | slFooter =>
    dsimp only [exec, execSlFooter]
    exact spares_checked (spares_endSlice fun _ => slFooter_plane _ _)
  | slContent | slRun =>
    dsimp only [exec, execSlContent, execSlRun]
    exact spares_checked (spares_endSlice (by simp [mayWriteSamples]))

/-- Settles O11: `RESET` on its own, every other command by what it spares. -/
theorem commandsLeaveTheCallersMemories : Obligations.CommandsLeaveTheCallersMemories := by
  intro i s t h
  by_cases hi : i = .reset
  · subst hi
    cases h
    exact ⟨fun _ => rfl, rfl, rfl, fun h => absurd rfl h, fun _ _ _ _ => rfl⟩
  · obtain ⟨hside, hplane⟩ := spares_exec s hi t h
    injection hside with hcmd harg0 harg1 hwidth hheight hsel hin hagenda hworkers
    exact ⟨fun a => congrArg (inByte · a) hin, hagenda, hworkers,
      fun _ => ⟨hcmd, harg0, harg1, hwidth, hheight, hsel⟩, fun hw p x y => sample_congr (hplane hw) p x y⟩

end Sys2Proof.Machine

/-! # Locating slices, submitting tasks, announcing planes (R77, R296 to R307) -/

namespace Sys2Proof.Machine

-- One theorem at a time: each that waits for the kernel holds a thread, and here they are many and short.
set_option Elab.async false

/-! ## `FR_LOCATE` -/

/-- A located slice is its tail longer than the number in its size field (R70, R296). -/
def Loc.Sized (im : List Host.Cell) (t : Nat) (l : Loc) : Prop :=
  l.len.toNat = memRead im (l.base.toNat + l.len.toNat - t) Config.sizeFieldBytes + t

/-- What the walk has listed when it stands at `pos`: slices of the right sizes that fill the buffer from `pos` to
its end `e`, at most `limit` of them. -/
structure Located (im : List Host.Cell) (t limit pos e : Nat) (ls : List Loc) : Prop where
  tiles : tiles pos e ls
  limited : ls.length ≤ limit
  sized : ∀ l ∈ ls, l.Sized im t

/-- One slice more in front of those listed. -/
theorem Located.cons {im : List Host.Cell} {t limit pos e : Nat} {ls : List Loc}
    (h : Located im t limit pos e ls) (hpos : pos < 2 ^ 32) (hlimit : ls.length + 1 ≤ limit) {total : Nat}
    (htotal : total ≤ pos) (hsize : total = memRead im (pos - t) Config.sizeFieldBytes + t) :
    Located im t limit (pos - total) e (⟨BitVec.ofNat 32 (pos - total), BitVec.ofNat 32 total⟩ :: ls) := by
  have hbase : (BitVec.ofNat 32 (pos - total)).toNat = pos - total :=
    (BitVec.toNat_ofNat _ _).trans (Nat.mod_eq_of_lt (by omega))
  have hlen : (BitVec.ofNat 32 total).toNat = total := (BitVec.toNat_ofNat _ _).trans (Nat.mod_eq_of_lt (by omega))
  have hend : pos - total + total = pos := by omega
  refine ⟨⟨hbase, ?_⟩, hlimit, fun l hl => ?_⟩
  · rw [hlen, hend]
    exact h.tiles
  · rcases List.mem_cons.1 hl with rfl | hl
    · rw [Loc.Sized, hbase, hlen, hend]
      exact hsize
    · exact h.sized l hl

/-- A walk that succeeds has come back to the start of the buffer, with at least one slice listed (R296). -/
theorem locateWalk_ok {im : List Host.Cell} {b t limit fuel pos e : Nat} {list ls : List Loc}
    (h : locateWalk im b t limit fuel pos list = .ok ls) (hb : b ≤ pos) (hpos : pos < 2 ^ 32)
    (hlist : Located im t limit pos e list) : Located im t limit b e ls ∧ 1 ≤ ls.length := by
  induction fuel generalizing pos list with
  | zero => cases h
  | succ fuel ih =>
    unfold locateWalk at h
    split at h
    · rename_i hstart
      cases list with
      | nil => cases h
      | cons l list =>
        cases h
        obtain rfl : pos = b := Nat.le_antisymm hstart hb
        exact ⟨hlist, Nat.succ_le_succ (Nat.zero_le _)⟩
    · split at h
      · cases h
      · dsimp only at h
        split at h
        · cases h
        · split at h
          · cases h
          · exact ih h (by omega) (by omega) (hlist.cons hpos (by omega) (by omega) rfl)

/-- A walk fails in one of two ways (R296, R297). -/
theorem locateWalk_error {im : List Host.Cell} {b t limit fuel pos : Nat} {list : List Loc} {err : ErrorName}
    (h : locateWalk im b t limit fuel pos list = .error err) : err = .frameTail ∨ err = .sliceCount := by
  induction fuel generalizing pos list with
  | zero =>
    cases h
    exact .inr rfl
  | succ fuel ih =>
    unfold locateWalk at h
    split at h
    · split at h
      · cases h
        exact .inl rfl
      · cases h
    · split at h
      · cases h
        exact .inl rfl
      · dsimp only at h
        split at h
        · cases h
          exact .inl rfl
        · split at h
          · cases h
            exact .inr rfl
          · exact ih h

/-- `FR_LOCATE` under a configuration record that succeeds replaces the list by one that fills the buffer. -/
theorem frLocate_ok {b n : Word} {s u : State} (hconfig : s.par.configPresent = true)
    (hbuf : b.toNat + n.toNat ≤ 2 ^ 32 - 2) (h : frLocate b n s = .ok () u) :
    u = { s with loc := u.loc } ∧ 1 ≤ u.loc.length ∧
      Located s.inMem s.par.tailSize.toNat (sliceLimit s) b.toNat (b.toNat + n.toNat) u.loc := by
  unfold frLocate at h
  rw [if_pos hconfig] at h
  dsimp only at h
  split at h
  · rename_i list hwalk
    cases h
    obtain ⟨hlocated, hsome⟩ := locateWalk_ok hwalk (Nat.le_add_right _ _) (by omega)
      ⟨rfl, Nat.zero_le _, fun l hl => absurd hl List.not_mem_nil⟩
    exact ⟨rfl, hsome, hlocated⟩
  · cases h

/-- `FR_LOCATE` that fails changes nothing. -/
theorem frLocate_raise {b n : Word} {s u : State} {err : ErrorName} (h : frLocate b n s = .raise err u) :
    u = s ∧ (err = .frameTail ∨ err = .sliceCount) := by
  unfold frLocate at h
  split at h
  · dsimp only at h
    split at h
    · cases h
    · rename_i e hwalk
      cases h
      exact ⟨rfl, locateWalk_error hwalk⟩
  · cases h

/-- The two ends of `FR_LOCATE` on a legal buffer (R296). -/
theorem exec_frLocate {s : State} (hbuf : s.arg0.toNat + s.arg1.toNat ≤ 2 ^ 32 - 2) :
    (∀ u, frLocate s.arg0 s.arg1 s = .ok () u →
      exec .frLocate s = completeWith (BitVec.ofNat 32 u.loc.length) u) ∧
    ∀ e u, frLocate s.arg0 s.arg1 s = .raise e u → exec .frLocate s = failWith e noSlice u := by
  dsimp only [exec, execFrLocate]
  rw [checked_of _ _ _ ((bufferOk_iff _ _).2 hbuf)]
  constructor
  · intro u hu
    rw [hu]
  · intro e u hu
    rw [hu]

/-- Settles O52: the walk lists slices from the end of the buffer back to its start. -/
theorem frLocateTilesTheBuffer : Obligations.FrLocateTilesTheBuffer := by
  intro s hbuf
  refine ⟨fun hconfig => ?_, fun hconfig => ⟨fun u hu => ?_, fun err u hu => ?_⟩⟩
  · have hone : frLocate s.arg0 s.arg1 s = .ok () { s with loc := [⟨s.arg0, s.arg1⟩] } := by
      rw [frLocate, hconfig]
      rfl
    rw [(exec_frLocate hbuf).1 _ hone]
    exact ⟨_, rfl, rfl⟩
  · obtain ⟨hframe, hsome, hlocated⟩ := frLocate_ok hconfig hbuf hu
    rw [(exec_frLocate hbuf).1 u hu]
    refine ⟨u.finish (some (BitVec.ofNat 32 u.loc.length)), rfl, ?_, hlocated.tiles, hsome, hlocated.limited,
      hlocated.sized⟩
    rw [hframe]
    rfl
  · obtain ⟨hsame, herr⟩ := frLocate_raise hu
    rw [(exec_frLocate hbuf).2 err u hu]
    exact ⟨u.takeError err noSlice, rfl, herr, ⟨rfl, rfl, rfl, rfl, rfl, rfl⟩, (congrArg State.loc hsame :)⟩

/-! ## Submitting tasks -/

theorem tasksOf_length (cont : Bool) (k : Nat) (ls : List Loc) : (tasksOf cont k ls).length = ls.length := by
  induction ls generalizing k with
  | nil => rfl
  | cons l ls ih => exact congrArg (· + 1) (ih (k + 1))

/-- Task `n` of a list runs slice `k + n` on the `n`-th located buffer (R301). -/
theorem tasksOf_getElem? (cont : Bool) (k n : Nat) (ls : List Loc) :
    (tasksOf cont k ls)[n]? = ls[n]?.map fun l => ⟨k + n, l.base, l.len, cont⟩ := by
  induction ls generalizing k n with
  | nil => rfl
  | cons l ls ih =>
    cases n with
    | zero => rfl
    | succ n =>
      rw [tasksOf, List.getElem?_cons_succ, List.getElem?_cons_succ, ih, Nat.add_right_comm, Nat.add_assoc]

/-- What `FR_DISPATCH` starts from, without a Boolean test. -/
theorem submitTasks_eq (s : State) : submitTasks s = { s with
    tasks := s.tasks ++ tasksOf (!s.par.configPresent) 0 s.loc
    written := if s.tasks = [] then [] else s.written } := by
  simp only [submitTasks, List.isEmpty_iff]

/-! ## `OUT_CREATE` -/

/-- `ceil(n / 2^shift)`, as the model shifts it, is the quotient rounded up (R77). -/
theorem ceilShift_eq (n s : Nat) : ceilShift n s = (n + 2 ^ s - 1) / 2 ^ s := by
  have hpos : 0 < 2 ^ s := Nat.two_pow_pos s
  unfold ceilShift
  split
  · rename_i hn
    rw [hn, Nat.zero_add, Nat.div_eq_of_lt (by omega)]
  · rename_i hn
    rw [Nat.shiftRight_eq_div_pow, ← Nat.add_div_right _ hpos]
    congr 1
    omega

/-- Saturation to four bits, in numbers (R306). -/
theorem saturate4_toNat (v : Word) : (saturate4 v).toNat = min v.toNat 15 := by
  unfold saturate4
  split
  · rename_i h
    have hv : v.toNat ≤ 15 := h
    rw [BitVec.toNat_setWidth, Nat.mod_eq_of_lt (by omega), Nat.min_eq_left hv]
  · rename_i h
    have hv : ¬ v.toNat ≤ 15 := h
    rw [Nat.min_eq_right (by omega)]
    rfl

/-- `colorModelInfoWord` as a number: its fields at their places (R306). -/
theorem outInfoWord_toNat (p : Par) : (outInfoWord p).toNat =
    p.planeCount.toNat * 2 ^ 18 + (saturate4 p.chromaVShift).toNat * 2 ^ 14 +
      (saturate4 p.chromaHShift).toNat * 2 ^ 10 + p.alphaPlane.toNat * 2 ^ 9 + p.chromaPlanes.toNat * 2 ^ 8 +
      p.colorspaceType.toNat * 2 ^ 7 + p.bitsPerRawSample.toNat := by
  have hv := (saturate4 p.chromaVShift).isLt
  have hh := (saturate4 p.chromaHShift).isLt
  have hbit : ∀ b : Bool, (BitVec.ofBool b).toNat = b.toNat ∧ b.toNat < 2 ^ 1 := by decide
  change (0#11 ++ p.planeCount ++ saturate4 p.chromaVShift ++ saturate4 p.chromaHShift ++ BitVec.ofBool p.alphaPlane
    ++ BitVec.ofBool p.chromaPlanes ++ BitVec.ofBool p.colorspaceType ++ p.bitsPerRawSample).toNat = _
  simp only [BitVec.toNat_append, (hbit _).1, BitVec.toNat_ofNat]
  rw [← Nat.shiftLeft_add_eq_or_of_lt p.bitsPerRawSample.isLt, ← Nat.shiftLeft_add_eq_or_of_lt (hbit _).2,
    ← Nat.shiftLeft_add_eq_or_of_lt (hbit _).2, ← Nat.shiftLeft_add_eq_or_of_lt (hbit _).2,
    ← Nat.shiftLeft_add_eq_or_of_lt hh, ← Nat.shiftLeft_add_eq_or_of_lt hv,
    ← Nat.shiftLeft_add_eq_or_of_lt p.planeCount.isLt]
  simp only [Nat.shiftLeft_eq]
  omega

/-- The fields of `colorModelInfoWord`, from bit 0 up (R306). -/
theorem outInfoWord_fields (p : Par) :
    (outInfoWord p).extractLsb' 0 7 = p.bitsPerRawSample ∧ (outInfoWord p).getLsbD 7 = p.colorspaceType ∧
    (outInfoWord p).getLsbD 8 = p.chromaPlanes ∧ (outInfoWord p).getLsbD 9 = p.alphaPlane ∧
    (outInfoWord p).extractLsb' 10 4 = saturate4 p.chromaHShift ∧
    (outInfoWord p).extractLsb' 14 4 = saturate4 p.chromaVShift ∧
    (outInfoWord p).extractLsb' 18 3 = p.planeCount ∧ (outInfoWord p).extractLsb' 21 11 = 0 := by
  have hword := outInfoWord_toNat p
  have hraw := p.bitsPerRawSample.isLt
  have hcount := p.planeCount.isLt
  have hv := (saturate4 p.chromaVShift).isLt
  have hh := (saturate4 p.chromaHShift).isLt
  have hrgb := Bool.toNat_lt p.colorspaceType
  have hchroma := Bool.toNat_lt p.chromaPlanes
  have halpha := Bool.toNat_lt p.alphaPlane
  have field : ∀ (start len : Nat) (v : BitVec len), (outInfoWord p).toNat / 2 ^ start % 2 ^ len = v.toNat →
      (outInfoWord p).extractLsb' start len = v := fun start len v h => by
    apply BitVec.eq_of_toNat_eq
    rw [BitVec.extractLsb'_toNat, Nat.shiftRight_eq_div_pow, h]
  have bit : ∀ (n : Nat) (b : Bool), (outInfoWord p).toNat / 2 ^ n % 2 = b.toNat →
      (outInfoWord p).getLsbD n = b := fun n b h => by
    rw [BitVec.getLsbD, Nat.testBit_eq_decide_div_mod_eq, h]
    cases b <;> rfl
  exact ⟨field _ _ _ (by omega), bit _ _ (by omega), bit _ _ (by omega), bit _ _ (by omega),
    field _ _ _ (by omega), field _ _ _ (by omega), field _ _ _ (by omega), field _ _ _ (by simp; omega)⟩

theorem planeSize_zero (p : Par) (w h : Nat) : planeSize p w h 0 = ⟨w, h⟩ := by
  simp [planeSize, Par.present, Par.subsampled]

theorem planeSize_alpha (p : Par) (w h : Nat) :
    planeSize p w h 3 = if p.alphaPlane then ⟨w, h⟩ else ⟨0, 0⟩ := by
  cases halpha : p.alphaPlane <;> simp [planeSize, Par.present, Par.subsampled, halpha]

/-- The planes 1 and 2: whole in the RGB model, subsampled or absent in the YCbCr model (R77, R205, R207). -/
theorem planeSize_chroma (p : Par) (w h : Nat) {c : Fin 4} (hc : c = 1 ∨ c = 2) :
    planeSize p w h c =
      if p.colorspaceType then ⟨w, h⟩
      else if p.chromaPlanes then
        ⟨(w + 2 ^ p.chromaHShift.toNat - 1) / 2 ^ p.chromaHShift.toNat,
          (h + 2 ^ p.chromaVShift.toNat - 1) / 2 ^ p.chromaVShift.toNat⟩
      else ⟨0, 0⟩ := by
  rw [← ceilShift_eq, ← ceilShift_eq]
  rcases hc with rfl | rfl
  all_goals
    cases hrgb : p.colorspaceType <;> cases hchroma : p.chromaPlanes <;>
      simp [planeSize, Par.present, Par.subsampled, hrgb, hchroma]

/-- `OUT_CREATE` under a valid record (R306). -/
theorem exec_outCreate {s : State} (hvalid : s.par.valid = true) :
    exec .outCreate s = completeWith (outCreate s).outInfo (outCreate s) := by
  dsimp only [exec, execOutCreate]
  rw [checked_of _ _ _ hvalid]

/-- Settles O54, command by command. -/
theorem frameBookkeepingCommands : Obligations.FrameBookkeepingCommands := by
  intro s
  refine ⟨⟨tasksOf (!s.par.configPresent) 0 s.loc, tasksOf_length _ _ _, fun n l hl => ?_, fun hpool => ?_,
    fun hinline => ?_⟩, ⟨_, rfl, rfl⟩, ⟨_, rfl, rfl⟩, fun hvalid => ?_⟩
  · rw [tasksOf_getElem?, hl, Nat.zero_add]
    rfl
  · show complete (frDispatch s) = _
    rw [frDispatch_pool hpool, submitTasks_eq]
    rfl
  · show complete (frDispatch s) = _
    rw [frDispatch_inline hinline, submitTasks_eq]
    rfl
  · obtain ⟨hbits, hrgb, hchroma, halpha, hh, hv, hcount, hzero⟩ := outInfoWord_fields s.par
    refine ⟨(outCreate s).finish (some (outCreate s).outInfo), exec_outCreate hvalid, rfl, hbits, hrgb, hchroma,
      halpha, (congrArg BitVec.toNat hh).trans (saturate4_toNat _),
      (congrArg BitVec.toNat hv).trans (saturate4_toNat _), hcount, hzero, ?_⟩
    exact ⟨planeSize_zero _ _ _, planeSize_chroma _ _ _ (.inl rfl), planeSize_chroma _ _ _ (.inr rfl),
      planeSize_alpha _ _ _⟩

end Sys2Proof.Machine

/-! # What a slice writes into the sample store (R76, R203 to R212, R269) -/

namespace Sys2Proof.Machine

-- One theorem at a time: each that waits for the kernel holds a thread, and here they are many and short.
set_option Elab.async false

/-! ## Samples of a store -/

/-- Sample `(p, x, y)` of a sample store. -/
def sampleAt (m : List (Nat × Word)) (p : Fin 4) (x y : Nat) : Option Word := Store.lookup m (sampleKey p x y)

/-- From `m` to `m'` the samples inside get the given values, and the others stay. -/
structure Paints (inside : Fin 4 → Nat → Nat → Prop) (value : Fin 4 → Nat → Nat → Word)
    (m m' : List (Nat × Word)) : Prop where
  painted : ∀ {p x y}, inside p x y → sampleAt m' p x y = some (value p x y)
  kept : ∀ {p x y}, ¬ inside p x y → sampleAt m' p x y = sampleAt m p x y

section Paints

variable {I J : Fin 4 → Nat → Nat → Prop} {V : Fin 4 → Nat → Nat → Word} {m m' m'' : List (Nat × Word)}

/-- Nothing is painted. -/
theorem Paints.none (hI : ∀ p x y, ¬ I p x y) : Paints I V m m := ⟨fun h => absurd h (hI _ _ _), fun _ => rfl⟩

/-- What is painted first and what is painted then, from one picture. -/
theorem Paints.trans (h : Paints I V m m') (h' : Paints J V m' m'') :
    Paints (fun p x y => I p x y ∨ J p x y) V m m'' := by
  constructor
  · intro p x y hIJ
    by_cases hJ : J p x y
    · exact h'.painted hJ
    · exact (h'.kept hJ).trans (h.painted (hIJ.resolve_right hJ))
  · intro p x y hIJ
    rw [not_or] at hIJ
    exact (h'.kept hIJ.2).trans (h.kept hIJ.1)

theorem Paints.congr (h : Paints I V m m') (hIJ : ∀ p x y, I p x y ↔ J p x y) : Paints J V m m' :=
  ⟨fun hJ => h.painted ((hIJ _ _ _).2 hJ), fun hJ => h.kept fun hI => hJ ((hIJ _ _ _).1 hI)⟩

/-- One sample is painted. -/
theorem Paints.insert (m : List (Nat × Word)) {c : Fin 4} {x y : Nat} {v : Word} (hv : V c x y = v) :
    Paints (fun p a b => p = c ∧ a = x ∧ b = y) V m (Store.insert m (sampleKey c x y) v) := by
  constructor
  · rintro _ _ _ ⟨rfl, rfl, rfl⟩
    rw [sampleAt, lookup_insert_sample, if_pos ⟨rfl, rfl, rfl⟩, hv]
  · intro p a b hne
    rw [sampleAt, lookup_insert_sample, if_neg hne]
    rfl

end Paints

/-! ## Registers of the slice -/

theorem sampleStep_sl (i : SliceIn) (c : Fin 4) (x : Nat) (e : Engine) : (sampleStep i c x e).1.sl = e.sl := by
  unfold sampleStep
  dsimp only
  rw [delta_frame]
  rfl

theorem sampleStep_posY (i : SliceIn) (c : Fin 4) (x : Nat) (e : Engine) :
    (sampleStep i c x e).1.posY = e.posY := by
  unfold sampleStep
  dsimp only
  rw [delta_frame]
  rfl

/-- A sample lies within the mask (R203). -/
theorem sampleStep_masked (i : SliceIn) (c : Fin 4) (x : Nat) (e : Engine) :
    (sampleStep i c x e).2 &&& i.par.bitsMask = (sampleStep i c x e).2 := by
  unfold sampleStep
  dsimp only
  rw [BitVec.and_assoc, BitVec.and_self]

theorem startLine_sl (i : SliceIn) (c : Fin 4) (y : Nat) (e : Engine) : (startLine i c y e).sl = e.sl := by
  unfold startLine
  dsimp only
  split <;> rfl

theorem startLine_posY (i : SliceIn) (c : Fin 4) (y : Nat) (e : Engine) : (startLine i c y e).posY = y := by
  unfold startLine
  dsimp only
  split <;> rfl

theorem rowEngine_sl (i : SliceIn) (c : Fin 4) (e : Engine) (n : Nat) : (rowEngine i c e n).sl = e.sl := by
  induction n with
  | zero => rfl
  | succ n ih => exact (sampleStep_sl i c n _).trans ih

theorem rowEngine_posY (i : SliceIn) (c : Fin 4) (e : Engine) (n : Nat) : (rowEngine i c e n).posY = e.posY := by
  induction n with
  | zero => rfl
  | succ n ih => exact (sampleStep_posY i c n _).trans ih

theorem lineEngine_sl (i : SliceIn) (c : Fin 4) (y : Nat) (e : Engine) : (lineEngine i c y e).sl = e.sl :=
  (rowEngine_sl i c _ _).trans (startLine_sl i c y e)

theorem planeRows_sl (i : SliceIn) (c : Fin 4) (e : Engine) (n : Nat) : (planeRows i c e n).sl = e.sl := by
  induction n with
  | zero => rfl
  | succ n ih => exact (lineEngine_sl i c n _).trans ih

theorem startPlanes_sl (i : SliceIn) (which : Fin 4 → Bool) (e : Engine) : (startPlanes i which e).sl = e.sl := by
  unfold startPlanes
  split <;> rfl

theorem planeEngine_sl (i : SliceIn) (c : Fin 4) (e : Engine) : (planeEngine i c e).sl = e.sl :=
  (planeRows_sl i c _ _).trans (startPlanes_sl i _ e)

theorem rgbRow_sl (i : SliceIn) (y : Nat) (e : Engine) (n : Nat) : (rgbRow i y e n).sl = e.sl := by
  induction n with
  | zero => rfl
  | succ n ih => exact (lineEngine_sl i _ y _).trans ih

theorem rgbRows_sl (i : SliceIn) (e : Engine) (n : Nat) : (rgbRows i e n).sl = e.sl := by
  induction n with
  | zero => rfl
  | succ n ih => exact (rgbRow_sl i n _ _).trans ih

/-- The planes in order leave the registers of the slice. -/
theorem planes_sl (i : SliceIn) (cs : List (Fin 4)) (e : Engine) :
    (cs.foldl (fun f c => planeEngine i c f) e).sl = e.sl := by
  induction cs generalizing e with
  | nil => rfl
  | cons c cs ih => exact (ih _).trans (planeEngine_sl i c e)

/-- The planes of a slice leave its registers (R269). -/
theorem contentEngine_sl (i : SliceIn) (e : Engine) : (contentEngine i e).sl = e.sl := by
  unfold contentEngine
  split
  · exact (rgbRows_sl i _ _).trans (startPlanes_sl i _ e)
  · exact planes_sl i _ e

/-! ## Lines and planes -/

/-- A value for every sample: what a decode is to paint. -/
abbrev Picture := Fin 4 → Nat → Nat → Word

/-- A sample paints its column of the row that `POS` names (R204). -/
theorem smpDec_paints {i : SliceIn} {c : Fin 4} {x : Nat} {V : Picture} {st : SliceSt}
    (hV : V c ((region i.par st.eng.sl c).ox + x) ((region i.par st.eng.sl c).oy + st.eng.posY) =
      (sampleStep i c x st.eng).2) :
    Paints (fun p a b => p = c ∧ a = (region i.par st.eng.sl c).ox + x ∧
      b = (region i.par st.eng.sl c).oy + st.eng.posY) V st.plane (smpDec i c x st).1.plane := by
  have hstep := smpDec_step i c x st
  dsimp only at hstep
  rw [hstep]
  exact .insert _ hV

/-- Samples from column `x` on, `n` of them: the picture at each is the sample of the row decoded from `e`. -/
theorem smpLoop_paints {i : SliceIn} {c : Fin 4} {e : Engine} {V : Picture} {n x : Nat} {st : SliceSt}
    (hst : st.eng = rowEngine i c e x)
    (hV : ∀ a, x ≤ a → a < x + n →
      V c ((region i.par e.sl c).ox + a) ((region i.par e.sl c).oy + e.posY) =
        (sampleStep i c a (rowEngine i c e a)).2) :
    Paints (fun p a b => p = c ∧ (region i.par e.sl c).ox + x ≤ a ∧ a < (region i.par e.sl c).ox + x + n ∧
      b = (region i.par e.sl c).oy + e.posY) V st.plane (smpLoop i c n x st).plane := by
  induction n generalizing x st with
  | zero => exact .none fun _ _ _ h => by omega
  | succ n ih =>
    have hfirst := smpDec_paints (i := i) (c := c) (x := x) (V := V) (st := st)
    rw [hst, rowEngine_sl, rowEngine_posY] at hfirst
    have hfirst := hfirst (hV x (Nat.le_refl x) (by omega))
    have hrest := ih (x := x + 1) (st := (smpDec i c x st).1) (by rw [smpDec_eng, hst]; rfl)
      fun a h1 h2 => hV a (by omega) (by omega)
    refine (hfirst.trans hrest).congr fun p a b => ?_
    constructor
    · rintro (⟨rfl, rfl, rfl⟩ | ⟨rfl, h1, h2, rfl⟩)
      · exact ⟨rfl, Nat.le_refl _, by omega, rfl⟩
      · exact ⟨rfl, by omega, by omega, rfl⟩
    · rintro ⟨rfl, h1, h2, rfl⟩
      by_cases ha : a = (region i.par e.sl p).ox + x
      · exact .inl ⟨rfl, ha, rfl⟩
      · exact .inr ⟨rfl, by omega, by omega, rfl⟩

/-- A line paints its row of the region (R206). -/
theorem lineDec_paints {i : SliceIn} {c : Fin 4} {y : Nat} {V : Picture} {st : SliceSt}
    (hV : ∀ x, x < (region i.par st.eng.sl c).w →
      V c ((region i.par st.eng.sl c).ox + x) ((region i.par st.eng.sl c).oy + y) = lineSample i c y x st.eng) :
    Paints (fun p a b => p = c ∧ (region i.par st.eng.sl c).ox ≤ a ∧
        a < (region i.par st.eng.sl c).ox + (region i.par st.eng.sl c).w ∧ b = (region i.par st.eng.sl c).oy + y)
      V st.plane (lineDec i c y st).plane := by
  have h := smpLoop_paints (i := i) (c := c) (e := startLine i c y st.eng) (V := V)
    (n := (region i.par st.eng.sl c).w) (x := 0) (st := { st with eng := startLine i c y st.eng }) rfl
  rw [startLine_sl, startLine_posY] at h
  exact h fun a _ ha => hV a (by omega)

/-- Lines from `y` on, `n` of them (R208). -/
theorem lineLoop_paints {i : SliceIn} {c : Fin 4} {e : Engine} {V : Picture} {n y : Nat} {st : SliceSt}
    (hst : st.eng = planeRows i c e y)
    (hV : ∀ b x, y ≤ b → b < y + n → x < (region i.par e.sl c).w →
      V c ((region i.par e.sl c).ox + x) ((region i.par e.sl c).oy + b) =
        lineSample i c b x (planeRows i c e b)) :
    Paints (fun p a b => p = c ∧ (region i.par e.sl c).ox ≤ a ∧
        a < (region i.par e.sl c).ox + (region i.par e.sl c).w ∧
        (region i.par e.sl c).oy + y ≤ b ∧ b < (region i.par e.sl c).oy + y + n)
      V st.plane (lineLoop i c n y st).plane := by
  induction n generalizing y st with
  | zero => exact .none fun _ _ _ h => by omega
  | succ n ih =>
    have hsl : st.eng.sl = e.sl := by rw [hst, planeRows_sl]
    have hfirst := lineDec_paints (i := i) (c := c) (y := y) (V := V) (st := st)
    rw [hsl] at hfirst
    have hfirst := hfirst fun x hx => by rw [hV y x (Nat.le_refl y) (by omega) hx, hst]
    have hrest := ih (y := y + 1) (st := lineDec i c y st) (by rw [lineDec_eng, hst]; rfl)
      fun b x h1 h2 => hV b x (by omega) (by omega)
    refine (hfirst.trans hrest).congr fun p a b => ?_
    constructor
    · rintro (⟨rfl, h1, h2, rfl⟩ | ⟨rfl, h1, h2, h3, h4⟩)
      · exact ⟨rfl, h1, h2, by omega, by omega⟩
      · exact ⟨rfl, h1, h2, by omega, by omega⟩
    · rintro ⟨rfl, h1, h2, h3, h4⟩
      by_cases hb : b = (region i.par e.sl p).oy + y
      · exact .inl ⟨rfl, h1, h2, hb⟩
      · exact .inr ⟨rfl, h1, h2, by omega, by omega⟩

/-- A plane paints its region (R208). -/
theorem planeDec_paints {i : SliceIn} {c : Fin 4} {V : Picture} {st : SliceSt}
    (hV : ∀ y x, y < (region i.par st.eng.sl c).h → x < (region i.par st.eng.sl c).w →
      V c ((region i.par st.eng.sl c).ox + x) ((region i.par st.eng.sl c).oy + y) =
        lineSample i c y x (planeRows i c (startPlanes i (· == c) st.eng) y)) :
    Paints (inRegion i.par st.eng.sl c) V st.plane (planeDec i c st).plane := by
  have h := lineLoop_paints (i := i) (c := c) (e := startPlanes i (· == c) st.eng) (V := V)
    (n := (region i.par st.eng.sl c).h) (y := 0) (st := { st with eng := startPlanes i (· == c) st.eng }) rfl
  rw [startPlanes_sl] at h
  exact (h fun b x _ hb hx => hV b x (by omega) hx)

/-! ## The planes of a slice, one behind the other -/

/-- The engine before plane `p`, when the planes `cs` are decoded in their order (R209). -/
def engineBefore (i : SliceIn) (cs : List (Fin 4)) (p : Fin 4) (e : Engine) : Engine :=
  (cs.takeWhile (· != p)).foldl (fun f c => planeEngine i c f) e

theorem engineBefore_head (i : SliceIn) (c : Fin 4) (cs : List (Fin 4)) (e : Engine) :
    engineBefore i (c :: cs) c e = e := by
  rw [engineBefore, List.takeWhile_cons_of_neg (by simp)]
  rfl

theorem engineBefore_tail (i : SliceIn) {c p : Fin 4} (cs : List (Fin 4)) (e : Engine) (h : c ≠ p) :
    engineBefore i (c :: cs) p e = engineBefore i cs p (planeEngine i c e) := by
  rw [engineBefore, List.takeWhile_cons_of_pos (by simpa using h)]
  rfl

/-- Planes without repetition paint their regions, each from the engine that the planes before it leave (R209). -/
theorem planes_paint {i : SliceIn} {cs : List (Fin 4)} {V : Picture} {st : SliceSt} (hcs : cs.Nodup)
    (hV : ∀ p ∈ cs, ∀ y x, y < (region i.par st.eng.sl p).h → x < (region i.par st.eng.sl p).w →
      V p ((region i.par st.eng.sl p).ox + x) ((region i.par st.eng.sl p).oy + y) =
        lineSample i p y x (planeRows i p (startPlanes i (· == p) (engineBefore i cs p st.eng)) y)) :
    Paints (fun p a b => p ∈ cs ∧ inRegion i.par st.eng.sl p p a b) V st.plane
      (cs.foldl (fun st c => planeDec i c st) st).plane := by
  induction cs generalizing st with
  | nil => exact .none fun _ _ _ h => List.not_mem_nil h.1
  | cons c cs ih =>
    obtain ⟨hc, hcs⟩ := List.nodup_cons.1 hcs
    have hfirst := planeDec_paints (i := i) (c := c) (V := V) (st := st) fun y x hy hx => by
      rw [hV c List.mem_cons_self y x hy hx, engineBefore_head]
    have hsl : (planeDec i c st).eng.sl = st.eng.sl := by rw [planeDec_eng, planeEngine_sl]
    have hrest := ih (st := planeDec i c st) hcs
    rw [hsl] at hrest
    have hrest := hrest fun p hp y x hy hx => by
      have hne : c ≠ p := by
        rintro rfl
        exact hc hp
      rw [hV p (List.mem_cons_of_mem c hp) y x hy hx, planeDec_eng, engineBefore_tail i cs st.eng hne]
    refine (hfirst.trans hrest).congr fun p a b => ?_
    constructor
    · rintro (⟨rfl, hin⟩ | ⟨hp, hin⟩)
      · exact ⟨List.mem_cons_self, rfl, hin⟩
      · exact ⟨List.mem_cons_of_mem c hp, hin⟩
    · rintro ⟨hp, hin⟩
      rcases List.mem_cons.1 hp with rfl | hp
      · exact .inl hin
      · exact .inr ⟨hp, hin⟩

/-- The planes of a YCbCr slice are those that are present (R205, R209). -/
theorem mem_ycbcrPlanes {par : Par} (hyuv : par.colorspaceType = false) (c : Fin 4) :
    c ∈ ycbcrPlanes par ↔ par.present c = true := by
  unfold ycbcrPlanes
  match c with
  | 0 => simp [Par.present]
  | 1 => cases hchroma : par.chromaPlanes <;> simp [Par.present, hyuv, hchroma]
  | 2 => cases hchroma : par.chromaPlanes <;> simp [Par.present, hyuv, hchroma]
  | 3 => cases halpha : par.alphaPlane <;> simp [Par.present, halpha]

theorem ycbcrPlanes_nodup (par : Par) : (ycbcrPlanes par).Nodup := by
  unfold ycbcrPlanes
  cases par.chromaPlanes <;> cases par.alphaPlane <;> decide

theorem decodePlanes_ycbcr {i : SliceIn} (hyuv : i.par.colorspaceType = false) (st : SliceSt) :
    decodePlanes i st = (ycbcrPlanes i.par).foldl (fun st c => planeDec i c st) st := by
  unfold decodePlanes ycbcrPlanes
  rw [hyuv]
  cases i.par.chromaPlanes <;> cases i.par.alphaPlane <;> rfl

/-! ## The planes of a slice, line by line -/

theorem firstPlanes_succ {n : Nat} (h : n < 4) :
    ([0, 1, 2, 3] : List (Fin 4)).take (n + 1) = ([0, 1, 2, 3] : List (Fin 4)).take n ++ [Fin.ofNat 4 n] := by
  revert n
  decide

/-- Row `y` of the first `n` planes, each line from the engine that the planes before it leave (R212). -/
theorem rgbLine_paints {i : SliceIn} {y n : Nat} {V : Picture} {st : SliceSt} (hn : n ≤ 4)
    (hV : ∀ (p : Fin 4) (x : Nat), p.val < n → x < (region i.par st.eng.sl p).w →
      V p ((region i.par st.eng.sl p).ox + x) ((region i.par st.eng.sl p).oy + y) =
        lineSample i p y x (rgbRow i y st.eng p.val)) :
    Paints (fun p a b => p.val < n ∧ (region i.par st.eng.sl p).ox ≤ a ∧
        a < (region i.par st.eng.sl p).ox + (region i.par st.eng.sl p).w ∧ b = (region i.par st.eng.sl p).oy + y)
      V st.plane (rgbLine i y ([0, 1, 2, 3].take n) st).plane := by
  induction n with
  | zero => exact .none fun _ _ _ h => by omega
  | succ n ih =>
    have hfirst := ih (by omega) fun p x hp => hV p x (by omega)
    have heng := rgbLine_eng i y n st
    rw [Nat.min_eq_left (by omega)] at heng
    have hc : (Fin.ofNat 4 n).val = n := Nat.mod_eq_of_lt (by omega)
    have hline := lineDec_paints (i := i) (c := Fin.ofNat 4 n) (y := y) (V := V)
      (st := rgbLine i y ([0, 1, 2, 3].take n) st)
    rw [heng, rgbRow_sl] at hline
    have hline := hline fun x hx => by rw [hV _ x (by omega) hx, hc]
    have hsplit : rgbLine i y ([0, 1, 2, 3].take (n + 1)) st =
        lineDec i (Fin.ofNat 4 n) y (rgbLine i y ([0, 1, 2, 3].take n) st) := by
      rw [firstPlanes_succ (by omega), rgbLine, List.foldl_append]
      rfl
    rw [hsplit]
    refine (hfirst.trans hline).congr fun p a b => ?_
    constructor
    · rintro (⟨hp, hin⟩ | ⟨rfl, hin⟩)
      · exact ⟨by omega, hin⟩
      · exact ⟨by omega, hin⟩
    · rintro ⟨hp, hin⟩
      by_cases hpn : p.val = n
      · obtain rfl : p = Fin.ofNat 4 n := Fin.ext (hpn.trans hc.symm)
        exact .inr ⟨rfl, hin⟩
      · exact .inl ⟨by omega, hin⟩

/-- Rows from `y` on, `n` of them, the planes interleaved line by line (R212). -/
theorem rgbLoop_paints {i : SliceIn} {e : Engine} {V : Picture} {n y : Nat} {st : SliceSt}
    (hst : st.eng = rgbRows i e y)
    (hV : ∀ (p : Fin 4) (b x : Nat), p.val < i.par.planeCount.toNat → y ≤ b → b < y + n →
      x < (region i.par e.sl p).w →
      V p ((region i.par e.sl p).ox + x) ((region i.par e.sl p).oy + b) =
        lineSample i p b x (rgbRow i b (rgbRows i e b) p.val)) :
    Paints (fun p a b => p.val < i.par.planeCount.toNat ∧ (region i.par e.sl p).ox ≤ a ∧
        a < (region i.par e.sl p).ox + (region i.par e.sl p).w ∧
        (region i.par e.sl p).oy + y ≤ b ∧ b < (region i.par e.sl p).oy + y + n)
      V st.plane (rgbLoop i ([0, 1, 2, 3].take i.par.planeCount.toNat) n y st).plane := by
  induction n generalizing y st with
  | zero => exact .none fun _ _ _ h => by omega
  | succ n ih =>
    have hsl : st.eng.sl = e.sl := by rw [hst, rgbRows_sl]
    have hfour : ([0, 1, 2, 3] : List (Fin 4)).take i.par.planeCount.toNat =
        [0, 1, 2, 3].take (min i.par.planeCount.toNat 4) := List.take_eq_take_min
    have hfirst := rgbLine_paints (i := i) (y := y) (n := min i.par.planeCount.toNat 4) (V := V) (st := st)
      (by omega)
    rw [hsl, ← hfour] at hfirst
    have hfirst := hfirst fun p x hp hx => by rw [hV p y x (by omega) (Nat.le_refl y) (by omega) hx, hst]
    have hrest := ih (y := y + 1) (st := rgbLine i y ([0, 1, 2, 3].take i.par.planeCount.toNat) st)
      (by rw [rgbLine_eng, hst]; rfl) fun p b x hp h1 h2 => hV p b x hp (by omega) (by omega)
    refine (hfirst.trans hrest).congr fun p a b => ?_
    have hp4 := p.isLt
    constructor
    · rintro (⟨hp, h1, h2, rfl⟩ | ⟨hp, h1, h2, h3, h4⟩)
      · exact ⟨by omega, h1, h2, by omega, by omega⟩
      · exact ⟨hp, h1, h2, by omega, by omega⟩
    · rintro ⟨hp, h1, h2, h3, h4⟩
      by_cases hb : b = (region i.par e.sl p).oy + y
      · exact .inl ⟨by omega, h1, h2, hb⟩
      · exact .inr ⟨hp, h1, h2, by omega, by omega⟩

/-- In the RGB model every plane has the height of the slice (R207). -/
theorem region_h_rgb {par : Par} (hrgb : par.colorspaceType = true) (sl : Sl) (c : Fin 4) :
    (region par sl c).h = sl.h := by
  simp [region, Par.subsampled, hrgb]

/-! ## The content of a slice -/

/-- What the planes of a slice paint, when `e` is the engine before them (R269). -/
def contentPicture (i : SliceIn) (e : Engine) : Picture := fun p a b =>
  contentSample i p (b - (region i.par e.sl p).oy) (a - (region i.par e.sl p).ox) e

theorem contentPicture_at (i : SliceIn) (e : Engine) (p : Fin 4) (x y : Nat) :
    contentPicture i e p ((region i.par e.sl p).ox + x) ((region i.par e.sl p).oy + y) =
      contentSample i p y x e := by
  rw [contentPicture, Nat.add_sub_cancel_left, Nat.add_sub_cancel_left]

/-- A sample of the content lies within the mask (R203). -/
theorem contentSample_masked (i : SliceIn) (c : Fin 4) (y x : Nat) (e : Engine) :
    contentSample i c y x e &&& i.par.bitsMask = contentSample i c y x e := by
  unfold contentSample
  split
  · exact sampleStep_masked i c x _
  · exact sampleStep_masked i c x _

/-- The planes of a slice paint the region in every decoded plane, and nothing else (R76, R269). -/
theorem decodePlanes_paints (i : SliceIn) (st : SliceSt) :
    Paints (fun p a b => decodesPlane i.par p ∧ inRegion i.par st.eng.sl p p a b) (contentPicture i st.eng)
      st.plane (decodePlanes i st).plane := by
  cases hmodel : i.par.colorspaceType with
  | true =>
    have h := rgbLoop_paints (i := i) (e := rgbStart i st.eng) (V := contentPicture i st.eng) (n := st.eng.sl.h)
      (y := 0) (st := { st with eng := rgbStart i st.eng }) rfl
    have hsl : (rgbStart i st.eng).sl = st.eng.sl := startPlanes_sl i _ st.eng
    rw [hsl] at h
    have h := h fun p b x _ _ _ _ => by
      rw [contentPicture_at, contentSample, hmodel, if_pos rfl]
    rw [decodePlanes, hmodel, if_pos rfl]
    refine h.congr fun p a b => ?_
    simp only [decodesPlane, hmodel, if_true, inRegion, region_h_rgb hmodel, Nat.add_zero, true_and]
  | false =>
    have h := planes_paint (i := i) (V := contentPicture i st.eng) (st := st) (ycbcrPlanes_nodup i.par)
      fun p _ y x _ _ => by
        rw [contentPicture_at, contentSample, hmodel, if_neg Bool.false_ne_true]
        rfl
    rw [decodePlanes_ycbcr hmodel]
    refine h.congr fun p a b => ?_
    rw [mem_ycbcrPlanes hmodel, decodesPlane, hmodel, if_neg Bool.false_ne_true]

end Sys2Proof.Machine

/-! # The CRC is the remainder of a division of polynomials (R72, R265) -/

namespace Sys2Proof.Machine

-- One theorem at a time: each that waits for the kernel holds a thread, and here they are many and short.
set_option Elab.async false

/-- Multiplication by `x` modulo the polynomial: one shift of the CRC register (R72). -/
def timesX (c : Word) : Word := if c.msb then (c <<< 1) ^^^ Config.crcPoly else c <<< 1

theorem crcShifts_succ (n : Nat) (c : Word) : crcShifts (n + 1) c = crcShifts n (timesX c) := rfl

theorem timesX_xor (a b : Word) : timesX (a ^^^ b) = timesX a ^^^ timesX b := by
  unfold timesX
  rw [BitVec.msb_xor, BitVec.shiftLeft_xor_distrib]
  generalize a <<< 1 = a', b <<< 1 = b', Config.crcPoly = p
  cases a.msb <;> cases b.msb
  · rfl
  · simp [BitVec.xor_assoc]
  · simp [BitVec.xor_assoc, BitVec.xor_comm b' p]
  · have hp : (a' ^^^ p) ^^^ (b' ^^^ p) = (a' ^^^ b') ^^^ (p ^^^ p) := by ac_rfl
    simp [hp]

/-- Shifting is linear. -/
theorem crcShifts_xor (n : Nat) (a b : Word) : crcShifts n (a ^^^ b) = crcShifts n a ^^^ crcShifts n b := by
  induction n generalizing a b with
  | zero => rfl
  | succ n ih => rw [crcShifts_succ, timesX_xor, ih, crcShifts_succ, crcShifts_succ]

theorem crcShifts_add (m n : Nat) (c : Word) : crcShifts (m + n) c = crcShifts n (crcShifts m c) := by
  induction m generalizing c with
  | zero => rw [Nat.zero_add]; rfl
  | succ m ih => rw [Nat.add_right_comm, crcShifts_succ, crcShifts_succ, ih]

/-- A polynomial of low degree is shifted without a reduction. -/
theorem crcShifts_small {n : Nat} {c : Word} (h : c.toNat * 2 ^ n < 2 ^ 32) : crcShifts n c = c <<< n := by
  induction n generalizing c with
  | zero => rw [BitVec.shiftLeft_zero]; rfl
  | succ n ih =>
    have hdouble : c.toNat * 2 * 2 ^ n < 2 ^ 32 := by rwa [Nat.mul_assoc, ← Nat.pow_succ']
    have hpos : 0 < 2 ^ n := Nat.two_pow_pos n
    have hsmall : c.toNat * 2 < 2 ^ 32 := lt_of_le_of_lt (Nat.le_mul_of_pos_right _ hpos) hdouble
    have hmsb : c.msb = false := by
      rw [BitVec.msb_eq_decide]
      exact decide_eq_false (by omega)
    have hnat : (c <<< 1).toNat = c.toNat * 2 := by
      rw [BitVec.toNat_shiftLeft, Nat.shiftLeft_eq, Nat.mod_eq_of_lt (by omega)]
    have hone : timesX c = c <<< 1 := by
      rw [timesX, hmsb]
      rfl
    rw [crcShifts_succ, hone, ih (by rw [hnat]; exact hdouble), ← BitVec.shiftLeft_add, Nat.add_comm]

theorem crcShifts_zero (n : Nat) : crcShifts n 0 = 0 := by
  rw [crcShifts_small (by simp)]
  exact BitVec.zero_shiftLeft n

/-- One bit enters the register of the division at the low end (R72). -/
def divideBit (c : Word) (b : Bool) : Word :=
  let c' := c <<< 1 ||| bitWord b
  if c.msb then c' ^^^ 0x04C11DB7 else c'

theorem polyRemainder_eq (bits : List Bool) : polyRemainder bits = bits.foldl divideBit 0 := rfl

theorem shiftLeft_one_or_bit (c : Word) (b : Bool) :
    c <<< 1 ||| bitWord b = c <<< 1 ^^^ bitWord b := by
  cases b
  · exact BitVec.or_zero.trans BitVec.xor_zero.symm
  · ext j hj
    cases j <;> simp [bitWord]

theorem divideBit_eq (c : Word) (b : Bool) : divideBit c b = timesX c ^^^ bitWord b := by
  unfold divideBit timesX
  dsimp only
  rw [shiftLeft_one_or_bit]
  have hpoly : Config.crcPoly = 0x04C11DB7 := rfl
  rw [hpoly]
  split
  · rw [BitVec.xor_assoc, BitVec.xor_assoc, BitVec.xor_comm (bitWord b)]
  · rfl

/-- The start of the register and the bits that enter add up. -/
theorem foldl_divideBit (bits : List Bool) (c : Word) :
    bits.foldl divideBit c = crcShifts bits.length c ^^^ bits.foldl divideBit 0 := by
  have hzero : timesX 0 = 0 := by decide
  induction bits generalizing c with
  | nil => simp [crcShifts]
  | cons b bits ih =>
    rw [List.foldl_cons, List.foldl_cons, ih (divideBit c b), ih (divideBit 0 b), divideBit_eq, divideBit_eq, hzero,
      crcShifts_xor, crcShifts_xor, List.length_cons, crcShifts_succ]
    have hzero' : (0 : Word) ^^^ crcShifts bits.length (bitWord b) = _ := BitVec.zero_xor
    rw [crcShifts_zero, BitVec.xor_assoc, hzero']

/-- The bits of a byte, bit 7 first (R72). -/
def byteBits (v : Byte) : List Bool := (List.range 8).map fun j => v.getLsbD (7 - j)

theorem divide_byteBits (v : Byte) : (byteBits v).foldl divideBit 0 = v.setWidth 32 := by
  revert v
  decide +kernel

/-- `n` zero bits multiply by `x^n`. -/
theorem divide_zeros (n : Nat) (c : Word) : (List.replicate n false).foldl divideBit c = crcShifts n c := by
  induction n generalizing c with
  | zero => rfl
  | succ n ih =>
    rw [List.replicate_succ, List.foldl_cons, ih, divideBit_eq, crcShifts_succ]
    exact congrArg (crcShifts n) BitVec.xor_zero

theorem bufferBits_succ (im : List Host.Cell) (a n : Nat) :
    bufferBits im a (n + 1) = byteBits (inByte im a) ++ bufferBits im (a + 1) n := by
  show ((List.range (n + 1)).flatMap fun k => byteBits (inByte im (a + k))) =
    byteBits (inByte im a) ++ (List.range n).flatMap fun k => byteBits (inByte im (a + 1 + k))
  rw [List.range_succ_eq_map, List.flatMap_cons, List.flatMap_map]
  simp only [Nat.add_zero, Nat.succ_eq_add_one, Nat.add_assoc, Nat.add_comm 1]

/-- A byte moves through the division, then times `x^32`, as through the CRC register: its bits enter the register
32 places higher (R72). -/
theorem crcShifts_byte (c : Word) (v : Byte) :
    crcShifts 32 ((byteBits v).foldl divideBit c) =
      crcShifts 8 (crcShifts 32 c ^^^ (crcOrder v).setWidth 32 <<< 24) := by
  have hv := v.isLt
  have hsmall : crcShifts 24 (v.setWidth 32) = v.setWidth 32 <<< 24 := crcShifts_small (by
    rw [BitVec.toNat_setWidth, Nat.mod_eq_of_lt (by omega)]
    omega)
  rw [foldl_divideBit, divide_byteBits, crcShifts_xor, crcShifts_xor, crcOrder_default, ← hsmall,
    ← crcShifts_add 24 8, show (byteBits v).length = 8 from rfl, ← crcShifts_add, ← crcShifts_add]

theorem crcBytes_eq (im : List Host.Cell) (n a : Nat) (c : Word) :
    crcBytes im n a (crcShifts 32 c) = crcShifts 32 ((bufferBits im a n).foldl divideBit c) := by
  induction n generalizing a c with
  | zero => rfl
  | succ n ih => rw [bufferBits_succ, List.foldl_append, ← ih, crcShifts_byte]; rfl

/-- `SL_CRC` is the remainder of the buffer's bits times `x^32` (R72, R265). -/
theorem slCrc_eq (im : List Host.Cell) (sl : Sl) :
    slCrc im sl = polyRemainder
      (bufferBits im sl.bufBeg.toNat (sl.bufEnd.toNat - sl.bufBeg.toNat) ++ List.replicate 32 false) := by
  have hinit : crcShifts 32 0 = Config.crcInit := crcShifts_zero 32
  have hxor : ∀ c : Word, crcOrder c ^^^ Config.crcXorOut = c := fun c => BitVec.xor_zero
  rw [slCrc, hxor, ← hinit, crcBytes_eq, polyRemainder_eq, List.foldl_append, divide_zeros]

end Sys2Proof.Machine

/-! # The content and the run of a slice (R262 to R273) -/

namespace Sys2Proof.Machine

-- One theorem at a time: each that waits for the kernel holds a thread, and here they are many and short.
set_option Elab.async false

/-! ## The parts of a sample store that a slice fills -/

/-- Two settings of the slice registers give every plane the same region (R207). -/
def SameRegion (sl sl' : Sl) : Prop := ∀ (par : Par) (c : Fin 4), region par sl' c = region par sl c

theorem SameRegion.trans {a b c : Sl} (h : SameRegion a b) (h' : SameRegion b c) : SameRegion a c :=
  fun par p => (h' par p).trans (h par p)

theorem SameRegion.inRegion {sl sl' : Sl} (h : SameRegion sl sl') (par : Par) (c p : Fin 4) (x y : Nat) :
    inRegion par sl' c p x y ↔ inRegion par sl c p x y := by
  unfold Machine.inRegion
  rw [h]

/-- A sample has a value within the mask of the record. -/
def HasSample (par : Par) (m : List (Nat × Word)) (p : Fin 4) (x y : Nat) : Prop :=
  ∃ v, sampleAt m p x y = some v ∧ v &&& par.bitsMask = v

/-- Every sample of the region has a value, in every decoded plane: `regionFilled` of a store. -/
def Fills (par : Par) (sl : Sl) (m : List (Nat × Word)) : Prop :=
  ∀ p x y, decodesPlane par p → inRegion par sl p p x y → HasSample par m p x y

theorem regionFilled_iff (par : Par) (sl : Sl) (t : State) : regionFilled par sl t ↔ Fills par sl t.plane := Iff.rfl

theorem Fills.congr {par : Par} {sl sl' : Sl} {m : List (Nat × Word)} (h : Fills par sl m)
    (hsl : SameRegion sl sl') : Fills par sl' m :=
  fun p x y hp hin => h p x y hp ((hsl.inRegion par p p x y).1 hin)

/-- Samples change only inside the region, to values within the mask. -/
def PaintsWithin (par : Par) (sl : Sl) (m m' : List (Nat × Word)) : Prop :=
  ∀ p x y, sampleAt m' p x y = sampleAt m p x y ∨ (inRegion par sl p p x y ∧ HasSample par m' p x y)

theorem PaintsWithin.refl (par : Par) (sl : Sl) (m : List (Nat × Word)) : PaintsWithin par sl m m :=
  fun _ _ _ => .inl rfl

theorem PaintsWithin.congr {par : Par} {sl sl' : Sl} {m m' : List (Nat × Word)} (h : PaintsWithin par sl m m')
    (hsl : SameRegion sl sl') : PaintsWithin par sl' m m' := fun p x y =>
  (h p x y).imp_right fun hin => ⟨(hsl.inRegion par p p x y).2 hin.1, hin.2⟩

theorem PaintsWithin.outside {par : Par} {sl : Sl} {m m' : List (Nat × Word)} (h : PaintsWithin par sl m m')
    {p : Fin 4} {x y : Nat} (hout : ¬ inRegion par sl p p x y) : sampleAt m' p x y = sampleAt m p x y :=
  (h p x y).resolve_right fun hin => hout hin.1

/-- The planes of a slice fill its region (R76, R269). -/
theorem decodePlanes_fills (i : SliceIn) (st : SliceSt) : Fills i.par st.eng.sl (decodePlanes i st).plane :=
  fun _ _ _ hp hin => ⟨_, (decodePlanes_paints i st).painted ⟨hp, hin⟩, contentSample_masked i _ _ _ _⟩

theorem decodePlanes_within (i : SliceIn) (st : SliceSt) :
    PaintsWithin i.par st.eng.sl st.plane (decodePlanes i st).plane := by
  intro p x y
  by_cases h : decodesPlane i.par p ∧ inRegion i.par st.eng.sl p p x y
  · exact .inr ⟨h.2, decodePlanes_fills i st p x y h.1 h.2⟩
  · exact .inl ((decodePlanes_paints i st).kept h)

/-- Each sample of the region is the one decoded for its place (R269). -/
theorem decodePlanes_sample (i : SliceIn) (st : SliceSt) {c : Fin 4} {x y : Nat} (hc : decodesPlane i.par c)
    (hx : x < (region i.par st.eng.sl c).w) (hy : y < (region i.par st.eng.sl c).h) :
    sampleAt (decodePlanes i st).plane c ((region i.par st.eng.sl c).ox + x) ((region i.par st.eng.sl c).oy + y) =
      some (contentSample i c y x st.eng) := by
  rw [(decodePlanes_paints i st).painted ⟨hc, rfl, by omega, by omega, by omega, by omega⟩, contentPicture_at]

/-! ## The content -/

/-- The ending marker and the sentinel are one decision over `TS`, which holds 129 (R267, R268). -/
theorem markerDecision_eq (im : List Host.Cell) (e : Engine) :
    markerDecision im e = (rcBit im .ts (e.setState .ts 129)).1 := rfl

theorem markerDecision_sl (im : List Host.Cell) (e : Engine) : (markerDecision im e).sl = e.sl := by
  rw [markerDecision_eq, (rcBit_onlyDecisions im .ts _).2]
  rfl

/-- The decision before the Golomb-Rice part, where the sentinel is present (R268). -/
def sentinelRead (i : SliceIn) (e : Engine) : Engine :=
  if hasSentinel i.par then markerDecision i.im e else e

theorem sentinelRead_sl (i : SliceIn) (e : Engine) : (sentinelRead i e).sl = e.sl := by
  unfold sentinelRead
  split
  · exact markerDecision_sl _ e
  · rfl

/-- The bitstream reader, armed behind what the range decoder has used (R268). -/
def riceReading (g : Engine) : Engine :=
  bsArm (g.sl.bufBeg + BitVec.ofNat _ (rcUsedBytes g.rc))
    (BitVec.ofNat _ (g.sl.contEnd.toNat - g.sl.bufBeg.toNat - rcUsedBytes g.rc)) g

/-- The end of the content: an underrun, or the number of bytes used (R270, R272). -/
def contentEnd (ranOut : Bool) (used : Nat) (st : SliceSt) : SliceRes :=
  if ranOut then raiseUnderrun st else contentDone used st

theorem contentRange_eq (i : SliceIn) (st : SliceSt) :
    let g := markerDecision i.im (contentEngine i st.eng)
    contentRange i st = contentEnd (rcUnderrun g.rc) (rcUsedBytes g.rc) ⟨g, (decodePlanes i st).plane⟩ := by
  dsimp only [contentRange, contentEnd]
  rw [decodePlanes_eng]

theorem contentRice_eq (i : SliceIn) (st : SliceSt) :
    let g := sentinelRead i st.eng
    let b := contentEngine i (riceReading g)
    contentRice i st =
      if rcUnderrun g.rc then raiseUnderrun { st with eng := g }
      else contentEnd b.bs.underflow (rcUsedBytes g.rc + bsUsedBytes b.bs)
        ⟨b, (decodePlanes i ⟨riceReading g, st.plane⟩).plane⟩ := by
  dsimp only [contentRice, openGolombRice, contentEnd]
  rw [← sentinelRead]
  split
  · rfl
  · dsimp only [Res.bind]
    rw [← riceReading]
    have heng := decodePlanes_eng i ⟨riceReading (sentinelRead i st.eng), st.plane⟩
    generalize decodePlanes i _ = u at heng ⊢
    rw [← heng]

theorem slContent_crc {i : SliceIn} {st : SliceSt} (h : (i.par.checksTail && slCrc i.im st.eng.sl != 0) = true) :
    slContent i st = .raise .sliceCrc st := by
  rw [slContent, if_pos h]

theorem slContent_range {i : SliceIn} {st : SliceSt}
    (h : (i.par.checksTail && slCrc i.im st.eng.sl != 0) = false) (hc : i.par.coderType = true) :
    slContent i st = contentRange i { st with eng := trimTail i st.eng } := by
  rw [slContent, h, if_neg Bool.false_ne_true]
  dsimp only
  rw [if_pos hc]

theorem slContent_rice {i : SliceIn} {st : SliceSt}
    (h : (i.par.checksTail && slCrc i.im st.eng.sl != 0) = false) (hc : i.par.coderType = false) :
    slContent i st = contentRice i { st with eng := trimTail i st.eng } := by
  rw [slContent, h, if_neg Bool.false_ne_true]
  dsimp only
  rw [hc, if_neg Bool.false_ne_true]

/-! ## What the content leaves -/

/-- The error and the underrun mark of the slice are as before. -/
def SameError (sl sl' : Sl) : Prop := sl'.err = sl.err ∧ sl'.underrun = sl.underrun

/-- What `SL_CONTENT` leaves, whichever way it ends. -/
structure Contained (par : Par) (st : SliceSt) (r : SliceRes) : Prop where
  region : SameRegion st.eng.sl r.state.eng.sl
  within : PaintsWithin par st.eng.sl st.plane r.state.plane
  filled : ∀ u, r = .ok () u → Fills par st.eng.sl u.plane ∧ SameError st.eng.sl u.eng.sl

/-- The end of the content changes neither the region nor a sample. -/
theorem contentEnd_contained {par : Par} {st u : SliceSt} (ranOut : Bool) (used : Nat)
    (hsl : u.eng.sl = st.eng.sl) (hwithin : PaintsWithin par st.eng.sl st.plane u.plane)
    (hfills : Fills par st.eng.sl u.plane) : Contained par st (contentEnd ranOut used u) := by
  cases ranOut with
  | true =>
    refine ⟨fun _ _ => ?_, hwithin, fun v hv => by cases hv⟩
    rw [← hsl]
    rfl
  | false =>
    refine ⟨fun _ _ => ?_, hwithin, fun v hv => ?_⟩
    · rw [← hsl]
      rfl
    · cases hv
      exact ⟨hfills, (congrArg Sl.err hsl :), (congrArg Sl.underrun hsl :)⟩

theorem contentRange_contained (i : SliceIn) (st : SliceSt) : Contained i.par st (contentRange i st) := by
  rw [contentRange_eq]
  exact contentEnd_contained _ _ ((markerDecision_sl _ _).trans (contentEngine_sl i _)) (decodePlanes_within i st)
    (decodePlanes_fills i st)

theorem contentRice_contained (i : SliceIn) (st : SliceSt) : Contained i.par st (contentRice i st) := by
  have hsl := sentinelRead_sl i st.eng
  rw [contentRice_eq]
  split
  · refine ⟨fun _ _ => ?_, .refl _ _ _, fun v hv => by cases hv⟩
    rw [← hsl]
    rfl
  · have hread : (riceReading (sentinelRead i st.eng)).sl = st.eng.sl := hsl
    have hwithin := decodePlanes_within i ⟨riceReading (sentinelRead i st.eng), st.plane⟩
    have hfills := decodePlanes_fills i ⟨riceReading (sentinelRead i st.eng), st.plane⟩
    rw [hread] at hwithin hfills
    exact contentEnd_contained _ _ ((contentEngine_sl i _).trans hread) hwithin hfills

/-- `SL_CONTENT` paints inside the region of its slice, and fills it when it completes (R76, R266). -/
theorem slContent_contained (i : SliceIn) (st : SliceSt) : Contained i.par st (slContent i st) := by
  have trimmed : ∀ r, Contained i.par { st with eng := trimTail i st.eng } r → Contained i.par st r :=
    fun r h => ⟨h.region, h.within, h.filled⟩
  cases hcrc : i.par.checksTail && slCrc i.im st.eng.sl != 0 with
  | true =>
    rw [slContent_crc hcrc]
    exact ⟨fun _ _ => rfl, .refl _ _ _, fun u hu => by cases hu⟩
  | false =>
    cases hcoder : i.par.coderType with
    | true =>
      rw [slContent_range hcrc hcoder]
      exact trimmed _ (contentRange_contained i _)
    | false =>
      rw [slContent_rice hcrc hcoder]
      exact trimmed _ (contentRice_contained i _)

/-! ## Header and footer -/

theorem headerSym_sl (im : List Host.Cell) (e : Engine) : (headerSym im e).1.sl = e.sl := by
  rw [headerSym, (rcUsym_onlyDecisions im (.hb 0) e).2]

theorem headerGeometry_sameError (im : List Host.Cell) (e : Engine) : SameError e.sl (headerGeometry im e).sl := by
  have hsl := headerSym_sl im
  unfold headerGeometry
  generalize headerSym im = sym at hsl ⊢
  simp only [SameError, hsl, and_self]

theorem headerAdvisory_sameError (im : List Host.Cell) (e : Engine) : SameError e.sl (headerAdvisory im e).sl := by
  have hsl := headerSym_sl im
  unfold headerAdvisory
  generalize headerSym im = sym at hsl ⊢
  simp only [SameError, hsl, and_self]

theorem thirdIndex_sameError (par : Par) (e : Engine) : SameError e.sl (thirdIndex par e).sl := by
  unfold thirdIndex
  split <;> exact ⟨rfl, rfl⟩

theorem SameError.trans {a b c : Sl} (h : SameError a b) (h' : SameError b c) : SameError a c :=
  ⟨h'.1.trans h.1, h'.2.trans h.2⟩

theorem headerIndices_sameError {i : SliceIn} {n p : Nat} {e f : Engine} (h : headerIndices i n p e = .ok () f) :
    SameError e.sl f.sl := by
  induction n generalizing p e with
  | zero =>
    cases h
    exact ⟨rfl, rfl⟩
  | succ n ih =>
    have hsym := headerSym_sl i.im e
    unfold headerIndices at h
    dsimp only at h
    split at h
    · cases h
    · have hrest := ih h
      dsimp only at hrest
      rw [hsym] at hrest
      exact hrest

theorem headerCoded_sameError {i : SliceIn} {e f : Engine} (h : headerCoded i e = .ok () f) :
    SameError e.sl f.sl := by
  have hgeo := headerGeometry_sameError i.im e
  unfold headerCoded at h
  dsimp only at h
  generalize headerGeometry i.im e = g at hgeo h
  split at h
  · obtain ⟨_, v, hind, hadv⟩ := Res.bind_ok.1 h
    have hregion : SameError g.sl (g.sl.withRegion i.par i.width i.height) := ⟨rfl, rfl⟩
    have hindices := headerIndices_sameError hind
    have hthird := thirdIndex_sameError i.par v
    have hend := headerAdvisory_sameError i.im (thirdIndex i.par v)
    rw [(Res.ok.inj hadv).2] at hend
    exact (((hgeo.trans hregion).trans hindices).trans hthird).trans hend
  · cases h

/-- A header that ends without error records none (R264). -/
theorem headerOf_sameError {i : SliceIn} {e f : Engine} (h : headerOf i e = .ok () f) : SameError e.sl f.sl := by
  have hfill : (stFill (.hb 0) Config.stateMid e).sl = e.sl := by rw [stFill_frame]
  unfold headerOf at h
  obtain ⟨_, g, hheader, hend⟩ := Res.bind_ok.1 h
  cases hend
  have hg : SameError e.sl g.sl := by
    rw [← hfill]
    split at hheader
    · exact headerCoded_sameError hheader
    · cases hheader
      exact ⟨rfl, rfl⟩
  exact hg

theorem slHeader_ok {i : SliceIn} {st u : SliceSt} (h : slHeader i st = .ok () u) :
    u.plane = st.plane ∧ SameError st.eng.sl u.eng.sl := by
  unfold slHeader liftEngine at h
  split at h
  · rename_i e heq
    cases h
    exact ⟨rfl, headerOf_sameError heq⟩
  · cases h

/-- A footer that ends without error has found every byte of the buffer accounted for (R271). -/
theorem slFooter_ok {i : SliceIn} {st u : SliceSt} (h : slFooter i st = .ok () u) :
    u = { st with eng := st.eng.setFsm .done } ∧
      st.eng.sl.used + i.par.tailSize.toNat = st.eng.sl.bufEnd.toNat - st.eng.sl.bufBeg.toNat := by
  unfold slFooter at h
  dsimp only at h
  split at h
  · cases h
  · split at h
    · cases h
    · rename_i hused
      cases h
      exact ⟨rfl, not_not.1 hused⟩

theorem slFooter_region (i : SliceIn) (st : SliceSt) : SameRegion st.eng.sl (slFooter i st).state.eng.sl := by
  unfold slFooter
  dsimp only
  split
  · exact fun _ _ => rfl
  · split <;> exact fun _ _ => rfl

/-! ## The run -/

theorem slOpen_sameError (im : List Host.Cell) (k : Nat) (b n : Word) (cont : Bool) (e : Engine) :
    (slOpen im k b n cont e).sl.err = 0 ∧ (slOpen im k b n cont e).sl.underrun = false := by
  have hkey : ∀ f : Engine, (keyDecision im f).1.sl = f.sl := fun f => by
    rw [keyDecision, (rcBit_onlyDecisions im .ks _).2, stFill_frame]
  unfold slOpen
  dsimp only
  split
  · exact ⟨rfl, rfl⟩
  · split
    · rw [hkey]
      exact ⟨rfl, rfl⟩
    · exact ⟨rfl, rfl⟩

/-- A task paints inside the region that its engine has at the end, whichever way it ends (R76, R262). -/
theorem slRun_within (i : SliceIn) (k : Nat) (b n : Word) (cont : Bool) (st : SliceSt) :
    PaintsWithin i.par (slRun i k b n cont st).state.eng.sl st.plane (slRun i k b n cont st).state.plane := by
  have hheader := slHeader_plane i { st with eng := slOpen i.im k b n cont st.eng }
  unfold slRun
  generalize slHeader i { st with eng := slOpen i.im k b n cont st.eng } = r at hheader ⊢
  cases r with
  | raise e u =>
    show PaintsWithin i.par u.eng.sl st.plane u.plane
    rw [show u.plane = st.plane from hheader]
    exact .refl _ _ _
  | ok a u =>
    obtain ⟨hregion, hwithin, -⟩ := slContent_contained i u
    rw [show u.plane = st.plane from hheader] at hwithin
    dsimp only [Res.bind]
    generalize slContent i u = r' at hregion hwithin ⊢
    cases r' with
    | raise e v => exact hwithin.congr hregion
    | ok a v =>
      have hplane := slFooter_plane i v
      have hfooter := slFooter_region i v
      dsimp only
      rw [hplane]
      exact hwithin.congr (hregion.trans hfooter)

/-- A task that raises no error is `Done`, and has filled its region (R262, R271). -/
theorem slRun_ok {i : SliceIn} {k : Nat} {b n : Word} {cont : Bool} {st u : SliceSt}
    (h : slRun i k b n cont st = .ok () u) :
    Fills i.par u.eng.sl u.plane ∧ u.eng.sl.fsm = .done ∧ u.eng.sl.err = 0 ∧ u.eng.sl.underrun = false ∧
      u.eng.sl.used + i.par.tailSize.toNat = u.eng.sl.bufEnd.toNat - u.eng.sl.bufBeg.toNat := by
  unfold slRun at h
  obtain ⟨_, v, hheader, h⟩ := Res.bind_ok.1 h
  obtain ⟨_, w, hcontent, hfooter⟩ := Res.bind_ok.1 h
  obtain ⟨hopen, hopen'⟩ := slOpen_sameError i.im k b n cont st.eng
  obtain ⟨-, herr, hunder⟩ := slHeader_ok hheader
  have hcontained := slContent_contained i v
  rw [hcontent] at hcontained
  obtain ⟨hfills, herr', hunder'⟩ := hcontained.filled w rfl
  obtain ⟨rfl, hused⟩ := slFooter_ok hfooter
  exact ⟨hfills.congr hcontained.region, rfl, (herr'.trans herr).trans hopen, (hunder'.trans hunder).trans hopen',
    hused⟩

/-! ## The end of a slice command -/

/-- The state in which a slice command of the host ends (R273, R330 (c)). -/
def sliceEnd (k : BitVec 16) (s : State) (r : SliceRes) : State :=
  match r with
  | .ok _ _ => (s.setSliceSt k.toNat (settle r)).finish none
  | .raise e _ => (s.setSliceSt k.toNat (settle r)).takeError e k

theorem endSlice_eq (k : BitVec 16) (s : State) (r : SliceRes) : endSlice k s r = .next (sliceEnd k s r) := by
  cases r <;> rfl

section SliceEnd

variable (k : BitVec 16) (s : State) (r : SliceRes)

theorem sliceEnd_engine : (sliceEnd k s r).engine k.toNat = (settle r).eng := by
  cases r <;> exact engine_setSliceSt_self _ _ _

theorem sliceEnd_plane : (sliceEnd k s r).plane = r.state.plane := by
  cases r <;> rfl

theorem sliceEnd_input : sameInput s (sliceEnd k s r) := by
  cases r <;> exact fun _ => rfl

theorem sliceEnd_hasEngine : (sliceEnd k s r).hasEngine k.toNat = true := by
  cases r <;> exact hasEngine_setEngine_self s k.toNat _

theorem sliceEnd_otherEngines : sameOtherEngines k.toNat s (sliceEnd k s r) := by
  intro j hj
  cases r <;> exact ⟨hasEngine_setEngine_ne s _ hj, engine_setEngine_ne s _ hj⟩

end SliceEnd

/-- Samples that the operation paints within a region change nowhere else. -/
theorem sliceEnd_outside {k : BitVec 16} {s : State} {r : SliceRes} {par : Par} {sl : Sl}
    (h : PaintsWithin par sl s.plane r.state.plane) {p : Fin 4} {x y : Nat} (hout : ¬ inRegion par sl p p x y) :
    (sliceEnd k s r).sample p x y = s.sample p x y := by
  rw [State.sample, sliceEnd_plane]
  exact h.outside hout

/-- A slice command that completes changes its engine and samples of the region, and nothing else. -/
theorem sliceEnd_onlyEngineAndSamples {k : BitVec 16} {s : State} {u : SliceSt} {par : Par} {sl : Sl}
    (h : PaintsWithin par sl s.plane u.plane) :
    onlyEngineAndSamples k.toNat (fun p x y => inRegion par sl p p x y) s (sliceEnd k s (.ok () u)) :=
  ⟨sliceEnd_input k s _, fun _ _ _ hout => sliceEnd_outside (r := .ok () u) h hout, sliceEnd_otherEngines k s _,
    sliceEnd_hasEngine k s _, rfl⟩

/-! ## `SL_RUN` -/

theorem exec_slRun {s : State} {k : BitVec 16} {cont : Bool} (h : s.openOk k cont = true) :
    exec (.slRun k cont) s =
      .next (sliceEnd k s (slRun s.sliceIn k.toNat s.arg0 s.arg1 cont (s.sliceSt k.toNat))) := by
  dsimp only [exec, execSlRun]
  rw [checked_of _ _ _ h, endSlice_eq]

/-- Settles O50: the two ends of the task are the two ends of the command. -/
theorem slRunEndsDoneOrError : Obligations.SlRunEndsDoneOrError := by
  intro s k cont hopen
  have hwithin := slRun_within s.sliceIn k.toNat s.arg0 s.arg1 cont (s.sliceSt k.toNat)
  have hexec := exec_slRun hopen
  dsimp only
  generalize htask : slRun s.sliceIn k.toNat s.arg0 s.arg1 cont (s.sliceSt k.toNat) = r at hwithin hexec ⊢
  refine ⟨fun u hu => ?_, fun err u hu => ?_⟩
  · subst hu
    obtain ⟨hfills, hdone, herr, hunder, hused⟩ := slRun_ok htask
    refine ⟨_, hexec, ⟨rfl, rfl, rfl, rfl⟩, ?_⟩
    rw [sliceEnd_engine]
    exact ⟨sliceEnd_onlyEngineAndSamples hwithin, hfills, hdone, herr, hunder, hused⟩
  · subst hu
    refine ⟨_, hexec, ⟨rfl, rfl, rfl, rfl, rfl, rfl⟩, sliceEnd_input k s _, sliceEnd_otherEngines k s _, rfl,
      ?_⟩
    rw [sliceEnd_engine]
    exact ⟨rfl, rfl⟩

end Sys2Proof.Machine

/-! # `SL_CRC` and `SL_CONTENT` as commands (R265 to R273) -/

namespace Sys2Proof.Machine

-- One theorem at a time: each that waits for the kernel holds a thread, and here they are many and short.
set_option Elab.async false

/-! ## The window, the tests and the readers in numbers -/

/-- The end of the content, as a cursor (R266). -/
theorem contEnd_toNat (sl : Sl) (n : Nat) :
    (BitVec.ofNat (Config.addrW + 1) (sl.bufEnd.toNat - n)).toNat = sl.bufEnd.toNat - n := by
  have hlt := addr_toNat_lt sl.bufEnd
  rw [addr_toNat_ofNat]
  exact Nat.mod_eq_of_lt (by omega)

/-- The window of the content: the buffer without the tail, read with the custom table if there is one (R266). -/
theorem trimTail_eq (i : SliceIn) (e : Engine) :
    let contEnd := e.sl.bufEnd.toNat - i.par.tailSize.toNat
    let table := if i.par.customPresent then i.par.customTransition else Config.defaultTransition
    trimTail i e = { e with
      sl := { e.sl with contEnd := BitVec.ofNat _ contEnd }
      rc := { e.rc with
        bufEnd := e.rc.bufBeg + BitVec.ofNat _ (contEnd - e.sl.bufBeg.toNat)
        one := table
        zero := zeroTable table } } := by
  dsimp only [trimTail, rcRearm, Rc.setTable]
  rw [contEnd_toNat]
  rfl

theorem hasSentinel_iff (par : Par) :
    hasSentinel par = true ↔ par.version = 3 ∧ 1 < par.microVersion.toNat := by
  rw [hasSentinel, Bool.and_eq_true, beq_iff_eq, decide_eq_true_iff]
  rfl

theorem sentinelRead_eq (i : SliceIn) (e : Engine) :
    sentinelRead i e =
      if i.par.version = 3 ∧ 1 < i.par.microVersion.toNat then (rcBit i.im .ts (e.setState .ts 129)).1 else e := by
  unfold sentinelRead
  by_cases h : hasSentinel i.par = true
  · rw [if_pos h, if_pos ((hasSentinel_iff _).1 h), markerDecision_eq]
  · rw [if_neg h, if_neg (mt (hasSentinel_iff _).2 h)]

/-- The slice asks for its CRC, and the CRC is not 0 (R266). -/
theorem crcFails_iff (i : SliceIn) (sl : Sl) :
    (i.par.checksTail && slCrc i.im sl != 0) = true ↔
      i.par.configPresent = true ∧ i.par.ec = true ∧ slCrc i.im sl ≠ 0 := by
  rw [Bool.and_eq_true, Par.checksTail, Bool.and_eq_true, bne_iff_ne, and_assoc]

/-! ## How the content ends -/

/-- The range-coded content, when the CRC does not fail (R267, R269, R270). -/
theorem slContent_rangeCoded {i : SliceIn} {st : SliceSt} {e g : Engine} (htrim : trimTail i st.eng = e)
    (hmarker : markerDecision i.im (contentEngine i e) = g)
    (hcrc : ¬ (i.par.checksTail && slCrc i.im st.eng.sl != 0) = true) (hc : i.par.coderType = true) :
    slContent i st =
      contentEnd (rcUnderrun g.rc) (rcUsedBytes g.rc) ⟨g, (decodePlanes i ⟨e, st.plane⟩).plane⟩ := by
  rw [slContent_range (Bool.eq_false_iff.2 hcrc) hc, contentRange_eq, htrim]
  dsimp only
  rw [hmarker]

/-- The Golomb-Rice content, when the CRC does not fail (R268, R269, R270). -/
theorem slContent_riceCoded {i : SliceIn} {st : SliceSt} {e g f b : Engine} (htrim : trimTail i st.eng = e)
    (hsentinel : sentinelRead i e = g) (hreading : riceReading g = f)
    (hplanes : contentEngine i f = b)
    (hcrc : ¬ (i.par.checksTail && slCrc i.im st.eng.sl != 0) = true) (hc : i.par.coderType = false) :
    slContent i st =
      if rcUnderrun g.rc then raiseUnderrun ⟨g, st.plane⟩
      else contentEnd b.bs.underflow (rcUsedBytes g.rc + bsUsedBytes b.bs)
        ⟨b, (decodePlanes i ⟨f, st.plane⟩).plane⟩ := by
  rw [slContent_rice (Bool.eq_false_iff.2 hcrc) hc, contentRice_eq, htrim]
  dsimp only
  rw [hsentinel, hreading, hplanes]

/-! ## How the command ends -/

theorem exec_slContent {s : State} {k : BitVec 16} (hk : s.hasEngine k.toNat = true)
    (hfsm : (s.engine k.toNat).sl.fsm = .headerParsed) :
    exec (.slContent k) s = .next (sliceEnd k s (slContent s.sliceIn (s.sliceSt k.toNat))) := by
  have hlegal : s.fsmIs k .headerParsed = true := by
    rw [State.fsmIs, hk, hfsm]
    rfl
  dsimp only [exec, execSlContent]
  rw [checked_of _ _ _ hlegal, endSlice_eq]

theorem contentEnd_plane (ranOut : Bool) (used : Nat) (u : SliceSt) :
    (contentEnd ranOut used u).state.plane = u.plane := by
  cases ranOut <;> rfl

/-- The engine and the status after a content that ran out of its input (R270). -/
theorem contentEnd_ranOut (k : BitVec 16) (s : State) (used : Nat) (u : SliceSt) :
    (sliceEnd k s (contentEnd true used u)).failedWith .underrun k ∧
      (sliceEnd k s (contentEnd true used u)).engine k.toNat =
        { u.eng with sl := { u.eng.sl with underrun := true, err := 0x301, fsm := .error } } :=
  ⟨⟨rfl, rfl, rfl, rfl, rfl, rfl⟩, sliceEnd_engine k s _⟩

/-- The engine, the status and the frame after a content that did not (R272). -/
theorem contentEnd_completes {k : BitVec 16} {s : State} {used : Nat} {u : SliceSt} {par : Par} {sl : Sl}
    (h : PaintsWithin par sl s.plane u.plane) :
    (sliceEnd k s (contentEnd false used u)).endedWith s.result ∧
      onlyEngineAndSamples k.toNat (fun p x y => inRegion par sl p p x y) s
        (sliceEnd k s (contentEnd false used u)) ∧
      (sliceEnd k s (contentEnd false used u)).engine k.toNat =
        { u.eng with sl := { u.eng.sl with used := used, fsm := .contentDecoded } } :=
  ⟨⟨rfl, rfl, rfl, rfl⟩, sliceEnd_onlyEngineAndSamples h, sliceEnd_engine k s _⟩

/-- A content that decoded its planes from the engine `g` leaves every sample of the region as decoded (R269). -/
theorem sliceEnd_decoded {k : BitVec 16} {s : State} {r : SliceRes} {sl : Sl} {g : Engine}
    (hsl : SameRegion sl g.sl) (hplane : r.state.plane = (decodePlanes s.sliceIn ⟨g, s.plane⟩).plane) :
    regionFilled s.par sl (sliceEnd k s r) ∧
      ∀ c x y, decodesPlane s.par c → x < (region s.par sl c).w → y < (region s.par sl c).h →
        (sliceEnd k s r).sample c ((region s.par sl c).ox + x) ((region s.par sl c).oy + y) =
          some (contentSample s.sliceIn c y x g) := by
  have hstore : (sliceEnd k s r).plane = (decodePlanes s.sliceIn ⟨g, s.plane⟩).plane :=
    (sliceEnd_plane k s r).trans hplane
  constructor
  · rw [regionFilled_iff, hstore]
    exact (decodePlanes_fills s.sliceIn ⟨g, s.plane⟩).congr fun par c => (hsl par c).symm
  · intro c x y hc hx hy
    have h := decodePlanes_sample s.sliceIn ⟨g, s.plane⟩ (c := c) (x := x) (y := y) hc
    dsimp only at h
    rw [show s.sliceIn.par = s.par from rfl, hsl] at h
    rw [State.sample, hstore]
    exact h hx hy

/-- Settles O48: the CRC is a division, and each of the three ends of the content is the one of its coder. -/
theorem slContentStaysInItsRegion : Obligations.SlContentStaysInItsRegion := by
  intro s k hk e crc crcBad contEnd table window trimmed marker planes
  have hcrc : slCrc s.inMem e.sl = crc := slCrc_eq s.inMem e.sl
  have hfails : (s.par.checksTail && slCrc s.inMem e.sl != 0) = true ↔ crcBad := by
    refine (crcFails_iff s.sliceIn e.sl).trans ?_
    rw [show slCrc s.sliceIn.im e.sl = crc from hcrc]
    rfl
  have htrim : trimTail s.sliceIn e = trimmed := trimTail_eq s.sliceIn e
  have hcontained := slContent_contained s.sliceIn (s.sliceSt k.toNat)
  refine ⟨fun hopened => ?_, fun hfsm => ?_⟩
  · have hlegal : (s.hasEngine k.toNat && e.opened) = true := by rw [hk, hopened]; rfl
    refine ⟨s.finish (some crc), ?_, rfl⟩
    dsimp only [exec, execSlCrc]
    rw [checked_of _ _ _ hlegal, ← hcrc]
    rfl
  · refine ⟨_, exec_slContent hk hfsm, sliceEnd_input k s _, sliceEnd_otherEngines k s _,
      fun p x y hout => sliceEnd_outside hcontained.within hout, fun hbad => ?_, fun hgood hcoder => ?_,
      fun hgood hcoder => ?_⟩
    · rw [slContent_crc (st := s.sliceSt k.toNat) (hfails.2 hbad)]
      exact ⟨⟨rfl, rfl, rfl, rfl, rfl, rfl⟩, fun _ _ _ => rfl, sliceEnd_engine k s _⟩
    · intro g
      have hg : g.sl = window := (markerDecision_sl s.inMem _).trans (contentEngine_sl s.sliceIn trimmed)
      rw [slContent_rangeCoded (st := s.sliceSt k.toNat) (g := g) htrim rfl (mt hfails.1 hgood) hcoder]
      refine ⟨sliceEnd_decoded (fun _ _ => rfl) (contentEnd_plane _ _ _), fun hout => ?_, fun hin => ?_⟩
      · rw [hout, ← hg]
        exact contentEnd_ranOut k s _ _
      · rw [hin, ← hg]
        exact contentEnd_completes (decodePlanes_within s.sliceIn ⟨trimmed, s.plane⟩)
    · intro g off reading b
      have hsentinel : sentinelRead s.sliceIn trimmed = g := sentinelRead_eq s.sliceIn trimmed
      have hg : g.sl = window := hsentinel ▸ sentinelRead_sl s.sliceIn trimmed
      have hwindow : window.contEnd.toNat = contEnd := contEnd_toNat e.sl s.par.tailSize.toNat
      have hreading : riceReading g = reading := by
        unfold riceReading
        rw [hg, hwindow]
      have hb : b.sl = window := (contentEngine_sl s.sliceIn reading).trans hg
      rw [slContent_riceCoded (st := s.sliceSt k.toNat) (b := b) htrim hsentinel hreading rfl (mt hfails.1 hgood)
        hcoder]
      refine ⟨fun hout => ?_, fun hin => ?_⟩
      · rw [if_pos hout, ← hg]
        obtain ⟨hfailed, hengine⟩ := contentEnd_ranOut k s 0 ⟨g, s.plane⟩
        exact ⟨⟨hfailed, hengine⟩, fun _ _ _ => rfl⟩
      · have hread : SameRegion e.sl reading.sl := fun par c => (congrArg (region par · c) hg :)
        have hwithin := decodePlanes_within s.sliceIn ⟨reading, s.plane⟩
        rw [if_neg (Bool.not_eq_true _ ▸ hin)]
        refine ⟨sliceEnd_decoded hread (contentEnd_plane _ _ _), fun hunder => ?_, fun hfull => ?_⟩
        · rw [hunder, ← hb]
          exact contentEnd_ranOut k s _ _
        · rw [hfull, ← hb]
          exact contentEnd_completes (hwithin.congr fun par c => (hread par c).symm)

end Sys2Proof.Machine

/-! # Slice tasks (R80 to R87, R262, R301 to R304, R368) -/

namespace Sys2Proof.Machine

-- One theorem at a time: each that waits for the kernel holds a thread, and here they are many and short.
set_option Elab.async false

/-! ## Putting the samples of a task into the store -/

theorem mergeSample_written (s : State) (c : Nat × Word) (key : Nat) :
    Store.lookup (mergeSample s c).written key = if key = c.1 then some c.2 else Store.lookup s.written key :=
  Store.lookup_insert _ _ _ _

theorem mergeSample_plane_ne (s : State) {c : Nat × Word} {key : Nat} (h : key ≠ c.1) :
    Store.lookup (mergeSample s c).plane key = Store.lookup s.plane key := by
  unfold mergeSample
  dsimp only
  split
  · rfl
  · exact Store.lookup_insert_ne _ _ h

/-- A sample that no ended task of the set has written takes the new value. -/
theorem mergeSample_plane_fresh {s : State} {c : Nat × Word} (h : Store.lookup s.written c.1 = none) :
    Store.lookup (mergeSample s c).plane c.1 = some c.2 := by
  unfold mergeSample
  rw [h]
  exact Store.lookup_insert_self _ _ _

/-- One that an ended task has written keeps either value (R80, U6). -/
theorem mergeSample_plane_self (s : State) (c : Nat × Word) :
    (Store.lookup (mergeSample s c).plane c.1 = Store.lookup s.plane c.1 ∧
        (Store.lookup s.written c.1).isSome = true) ∨
      Store.lookup (mergeSample s c).plane c.1 = some c.2 := by
  cases hw : Store.lookup s.written c.1 with
  | none => exact .inr (mergeSample_plane_fresh hw)
  | some v =>
    unfold mergeSample
    dsimp only
    split
    · exact .inl ⟨rfl, rfl⟩
    · exact .inr (Store.lookup_insert_self _ _ _)

/-- After a merge a sample is as before, and then not among those merged unless an ended task of the set had
written it; or it is one of those merged. -/
theorem mergeSamples_plane (cs : List (Nat × Word)) (s : State) (key : Nat) :
    (Store.lookup (cs.foldl mergeSample s).plane key = Store.lookup s.plane key ∧
        ((∃ v, (key, v) ∈ cs) → (Store.lookup s.written key).isSome = true)) ∨
      ∃ v, (key, v) ∈ cs ∧ Store.lookup (cs.foldl mergeSample s).plane key = some v := by
  induction cs generalizing s with
  | nil => exact .inl ⟨rfl, fun ⟨v, hv⟩ => absurd hv List.not_mem_nil⟩
  | cons c cs ih =>
    rw [List.foldl_cons]
    rcases ih (mergeSample s c) with ⟨hsame, hwritten⟩ | ⟨v, hv, hnew⟩
    · by_cases hc : key = c.1
      · subst hc
        rcases mergeSample_plane_self s c with ⟨hkept, hold⟩ | hput
        · exact .inl ⟨hsame.trans hkept, fun _ => hold⟩
        · exact .inr ⟨c.2, List.mem_cons_self, hsame.trans hput⟩
      · rw [mergeSample_written, if_neg hc] at hwritten
        refine .inl ⟨hsame.trans (mergeSample_plane_ne s hc), fun ⟨v, hv⟩ => hwritten ⟨v, ?_⟩⟩
        rcases List.mem_cons.1 hv with rfl | hv
        · exact absurd rfl hc
        · exact hv
    · exact .inr ⟨v, List.mem_cons_of_mem c hv, hnew⟩

/-- A merge records what it has merged (R80). -/
theorem mergeSamples_written (cs : List (Nat × Word)) (s : State) (key : Nat) :
    (Store.lookup (cs.foldl mergeSample s).written key).isSome = true ↔
      (Store.lookup s.written key).isSome = true ∨ ∃ v, (key, v) ∈ cs := by
  induction cs generalizing s with
  | nil => simp
  | cons c cs ih =>
    rw [List.foldl_cons, ih, mergeSample_written]
    obtain ⟨k, w⟩ := c
    by_cases hc : key = k
    · subst hc
      simp only [if_true, Option.isSome_some, true_or, true_iff]
      exact .inr ⟨w, List.mem_cons_self⟩
    · simp [hc]

/-- A merge of samples that no ended task of the set has written puts each of them into the store. -/
theorem mergeSamples_fresh {cs : List (Nat × Word)} {s : State} (hcs : Store.sorted cs = true)
    (hfresh : ∀ c ∈ cs, Store.lookup s.written c.1 = none) (key : Nat) :
    Store.lookup (cs.foldl mergeSample s).plane key = (Store.lookup cs key).or (Store.lookup s.plane key) := by
  rw [Store.sorted_iff_pairwise] at hcs
  induction cs generalizing s with
  | nil => rfl
  | cons c cs ih =>
    obtain ⟨hlt, hcs⟩ := List.pairwise_cons.1 hcs
    have hrest : ∀ d ∈ cs, Store.lookup (mergeSample s c).written d.1 = none := fun d hd => by
      rw [mergeSample_written, if_neg (by have := hlt d hd; omega)]
      exact hfresh d (List.mem_cons_of_mem c hd)
    rw [List.foldl_cons, ih hcs hrest, show c = (c.1, c.2) from rfl, Store.lookup_cons]
    by_cases hc : key = c.1
    · have hnone : Store.lookup cs key = none := by
        cases hd : Store.lookup cs key with
        | none => rfl
        | some v =>
          have := hlt _ (Store.lookup_mem cs key v hd)
          omega
      rw [if_pos hc, hnone, hc]
      exact mergeSample_plane_fresh (hfresh c List.mem_cons_self)
    · rw [if_neg hc]
      exact congrArg _ (mergeSample_plane_ne s hc)

theorem mergeSamples_freeCtr (cs : List (Nat × Word)) (s : State) :
    (cs.foldl mergeSample s).freeCtr = s.freeCtr + cs.length := by
  induction cs generalizing s with
  | nil => rfl
  | cons c cs ih =>
    rw [List.foldl_cons, ih, List.length_cons, mergeSample]
    dsimp only
    omega

/-! ## One task -/

/-- The engine that task `a` leaves when it runs in state `s` (R262). -/
def taskEngine (a : Task) (s : State) : Engine :=
  (settle (slRun s.sliceIn a.slice a.base a.len a.cont ⟨s.engine a.slice, []⟩)).eng

theorem runTask_eq (a : Task) (s : State) :
    runTask a s = (taskSamples a s).foldl mergeSample (s.setEngine a.slice (taskEngine a s)) := rfl

theorem runTask_engines (a : Task) (s : State) :
    (runTask a s).engines = (s.setEngine a.slice (taskEngine a s)).engines := by
  rw [runTask_eq, mergeSamples_frame]

theorem runTask_engine_self (a : Task) (s : State) : (runTask a s).engine a.slice = taskEngine a s := by
  rw [engine_congr (runTask_engines a s), engine_setEngine_self]

theorem runTask_engine_ne {a : Task} {k : Nat} (s : State) (h : k ≠ a.slice) :
    (runTask a s).engine k = s.engine k := by
  rw [engine_congr (runTask_engines a s), engine_setEngine_ne _ _ h]

theorem runTask_hasEngine_self (a : Task) (s : State) : (runTask a s).hasEngine a.slice = true := by
  rw [hasEngine_congr (runTask_engines a s), hasEngine_setEngine_self]

theorem runTask_hasEngine_ne {a : Task} {k : Nat} (s : State) (h : k ≠ a.slice) :
    (runTask a s).hasEngine k = s.hasEngine k := by
  rw [hasEngine_congr (runTask_engines a s), hasEngine_setEngine_ne _ _ h]

theorem runTask_engine (a : Task) (s : State) (k : Nat) :
    (runTask a s).engine k = if k = a.slice then taskEngine a s else s.engine k := by
  split
  · rename_i h
    rw [h, runTask_engine_self]
  · rename_i h
    exact runTask_engine_ne s h

theorem runTask_hasEngine (a : Task) (s : State) (k : Nat) :
    (runTask a s).hasEngine k = (decide (k = a.slice) || s.hasEngine k) := by
  by_cases h : k = a.slice
  · rw [decide_eq_true h, h, runTask_hasEngine_self]
    rfl
  · rw [decide_eq_false h, runTask_hasEngine_ne s h]
    rfl

theorem runTask_par (a : Task) (s : State) : (runTask a s).par = s.par := by
  rw [runTask_frame]

/-- What a task reads beside its engine is the same after another task. -/
theorem runTask_sliceIn (a : Task) (s : State) : (runTask a s).sliceIn = s.sliceIn := by
  rw [runTask_frame]
  rfl

/-- Recording an error leaves the region (R273). -/
theorem settle_region (r : SliceRes) : SameRegion r.state.eng.sl (settle r).eng.sl := by
  cases r <;> exact fun _ _ => rfl

/-- A task writes each sample once, in the order of the store. -/
theorem taskSamples_sorted (a : Task) (s : State) : Store.sorted (taskSamples a s) = true := by
  rw [taskSamples, settle_plane]
  exact keeps_writes sorted_planeWrite (slRun_writes _ _ _ _ _ _).plane rfl

/-- A sample that a task writes lies in the region of its engine, and within the mask (R76, R262). -/
theorem taskSamples_mem {a : Task} {s : State} {p : Fin 4} {x y : Nat} {v : Word}
    (h : (sampleKey p x y, v) ∈ taskSamples a s) :
    inRegion s.par (taskEngine a s).sl p p x y ∧ v &&& s.par.bitsMask = v := by
  have hlookup : sampleAt (taskSamples a s) p x y = some v := Store.lookup_of_mem (taskSamples_sorted a s) h
  have hwithin := (slRun_within s.sliceIn a.slice a.base a.len a.cont ⟨s.engine a.slice, []⟩).congr
    (settle_region _)
  rw [← settle_plane, ← taskSamples, ← taskEngine] at hwithin
  rcases hwithin p x y with hnone | ⟨hin, w, hw, hmask⟩
  · rw [hlookup] at hnone
    cases hnone
  · obtain rfl : v = w := Option.some.inj (hlookup.symm.trans hw)
    exact ⟨hin, hmask⟩

/-- After a task a sample is as before, and then not one of the task's unless an ended task of the set had written
it; or it is one of the task's. -/
theorem runTask_sample (a : Task) (s : State) (p : Fin 4) (x y : Nat) :
    (sampleAt (runTask a s).plane p x y = sampleAt s.plane p x y ∧
        ((∃ v, (sampleKey p x y, v) ∈ taskSamples a s) →
          (Store.lookup s.written (sampleKey p x y)).isSome = true)) ∨
      ∃ v, (sampleKey p x y, v) ∈ taskSamples a s ∧ sampleAt (runTask a s).plane p x y = some v := by
  rw [runTask_eq]
  exact mergeSamples_plane (taskSamples a s) (s.setEngine a.slice (taskEngine a s)) (sampleKey p x y)

/-- A task paints inside the region that its engine has at the end (R80, R262). -/
theorem runTask_within (a : Task) (s : State) :
    PaintsWithin s.par (taskEngine a s).sl s.plane (runTask a s).plane := by
  intro p x y
  rcases runTask_sample a s p x y with ⟨hsame, -⟩ | ⟨v, hv, hnew⟩
  · exact .inl hsame
  · obtain ⟨hin, hmask⟩ := taskSamples_mem hv
    exact .inr ⟨hin, v, hnew, hmask⟩

/-- Settles O60: the frame of a task, and the region of what it merges. -/
theorem sliceTasksAreIsolated : Obligations.SliceTasksAreIsolated := by
  intro s a t
  refine ⟨fun x => ?_, fun j hj => ⟨runTask_hasEngine_ne s hj, runTask_engine_ne s hj⟩,
    runTask_hasEngine_self a s, fun p x y hout => ?_, runTask_frame a s⟩
  · show inByte (runTask a s).inMem x = _
    rw [runTask_frame]
  · rw [runTask_engine_self] at hout
    exact (runTask_within a s).outside hout

/-! ## Two tasks -/

/-- What a task does depends on nothing that another task writes (R368). -/
theorem taskSamples_runTask {a b : Task} (s : State) (h : a.slice ≠ b.slice) :
    taskSamples a (runTask b s) = taskSamples a s := by
  rw [taskSamples, taskSamples, runTask_sliceIn, runTask_engine_ne s h]

theorem taskEngine_runTask {a b : Task} (s : State) (h : a.slice ≠ b.slice) :
    taskEngine a (runTask b s) = taskEngine a s := by
  rw [taskEngine, taskEngine, runTask_sliceIn, runTask_engine_ne s h]

/-- A sample that is listed has a value. -/
theorem lookup_ne_none_of_mem {cs : List (Nat × Word)} (hcs : Store.sorted cs = true) {c : Nat × Word} (hc : c ∈ cs) :
    Store.lookup cs c.1 ≠ none := by
  rw [Store.lookup_of_mem hcs hc]
  exact Option.some_ne_none _

/-- A task that writes no sample which an ended task of its set has written puts its samples into the store. -/
theorem runTask_plane_fresh {a : Task} {s : State}
    (h : ∀ key, (Store.lookup s.written key).isSome = true → Store.lookup (taskSamples a s) key = none)
    (key : Nat) :
    Store.lookup (runTask a s).plane key = (Store.lookup (taskSamples a s) key).or (Store.lookup s.plane key) := by
  have hsorted := taskSamples_sorted a s
  refine mergeSamples_fresh hsorted (fun c hc => ?_) key
  by_contra hw
  exact lookup_ne_none_of_mem hsorted hc (h c.1 (Option.isSome_iff_ne_none.2 hw))

theorem runTask_freeCtr (a : Task) (s : State) :
    (runTask a s).freeCtr = s.freeCtr + (taskSamples a s).length := by
  rw [runTask_eq, mergeSamples_freeCtr]
  rfl

/-- The store after two tasks that share no sample, with each other or with ended tasks of their set. -/
theorem runTask_runTask_plane {a b : Task} {s : State} (hslice : a.slice ≠ b.slice)
    (hwritten : ∀ key, (Store.lookup s.written key).isSome = true →
      Store.lookup (taskSamples a s) key = none ∧ Store.lookup (taskSamples b s) key = none)
    (hdisjoint : ∀ key, Store.lookup (taskSamples a s) key = none ∨ Store.lookup (taskSamples b s) key = none)
    (key : Nat) :
    Store.lookup (runTask b (runTask a s)).plane key =
      (Store.lookup (taskSamples b s) key).or
        ((Store.lookup (taskSamples a s) key).or (Store.lookup s.plane key)) := by
  have hsame := taskSamples_runTask s hslice.symm
  rw [runTask_plane_fresh, hsame, runTask_plane_fresh fun key hkey => (hwritten key hkey).1]
  intro key hkey
  rw [hsame]
  rw [runTask_eq, mergeSamples_written] at hkey
  rcases hkey with hkey | ⟨v, hv⟩
  · exact (hwritten key hkey).2
  · exact (hdisjoint key).resolve_left (lookup_ne_none_of_mem (taskSamples_sorted a s) hv)

/-- The engines after two tasks are those of either order. -/
theorem runTask_runTask_hasEngine (a b : Task) (s : State) (k : Nat) :
    (runTask b (runTask a s)).hasEngine k = (runTask a (runTask b s)).hasEngine k := by
  rw [runTask_hasEngine, runTask_hasEngine, runTask_hasEngine, runTask_hasEngine, Bool.or_left_comm]

theorem runTask_runTask_engine {a b : Task} (h : a.slice ≠ b.slice) (s : State) (k : Nat) :
    (runTask b (runTask a s)).engine k = (runTask a (runTask b s)).engine k := by
  rw [runTask_engine, runTask_engine, runTask_engine, runTask_engine, taskEngine_runTask s h,
    taskEngine_runTask s h.symm]
  by_cases ha : k = a.slice
  · rw [if_pos ha, if_neg (ha ▸ h), if_pos ha]
  · rw [if_neg ha, if_neg ha]

/-- Settles O59: either order puts the same samples into the store, and leaves the same engines. -/
theorem sliceTasksCommute : Obligations.SliceTasksCommute := by
  intro s a b hslice hwritten hdisjoint u v
  refine ⟨fun p x y => ?_, fun k => ?_, ?_⟩
  · have hu := runTask_runTask_plane hslice hwritten hdisjoint (sampleKey p x y)
    have hv := runTask_runTask_plane hslice.symm (fun key hkey => (hwritten key hkey).symm)
      (fun key => (hdisjoint key).symm) (sampleKey p x y)
    show Store.lookup v.plane _ = Store.lookup u.plane _
    rw [hu, hv]
    rcases hdisjoint (sampleKey p x y) with hnone | hnone <;> rw [hnone]
    · rfl
    · rfl
  · exact ⟨runTask_runTask_hasEngine a b s k, runTask_runTask_engine hslice s k⟩
  · have hframe : ∀ w, ∀ ts, w = runTasks ts s → ({ w with engines := [], plane := [], written := [] } : State) =
        { s with engines := [], plane := [], written := [], freeCtr := w.freeCtr } := by
      rintro _ ts rfl
      rw [runTasks_frame]
    have hctr : u.freeCtr = v.freeCtr := by
      show (runTask b (runTask a s)).freeCtr = (runTask a (runTask b s)).freeCtr
      rw [runTask_freeCtr, runTask_freeCtr, runTask_freeCtr, runTask_freeCtr, taskSamples_runTask s hslice,
        taskSamples_runTask s hslice.symm]
      omega
    rw [hframe u [a, b] rfl, hframe v [b, a] rfl, hctr]

end Sys2Proof.Machine

/-! # A frame and its slices (R76, R292, R304, R334) -/

namespace Sys2Proof.Machine

-- One theorem at a time: each that waits for the kernel holds a thread, and here they are many and short.
set_option Elab.async false

/-! ## A list of tasks -/

theorem runTasks_cons (a : Task) (ts : List Task) (s : State) : runTasks (a :: ts) s = runTasks ts (runTask a s) := rfl

theorem runTasks_hasEngine (ts : List Task) (s : State) (k : Nat) :
    (runTasks ts s).hasEngine k = true ↔ (∃ a ∈ ts, a.slice = k) ∨ s.hasEngine k = true := by
  induction ts generalizing s with
  | nil => simp [runTasks]
  | cons a ts ih =>
    rw [runTasks_cons, ih, runTask_hasEngine, Bool.or_eq_true, decide_eq_true_iff, eq_comm (a := k)]
    simp only [List.mem_cons, exists_eq_or_imp]
    exact or_left_comm.trans or_assoc.symm

/-- An engine that is none of theirs is as before. -/
theorem runTasks_engine_other {ts : List Task} {k : Nat} (s : State) (h : ∀ a ∈ ts, a.slice ≠ k) :
    (runTasks ts s).engine k = s.engine k := by
  induction ts generalizing s with
  | nil => rfl
  | cons a ts ih =>
    rw [runTasks_cons, ih _ fun b hb => h b (List.mem_cons_of_mem a hb),
      runTask_engine_ne s (h a List.mem_cons_self).symm]

/-- Tasks of different slices. -/
def Distinct (ts : List Task) : Prop := ts.Pairwise fun a b => a.slice ≠ b.slice

/-- After the first of several tasks of different slices, the others leave its engine alone. -/
theorem runTasks_engine_head {a : Task} {ts : List Task} (h : Distinct (a :: ts)) (s : State) :
    (runTasks (a :: ts) s).engine a.slice = taskEngine a s := by
  rw [runTasks_cons, runTasks_engine_other _ fun b hb => ((List.pairwise_cons.1 h).1 b hb).symm,
    runTask_engine_self]

/-- A sample with a value within the mask keeps one (R80). -/
theorem runTask_hasSample {a : Task} {s : State} {p : Fin 4} {x y : Nat} (h : HasSample s.par s.plane p x y) :
    HasSample s.par (runTask a s).plane p x y := by
  rcases runTask_within a s p x y with hsame | ⟨-, hnew⟩
  · obtain ⟨v, hv, hmask⟩ := h
    exact ⟨v, hsame.trans hv, hmask⟩
  · exact hnew

theorem runTasks_hasSample {ts : List Task} {s : State} {p : Fin 4} {x y : Nat}
    (h : HasSample s.par s.plane p x y) : HasSample s.par (runTasks ts s).plane p x y := by
  induction ts generalizing s with
  | nil => exact h
  | cons a ts ih =>
    have hrest := ih (s := runTask a s)
    rw [runTask_par] at hrest
    exact hrest (runTask_hasSample h)

/-- Every sample that an ended task of the set has written has a value within the mask (R80). -/
def WrittenHaveSamples (s : State) : Prop :=
  ∀ p x y, (Store.lookup s.written (sampleKey p x y)).isSome = true → HasSample s.par s.plane p x y

/-- A sample that a task writes has a value afterwards, whichever value it keeps (R80, U6). -/
theorem runTask_sample_written {a : Task} {s : State} (hs : WrittenHaveSamples s) {p : Fin 4} {x y : Nat}
    (h : ∃ v, (sampleKey p x y, v) ∈ taskSamples a s) : HasSample s.par (runTask a s).plane p x y := by
  rcases runTask_sample a s p x y with ⟨-, hold⟩ | ⟨v, hv, hnew⟩
  · exact runTask_hasSample (hs p x y (hold h))
  · exact ⟨v, hnew, (taskSamples_mem hv).2⟩

theorem runTask_writtenHaveSamples {a : Task} {s : State} (hs : WrittenHaveSamples s) :
    WrittenHaveSamples (runTask a s) := by
  intro p x y hkey
  rw [runTask_eq, mergeSamples_written] at hkey
  rw [runTask_par]
  rcases hkey with hkey | hkey
  · exact runTask_hasSample (hs p x y hkey)
  · exact runTask_sample_written hs hkey

/-- A code is not 0, which stands for no error (R320). -/
theorem code_ne_zero (e : ErrorName) : e.code ≠ 0 := by
  cases e <;> decide

/-- A task that leaves no error in its engine has raised none (R273). -/
theorem slRun_ok_of_err {a : Task} {s : State} (h : (taskEngine a s).sl.err = 0) :
    ∃ u, slRun s.sliceIn a.slice a.base a.len a.cont ⟨s.engine a.slice, []⟩ = .ok () u := by
  unfold taskEngine at h
  generalize slRun s.sliceIn a.slice a.base a.len a.cont ⟨s.engine a.slice, []⟩ = r at h ⊢
  cases r with
  | ok _ u => exact ⟨u, rfl⟩
  | raise e u => exact absurd h (code_ne_zero e)

/-- A task that leaves no error has filled its region, also where other tasks wrote before (R76, R80). -/
theorem runTask_fills {a : Task} {s : State} (hs : WrittenHaveSamples s) (herr : (taskEngine a s).sl.err = 0) :
    Fills s.par (taskEngine a s).sl (runTask a s).plane := by
  obtain ⟨u, hu⟩ := slRun_ok_of_err herr
  obtain ⟨hfills, -⟩ := slRun_ok hu
  have heng : taskEngine a s = u.eng := by rw [taskEngine, hu]; rfl
  have hplane : taskSamples a s = u.plane := by rw [taskSamples, hu]; rfl
  intro p x y hp hin
  rw [heng] at hin
  obtain ⟨v, hv, -⟩ := hfills p x y hp hin
  exact runTask_sample_written hs ⟨v, hplane ▸ Store.lookup_mem _ _ _ hv⟩

/-- Each task that leaves no error has filled its region, and the tasks behind it leave it filled. -/
theorem runTasks_fills {ts : List Task} {s : State} (hd : Distinct ts) (hs : WrittenHaveSamples s) :
    ∀ a ∈ ts, ((runTasks ts s).engine a.slice).sl.err = 0 →
      Fills s.par ((runTasks ts s).engine a.slice).sl (runTasks ts s).plane := by
  induction ts generalizing s with
  | nil => exact fun a ha => absurd ha List.not_mem_nil
  | cons b ts ih =>
    intro a ha herr
    rcases List.mem_cons.1 ha with rfl | ha
    · rw [runTasks_engine_head hd] at herr ⊢
      intro p x y hp hin
      have hfirst := runTask_fills hs herr p x y hp hin
      rw [← runTask_par a s] at hfirst ⊢
      exact runTasks_hasSample hfirst
    · have hrest := ih (List.pairwise_cons.1 hd).2 (runTask_writtenHaveSamples (a := b) hs) a ha herr
      rwa [runTask_par] at hrest

/-- A sample outside the regions of all tasks is as before. -/
theorem runTasks_outside {ts : List Task} {s : State} (hd : Distinct ts) {p : Fin 4} {x y : Nat}
    (h : ∀ a ∈ ts, ¬ inRegion s.par ((runTasks ts s).engine a.slice).sl p p x y) :
    sampleAt (runTasks ts s).plane p x y = sampleAt s.plane p x y := by
  induction ts generalizing s with
  | nil => rfl
  | cons b ts ih =>
    have hrest := ih (s := runTask b s) (List.pairwise_cons.1 hd).2
    rw [runTask_par] at hrest
    have hb := h b List.mem_cons_self
    rw [runTasks_engine_head hd] at hb
    rw [runTasks_cons, hrest fun a ha => h a (List.mem_cons_of_mem b ha)]
    exact (runTask_within b s).outside hb

/-! ## The tasks of the located slices -/

theorem mem_tasksOf {cont : Bool} {k : Nat} {ls : List Loc} {a : Task} (h : a ∈ tasksOf cont k ls) :
    k ≤ a.slice ∧ a.slice < k + ls.length := by
  induction ls generalizing k with
  | nil => exact absurd h List.not_mem_nil
  | cons l ls ih =>
    rcases List.mem_cons.1 h with rfl | h
    · exact ⟨Nat.le_refl k, by simp⟩
    · have := ih h
      rw [List.length_cons]
      omega

theorem exists_mem_tasksOf {cont : Bool} {ls : List Loc} {k : Nat} (h : k < ls.length) :
    ∃ a ∈ tasksOf cont 0 ls, a.slice = k := by
  have hget := tasksOf_getElem? cont 0 k ls
  rw [List.getElem?_eq_getElem h, Nat.zero_add] at hget
  exact ⟨_, List.mem_of_getElem? hget, rfl⟩

theorem tasksOf_distinct (cont : Bool) (k : Nat) (ls : List Loc) : Distinct (tasksOf cont k ls) := by
  induction ls generalizing k with
  | nil => exact .nil
  | cons l ls ih =>
    refine List.pairwise_cons.2 ⟨fun a ha => ?_, ih (k + 1)⟩
    have hlow := (mem_tasksOf ha).1
    show k ≠ a.slice
    omega

/-- The state behind the join barrier of a frame: the engines are ready, and every task has ended (R292). -/
def frameAwaited (u : State) : State := awaitTasks (submitTasks (frameReady u))

theorem frameAwaited_frame (u : State) : frameAwaited u = { u with
    engines := (frameAwaited u).engines
    gopSlices := if u.keyframe then u.loc.length else u.gopSlices
    plane := (frameAwaited u).plane
    tasks := []
    written := []
    freeCtr := (frameAwaited u).freeCtr } := by
  have hready := frameReady_frame u
  unfold frameAwaited
  generalize frameReady u = w at hready ⊢
  rw [awaitTasks_frame]
  rw [hready]
  rfl

/-- The tasks in flight at the barrier are those of earlier dispatches, and one for each located slice. -/
theorem frameAwaited_eq (u : State) : ∃ w : State, frameAwaited u =
      { runTasks (u.tasks ++ tasksOf (!u.par.configPresent) 0 u.loc) w with written := [] } ∧
    w.plane = u.plane ∧ w.par = u.par ∧ (u.tasks = [] → w.written = []) := by
  have htasks : (submitTasks (frameReady u)).tasks = u.tasks ++ tasksOf (!u.par.configPresent) 0 u.loc := by
    rw [frameReady_frame]
    rfl
  refine ⟨{ submitTasks (frameReady u) with tasks := [] }, ?_, ?_, ?_, fun h => ?_⟩
  · rw [← htasks]
    rfl
  · show (frameReady u).plane = u.plane
    rw [frameReady_frame]
  · show (frameReady u).par = u.par
    rw [frameReady_frame]
  · have hnone : (frameReady u).tasks = [] := by
      rw [frameReady_frame]
      exact h
    show (submitTasks (frameReady u)).written = []
    rw [submitTasks_eq, hnone]
    rfl

/-- Every located slice has an engine at the barrier (R298). -/
theorem frameAwaited_hasEngine {u : State} {k : Nat} (h : k < u.loc.length) :
    (frameAwaited u).hasEngine k = true := by
  obtain ⟨w, hw, -⟩ := frameAwaited_eq u
  obtain ⟨a, ha, hslice⟩ := exists_mem_tasksOf (cont := !u.par.configPresent) h
  rw [hw]
  exact (runTasks_hasEngine _ w k).2 (.inl ⟨a, List.mem_append_right _ ha, hslice⟩)

/-- With no task of an earlier dispatch, the slices without error have filled their regions, and no sample has
changed elsewhere (R76, R297). -/
theorem frameAwaited_samples {u : State} (h : u.tasks = []) :
    (∀ k, k < u.loc.length → ((frameAwaited u).engine k).sl.err = 0 →
      Fills u.par ((frameAwaited u).engine k).sl (frameAwaited u).plane) ∧
    ∀ p x y, (∀ k, k < u.loc.length → ¬ inRegion u.par ((frameAwaited u).engine k).sl p p x y) →
      sampleAt (frameAwaited u).plane p x y = sampleAt u.plane p x y := by
  obtain ⟨w, hw, hplane, hpar, hwritten⟩ := frameAwaited_eq u
  rw [h, List.nil_append] at hw
  have hd := tasksOf_distinct (!u.par.configPresent) 0 u.loc
  have hnone : WrittenHaveSamples w := fun p x y hkey => by
    rw [hwritten h] at hkey
    cases hkey
  rw [hw]
  constructor
  · intro k hk herr
    obtain ⟨a, ha, rfl⟩ := exists_mem_tasksOf (cont := !u.par.configPresent) hk
    have hfills := runTasks_fills hd hnone a ha herr
    rw [hpar] at hfills
    exact hfills
  · intro p x y hout
    rw [← hplane]
    refine runTasks_outside hd fun a ha => ?_
    rw [hpar]
    have hslice := (mem_tasksOf ha).2
    exact hout a.slice (by omega)

/-! ## The join -/

theorem mem_failedSlices (s : State) (k : Nat) :
    k ∈ failedSlices s ↔ k < s.loc.length ∧ (s.engine k).sl.err ≠ 0 := by
  simp [failedSlices]

/-- The failed slices are listed in rising order (R304). -/
theorem failedSlices_rising (s : State) : (failedSlices s).Pairwise (· < ·) :=
  List.Pairwise.filter _ List.pairwise_lt_range

/-- What the join records of the failed slices `k :: ks` (R304, R334). -/
theorem frJoin_failed {s : State} {k : Nat} {ks : List Nat} (h : failedSlices (awaitTasks s) = k :: ks) :
    frJoin s = ({ awaitTasks s with
      lastError := ((awaitTasks s).engine k).sl.err
      errSlice := BitVec.ofNat 16 k
      underrun := (failedSlices (awaitTasks s)).any fun j => ((awaitTasks s).engine j).sl.underrun
      freeCtr := (awaitTasks s).freeCtr + 1 }, ks.length + 1) := by
  unfold frJoin
  dsimp only
  rw [h]
  rfl

theorem frJoin_clean {s : State} (h : failedSlices (awaitTasks s) = []) : frJoin s = (awaitTasks s, 0) := by
  unfold frJoin
  dsimp only
  rw [h]
  rfl

/-- The join of a frame looks at the state behind its barrier, whatever the number of workers (R302). -/
theorem awaitTasks_frame_dispatch (u : State) : awaitTasks (frDispatch (frameReady u)) = frameAwaited u :=
  awaitTasks_frDispatch (frameReady u)

/-! ## `PROC_FRAME` -/

/-- Steps 1 to 7 that raise no error have seen a keyframe (R292, R295). -/
theorem frameSetup_keyframeSeen {b n : Word} {s u : State} (h : frameSetup b n s = .ok () u) :
    u.keyframeSeen = true := by
  obtain ⟨_, v, -, h⟩ := Res.bind_ok.1 h
  obtain ⟨_, w, hchecks, hlocate⟩ := Res.bind_ok.1 h
  have hkept : u.keyframeSeen = w.keyframeSeen := by
    have hframe := frLocate_frame b n w
    rw [hlocate] at hframe
    exact (congrArg State.keyframeSeen hframe :)
  rw [hkept]
  unfold frameChecks at hchecks
  split at hchecks
  · cases hchecks
  · rename_i hkey
    split at hchecks
    · cases hchecks
    · split at hchecks
      · cases hchecks
      · cases hchecks
        show (v.keyframeSeen || v.keyframe) = true
        cases hk : v.keyframe <;> cases hs : v.keyframeSeen <;> simp [hk, hs] at hkey ⊢

/-- How `PROC_FRAME` ends, when its steps 1 to 7 raise no error (R292). -/
theorem exec_procFrame {s u : State} (hw : 1 ≤ s.width.toNat ∧ s.width.toNat ≤ 2 ^ 24 - 1)
    (hh : 1 ≤ s.height.toNat ∧ s.height.toNat ≤ 2 ^ 24 - 1) (hbuf : s.arg0.toNat + s.arg1.toNat ≤ 2 ^ 32 - 2)
    (hsetup : frameSetup s.arg0 s.arg1 s = .ok () u) :
    exec .procFrame s =
      if (frameSlices u).2 = 0 then complete (frameSlices u).1 else .next (frameSlices u).1.finishFailed := by
  dsimp only [exec, execProcFrame]
  rw [dimensionsChecked_of _ hw hh hbuf, hsetup]

/-- Settles O58: behind the barrier either no located slice has failed, or the lowest that has is recorded. -/
theorem procFrameEndsWithItsSlices : Obligations.ProcFrameEndsWithItsSlices := by
  intro s u hw1 hw2 hh1 hh2 hbuf hsetup sampled
  have hexec := exec_procFrame ⟨hw1, hw2⟩ ⟨hh1, hh2⟩ hbuf hsetup
  have hside := frameSetup_frameSide s.arg0 s.arg1 s
  rw [hsetup] at hside
  injection hside with hhost hresult hlast hslice htasks
  have hin : u.inMem = s.inMem := congrArg HostSide.inMem hhost
  have hseen := frameSetup_keyframeSeen hsetup
  have hz := frameAwaited_frame u
  have hloc : (frameAwaited u).loc = u.loc := by rw [hz]
  have hsampled : ∀ t : State, t.engines = (frameAwaited u).engines → t.plane = (frameAwaited u).plane →
      sampled t := by
    intro t he hp hnone
    obtain ⟨hfills, hout⟩ := frameAwaited_samples (htasks.trans hnone)
    refine ⟨fun k hk herr => ?_, fun p x y h => ?_⟩
    · rw [regionFilled_iff, hp]
      rw [engine_congr he] at herr ⊢
      exact hfills k hk herr
    · rw [State.sample, hp]
      exact hout p x y fun k hk => engine_congr he k ▸ h k hk
  have hinput : ∀ t : State, t.inMem = u.inMem → sameInput s t := fun t ht a =>
    congrArg (inByte · a) (ht.trans hin)
  have hjoin := awaitTasks_frame_dispatch u
  rw [frameSlices_eq] at hexec ⊢
  cases hfailed : failedSlices (frameAwaited u) with
  | nil =>
    rw [frJoin_clean (by rw [hjoin, hfailed]), hjoin] at hexec ⊢
    refine ⟨fun _ => ⟨_, hexec, ⟨rfl, rfl, rfl, ?_⟩, ?_⟩, fun h => absurd rfl h⟩
    · exact (congrArg State.result hz :).trans hresult
    · refine ⟨hinput _ (congrArg State.inMem hz :), (congrArg State.tasks hz :), (congrArg State.par hz :), hloc,
        (congrArg State.keyframe hz :), (congrArg State.keyframeSeen hz :).trans hseen,
        (congrArg State.lastError hz :).trans hlast, (congrArg State.errSlice hz :).trans hslice, fun hkey => ?_,
        hsampled _ rfl rfl, fun k hk => ⟨frameAwaited_hasEngine hk, ?_⟩⟩
      · have hgop := (congrArg State.gopSlices hz :)
        rwa [if_pos hkey] at hgop
      · by_contra herr
        exact List.not_mem_nil (hfailed ▸ (mem_failedSlices _ k).2 ⟨hloc ▸ hk, herr⟩)
  | cons k ks =>
    have hmem := fun j => mem_failedSlices (frameAwaited u) j
    rw [hfailed, hloc] at hmem
    have hrising := failedSlices_rising (frameAwaited u)
    rw [hfailed] at hrising
    obtain ⟨hk, herr⟩ := (hmem k).1 List.mem_cons_self
    rw [frJoin_failed (by rw [hjoin, hfailed]), hjoin] at hexec ⊢
    refine ⟨fun h => absurd h (Nat.succ_ne_zero _), fun _ => ⟨_, hexec, rfl, rfl, rfl,
      hinput _ (congrArg State.inMem hz :), (congrArg State.tasks hz :), hloc, hsampled _ rfl rfl, k, hk, herr,
      fun j hj => ?_, rfl, rfl, ?_⟩⟩
    · by_contra hj'
      rcases List.mem_cons.1 ((hmem j).2 ⟨by omega, hj'⟩) with rfl | hlater
      · exact absurd hj (Nat.lt_irrefl j)
      · exact absurd hj (Nat.not_lt.2 (Nat.le_of_lt ((List.pairwise_cons.1 hrising).1 j hlater)))
    · show (failedSlices (frameAwaited u)).any _ = true ↔ _
      rw [hfailed, List.any_eq_true]
      constructor
      · rintro ⟨j, hj, hunder⟩
        obtain ⟨hlt, hjerr⟩ := (hmem j).1 hj
        exact ⟨j, hlt, hjerr, hunder⟩
      · rintro ⟨j, hlt, hjerr, hunder⟩
        exact ⟨j, (hmem j).2 ⟨hlt, hjerr⟩, hunder⟩

end Sys2Proof.Machine

/-! # The decoder and the encoder (R92, R93) -/

namespace Sys2Proof

open Machine

-- One theorem at a time: each that waits for the kernel holds a thread, and here they are many and short.
set_option Elab.async false

/-! ## The two forms of a row -/

/-- A word of the form without operands is the command exactly when `slice` and `imm` are 0 (R92, R93). -/
theorem frameForm_eq_instr {i j : Instr} {w : Word} :
    frameForm i w = .instr j ↔ i = j ∧ sliceField w = 0 ∧ immField w = 0 := by
  unfold frameForm
  split
  · simp_all
  · split <;> simp_all

/-- A word of the form with operands is the command exactly when the unused bits of `imm` are 0 and the operands
are in range (R92, R93). -/
theorem sliceForm_eq_instr {used : BitVec 8} {i j : Instr} {w : Word} :
    sliceForm used i w = .instr j ↔ i = j ∧ immField w &&& ~~~used = 0 ∧ i.wf = true := by
  unfold sliceForm
  split
  · simp_all
  · split <;> simp_all

/-! ## Operands in `imm` -/

theorem flag_unused (b : Bool) : (0#7 ++ BitVec.ofBool b) &&& ~~~(0x01 : BitVec 8) = 0 := by revert b; decide
theorem flag_getLsbD (b : Bool) : (0#7 ++ BitVec.ofBool b).getLsbD 0 = b := by revert b; decide
theorem set_unused (q : BitVec 3) : (0#5 ++ q) &&& ~~~(0x07 : BitVec 8) = 0 := by revert q; decide
theorem set_extract (q : BitVec 3) : (0#5 ++ q).extractLsb' 0 3 = q := by revert q; decide
theorem plane_unused (c : BitVec 2) : (0#6 ++ c) &&& ~~~(0x03 : BitVec 8) = 0 := by revert c; decide
theorem plane_extract (c : BitVec 2) : (0#6 ++ c).extractLsb' 0 2 = c := by revert c; decide
theorem bits_unused (n : BitVec 6) : (0#2 ++ n) &&& ~~~(0x3F : BitVec 8) = 0 := by revert n; decide
theorem bits_extract (n : BitVec 6) : (0#2 ++ n).extractLsb' 0 6 = n := by revert n; decide
theorem table_unused (q j : BitVec 3) : (0#1 ++ j ++ 0#1 ++ q) &&& ~~~(0x77 : BitVec 8) = 0 := by revert q j; decide
theorem table_extract_set (q j : BitVec 3) : (0#1 ++ j ++ 0#1 ++ q).extractLsb' 0 3 = q := by revert q j; decide
theorem table_extract_index (q j : BitVec 3) : (0#1 ++ j ++ 0#1 ++ q).extractLsb' 4 3 = j := by
  revert q j; decide


/-- Settles O1: by command, grouped by the operands in `imm`; the row is found by `op`, which reads back, and so
do the operands. -/
theorem decodeEncodeRoundTrip : Obligations.DecodeEncodeRoundTrip := by
  intro i hwf
  unfold decode
  cases i with
  | reset | procOob | procFrame | getErr | outCreate | parDerive | frKeybit | frLocate | frGopinit | frDispatch
  | frJoin | frFinal => rfl
  | rcBit k | rcUsym k | rcSsym k | rcUsed k | rcUndr k | rcForce k | rcGopinit k | rcDelta k | bsArm k | bsBit k
  | bsUsed k | bsUndr k | grGopinit k | grPlaneinit k | grLineinit k | grDelta k | grRice k | predMed k | smpDec k
  | lineDec k | planeDec k | rgbDec k | slHeader k | slContent k | slFooter k | slCrc k =>
    dsimp only [encode]
    rw [opField_cmdWord, sliceField_cmdWord]
    exact sliceForm_eq_instr.2 ⟨rfl, by rw [immField_cmdWord]; rfl, rfl⟩
  | rcArm k b | rcRearm k b | parParse k b | slRun k b | slOpen k b =>
    dsimp only [encode]
    rw [opField_cmdWord, sliceField_cmdWord, immField_cmdWord, flag_getLsbD]
    exact sliceForm_eq_instr.2 ⟨rfl, by rw [immField_cmdWord, flag_unused], rfl⟩
  | ctxIdx k q | parQtset k q | parInist k q =>
    dsimp only [encode]
    rw [opField_cmdWord, sliceField_cmdWord, immField_cmdWord, set_extract]
    exact sliceForm_eq_instr.2 ⟨rfl, by rw [immField_cmdWord, set_unused], rfl⟩
  | stFill k v =>
    dsimp only [encode]
    rw [opField_cmdWord, sliceField_cmdWord, immField_cmdWord]
    exact sliceForm_eq_instr.2 ⟨rfl, BitVec.and_zero, rfl⟩
  | bsBits k n =>
    dsimp only [encode]
    rw [opField_cmdWord, sliceField_cmdWord, immField_cmdWord, bits_extract]
    exact sliceForm_eq_instr.2 ⟨rfl, by rw [immField_cmdWord, bits_unused], hwf⟩
  | pxWrite k c =>
    dsimp only [encode]
    rw [opField_cmdWord, sliceField_cmdWord, immField_cmdWord, plane_extract]
    exact sliceForm_eq_instr.2 ⟨rfl, by rw [immField_cmdWord, plane_unused], rfl⟩
  | parQtab k q j =>
    dsimp only [encode]
    rw [opField_cmdWord, sliceField_cmdWord, immField_cmdWord, table_extract_set, table_extract_index]
    exact sliceForm_eq_instr.2 ⟨rfl, by rw [immField_cmdWord, table_unused], hwf⟩


/-! ## The rows of the opcode table -/

/-- The two range limits that a mask cannot express: at most 32 bits, one of five tables (R92, R93). -/
def KeepsLimits (w : Word) : Prop :=
  (opField w = 0x22 → immField w ≤ 32) ∧ (opField w = 0x42 → (immField w).extractLsb' 4 3 ≤ 4)

/-- Everything that decoding a word can be: the form of the row that has its `op`, or the refusal of an `op` that
no row has. -/
inductive ReadByRow (w : Word) : Decoded → Prop
  /-- A row without operands. -/
  | plain {op : BitVec 8} {i : Instr} (hop : opField w = op) (hrow : rowPlain op ∈ opRows)
      (hword : encode i = cmdWord op 0 0) (hwf : i.wf = true) (hlimits : KeepsLimits w) :
      ReadByRow w (frameForm i w)
  /-- A row with operands; with no unused bit set, the word is the command's, and the limits are its ranges. -/
  | operands {op used : BitVec 8} {i : Instr} (hop : opField w = op) (hrow : rowSlice op used ∈ opRows)
      (hword : immField w &&& ~~~used = 0 → encode i = cmdWord op (sliceField w) (immField w))
      (hlimits : immField w &&& ~~~used = 0 → (i.wf = true ↔ KeepsLimits w)) :
      ReadByRow w (sliceForm used i w)
  | reserved (h : ∀ r ∈ opRows, opField r.bits ≠ opField w) : ReadByRow w (.rejected .reservedOpcode)

theorem opField_eq_of_toNat {w : Word} {n : Nat} (h : (opField w).toNat = n) : opField w = BitVec.ofNat 8 n := by
  rw [← h, BitVec.ofNat_toNat, BitVec.setWidth_eq]

/-- Of the rows without a limit of their own. -/
theorem keepsLimits_of_op {w : Word} {n : Nat} (hop : (opField w).toNat = n) (h22 : n ≠ 0x22) (h42 : n ≠ 0x42) :
    KeepsLimits w := by
  refine ⟨fun h => absurd ?_ h22, fun h => absurd ?_ h42⟩ <;> rw [← hop, h] <;> rfl

theorem readByRow_plain {w : Word} {n : Nat} {i : Instr} (hop : (opField w).toNat = n)
    (hrow : rowPlain (BitVec.ofNat 8 n) ∈ opRows) (hword : encode i = cmdWord (BitVec.ofNat 8 n) 0 0)
    (hwf : i.wf = true) (h22 : n ≠ 0x22) (h42 : n ≠ 0x42) : ReadByRow w (frameForm i w) :=
  .plain (opField_eq_of_toNat hop) hrow hword hwf (keepsLimits_of_op hop h22 h42)

/-- A row whose operands, read from `imm`, are put back by the encoder as `f` of `imm`. -/
theorem readByRow_operands {w : Word} {n : Nat} {used : BitVec 8} {i : Instr} (f : BitVec 8 → BitVec 8)
    (hf : ∀ imm : BitVec 8, imm &&& ~~~used = 0 → f imm = imm) (hop : (opField w).toNat = n)
    (hrow : rowSlice (BitVec.ofNat 8 n) used ∈ opRows)
    (hword : encode i = cmdWord (BitVec.ofNat 8 n) (sliceField w) (f (immField w)))
    (hlimits : immField w &&& ~~~used = 0 → (i.wf = true ↔ KeepsLimits w)) : ReadByRow w (sliceForm used i w) :=
  .operands (opField_eq_of_toNat hop) hrow (fun h => by rw [hword, hf _ h]) hlimits

/-- A row with operands, every value of which is legal. -/
theorem readByRow_legal {w : Word} {n : Nat} {used : BitVec 8} {i : Instr} (f : BitVec 8 → BitVec 8)
    (hf : ∀ imm : BitVec 8, imm &&& ~~~used = 0 → f imm = imm) (hop : (opField w).toNat = n)
    (hrow : rowSlice (BitVec.ofNat 8 n) used ∈ opRows)
    (hword : encode i = cmdWord (BitVec.ofNat 8 n) (sliceField w) (f (immField w)))
    (hwf : i.wf = true) (h22 : n ≠ 0x22) (h42 : n ≠ 0x42) : ReadByRow w (sliceForm used i w) :=
  readByRow_operands f hf hop hrow hword fun _ => iff_of_true hwf (keepsLimits_of_op hop h22 h42)

theorem imm_none : ∀ imm : BitVec 8, imm &&& ~~~(0 : BitVec 8) = 0 → 0 = imm := by decide
theorem imm_flag : ∀ imm : BitVec 8, imm &&& ~~~(0x01 : BitVec 8) = 0 →
    0#7 ++ BitVec.ofBool (imm.getLsbD 0) = imm := by decide
theorem imm_set : ∀ imm : BitVec 8, imm &&& ~~~(0x07 : BitVec 8) = 0 → 0#5 ++ imm.extractLsb' 0 3 = imm := by
  decide
theorem imm_plane : ∀ imm : BitVec 8, imm &&& ~~~(0x03 : BitVec 8) = 0 → 0#6 ++ imm.extractLsb' 0 2 = imm := by
  decide
theorem imm_bits : ∀ imm : BitVec 8, imm &&& ~~~(0x3F : BitVec 8) = 0 → 0#2 ++ imm.extractLsb' 0 6 = imm := by
  decide
theorem imm_table : ∀ imm : BitVec 8, imm &&& ~~~(0x77 : BitVec 8) = 0 →
    0#1 ++ imm.extractLsb' 4 3 ++ 0#1 ++ imm.extractLsb' 0 3 = imm := by decide
theorem imm_bits_le : ∀ imm : BitVec 8, imm &&& ~~~(0x3F : BitVec 8) = 0 →
    (imm.extractLsb' 0 6 ≤ 32 ↔ imm ≤ 32) := by decide

/-- The `op` of the rows, as numbers in the order of the table. -/
theorem opRows_numbers : opRows.map (fun r => (opField r.bits).toNat) =
    [0x01, 0x02, 0x03, 0x04, 0x05, 0x10, 0x11, 0x12, 0x13, 0x14, 0x15, 0x16, 0x17, 0x18, 0x19, 0x1A, 0x20, 0x21,
     0x22, 0x23, 0x24, 0x28, 0x29, 0x2A, 0x2B, 0x2C, 0x30, 0x31, 0x32, 0x33, 0x34, 0x35, 0x36, 0x40, 0x41, 0x42,
     0x43, 0x44, 0x50, 0x51, 0x52, 0x53, 0x54, 0x55, 0x60, 0x61, 0x62, 0x63, 0x64, 0x65] := by decide

/-- Decoding, row by row of the table. -/
theorem decode_readByRow (w : Word) : ReadByRow w (decode w) := by
  unfold decode
  dsimp only
  split
  case h_1 hop | h_2 hop | h_3 hop | h_4 hop | h_5 hop | h_38 hop | h_45 hop | h_46 hop | h_47 hop | h_48 hop
  | h_49 hop | h_50 hop => exact readByRow_plain hop (by decide) rfl rfl (by decide) (by decide)
  case h_8 hop | h_9 hop | h_10 hop | h_11 hop | h_12 hop | h_13 hop | h_14 hop | h_15 hop | h_17 hop | h_18 hop
  | h_20 hop | h_21 hop | h_22 hop | h_23 hop | h_24 hop | h_25 hop | h_26 hop | h_28 hop | h_29 hop | h_30 hop
  | h_31 hop | h_32 hop | h_39 hop | h_40 hop | h_41 hop | h_43 hop =>
    exact readByRow_legal (fun _ => 0) imm_none hop (by decide) rfl rfl (by decide) (by decide)
  case h_6 hop | h_7 hop | h_34 hop | h_42 hop | h_44 hop =>
    exact readByRow_legal _ imm_flag hop (by decide) rfl rfl (by decide) (by decide)
  case h_27 hop | h_35 hop | h_37 hop =>
    exact readByRow_legal _ imm_set hop (by decide) rfl rfl (by decide) (by decide)
  case h_16 hop => exact readByRow_legal id (fun _ _ => rfl) hop (by decide) rfl rfl (by decide) (by decide)
  case h_33 hop => exact readByRow_legal _ imm_plane hop (by decide) rfl rfl (by decide) (by decide)
  case h_19 hop =>
    refine readByRow_operands _ imm_bits hop (by decide) rfl fun hused => ?_
    rw [Instr.wf, decide_eq_true_iff, imm_bits_le _ hused]
    exact ⟨fun h => ⟨fun _ => h, fun h42 => by simp [h42] at hop⟩, fun h => h.1 (opField_eq_of_toNat hop)⟩
  case h_36 hop =>
    refine readByRow_operands _ imm_table hop (by decide) rfl fun _ => ?_
    rw [Instr.wf, decide_eq_true_iff]
    exact ⟨fun h => ⟨fun h22 => by simp [h22] at hop, fun _ => h⟩, fun h => h.2 (opField_eq_of_toNat hop)⟩
  case h_51 =>
    refine .reserved fun r hr heq => ?_
    have hmem := List.mem_map_of_mem (f := fun r => (opField r.bits).toNat) hr
    rw [opRows_numbers, heq] at hmem
    simp_all

/-- Settles O2: the word is put together again from the fields that its row reads. -/
theorem encodeDecodeRoundTrip : Obligations.EncodeDecodeRoundTrip := by
  intro w i hdecode
  have hread := decode_readByRow w
  generalize decode w = d at hread hdecode
  cases hread with
  | plain hop _ hword hwf _ =>
    obtain ⟨rfl, hslice, himm⟩ := frameForm_eq_instr.1 hdecode
    exact ⟨hwf, by rw [hword, ← hop, ← hslice, ← himm, cmdWord_fields]⟩
  | operands hop _ hword _ =>
    obtain ⟨rfl, hused, hwf⟩ := sliceForm_eq_instr.1 hdecode
    exact ⟨hwf, by rw [hword hused, ← hop, cmdWord_fields]⟩
  | reserved => cases hdecode

theorem matches_rowPlain {w : Word} {op : BitVec 8} :
    w &&& (rowPlain op).mask = (rowPlain op).bits ↔ opField w = op ∧ sliceField w = 0 ∧ immField w = 0 := by
  have hall : w &&& (rowPlain op).mask = w := BitVec.and_allOnes
  rw [hall, ← cmdWord_fields w, rowPlain, cmdWord_inj, cmdWord_fields]

theorem matches_rowSlice {w : Word} {op used : BitVec 8} :
    w &&& (rowSlice op used).mask = (rowSlice op used).bits ↔ opField w = op ∧ immField w &&& ~~~used = 0 := by
  have hand : w &&& (rowSlice op used).mask = cmdWord (opField w) 0 (immField w &&& ~~~used) := by
    rw [rowSlice, ← cmdWord_fields w, cmdWord_and, cmdWord_fields]
    exact cmdWord_inj.2 ⟨BitVec.and_allOnes, BitVec.and_zero, rfl⟩
  rw [hand, rowSlice, cmdWord_inj]
  simp

/-- A word has the `op` of every row that it matches: no row masks a bit of it. -/
theorem opField_of_matches {w : Word} {r : OpRow} (hr : r ∈ opRows) (h : w &&& r.mask = r.bits) :
    opField r.bits = opField w := by
  have hmask : opField r.mask = BitVec.allOnes 8 := (by decide : ∀ r ∈ opRows, opField r.mask = 0xFF) r hr
  rw [← h, ← cmdWord_fields w, ← cmdWord_fields r.mask, cmdWord_and, opField_cmdWord, opField_cmdWord, hmask,
    BitVec.and_allOnes]

/-- No two rows have the same `op`. -/
theorem opRows_inj {r r' : OpRow} (hr : r ∈ opRows) (hr' : r' ∈ opRows) (h : opField r.bits = opField r'.bits) :
    r = r' := by
  have hnodup : (opRows.map fun r => (opField r.bits).toNat).Nodup := by rw [opRows_numbers]; decide
  exact List.inj_on_of_nodup_map hnodup hr hr' (congrArg BitVec.toNat h)

/-- A word matches only the row that has its `op`. -/
theorem eq_of_matches {w : Word} {op : BitVec 8} {r r' : OpRow} (hop : opField w = op) (hr : r ∈ opRows)
    (hr' : r' ∈ opRows) (hbits : opField r'.bits = op) (h : w &&& r.mask = r.bits) : r = r' :=
  opRows_inj hr hr' ((opField_of_matches hr h).trans (hop.trans hbits.symm))

/-- A word decodes to a command exactly when it matches a row and keeps the limits. -/
theorem decodes_iff_matches (w : Word) :
    (∃ i, decode w = .instr i) ↔ (∃ r ∈ opRows, w &&& r.mask = r.bits) ∧ KeepsLimits w := by
  have hread := decode_readByRow w
  generalize decode w = d at hread ⊢
  cases hread with
  | plain hop hrow _ _ hlimits =>
    constructor
    · rintro ⟨i, hi⟩
      obtain ⟨-, hslice, himm⟩ := frameForm_eq_instr.1 hi
      exact ⟨⟨_, hrow, matches_rowPlain.2 ⟨hop, hslice, himm⟩⟩, hlimits⟩
    · rintro ⟨⟨r, hr, hmatch⟩, -⟩
      obtain rfl := eq_of_matches hop hr hrow (opField_cmdWord _ _ _) hmatch
      obtain ⟨-, hslice, himm⟩ := matches_rowPlain.1 hmatch
      exact ⟨_, frameForm_eq_instr.2 ⟨rfl, hslice, himm⟩⟩
  | operands hop hrow _ hlimits =>
    constructor
    · rintro ⟨i, hi⟩
      obtain ⟨-, hused, hwf⟩ := sliceForm_eq_instr.1 hi
      exact ⟨⟨_, hrow, matches_rowSlice.2 ⟨hop, hused⟩⟩, (hlimits hused).1 hwf⟩
    · rintro ⟨⟨r, hr, hmatch⟩, hkeeps⟩
      obtain rfl := eq_of_matches hop hr hrow (opField_cmdWord _ _ _) hmatch
      obtain ⟨-, hused⟩ := matches_rowSlice.1 hmatch
      exact ⟨_, sliceForm_eq_instr.2 ⟨rfl, hused, (hlimits hused).2 hkeeps⟩⟩
  | reserved h =>
    constructor
    · rintro ⟨i, hi⟩
      cases hi
    · rintro ⟨⟨r, hr, hmatch⟩, -⟩
      exact absurd (opField_of_matches hr hmatch) (h r hr)

/-- Settles O3: a row is found by `op`, which no mask leaves out and no two rows share. -/
theorem tableRowsAreTheCommands : Obligations.TableRowsAreTheCommands := by
  intro w
  refine ⟨decodes_iff_matches w, fun r hr r' hr' hmatch hmatch' => opRows_inj hr hr' ?_⟩
  exact (opField_of_matches hr hmatch).trans (opField_of_matches hr' hmatch').symm

/-- Settles O4: each word is decoded. -/
theorem writtenWordsDecode : Obligations.WrittenWordsDecode := by
  unfold Obligations.WrittenWordsDecode
  decide

end Sys2Proof

/-! # The port: the status word, refused words, registers and the `PAR` window (R91, R93, R96, R97, R99) -/

namespace Sys2Proof.Machine

-- One theorem at a time: each that waits for the kernel holds a thread, and here they are many and short.
set_option Elab.async false

/-! ## The status word (R97) -/

theorem getLsbD_append_ofBool_zero {n : Nat} (v : BitVec n) (b : Bool) : (v ++ BitVec.ofBool b).getLsbD 0 = b := by
  rw [BitVec.getLsbD_append]
  cases b <;> rfl

theorem getLsbD_append_ofBool_succ {n : Nat} (v : BitVec n) (b : Bool) (i : Nat) :
    (v ++ BitVec.ofBool b).getLsbD (i + 1) = v.getLsbD i := by
  simp [BitVec.getLsbD_append]

/-- Settles O9: each bit appended is bit 0, and moves the bits before it up by one. -/
theorem statusWordLayout : Obligations.StatusWordLayout := by
  intro s
  have zero := @getLsbD_append_ofBool_zero
  have succ := @getLsbD_append_ofBool_succ
  unfold State.status
  refine ⟨zero _ _, ?_, ?_, ?_, ?_, ?_, ?_, ?_, fun n hn => ?_⟩
  · rw [succ, zero]
  · rw [succ, succ, zero]
  · rw [succ, succ, succ, zero]
  · rw [succ, succ, succ, succ, zero]
  · rw [succ, succ, succ, succ, succ, zero]
  · rw [succ, succ, succ, succ, succ, succ, zero]
  · rw [succ, succ, succ, succ, succ, succ, succ, zero]
  · obtain ⟨m, rfl⟩ := Nat.exists_eq_add_of_le' hn
    rw [succ, succ, succ, succ, succ, succ, succ, succ, BitVec.getLsbD_zero]

/-! ## Refused words (R93, R111) -/

theorem refusedSlice_eq (w : Word) : refusedSlice w =
    if 0x50 ≤ (opField w).toNat ∧ (opField w).toNat ≤ 0x55 then sliceField w else 0xFFFF := rfl

/-- Settles O6: the pending word is run as the refusal that its decoding is. -/
theorem refusedWordsTakeBadCommand : Obligations.RefusedWordsTakeBadCommand := by
  intro s e hbusy hdecode hnil
  have hrun : runPending s = failWith .badCommand (refusedSlice s.cmd) s := by
    simp [runPending, runCommand, hbusy, hdecode]
  rw [step_nil hnil, hrun, refusedSlice_eq]
  rfl

/-! ## Registers (R91, R96, R365) -/

/-- The next event on the agenda is the step. -/
theorem step_event {s : State} {ev : HostEvent} {rest : List HostEvent} (h : s.agenda = ev :: rest) :
    step s = handle ev { s with agenda := rest } := by
  simp [step, advance, h]

theorem hostWrite_busy {s : State} (offset : BitVec 8) (v : Word) (h : s.busy = true) :
    hostWrite offset v s = s := if_pos h

/-- Every write while a command is pending is ignored (R91, R365). -/
theorem step_write_busy {s : State} {offset : BitVec 8} {v : Word} {rest : List HostEvent}
    (h : s.agenda = .write offset v :: rest) (hbusy : s.busy = true) : step s = .next { s with agenda := rest } := by
  rw [step_event h, handle, hostWrite_busy (s := { s with agenda := rest }) offset v hbusy]

/-- An offset of the register block as a number. -/
theorem offset_eq_iff {offset : BitVec 8} {n : Nat} : offset = BitVec.ofNat 8 n ↔ offset.toNat = n % 2 ^ 8 := by
  rw [← BitVec.toNat_inj, BitVec.toNat_ofNat]

/-- What a write does while no command is pending (R96). -/
theorem hostWrite_idle {s : State} (offset : BitVec 8) (v : Word) (h : s.busy = false) :
    hostWrite offset v s =
      if offset = 0x00 then s.issue v else if offset = 0x04 then { s with arg0 := v }
      else if offset = 0x08 then { s with arg1 := v } else if offset = 0x1C then { s with width := v }
      else if offset = 0x20 then { s with height := v } else if offset = 0x28 then { s with parSel := v }
      else if offset = 0x2C then s.writeParData v else s := by
  unfold hostWrite
  rw [if_neg (by rw [h]; exact Bool.false_ne_true)]
  simp only [BitVec.ofNat_eq_ofNat, offset_eq_iff]
  split <;> simp_all

/-- What a read answers (R96). -/
theorem portValue_eq (s : State) (offset : BitVec 8) :
    portValue s offset =
      if offset = 0x04 then s.arg0 else if offset = 0x08 then s.arg1 else if offset = 0x0C then s.result
      else if offset = 0x10 then s.status else if offset = 0x14 then s.lastError.setWidth 32
      else if offset = 0x18 then s.errSlice.setWidth 32 else if offset = 0x1C then s.width
      else if offset = 0x20 then s.height else if offset = 0x24 then s.outInfo
      else if offset = 0x28 then s.parSel else if offset = 0x2C then parRead s.par s.parSel else 0 := by
  unfold portValue
  simp only [BitVec.ofNat_eq_ofNat, offset_eq_iff]
  split <;> simp_all

/-! ## The `PAR` window (R99) -/

section Window

variable {p : Par} {sel : Word}

theorem parRead_version (h : selId sel = 0) : parRead p sel = p.version := by simp only [parRead, h]
theorem parRead_microVersion (h : selId sel = 1) : parRead p sel = p.microVersion := by simp only [parRead, h]
theorem parRead_coderType (h : selId sel = 2) : parRead p sel = bitWord p.coderType := by simp only [parRead, h]
theorem parRead_customPresent (h : selId sel = 3) : parRead p sel = bitWord p.customPresent := by
  simp only [parRead, h]
theorem parRead_colorspaceType (h : selId sel = 5) : parRead p sel = bitWord p.colorspaceType := by
  simp only [parRead, h]
theorem parRead_bitsPerRawSample (h : selId sel = 6) : parRead p sel = p.bitsPerRawSample.setWidth 32 := by
  simp only [parRead, h]
theorem parRead_chromaPlanes (h : selId sel = 7) : parRead p sel = bitWord p.chromaPlanes := by
  simp only [parRead, h]
theorem parRead_chromaHShift (h : selId sel = 8) : parRead p sel = p.chromaHShift := by simp only [parRead, h]
theorem parRead_chromaVShift (h : selId sel = 9) : parRead p sel = p.chromaVShift := by simp only [parRead, h]
theorem parRead_alphaPlane (h : selId sel = 10) : parRead p sel = bitWord p.alphaPlane := by simp only [parRead, h]
theorem parRead_numHSlices (h : selId sel = 11) : parRead p sel = p.numHSlices := by simp only [parRead, h]
theorem parRead_numVSlices (h : selId sel = 12) : parRead p sel = p.numVSlices := by simp only [parRead, h]
theorem parRead_qtSetCount (h : selId sel = 13) : parRead p sel = p.qtSetCount.setWidth 32 := by
  simp only [parRead, h]
theorem parRead_ec (h : selId sel = 17) : parRead p sel = bitWord p.ec := by simp only [parRead, h]
theorem parRead_intra (h : selId sel = 18) : parRead p sel = bitWord p.intra := by simp only [parRead, h]
theorem parRead_valid (h : selId sel = 19) : parRead p sel = bitWord p.valid := by simp only [parRead, h]
theorem parRead_configPresent (h : selId sel = 20) : parRead p sel = bitWord p.configPresent := by
  simp only [parRead, h]
theorem parRead_bitsMax (h : selId sel = 21) : parRead p sel = p.bitsMax.setWidth 32 := by simp only [parRead, h]
theorem parRead_bitsMask (h : selId sel = 22) : parRead p sel = p.bitsMask := by simp only [parRead, h]
theorem parRead_planeCount (h : selId sel = 23) : parRead p sel = p.planeCount.setWidth 32 := by
  simp only [parRead, h]
theorem parRead_qtiCount (h : selId sel = 24) : parRead p sel = p.qtiCount.setWidth 32 := by simp only [parRead, h]
theorem parRead_tailSize (h : selId sel = 25) : parRead p sel = p.tailSize.setWidth 32 := by simp only [parRead, h]
theorem parRead_isOverflow16 (h : selId sel = 26) : parRead p sel = bitWord p.isOverflow16 := by
  simp only [parRead, h]

theorem parRead_customTransition (h : selId sel = 4) (ha : selA sel < 256) :
    parRead p sel = (p.customTransition.get ⟨selA sel, ha⟩).setWidth 32 := by
  simp only [parRead, h, ha, dite_true]

theorem parRead_qt (h : selId sel = 14) (ha : selA sel < 1280) :
    parRead p sel = (p.qtAt (selQ sel) (selA sel / 256) (selA sel % 256)).signExtend 32 := by
  have hok : selQtOk sel = true := decide_eq_true ha
  simp only [parRead, h, hok, if_true]

theorem parRead_contextCount (h : selId sel = 15) :
    parRead p sel = (p.contextCount.get (selQ sel).toFin).setWidth 32 := by simp only [parRead, h]

theorem parRead_init (h : selId sel = 16) (ha : selA sel < 16384) :
    parRead p sel = (p.initAt (selQ sel) (selA sel) (selB sel)).setWidth 32 := by
  have hok : selCtxOk sel = true := decide_eq_true ha
  simp only [parRead, h, hok, if_true]

/-- A context count reads as a number of 15 bits. -/
theorem parRead_contextCount_toNat (h : selId sel = 15) : (parRead p sel).toNat = p.ctxCount (selQ sel) := by
  rw [parRead_contextCount h]
  exact BitVec.toNat_setWidth_of_le (by decide)

/-- A selection that names no field reads 0. -/
theorem parRead_none (h : selId sel = 4 ∧ 256 ≤ selA sel ∨ selId sel = 14 ∧ 1280 ≤ selA sel ∨
    selId sel = 16 ∧ 16384 ≤ selA sel ∨ 27 ≤ selId sel) : parRead p sel = 0 := by
  rcases h with ⟨hid, ha⟩ | ⟨hid, ha⟩ | ⟨hid, ha⟩ | hid
  · simp only [parRead, hid, Nat.not_lt.2 ha, dite_false]
  · have hok : selQtOk sel = false := decide_eq_false (Nat.not_lt.2 ha)
    simp only [parRead, hid, hok, Bool.false_eq_true, if_false]
  · have hok : selCtxOk sel = false := decide_eq_false (Nat.not_lt.2 ha)
    simp only [parRead, hid, hok, Bool.false_eq_true, if_false]
  · unfold parRead
    split
    case h_28 => rfl
    all_goals omega

/-! ### What is read after a write -/

/-- The low bits of a word, as a field stores them and a read extends them. -/
theorem setWidth_setWidth_eq_and {n : Nat} (hn : n ≤ 32) (v : Word) :
    (v.setWidth n).setWidth 32 = v &&& BitVec.ofNat 32 (2 ^ n - 1) := by
  have hpow : 2 ^ n ≤ 2 ^ 32 := Nat.pow_le_pow_right (by decide) hn
  apply BitVec.eq_of_toNat_eq
  rw [BitVec.toNat_setWidth, BitVec.toNat_setWidth, BitVec.toNat_and, BitVec.toNat_ofNat,
    Nat.mod_eq_of_lt (by omega : 2 ^ n - 1 < 2 ^ 32), Nat.and_two_pow_sub_one_eq_mod,
    Nat.mod_eq_of_lt (by have := Nat.mod_lt v.toNat (Nat.two_pow_pos n); omega)]

theorem bitWord_getLsbD (v : Word) : bitWord (v.getLsbD 0) = v &&& 1 := by
  have hand : v &&& 1 = (v.setWidth 1).setWidth 32 := (setWidth_setWidth_eq_and (n := 1) (by decide) v).symm
  rw [hand, BitVec.setWidth_one]
  cases v.getLsbD 0 <;> rfl

variable (v : Word)

theorem parRead_parStore_word (h : selId sel ∈ [0, 1, 8, 9, 11, 12]) : parRead (parStore p sel v) sel = v := by
  simp only [List.mem_cons, List.not_mem_nil, or_false] at h
  rcases h with h | h | h | h | h | h <;> simp only [parRead, parStore, h]

theorem parRead_parStore_flag (h : selId sel ∈ [2, 3, 5, 7, 10, 17, 18, 19, 20]) :
    parRead (parStore p sel v) sel = v &&& 1 := by
  simp only [List.mem_cons, List.not_mem_nil, or_false] at h
  rw [← bitWord_getLsbD]
  rcases h with h | h | h | h | h | h | h | h | h <;> simp only [parRead, parStore, h]

theorem parRead_parStore_bitsPerRawSample (h : selId sel = 6) : parRead (parStore p sel v) sel = v &&& 0x7F := by
  simp only [parRead, parStore, h]
  exact setWidth_setWidth_eq_and (by decide) v

theorem parRead_parStore_qtSetCount (h : selId sel = 13) : parRead (parStore p sel v) sel = v &&& 0xF := by
  simp only [parRead, parStore, h]
  exact setWidth_setWidth_eq_and (by decide) v

theorem parRead_parStore_contextCount (h : selId sel = 15) : parRead (parStore p sel v) sel = v &&& 0x7FFF := by
  rw [parRead_contextCount h, Vector.get_eq_getElem]
  simp only [parStore, h]
  rw [Vector.getElem_set_self]
  exact setWidth_setWidth_eq_and (by decide) v

theorem parRead_parStore_byte (h : selId sel = 4 ∧ selA sel < 256 ∨ selId sel = 16 ∧ selA sel < 16384) :
    parRead (parStore p sel v) sel = v &&& 0xFF := by
  have hand : v &&& 0xFF = (v.setWidth 8).setWidth 32 := (setWidth_setWidth_eq_and (n := 8) (by decide) v).symm
  rw [hand]
  rcases h with ⟨h, ha⟩ | ⟨h, ha⟩
  · rw [parRead_customTransition h ha, Vector.get_eq_getElem]
    simp only [parStore, h]
    rw [Vector.getElem_setIfInBounds_self]
  · have hok : selCtxOk sel = true := decide_eq_true ha
    rw [parRead_init h ha]
    simp only [parStore, h, hok, if_true, Par.initAt, Store.get_put_self]

theorem parRead_parStore_qt (h : selId sel = 14) (ha : selA sel < 1280) :
    parRead (parStore p sel v) sel = (v.setWidth 16).signExtend 32 := by
  have hok : selQtOk sel = true := decide_eq_true ha
  rw [parRead_qt h ha]
  simp only [parStore, h, hok, if_true, Par.qtAt, Store.get_put_self]

/-- The derived fields are not writable. -/
theorem parStore_derived (h : 21 ≤ selId sel) : parStore p sel v = p := by
  unfold parStore
  split
  case h_22 => rfl
  all_goals omega

end Window

/-- Settles O8: an event is its handler's; the port and the window are read and written case by case. -/
theorem registerWritesReachThePort : Obligations.RegisterWritesReachThePort := by
  refine ⟨fun s offset v rest hev => ⟨step_write_busy hev, fun hidle => ?_⟩, fun s offset rest hev => ?_,
    fun p sel v => ?_⟩
  · rw [step_event hev, handle, hostWrite_idle (s := { s with agenda := rest }) offset v hidle]
    refine ⟨?_, ?_, ?_, ?_, ?_, ?_, ?_, fun hnone => ?_⟩
    case refine_7 =>
      rintro rfl
      show Host.Outcome.next (State.writeParData { s with agenda := rest } v) = _
      unfold State.writeParData
      cases Config.directLoading <;> rfl
    case refine_8 =>
      simp only [List.mem_cons, List.not_mem_nil, or_false, not_or, BitVec.ofNat_eq_ofNat] at hnone
      simp only [BitVec.ofNat_eq_ofNat, hnone, if_false]
    all_goals
      rintro rfl
      rfl
  · refine ⟨_, step_event hev, ?_⟩
    rw [portValue_eq]
    refine ⟨?_, ?_, ?_, ?_, ?_, ?_, ?_, ?_, ?_, ?_, ?_, fun hnone => ?_⟩
    case refine_12 =>
      simp only [List.mem_cons, List.not_mem_nil, or_false, not_or, BitVec.ofNat_eq_ofNat] at hnone
      simp only [BitVec.ofNat_eq_ofNat, hnone, if_false]
    all_goals
      rintro rfl
      rfl
  · exact ⟨parRead_version, parRead_microVersion, parRead_coderType, parRead_customPresent,
      parRead_customTransition, parRead_colorspaceType, parRead_bitsPerRawSample, parRead_chromaPlanes,
      parRead_chromaHShift, parRead_chromaVShift, parRead_alphaPlane, parRead_numHSlices, parRead_numVSlices,
      parRead_qtSetCount, parRead_qt, parRead_contextCount_toNat, parRead_init, parRead_ec, parRead_intra,
      parRead_valid, parRead_configPresent, parRead_bitsMax, parRead_bitsMask, parRead_planeCount,
      parRead_qtiCount, parRead_tailSize, parRead_isOverflow16, parRead_none, parRead_parStore_word v,
      parRead_parStore_flag v, parRead_parStore_bitsPerRawSample v, parRead_parStore_qtSetCount v,
      parRead_parStore_contextCount v, parRead_parStore_byte v, parRead_parStore_qt v, parStore_derived v⟩

end Sys2Proof.Machine

/-! # Symbols of the range coder (R101, R137 to R139) -/

namespace Sys2Proof.Machine

-- One theorem at a time: each that waits for the kernel holds a thread, and here they are many and short.
set_option Elab.async false

/-! ## Operands -/

/-- A legal reference is the operand of the state operations (R98). -/
theorem refArg_of_word {s : State} {k : BitVec 16} {r : StateRef} (hk : s.hasEngine k.toNat = true)
    (hword : s.arg0 = r.word) (hlegal : r.legal s.par (s.engine k.toNat) = true) : s.refArg k = some r := by
  rw [State.refArg, hword, StateRef.ofWord_word]
  simp [hk, hlegal]

/-- A legal reference to a bank of 32 bytes is the operand of the symbol operations (R98). -/
theorem bankArg_of_word {s : State} {k : BitVec 16} {r : StateRef} (hk : s.hasEngine k.toNat = true)
    (hword : s.arg0 = r.word) (hbank : r.isBank = true) (hsingle : r.isSingle = false)
    (hlegal : r.legal s.par (s.engine k.toNat) = true) : s.bankArg k = some r := by
  rw [State.bankArg, refArg_of_word hk hword hlegal]
  simp [hbank, hsingle]

/-! ## Decisions in a row -/

section Decisions

variable {im : List Host.Cell} {bank : StateRef}

theorem decisions_cons (r : StateRef) (rs : List StateRef) (e : Engine) :
    decisions im (r :: rs) e =
      ((decisions im rs (rcBit im r e).1).1, (rcBit im r e).2 :: (decisions im rs (rcBit im r e).1).2) := rfl

theorem decisions_length (rs : List StateRef) (e : Engine) : (decisions im rs e).2.length = rs.length := by
  induction rs generalizing e with
  | nil => rfl
  | cons r rs ih => rw [decisions_cons, List.length_cons, ih, List.length_cons]

/-- The state byte of exponent step `j` of a bank (R101). -/
def StateRef.expRef (bank : StateRef) (j : Nat) : StateRef := bank.byte (expByte j)

/-- The state byte of mantissa bit `j` of a bank (R101). -/
def StateRef.mantRef (bank : StateRef) (j : Nat) : StateRef := bank.byte (mantByte j)

theorem rcExponent_succ (steps n : Nat) (e : Engine) :
    rcExponent im bank (steps + 1) n e =
      if (rcBit im (bank.expRef n) e).2 then rcExponent im bank steps (n + 1) (rcBit im (bank.expRef n) e).1
      else ((rcBit im (bank.expRef n) e).1, some n) := rfl

/-- Steps of which `j` answer 1 and then one answers 0 give an exponent `j` above the first (R138). -/
theorem rcExponent_of_zero {j steps n : Nat} {e : Engine} (hj : j < steps)
    (h : (decisions im ((List.range' n (j + 1)).map bank.expRef) e).2 = List.replicate j true ++ [false]) :
    rcExponent im bank steps n e =
      ((decisions im ((List.range' n (j + 1)).map bank.expRef) e).1, some (n + j)) := by
  induction j generalizing steps n e with
  | zero =>
    obtain ⟨steps, rfl⟩ := Nat.exists_eq_add_of_le' hj
    have hbit : (rcBit im (bank.expRef n) e).2 = false := (List.cons.inj h).1
    rw [rcExponent_succ, hbit]
    rfl
  | succ j ih =>
    obtain ⟨steps, rfl⟩ := Nat.exists_eq_add_of_le' (Nat.zero_lt_of_lt hj)
    rw [List.range'_succ, List.map_cons, decisions_cons] at h ⊢
    obtain ⟨hbit, hrest⟩ := List.cons.inj h
    rw [rcExponent_succ, if_pos hbit, ih (by omega) hrest, Nat.add_right_comm, Nat.add_assoc]

/-- Steps that all answer 1 force an underrun (R138). -/
theorem rcExponent_of_ones {steps n : Nat} {e : Engine}
    (h : (decisions im ((List.range' n steps).map bank.expRef) e).2 = List.replicate steps true) :
    rcExponent im bank steps n e =
      (rcForce (decisions im ((List.range' n steps).map bank.expRef) e).1, none) := by
  induction steps generalizing n e with
  | zero => rfl
  | succ steps ih =>
    rw [List.range'_succ, List.map_cons, decisions_cons] at h ⊢
    obtain ⟨hbit, hrest⟩ := List.cons.inj h
    rw [rcExponent_succ, if_pos hbit, ih hrest]

/-- The exponent of a symbol: the steps before the first that answers 0 (R138). -/
theorem rcExponent_some {n : Nat} {e : Engine} (hn : n ≤ 31)
    (h : (decisions im ((List.range (n + 1)).map bank.expRef) e).2 = List.replicate n true ++ [false]) :
    rcExponent im bank 32 0 e = ((decisions im ((List.range (n + 1)).map bank.expRef) e).1, some n) := by
  rw [List.range_eq_range'] at h ⊢
  rw [rcExponent_of_zero (Nat.lt_succ_of_le hn) h, Nat.zero_add]

theorem rcExponent_none {e : Engine}
    (h : (decisions im ((List.range 32).map bank.expRef) e).2 = List.replicate 32 true) :
    rcExponent im bank 32 0 e = (rcForce (decisions im ((List.range 32).map bank.expRef) e).1, none) := by
  rw [List.range_eq_range'] at h ⊢
  exact rcExponent_of_ones h

theorem ofNat_push_bit (a : Nat) (b : Bool) :
    2 * BitVec.ofNat 32 a + bitWord b = BitVec.ofNat 32 (2 * a + b.toNat) := by
  cases b <;> simp [bitWord, BitVec.ofNat_add, BitVec.ofNat_mul]

/-- The mantissa bits are appended to the value, the first most significant (R138). -/
theorem rcMantissa_eq (n a : Nat) (e : Engine) :
    rcMantissa im bank n (BitVec.ofNat 32 a) e =
      ((decisions im ((List.range n).reverse.map bank.mantRef) e).1,
        BitVec.ofNat 32 ((decisions im ((List.range n).reverse.map bank.mantRef) e).2.foldl
          (fun a b => 2 * a + b.toNat) a)) := by
  induction n generalizing a e with
  | zero => rfl
  | succ n ih =>
    rw [List.range_succ, List.reverse_append, List.reverse_singleton, List.singleton_append, List.map_cons,
      decisions_cons, rcMantissa]
    dsimp only
    rw [ofNat_push_bit, ih]
    rfl

/-- Bits appended to a number shift it up by their count. -/
theorem foldl_bits (bits : List Bool) (a : Nat) :
    bits.foldl (fun a b => 2 * a + b.toNat) a = a * 2 ^ bits.length + msbFirst bits := by
  unfold msbFirst
  induction bits generalizing a with
  | nil => simp
  | cons b bits ih =>
    rw [List.foldl_cons, List.foldl_cons, ih, ih (2 * 0 + b.toNat), List.length_cons, Nat.pow_succ]
    ring

/-- The mantissa of a symbol has its leading one above the bits read (R138). -/
theorem rcMantissa_one (n : Nat) (e : Engine) :
    let m := decisions im ((List.range n).reverse.map bank.mantRef) e
    rcMantissa im bank n 1 e = (m.1, BitVec.ofNat 32 (2 ^ n + msbFirst m.2)) := by
  intro m
  have hlength : m.2.length = n := by simp [m, decisions_length]
  rw [show (1 : Word) = BitVec.ofNat 32 1 from rfl, rcMantissa_eq, foldl_bits, hlength, Nat.one_mul]

/-! ## Symbols -/

/-- A zero flag that answers 1 ends the symbol. -/
theorem rcMagnitude_flag {e f : Engine} (hflag : rcBit im (bank.byte 0) e = (f, true)) :
    rcMagnitude im bank e = (f, none) := by
  rw [rcMagnitude, zeroByte_default, hflag]
  rfl

/-- A forced underrun ends the symbol. -/
theorem rcMagnitude_forced {e f g : Engine} (hflag : rcBit im (bank.byte 0) e = (f, false))
    (hexp : rcExponent im bank 32 0 f = (g, none)) : rcMagnitude im bank e = (g, none) := by
  rw [rcMagnitude, zeroByte_default, hflag]
  dsimp only [Config.expSteps]
  rw [if_neg Bool.false_ne_true, hexp]

/-- The exponent and the magnitude of a symbol other than 0. -/
theorem rcMagnitude_some {e f g : Engine} {n : Nat} (hflag : rcBit im (bank.byte 0) e = (f, false))
    (hexp : rcExponent im bank 32 0 f = (g, some n)) :
    rcMagnitude im bank e = ((rcMantissa im bank n 1 g).1, some (n, (rcMantissa im bank n 1 g).2)) := by
  rw [rcMagnitude, zeroByte_default, hflag]
  dsimp only [Config.expSteps]
  rw [if_neg Bool.false_ne_true, hexp]

theorem rcUsym_none {e f : Engine} (h : rcMagnitude im bank e = (f, none)) : rcUsym im bank e = (f, 0) := by
  rw [rcUsym, h]

theorem rcSsym_none {e f : Engine} (h : rcMagnitude im bank e = (f, none)) : rcSsym im bank e = (f, 0) := by
  rw [rcSsym, h]

theorem rcUsym_some {e f : Engine} {n : Nat} {a : Word} (h : rcMagnitude im bank e = (f, some (n, a))) :
    rcUsym im bank e = (f, a) := by
  rw [rcUsym, h]

theorem rcSsym_some {e f : Engine} {n : Nat} {a : Word} (h : rcMagnitude im bank e = (f, some (n, a))) :
    rcSsym im bank e =
      ((rcBit im (bank.byte (signByte n)) f).1,
        if (rcBit im (bank.byte (signByte n)) f).2 then 0 - a else a) := by
  rw [rcSsym, h]

/-- A signed symbol is the unsigned one of the same input, or its negation (R139). -/
theorem rcSsym_magnitude (e : Engine) :
    (rcSsym im bank e).2 = (rcUsym im bank e).2 ∨ (rcSsym im bank e).2 = 0 - (rcUsym im bank e).2 := by
  rcases h : rcMagnitude im bank e with ⟨f, _ | ⟨n, a⟩⟩
  · exact .inl (by rw [rcSsym_none h, rcUsym_none h])
  · rw [rcSsym_some h, rcUsym_some h]
    dsimp only
    split
    · exact .inr rfl
    · exact .inl rfl

end Decisions

/-- Settles O23: both commands run on the bank, and the magnitude has one equation for each end of a symbol. -/
theorem symbolsTouchOnlyTheirBank : Obligations.SymbolsTouchOnlyTheirBank := by
  intro s k bank hk hword hbank hsingle hlegal e flag byte steps mantissa
  have harg := bankArg_of_word hk hword hbank hsingle hlegal
  have hanswer : ∀ b, flag.2 = b → rcBit s.inMem (bank.byte 0) e = (flag.1, b) := by
    rintro b rfl
    rw [← beq_iff_eq.1 hbank]
  have hsteps_eq : ∀ n, steps n = decisions s.inMem ((List.range n).map bank.expRef) flag.1 := fun _ => rfl
  obtain ⟨t, hexect, hdonet, henginet⟩ := onEngineWith_unitDone k s (rcUsym s.inMem bank)
  obtain ⟨u, hexecu, hdoneu, hengineu⟩ := onEngineWith_unitDone k s (rcSsym s.inMem bank)
  have hresultt : t.result = (rcUsym s.inMem bank e).2 := hdonet.1.2.2.2
  have hresultu : u.result = (rcSsym s.inMem bank e).2 := hdoneu.1.2.2.2
  refine ⟨t, u, ?_, ?_, hresultt ▸ hdonet, hresultu ▸ hdoneu, ?_, ?_, hresultt, hresultu, henginet, hengineu, ?_, ?_,
    ?_, ?_, ?_⟩
  · dsimp only [exec, execRcUsym]
    rw [harg]
    exact hexect
  · dsimp only [exec, execRcSsym]
    rw [harg]
    exact hexecu
  · exact henginet ▸ rcUsym_onlyDecisions s.inMem bank e
  · exact hengineu ▸ rcSsym_onlyDecisions s.inMem bank e
  · intro h0
    rw [hresultt] at h0
    rw [hresultu]
    rcases rcSsym_magnitude (im := s.inMem) (bank := bank) e with h | h
    · rw [h, h0]
    · rw [h, h0]
      rfl
  · intro _
    rw [hresultt, hresultu]
    exact rcSsym_magnitude e
  all_goals rw [hresultt, hresultu, henginet, hengineu]
  · intro hflag
    have hmag := rcMagnitude_flag (hanswer true hflag)
    rw [rcUsym_none hmag, rcSsym_none hmag]
    exact ⟨rfl, rfl, rfl, rfl⟩
  · intro hflag n hn hsteps m a sign
    have hmag := rcMagnitude_some (hanswer false hflag) (rcExponent_some hn hsteps)
    rw [rcMantissa_one] at hmag
    rw [rcUsym_some hmag, rcSsym_some hmag]
    exact ⟨rfl, rfl, rfl, rfl⟩
  · intro hflag hsteps
    rw [hsteps_eq] at hsteps ⊢
    have hmag := rcMagnitude_forced (hanswer false hflag) (rcExponent_none hsteps)
    rw [rcUsym_none hmag, rcSsym_none hmag]
    exact ⟨rfl, rfl, rfl, rfl⟩

end Sys2Proof.Machine

/-! # Golomb-Rice symbols: code words, codes and the update of a tuple (R102, R165, R166) -/

namespace Sys2Proof.Machine

-- One theorem at a time: each that waits for the kernel holds a thread, and here they are many and short.
set_option Elab.async false

/-! ## Words as signed numbers -/

/-- The complement of a word is the negation less 1, exactly. -/
theorem toInt_complement (x : Word) : (0 - x - 1).toInt = -x.toInt - 1 := by
  have hnot : 0 - x - 1 = ~~~x := by rw [BitVec.not_eq_neg_add]; simp
  have hlt := x.isLt
  rw [hnot, BitVec.toInt_not, BitVec.toInt_eq_toNat_bmod]
  simp only [Int.bmod]
  omega

theorem absWord_toNat (v : Word) : (absWord v).toNat = v.toInt.natAbs := by
  have hlt := v.isLt
  rw [absWord, BitVec.toInt_eq_msb_cond]
  split
  · rename_i h
    have hge := BitVec.le_toNat_of_msb_true h
    rw [BitVec.ofNat_eq_ofNat, BitVec.zero_sub, BitVec.toNat_neg]
    omega
  · rfl

/-- A word folded to `m` bits is its value modulo `2^m`, read as a signed number (R13). -/
theorem sextWord_toInt {m : Nat} (hm : m ≤ 32) (v : Word) : (sextWord m v).toInt = v.toInt.bmod (2 ^ m) := by
  rw [sextWord, BitVec.toInt_signExtend_of_le hm, BitVec.toInt_setWidth, BitVec.toInt_eq_toNat_bmod v,
    Int.bmod_bmod_of_dvd (Nat.pow_dvd_pow 2 hm)]

/-- A word folded to `m` bits lies in the range of a signed number of that width. -/
theorem sextWord_range {m : Nat} (hm : m ≤ 32) (v : Word) :
    -(2 ^ (m - 1) : Int) ≤ (sextWord m v).toInt ∧ (sextWord m v).toInt < 2 ^ (m - 1) := by
  rw [sextWord, BitVec.toInt_signExtend_of_le hm]
  exact ⟨BitVec.le_toInt _, BitVec.toInt_lt⟩

/-- The code plus the correction, folded to `m` bits (R165). -/
theorem sextWord_add_toInt {m : Nat} (hm : m ≤ 32) (code : Word) (c : BitVec 8) :
    (sextWord m (code + c.signExtend 32)).toInt = (code.toInt + c.toInt).bmod (2 ^ m) := by
  rw [sextWord_toInt hm, BitVec.toInt_add, BitVec.toInt_signExtend_of_le (by decide),
    Int.bmod_bmod_of_dvd (Nat.pow_dvd_pow 2 hm)]

/-! ## The code of a value -/

theorem zigzag_even {v : Word} (h : v.toNat % 2 = 0) :
    ((v >>> 1) ^^^ (0 - (v &&& 1))).toInt = (v.toNat / 2 : Nat) := by
  have hlt := v.isLt
  have hbit : v &&& 1 = 0 := by
    apply BitVec.eq_of_toNat_eq
    rw [BitVec.toNat_and]
    exact (Nat.and_one_is_mod _).trans h
  have hshift : (v >>> 1).toNat = v.toNat / 2 := by
    rw [BitVec.toNat_ushiftRight, Nat.shiftRight_eq_div_pow]
  rw [hbit, BitVec.sub_self, BitVec.xor_zero, BitVec.toInt_eq_toNat_bmod, hshift, Int.bmod]
  omega

theorem zigzag_odd {v : Word} (h : v.toNat % 2 ≠ 0) :
    ((v >>> 1) ^^^ (0 - (v &&& 1))).toInt = -((v.toNat + 1) / 2 : Nat) := by
  have hlt := v.isLt
  have hbit : v &&& 1 = 1 := by
    apply BitVec.eq_of_toNat_eq
    rw [BitVec.toNat_and]
    exact (Nat.and_one_is_mod _).trans (by simpa using h)
  have hshift : (v >>> 1).toNat = v.toNat / 2 := by
    rw [BitVec.toNat_ushiftRight, Nat.shiftRight_eq_div_pow]
  have hones : (0 : Word) - 1 = BitVec.allOnes 32 := by decide
  rw [hbit, hones, BitVec.xor_allOnes, BitVec.toInt_not, hshift, Int.bmod]
  omega

/-- The code that a symbol computes is the code of its value (R165). -/
theorem riceCode_toInt (t : GrTuple) (v : Word) : (riceCode t v).toInt = codeOf t v.toNat := by
  unfold riceCode codeOf
  by_cases heven : v.toNat % 2 = 0
  · dsimp only
    rw [if_pos heven, ← zigzag_even heven]
    split
    · exact toInt_complement _
    · rfl
  · dsimp only
    rw [if_neg heven, ← zigzag_odd heven]
    split
    · exact toInt_complement _
    · rfl

/-! ## The update of a tuple -/

/-- A shift to the right by one place is the division by 2 that rounds down. -/
theorem int_shiftRight_one (b : Int) : b >>> 1 = b / 2 :=
  (Int.shiftRight_natCast_right b 1).trans (Int.shiftRight_eq_div_pow b 1)

theorem grHalveAt_iff (t : GrTuple) : t.n = Config.grHalveAt ↔ t.n.toNat = 128 :=
  BitVec.toNat_inj.symm

/-- `B` with the code added, halved when `N` is 128, before it is brought into its range (R166). -/
def GrTuple.driftB (t : GrTuple) (code : Word) : Int :=
  if t.n = Config.grHalveAt then (t.b + code).toInt >>> 1 else (t.b + code).toInt

/-- `N` counted on, from 64 when it is 128 (R166). -/
def GrTuple.countedN (t : GrTuple) : Nat := (if t.n = Config.grHalveAt then 64 else t.n.toNat) + 1

theorem riceUpdate_a (t : GrTuple) (code : Word) : (riceUpdate t code).a =
    if t.n = Config.grHalveAt then (t.a + absWord code) >>> 1 else t.a + absWord code := by
  unfold riceUpdate
  dsimp only
  repeat' split
  all_goals rfl

theorem riceUpdate_c (t : GrTuple) (code : Word) : (riceUpdate t code).c =
    if t.driftB code ≤ -(t.countedN : Int) then BitVec.ofInt 8 (max (t.c.toInt - 1) (-128))
    else if 0 < t.driftB code then BitVec.ofInt 8 (min (t.c.toInt + 1) 127) else t.c := by
  unfold riceUpdate
  dsimp only [GrTuple.driftB, GrTuple.countedN]
  repeat' split
  all_goals rfl

theorem riceUpdate_b_eq (t : GrTuple) (code : Word) : (riceUpdate t code).b = BitVec.ofInt 32
    (if t.driftB code ≤ -(t.countedN : Int) then
      (if t.driftB code + t.countedN ≤ -(t.countedN : Int) then -(t.countedN : Int) + 1
        else t.driftB code + t.countedN)
    else if 0 < t.driftB code then (if 0 < t.driftB code - t.countedN then 0 else t.driftB code - t.countedN)
    else t.driftB code) := by
  unfold riceUpdate
  generalize hb : t.driftB code = b
  generalize hn : t.countedN = n
  dsimp only [GrTuple.driftB, GrTuple.countedN] at *
  rw [hb, hn]
  split
  · rfl
  · split <;> rfl

/-- The update of a tuple whose `N` is in 1..128, in numbers (R166). -/
theorem riceUpdate_tupleAfter (t : GrTuple) (code : Word) (h1 : 1 ≤ t.n.toNat) (h128 : t.n.toNat ≤ 128) :
    tupleAfter t code.toInt (riceUpdate t code) := by
  have byte : ∀ z : Int, -128 ≤ z → z ≤ 127 → (BitVec.ofInt 8 z).toInt = z := fun z hl hh =>
    BitVec.toInt_ofInt_eq_self (by decide) hl (by omega)
  have word : ∀ z : Int, -2 ^ 31 ≤ z → z < 2 ^ 31 → (BitVec.ofInt 32 z).toInt = z := fun z hl hh =>
    BitVec.toInt_ofInt_eq_self (by decide) hl hh
  have hdrift : t.driftB code =
      if t.n.toNat = 128 then (t.b.toInt + code.toInt).bmod (2 ^ 32) / 2
      else (t.b.toInt + code.toInt).bmod (2 ^ 32) := by
    simp only [GrTuple.driftB, grHalveAt_iff, BitVec.toInt_add, int_shiftRight_one]
  have hcount : t.countedN = (if t.n.toNat = 128 then 64 else t.n.toNat) + 1 := by
    simp only [GrTuple.countedN, grHalveAt_iff]
  have hcount_le : t.countedN ≤ 128 := by
    rw [hcount]
    split <;> omega
  have hdrift_range : -2 ^ 31 ≤ t.driftB code ∧ t.driftB code < 2 ^ 31 := by
    have hlo := BitVec.le_toInt (t.b + code)
    have hhi := BitVec.toInt_lt (x := t.b + code)
    rw [GrTuple.driftB, int_shiftRight_one]
    split <;> omega
  have hc_lo := BitVec.le_toInt t.c
  have hc_hi := BitVec.toInt_lt (x := t.c)
  unfold tupleAfter
  dsimp only
  rw [← hdrift, ← Nat.cast_add_one, ← hcount]
  refine ⟨?_, ?_, ?_, ?_⟩
  · rw [riceUpdate_n, BitVec.toNat_ofNat, ← GrTuple.countedN, Nat.mod_eq_of_lt (by omega)]
  · rw [riceUpdate_a]
    simp only [grHalveAt_iff, apply_ite BitVec.toNat, BitVec.toNat_ushiftRight, BitVec.toNat_add, absWord_toNat,
      Nat.shiftRight_eq_div_pow, pow_one]
  · rw [riceUpdate_c]
    simp only [apply_ite BitVec.toInt]
    rw [byte _ (by omega) (by omega), byte _ (by omega) (by omega)]
  · rw [riceUpdate_b_eq]
    refine word _ ?_ ?_ <;> split_ifs <;> omega

/-! ## Code words -/

section CodeWords

variable {im : List Host.Cell}

/-- The parameter of a symbol is the smallest that makes `N * 2^k` at least `A` (R165). -/
theorem riceK_eq {n a fuel k j : Nat} (hkj : k ≤ j) (hfuel : j ≤ k + fuel)
    (hbelow : ∀ i, k ≤ i → i < j → n * 2 ^ i < a) (hj : a ≤ n * 2 ^ j) : riceK n a fuel k = j := by
  induction fuel generalizing k with
  | zero => exact Nat.le_antisymm hkj hfuel
  | succ fuel ih =>
    rw [riceK, Nat.shiftLeft_eq]
    rcases Nat.eq_or_lt_of_le hkj with rfl | hlt
    · exact if_neg (Nat.not_lt.2 hj)
    · rw [if_pos (hbelow k (Nat.le_refl k) hlt)]
      exact ih hlt (by omega) fun i hi => hbelow i (Nat.le_of_succ_le hi)

/-- The parameter of a tuple: `N` is at least 1 and `A` below `2^32`, so that the search ends in time (R165). -/
theorem riceK_tuple {t : GrTuple} {j : Nat} (hn : 1 ≤ t.n.toNat)
    (hbelow : ∀ i, i < j → t.n.toNat * 2 ^ i < t.a.toNat) (hj : t.a.toNat ≤ t.n.toNat * 2 ^ j) :
    riceK t.n.toNat t.a.toNat 33 0 = j := by
  have hle : j ≤ 33 := by
    by_contra hlt
    have h32 := hbelow 32 (by omega)
    have := t.a.isLt
    omega
  exact riceK_eq (Nat.zero_le j) (by omega) (fun i _ => hbelow i) hj

theorem nextBits_succ (n : Nat) (e : Engine) :
    nextBits im (n + 1) e =
      ((nextBits im n (bsBit im e).1).1, (bsBit im e).2 :: (nextBits im n (bsBit im e).1).2) := rfl

theorem ricePrefix_succ (left z : Nat) (e : Engine) :
    ricePrefix im (left + 1) z e =
      if (bsBit im e).2 then ((bsBit im e).1, z) else ricePrefix im left (z + 1) (bsBit im e).1 := rfl

/-- A code word's start that ends with a 1 counts the zeros before it (R165). -/
theorem ricePrefix_of_one {left z n : Nat} {e : Engine} (hn : n < left)
    (h : (nextBits im (n + 1) e).2 = List.replicate n false ++ [true]) :
    ricePrefix im left z e = ((nextBits im (n + 1) e).1, z + n) := by
  induction n generalizing left z e with
  | zero =>
    obtain ⟨left, rfl⟩ := Nat.exists_eq_add_of_le' hn
    have hbit : (bsBit im e).2 = true := (List.cons.inj h).1
    rw [ricePrefix_succ, if_pos hbit]
    rfl
  | succ n ih =>
    obtain ⟨left, rfl⟩ := Nat.exists_eq_add_of_le' (Nat.zero_lt_of_lt hn)
    rw [nextBits_succ] at h ⊢
    obtain ⟨hbit, hrest⟩ := List.cons.inj h
    rw [ricePrefix_succ, if_neg (Bool.eq_false_iff.1 hbit), ih (by omega) hrest, Nat.add_right_comm, Nat.add_assoc]

/-- A start of zeros alone is counted to its bound (R165). -/
theorem ricePrefix_of_zeros {left z : Nat} {e : Engine}
    (h : (nextBits im left e).2 = List.replicate left false) :
    ricePrefix im left z e = ((nextBits im left e).1, z + left) := by
  induction left generalizing z e with
  | zero => rfl
  | succ left ih =>
    rw [nextBits_succ] at h ⊢
    obtain ⟨hbit, hrest⟩ := List.cons.inj h
    rw [ricePrefix_succ, if_neg (Bool.eq_false_iff.1 hbit), ih hrest, Nat.add_right_comm, Nat.add_assoc]

/-- The value of a code word with fewer than twelve zeros (R102, R165). -/
theorem riceValue_regular {j m z : Nat} {e : Engine} (hz : z < 12)
    (h : (nextBits im (z + 1) e).2 = List.replicate z false ++ [true]) :
    let r := bsBits im j (nextBits im (z + 1) e).1
    riceValue im j m e = (r.1, BitVec.ofNat 32 (z * 2 ^ j) + r.2) := by
  unfold riceValue
  rw [show Config.grPrefixMax = 12 from rfl, ricePrefix_of_one hz h, Nat.zero_add]
  dsimp only
  rw [if_neg (by omega), Nat.shiftLeft_eq]

/-- The value of a code word with twelve zeros (R102, R165). -/
theorem riceValue_escape {j m : Nat} {e : Engine} (h : (nextBits im 12 e).2 = List.replicate 12 false) :
    let r := bsBits im m (nextBits im 12 e).1
    riceValue im j m e = (r.1, 11 + r.2) := by
  unfold riceValue
  rw [show Config.grPrefixMax = 12 from rfl, ricePrefix_of_zeros h, Nat.zero_add]
  rfl

/-! ## The symbol -/

variable {m : Nat} {p : BitVec 2} {q : BitVec 3} {ctx : Nat} {e : Engine}

/-- The code that a symbol reads: the one of its value (R165). -/
def codeRead (im : List Host.Cell) (m : Nat) (t : GrTuple) (e : Engine) : Word :=
  riceCode t (riceValue im (riceK t.n.toNat t.a.toNat 33 0) m e).2

/-- The bits that a symbol reads (R165). -/
def valueRead (im : List Host.Cell) (m : Nat) (t : GrTuple) (e : Engine) : Engine :=
  (riceValue im (riceK t.n.toNat t.a.toNat 33 0) m e).1

theorem grRice_eq : grRice im m p q ctx e =
    ((valueRead im m (e.tuple p q ctx) e).setTuple p q ctx
        (riceUpdate (e.tuple p q ctx) (codeRead im m (e.tuple p q ctx) e)),
      sextWord m (codeRead im m (e.tuple p q ctx) e + (e.tuple p q ctx).c.signExtend 32)) := rfl

/-- A symbol updates its own tuple with its code, and no other (R166). -/
theorem grRice_tuple {p' : BitVec 2} {q' : BitVec 3} {ctx' : Nat} (h : ctx < 2 ^ 16) (h' : ctx' < 2 ^ 16) :
    (grRice im m p q ctx e).1.tuple p' q' ctx' =
      if p' = p ∧ q' = q ∧ ctx' = ctx then riceUpdate (e.tuple p q ctx) (codeRead im m (e.tuple p q ctx) e)
      else e.tuple p' q' ctx' := by
  have hread : (valueRead im m (e.tuple p q ctx) e).gs = e.gs := by
    rw [valueRead, riceValue_onlyReads im _ m e]
  rw [grRice_eq, tuple_setTuple _ _ h h']
  split
  · rfl
  · exact congrArg (Store.get gsDefault · (gsKey p' q' ctx')) hread

/-- A symbol whose code word has the value `v`, up to `g` (R165, R166). -/
theorem grRice_of_value {g : Engine} {x : Word} {j v : Nat} (hm : m ≤ 32) (h1 : 1 ≤ (e.tuple p q ctx).n.toNat)
    (h128 : (e.tuple p q ctx).n.toNat ≤ 128)
    (hj : riceK (e.tuple p q ctx).n.toNat (e.tuple p q ctx).a.toNat 33 0 = j)
    (hvalue : riceValue im j m e = (g, x)) (hx : x.toNat = v) :
    (grRice im m p q ctx e).2.toInt =
        (codeOf (e.tuple p q ctx) v + (e.tuple p q ctx).c.toInt).bmod (2 ^ m) ∧
      tupleAfter (e.tuple p q ctx) (codeOf (e.tuple p q ctx) v) ((grRice im m p q ctx e).1.tuple p q ctx) ∧
      (grRice im m p q ctx e).1.bs = g.bs := by
  have hcode : codeRead im m (e.tuple p q ctx) e = riceCode (e.tuple p q ctx) x := by
    rw [codeRead, hj, hvalue]
  have hread : valueRead im m (e.tuple p q ctx) e = g := by rw [valueRead, hj, hvalue]
  rw [grRice_eq, hcode, hread, ← hx, ← riceCode_toInt]
  refine ⟨sextWord_add_toInt hm _ _, ?_, rfl⟩
  simp only [Engine.tuple, Engine.setTuple, Store.get_put_self]
  exact riceUpdate_tupleAfter _ _ h1 h128

end CodeWords

/-- A context count has 15 bits (R33). -/
theorem ctxCount_lt (par : Par) (q : BitVec 3) : par.ctxCount q < 2 ^ 15 := (par.contextCount.get q.toFin).isLt

/-- A pair in use and a context of its set are the operands of `GR_RICE` (R165). -/
theorem exec_grRice {s : State} {k : BitVec 16} (hk : s.hasEngine k.toNat = true)
    (hp : (argP s.arg0).toNat ≤ 2) (hq : (argQ s.arg0).toNat < s.par.qtSetCount.toNat)
    (hctx : s.arg1.toNat < s.par.ctxCount (argQ s.arg0)) :
    exec (.grRice k) s =
      onEngineWith k s (grRice s.inMem s.par.bitsMax.toNat (argP s.arg0) (argQ s.arg0) s.arg1.toNat) := by
  dsimp only [exec, execGrRice]
  exact checked_of _ _ _ (by simp [hk, Par.hasPair, hp, hq, hctx])

/-- Settles O33: the symbol is the one of the value that its code word has, and its tuple the update with its code. -/
theorem grRiceKeepsTheTupleLaw : Obligations.GrRiceKeepsTheTupleLaw := by
  rintro s k _ _ _ _ hk rfl rfl rfl hp hq hctx rfl hm1 hm e old
  have hctx16 : s.arg1.toNat < 2 ^ 16 := (hctx.trans (ctxCount_lt _ _)).trans (by decide)
  obtain ⟨t, hexec, hdone, hengine⟩ := onEngineWith_unitDone k s
    (grRice s.inMem s.par.bitsMax.toNat (argP s.arg0) (argQ s.arg0) s.arg1.toNat)
  have hresult : t.result = _ := hdone.1.2.2.2
  refine ⟨t, (exec_grRice hk hp hq hctx).trans hexec, hdone, hengine, ?_, ?_, ?_, ?_, ?_⟩
  · rw [hresult]
    exact (sextWord_range hm _).1
  · rw [hresult]
    exact (sextWord_range hm _).2
  · rw [hengine]
    exact grRice_onlyReadsAndTuples _ _ _ _ _ _
  · intro p' q' ctx' hctx' hne
    rw [hengine, grRice_tuple hctx16 hctx', if_neg]
    · rintro ⟨rfl, rfl, rfl⟩
      exact hne rfl
  · intro h1 h128 new
    have hnew : new = riceUpdate old (codeRead s.inMem s.par.bitsMax.toNat old e) := by
      show (t.engine k.toNat).tuple _ _ _ = _
      rw [hengine]
      exact (grRice_tuple hctx16 hctx16).trans (if_pos ⟨rfl, rfl, rfl⟩)
    obtain ⟨hblo, hbhi⟩ := riceUpdate_b old (codeRead s.inMem s.par.bitsMax.toNat old e) h1 h128
    refine ⟨?_, hnew ▸ hblo, hnew ▸ hbhi, ?_⟩
    · rw [hnew, riceUpdate_n]
      simp only [grHalveAt_iff]
      split
      · rfl
      · rw [BitVec.toNat_ofNat, Nat.mod_eq_of_lt (by omega)]
    · intro answer j hbelow hj
      have hanswer : ∀ (v : Nat) (g : Engine) (x : Word),
          riceValue s.inMem j s.par.bitsMax.toNat e = (g, x) → x.toNat = v → answer v g := by
        intro v g x hvalue hx
        show t.result.toInt = _ ∧ tupleAfter old _ ((t.engine k.toNat).tuple _ _ _) ∧ (t.engine k.toNat).bs = g.bs
        rw [hresult, hengine]
        exact grRice_of_value hm h1 h128 (riceK_tuple h1 hbelow hj) hvalue hx
      refine ⟨?_, ?_⟩
      · intro z hz hbits r
        exact hanswer _ _ _ (riceValue_regular hz hbits)
          (by rw [BitVec.toNat_add, BitVec.toNat_ofNat, Nat.mod_add_mod])
      · intro hbits r
        exact hanswer _ _ _ (riceValue_escape hbits) (BitVec.toNat_add _ _)

end Sys2Proof.Machine

/-! # `GR_DELTA`: runs of zero deltas (R103, R170, R171) -/

namespace Sys2Proof.Machine

-- One theorem at a time: each that waits for the kernel holds a thread, and here they are many and short.
set_option Elab.async false

/-! ## Reads of bits do not depend on the run registers -/

/-- An engine with other run registers. -/
def Engine.withGr (e : Engine) (g : Gr) : Engine := { e with gr := g }

section Registers

variable (im : List Host.Cell) (g : Gr) (e : Engine)

theorem bsBit_withGr : bsBit im (e.withGr g) = ((bsBit im e).1.withGr g, (bsBit im e).2) := by
  by_cases h : bsBitsTotal e.bs ≤ e.bs.pos.toNat
  · rw [show bsBit im e = _ from if_pos h]
    exact if_pos h
  · rw [show bsBit im e = _ from if_neg h]
    exact if_neg h

theorem bsTake_withGr (n : Nat) (v : Word) :
    bsTake im n v (e.withGr g) = ((bsTake im n v e).1.withGr g, (bsTake im n v e).2) := by
  induction n generalizing v e with
  | zero => rfl
  | succ n ih =>
    rw [bsTake, bsBit_withGr]
    exact ih _ _

theorem bsBits_withGr (n : Nat) :
    bsBits im n (e.withGr g) = ((bsBits im n e).1.withGr g, (bsBits im n e).2) := by
  by_cases h : bsRemaining e.bs < n
  · rw [show bsBits im n e = _ from if_pos h]
    exact if_pos h
  · rw [show bsBits im n e = _ from if_neg h]
    exact (if_neg h).trans (bsTake_withGr im g e n 0)

theorem ricePrefix_withGr (left z : Nat) :
    ricePrefix im left z (e.withGr g) =
      ((ricePrefix im left z e).1.withGr g, (ricePrefix im left z e).2) := by
  induction left generalizing z e with
  | zero => rfl
  | succ left ih =>
    rw [ricePrefix, ricePrefix, bsBit_withGr]
    dsimp only
    split
    · rfl
    · exact ih _ _

theorem riceValue_withGr (k m : Nat) :
    riceValue im k m (e.withGr g) = ((riceValue im k m e).1.withGr g, (riceValue im k m e).2) := by
  unfold riceValue
  rw [ricePrefix_withGr]
  dsimp only
  split
  · rw [bsBits_withGr]
  · rw [bsBits_withGr]

/-- A Rice symbol does not depend on the run registers, and leaves them. -/
theorem grRice_withGr (m : Nat) (p : BitVec 2) (q : BitVec 3) (ctx : Nat) :
    grRice im m p q ctx (e.withGr g) =
      ((grRice im m p q ctx e).1.withGr g, (grRice im m p q ctx e).2) := by
  unfold grRice
  dsimp only
  rw [riceValue_withGr]
  rfl

theorem grRice_gr (m : Nat) (p : BitVec 2) (q : BitVec 3) (ctx : Nat) : (grRice im m p q ctx e).1.gr = e.gr := by
  rw [grRice_onlyReadsAndTuples im m p q ctx e]

end Registers

/-! ## The parts of the operation -/

section Parts

variable {im : List Host.Cell} {m ctx x : Nat} {e : Engine} {g : Gr}

/-- A run that owes zero deltas counts one of them down. -/
theorem grRunStep_owed (h : 0 < e.gr.runLen) :
    grRunStep im m ctx e = (e.withGr { e.gr with runLen := e.gr.runLen - 1 }, 0) := by
  have hstill : ¬ e.gr.runLen - 1 < 0 := by omega
  exact if_neg hstill

/-- A run that owes none ends with one Rice symbol, to which 1 is added unless it is negative. -/
theorem grRunStep_ends (h : e.gr.runLen = 0) :
    grRunStep im m ctx e =
      ((grRice im m e.gr.selP e.gr.selQ ctx e).1.withGr { e.gr with runMode := .stop, runLen := 0 },
        if (grRice im m e.gr.selP e.gr.selQ ctx e).2.toInt < 0 then (grRice im m e.gr.selP e.gr.selQ ctx e).2
        else (grRice im m e.gr.selP e.gr.selQ ctx e).2 + 1) := by
  have hover : e.gr.runLen - 1 < 0 := by omega
  unfold grRunStep
  extract_lets _ f
  have hf : f = e.withGr { e.gr with runLen := e.gr.runLen - 1 } := rfl
  rw [if_pos hover, hf, grRice_withGr]
  simp only [BitVec.msb_eq_toInt, decide_eq_true_eq]
  rfl

/-- A token that opens a whole segment (R170). -/
theorem grToken_hit (h : (bsBit im e).2 = true) :
    grToken im x (e.withGr g) = (bsBit im e).1.withGr { g with
      runLen := (2 ^ grLog2 g.runIndex : Nat)
      runIndex :=
        if x + 2 ^ grLog2 g.runIndex ≤ g.w ∧ g.runIndex.val < 40 then g.runIndex + 1 else g.runIndex } := by
  unfold grToken
  rw [bsBit_withGr]
  exact if_pos h

/-- A token that closes the run inside a segment, after as many zero deltas as the terminator counts (R170). -/
theorem grToken_miss (h : (bsBit im e).2 = false) :
    let close := bsBits im (grLog2 g.runIndex) (bsBit im e).1
    grToken im x (e.withGr g) = close.1.withGr { g with
      runMode := .interrupted
      runLen := close.2.toNat
      runIndex := if 0 < g.runIndex.val then g.runIndex - 1 else g.runIndex } := by
  intro close
  have hmiss : ¬ (bsBit im e).2 = Config.runHit := by rw [h]; decide
  unfold grToken
  rw [bsBit_withGr]
  refine (if_neg hmiss).trans ?_
  rw [show ((bsBit im e).1.withGr g).gr = g from rfl, bsBits_withGr]
  rfl

/-- A context of 0 outside a run begins one. -/
def Engine.enterRun (e : Engine) : Engine :=
  if e.gr.runMode = .stop then e.withGr { e.gr with runMode := .processing } else e

/-- With no segment open in run mode a token opens one. -/
def Engine.openSegment (im : List Host.Cell) (x : Nat) (e : Engine) : Engine :=
  if e.gr.runLen = 0 ∧ e.gr.runMode = .processing then grToken im x e else e

/-- The operation in its parts: outside a run a Rice symbol, else a step of the run. -/
theorem grDelta_eq : grDelta im m ctx e =
    if e.gr.runMode = .stop ∧ ctx ≠ 0 then
      grRice im m e.gr.selP e.gr.selQ ctx (e.withGr { e.gr with x := e.gr.x + 1 })
    else grRunStep im m ctx
      (((e.withGr { e.gr with x := e.gr.x + 1 }).enterRun).openSegment im e.gr.x) := rfl

/-- Outside a run, a context other than 0 reads one Rice symbol. -/
theorem grDelta_outside (hmode : e.gr.runMode = .stop) (hctx : ctx ≠ 0) :
    let u := grRice im m e.gr.selP e.gr.selQ ctx e
    grDelta im m ctx e = (u.1.withGr { e.gr with x := e.gr.x + 1 }, u.2) := by
  rw [grDelta_eq, if_pos ⟨hmode, hctx⟩]
  exact grRice_withGr im _ e m _ _ ctx

/-- Inside an open run the column advances and the run counts down. -/
theorem grDelta_inside (hmode : e.gr.runMode ≠ .stop) (hopen : ¬ (e.gr.runLen = 0 ∧ e.gr.runMode = .processing)) :
    grDelta im m ctx e = grRunStep im m ctx (e.withGr { e.gr with x := e.gr.x + 1 }) := by
  have henter : (e.withGr { e.gr with x := e.gr.x + 1 }).enterRun = e.withGr { e.gr with x := e.gr.x + 1 } :=
    if_neg hmode
  rw [grDelta_eq, if_neg fun h => hmode h.1, henter]
  exact congrArg _ (if_neg hopen)

/-- With no segment open in run mode a token is read first. -/
theorem grDelta_token (hlen : e.gr.runLen = 0)
    (hmode : e.gr.runMode = .processing ∨ e.gr.runMode = .stop ∧ ctx = 0) :
    grDelta im m ctx e = grRunStep im m ctx
      (grToken im e.gr.x (e.withGr { e.gr with x := e.gr.x + 1, runMode := .processing })) := by
  have hrun : ¬ (e.gr.runMode = .stop ∧ ctx ≠ 0) := by
    rintro ⟨hstop, hctx⟩
    rcases hmode with hmode | ⟨-, hzero⟩
    · exact absurd (hmode.symm.trans hstop) (by decide)
    · exact hctx hzero
  have henter : (e.withGr { e.gr with x := e.gr.x + 1 }).enterRun =
      e.withGr { e.gr with x := e.gr.x + 1, runMode := .processing } := by
    rcases hmode with hmode | ⟨hmode, -⟩
    · rw [← hmode]
      exact if_neg fun hstop => absurd (hmode.symm.trans hstop) (by decide)
    · exact if_pos hmode
  rw [grDelta_eq, if_neg hrun, henter]
  exact congrArg _ (if_pos ⟨hlen, rfl⟩)

/-! ## The selected pair and the column -/

/-- The registers of the line that a token and a step of a run leave. -/
def Gr.SameLine (g g' : Gr) : Prop := g'.x = g.x ∧ g'.w = g.w ∧ g'.selP = g.selP ∧ g'.selQ = g.selQ

theorem Gr.SameLine.trans {g g' g'' : Gr} (h : g.SameLine g') (h' : g'.SameLine g'') : g.SameLine g'' := by
  obtain ⟨hx, hw, hp, hq⟩ := h
  obtain ⟨hx', hw', hp', hq'⟩ := h'
  exact ⟨hx'.trans hx, hw'.trans hw, hp'.trans hp, hq'.trans hq⟩

theorem grToken_line : e.gr.SameLine (grToken im x e).gr := by
  cases hbit : (bsBit im e).2 with
  | true =>
    have htoken : grToken im x e = _ := grToken_hit (g := e.gr) hbit
    rw [htoken]
    exact ⟨rfl, rfl, rfl, rfl⟩
  | false =>
    have htoken : grToken im x e = _ := grToken_miss (g := e.gr) hbit
    rw [htoken]
    exact ⟨rfl, rfl, rfl, rfl⟩

theorem grRunStep_line : e.gr.SameLine (grRunStep im m ctx e).1.gr := by
  unfold grRunStep
  dsimp only
  split
  · rw [grRice_gr]
    exact ⟨rfl, rfl, rfl, rfl⟩
  · exact ⟨rfl, rfl, rfl, rfl⟩

theorem enterRun_line : e.gr.SameLine e.enterRun.gr := by
  unfold Engine.enterRun
  split <;> exact ⟨rfl, rfl, rfl, rfl⟩

theorem openSegment_line : e.gr.SameLine (e.openSegment im x).gr := by
  unfold Engine.openSegment
  split
  · exact grToken_line
  · exact ⟨rfl, rfl, rfl, rfl⟩

/-- The column advances, and the selected pair and the width keep their values (R171). -/
theorem grDelta_line : Gr.SameLine { e.gr with x := e.gr.x + 1 } (grDelta im m ctx e).1.gr := by
  rw [grDelta_eq]
  split
  · rw [grRice_gr]
    exact ⟨rfl, rfl, rfl, rfl⟩
  · have henter := enterRun_line (e := e.withGr { e.gr with x := e.gr.x + 1 })
    exact (henter.trans openSegment_line).trans grRunStep_line

end Parts

/-- A context of the selected set is the operand of `GR_DELTA` (R171). -/
theorem exec_grDelta {s : State} {k : BitVec 16} (hk : s.hasEngine k.toNat = true)
    (hctx : s.arg1.toNat < s.par.ctxCount (s.engine k.toNat).gr.selQ) :
    exec (.grDelta k) s = onEngineWith k s (grDelta s.inMem s.par.bitsMax.toNat s.arg1.toNat) := by
  dsimp only [exec, execGrDelta]
  exact checked_of _ _ _ (by simp [hk, hctx])

/-- Settles O34: one equation for each way through the operation. -/
theorem grDeltaCountsTheRun : Obligations.GrDeltaCountsTheRun := by
  rintro s k _ hk rfl hctx e m r
  obtain ⟨t, hexec, hdone, hengine⟩ := onEngineWith_unitDone k s (grDelta s.inMem m s.arg1.toNat)
  have hresult : t.result = (grDelta s.inMem m s.arg1.toNat e).2 := hdone.1.2.2.2
  obtain ⟨hx, hw, hp, hq⟩ := grDelta_line (im := s.inMem) (m := m) (ctx := s.arg1.toNat) (e := e)
  refine ⟨t, (exec_grDelta hk hctx).trans hexec, hdone, ?_⟩
  intro f ends
  have hf : f = (grDelta s.inMem m s.arg1.toNat e).1 := hengine
  have hends : ∀ g : Engine, grDelta s.inMem m s.arg1.toNat e = grRunStep s.inMem m s.arg1.toNat g →
      g.gr.runLen = 0 → g.gr.selP = e.gr.selP → g.gr.selQ = e.gr.selQ → ends g := by
    intro g hstep hlen hp hq
    show t.result = _ ∧ f = _
    rw [hresult, hf, hstep, grRunStep_ends hlen, hp, hq]
    exact ⟨rfl, rfl⟩
  have howed : ∀ g : Engine, grDelta s.inMem m s.arg1.toNat e = grRunStep s.inMem m s.arg1.toNat g →
      0 < g.gr.runLen → t.result = 0 ∧ f = g.withGr { g.gr with runLen := g.gr.runLen - 1 } := by
    intro g hstep hlen
    rw [hresult, hf, hstep, grRunStep_owed hlen]
    exact ⟨rfl, rfl⟩
  refine ⟨hf, hf ▸ hx, hf ▸ hw, hf ▸ hp, hf ▸ hq, hf ▸ grDelta_frame s.inMem m _ e, fun hmode hlen => ?_,
    fun hmode hctx => ?_, fun hmode hlen => ?_, fun hlen hmode => ⟨fun hhit => ?_, fun hmiss => ?_⟩⟩
  · exact howed _ (grDelta_inside hmode (fun h => by omega)) hlen
  · rw [hresult, hf, grDelta_outside hmode hctx]
    exact ⟨rfl, rfl⟩
  · exact hends _ (grDelta_inside (by simp [hmode]) (by simp [hmode])) hlen rfl rfl
  · have hstep := grDelta_token (im := s.inMem) (m := m) hlen hmode
    rw [grToken_hit hhit, Nat.cast_pow, Nat.cast_two] at hstep
    exact howed _ hstep (pow_pos two_pos _)
  · have hstep := grDelta_token (im := s.inMem) (m := m) hlen hmode
    rw [grToken_miss hmiss] at hstep
    refine ⟨fun hclose => ?_, fun hclose => ?_⟩
    · have hpos : (0 : Int) < (bsBits s.inMem (grLog2 r) (bsBit s.inMem e).1).2.toNat := by
        have hne := BitVec.toNat_ne_iff_ne.2 hclose
        rw [BitVec.ofNat_eq_ofNat, BitVec.toNat_zero] at hne
        omega
      exact howed _ hstep hpos
    · have hlowered : ((bsBits s.inMem (grLog2 r) (bsBit s.inMem e).1).2.toNat : Int) = e.gr.runLen := by
        rw [hclose, hlen]
        rfl
      dsimp only at hstep
      rw [hlowered] at hstep
      exact hends _ hstep hlen rfl rfl

end Sys2Proof.Machine

/-! # `SL_OPEN` (R93, R263, R366) -/

namespace Sys2Proof.Machine

-- One theorem at a time: each that waits for the kernel holds a thread, and here they are many and short.
set_option Elab.async false

/-- The registers of a slice that starts on the window from `b` to `e` (R263). -/
def Sl.started (sl : Sl) (b e : Addr) : Sl :=
  { sl with fsm := .created, err := 0, underrun := false, used := 0, bufBeg := b, bufEnd := e }

/-- The engine of a slice that starts on a buffer, its decoder armed (R263). -/
def Engine.startedOn (im : List Host.Cell) (b n : Word) (e : Engine) : Engine :=
  { e with
    opened := true
    sl := e.sl.started (b.setWidth _) (bufferEnd b n)
    rc := rcArmed im b n Config.defaultTransition }

theorem slOpen_cont (im : List Host.Cell) (k : Nat) (b n : Word) (e : Engine) :
    slOpen im k b n true e = { e with opened := true, sl := e.sl.started e.rc.bufBeg e.rc.bufEnd } := rfl

theorem slOpen_other (im : List Host.Cell) {k : Nat} (b n : Word) (e : Engine) (h : k ≠ 0) :
    slOpen im k b n false e = e.startedOn im b n := if_neg h

theorem slOpen_zero (im : List Host.Cell) (b n : Word) (e : Engine) :
    slOpen im 0 b n false e = (keyDecision im (e.startedOn im b n)).1 := rfl

/-- The keyframe-bit decision changes the decoder and the state memory, and nothing else (R294). -/
theorem keyDecision_frame (im : List Host.Cell) (e : Engine) :
    (keyDecision im e).1 = { e with rc := (keyDecision im e).1.rc, sm := (keyDecision im e).1.sm } := by
  have hbit := (rcBit_onlyDecisions im .ks (stFill .ks Config.stateMid e)).2
  rw [stFill_frame] at hbit
  unfold keyDecision
  rw [stFill_frame, hbit]

/-- The preconditions of `SL_OPEN`, in numbers (R93, R274). -/
theorem openOk_of {s : State} {k : BitVec 16} {cont : Bool} (hk : k.toNat < 65535) (hvalid : s.par.valid = true)
    (hcont : cont = true → k = 0 ∧ s.par.configPresent = false)
    (hbuf : cont = false → s.par.tailSize.toNat ≤ s.arg1.toNat ∧ s.arg0.toNat + s.arg1.toNat ≤ 2 ^ 32 - 2) :
    s.openOk k cont = true := by
  have hslices : decide (k.toNat < Config.maxSlices) = true := decide_eq_true hk
  rw [State.openOk, hslices, hvalid]
  cases cont with
  | true =>
    obtain ⟨rfl, hconfig⟩ := hcont rfl
    rw [hconfig]
    rfl
  | false =>
    obtain ⟨htail, hend⟩ := hbuf rfl
    rw [decide_eq_true htail, (bufferOk_iff _ _).2 hend]
    rfl

/-- Settles O46: by the three ways to open a slice. -/
theorem slOpenStartsTheSlice : Obligations.SlOpenStartsTheSlice := by
  intro s k cont hk hvalid hcont hbuf e armed
  obtain ⟨t, hexec, hdone, hengine⟩ := onEngine_unitDone k s (slOpen s.inMem k.toNat s.arg0 s.arg1 cont)
  refine ⟨t, ?_, hdone, ?_⟩
  · dsimp only [exec, execSlOpen]
    rw [checked_of _ _ _ (openOk_of hk hvalid hcont hbuf), hexec]
  intro f
  have hf : f = slOpen s.inMem k.toNat s.arg0 s.arg1 cont e := hengine
  rw [addr_ofNat_toNat, addr_ofNat_add]
  cases cont with
  | true =>
    rw [hf, slOpen_cont]
    exact ⟨rfl, rfl, rfl, fun _ => ⟨rfl, rfl⟩, nofun, nofun⟩
  | false =>
    by_cases hzero : k = 0
    · subst hzero
      have hkey := keyDecision_frame s.inMem (e.startedOn s.inMem s.arg0 s.arg1)
      have hopen : f = (keyDecision s.inMem (e.startedOn s.inMem s.arg0 s.arg1)).1 := hf
      rw [← hopen] at hkey
      have hsl : f.sl = e.sl.started (s.arg0.setWidth _) (bufferEnd s.arg0 s.arg1) := (congrArg Engine.sl hkey :)
      refine ⟨(congrArg Engine.opened hkey :), hsl, ?_, nofun, fun _ h => absurd rfl h,
        fun _ _ => ?_⟩
      · rw [hsl]
        exact hkey
      · rw [hsl]
        exact hopen
    · have hne : k.toNat ≠ 0 := fun h => hzero (BitVec.eq_of_toNat_eq h)
      rw [hf, slOpen_other _ _ _ _ hne]
      exact ⟨rfl, rfl, rfl, nofun, fun _ _ => ⟨rfl, rfl⟩, fun _ h => absurd h hzero⟩

end Sys2Proof.Machine

/-! # `SL_HEADER` (R105, R261, R264, R273) -/

namespace Sys2Proof.Machine

-- One theorem at a time: each that waits for the kernel holds a thread, and here they are many and short.
set_option Elab.async false

/-! ## Symbols do not depend on the slice registers -/

/-- An engine with other slice registers. -/
def Engine.withSl (e : Engine) (sl : Sl) : Engine := { e with sl := sl }

section Registers

variable (im : List Host.Cell) (bank : StateRef) (sl : Sl) (e : Engine)

theorem rcDecide_withSl (r : StateRef) :
    rcDecide r (e.withSl sl) = ((rcDecide r e).1.withSl sl, (rcDecide r e).2) := by
  by_cases h : e.rc.current < e.rc.mask - (e.rc.mask * (e.state r).setWidth 32) >>> 8
  · rw [show rcDecide r e = _ from if_pos h]
    exact if_pos h
  · rw [show rcDecide r e = _ from if_neg h]
    exact if_neg h

theorem rcBit_withSl (r : StateRef) :
    rcBit im r (e.withSl sl) = ((rcBit im r e).1.withSl sl, (rcBit im r e).2) := by
  have hrefill : ∀ rc : Rc, ({ e.withSl sl with rc := rc } : Engine) = Engine.withSl { e with rc := rc } sl := fun _ => rfl
  unfold rcBit
  rw [show (e.withSl sl).rc = e.rc from rfl, hrefill, rcDecide_withSl, rcDecide_withSl]
  split
  · split <;> rfl
  · rfl

theorem rcExponent_withSl (steps n : Nat) :
    rcExponent im bank steps n (e.withSl sl) =
      ((rcExponent im bank steps n e).1.withSl sl, (rcExponent im bank steps n e).2) := by
  induction steps generalizing n e with
  | zero => rfl
  | succ steps ih =>
    rw [rcExponent, rcExponent, rcBit_withSl]
    dsimp only
    split
    · exact ih _ _
    · rfl

theorem rcMantissa_withSl (n : Nat) (a : Word) :
    rcMantissa im bank n a (e.withSl sl) =
      ((rcMantissa im bank n a e).1.withSl sl, (rcMantissa im bank n a e).2) := by
  induction n generalizing a e with
  | zero => rfl
  | succ n ih =>
    rw [rcMantissa, rcMantissa, rcBit_withSl]
    exact ih _ _

theorem rcMagnitude_withSl :
    rcMagnitude im bank (e.withSl sl) = ((rcMagnitude im bank e).1.withSl sl, (rcMagnitude im bank e).2) := by
  unfold rcMagnitude
  rw [rcBit_withSl]
  dsimp only
  split
  · rfl
  · rw [rcExponent_withSl]
    rcases rcExponent im bank Config.expSteps 0 (rcBit im (bank.byte zeroByte) e).1 with ⟨f, _ | n⟩
    · rfl
    · dsimp only
      rw [rcMantissa_withSl]

theorem rcUsym_withSl :
    rcUsym im bank (e.withSl sl) = ((rcUsym im bank e).1.withSl sl, (rcUsym im bank e).2) := by
  unfold rcUsym
  rw [rcMagnitude_withSl]
  rcases rcMagnitude im bank e with ⟨f, _ | ⟨n, a⟩⟩ <;> rfl

end Registers

/-! ## Symbols in a row -/

section Symbols

variable {im : List Host.Cell} {bank : StateRef}

/-- The engine after `n` symbols over `HB` (R264). -/
def headerAt (im : List Host.Cell) (e : Engine) (n : Nat) : Engine := (symbolsRead im (.hb 0) n e).1

/-- The value of the symbol behind the first `n` over `HB` (R264). -/
def headerWord (im : List Host.Cell) (e : Engine) (n : Nat) : Word := (headerSym im (headerAt im e n)).2

theorem symbolsRead_succ (n : Nat) (e : Engine) :
    symbolsRead im bank (n + 1) e =
      ((rcUsym im bank (symbolsRead im bank n e).1).1,
        (symbolsRead im bank n e).2 ++ [(rcUsym im bank (symbolsRead im bank n e).1).2.toNat]) := by
  induction n generalizing e with
  | zero => rfl
  | succ n ih =>
    rw [symbolsRead, ih]
    rfl

theorem symbolsRead_length (n : Nat) (e : Engine) : (symbolsRead im bank n e).2.length = n := by
  induction n with
  | zero => rfl
  | succ n ih => rw [symbolsRead_succ, List.length_append, ih, List.length_singleton]

theorem headerAt_succ (e : Engine) (n : Nat) : headerAt im e (n + 1) = (headerSym im (headerAt im e n)).1 := by
  rw [headerAt, symbolsRead_succ]
  rfl

/-- The values of symbols in a row, each by the engine before it. -/
theorem symbolsRead_getD {e : Engine} {j n : Nat} (h : j < n) :
    (symbolsRead im (.hb 0) n e).2.getD j 0 = (headerWord im e j).toNat := by
  induction n with
  | zero => exact absurd h (Nat.not_lt_zero j)
  | succ n ih =>
    have hlength := symbolsRead_length (im := im) (bank := .hb 0) n e
    rw [symbolsRead_succ]
    rcases Nat.lt_succ_iff_lt_or_eq.1 h with hlt | rfl
    · rw [List.getD_append _ _ _ _ (by omega), ih hlt]
    · rw [List.getD_append_right _ _ _ _ (by omega), hlength, Nat.sub_self]
      rfl

theorem headerAt_sl (e : Engine) (n : Nat) : (headerAt im e n).sl = e.sl := by
  induction n with
  | zero => rfl
  | succ n ih => rw [headerAt_succ, headerSym_sl, ih]

theorem headerAt_onlyDecisions (e : Engine) (n : Nat) : onlyDecisions (inBank (.hb 0)) e (headerAt im e n) := by
  induction n with
  | zero => exact onlyDecisions_refl _ e
  | succ n ih =>
    rw [headerAt_succ]
    exact onlyDecisions_trans ih (rcUsym_onlyDecisions im (.hb 0) _)

theorem headerSym_at (e : Engine) (n : Nat) :
    headerSym im (headerAt im e n) = (headerAt im e (n + 1), headerWord im e n) := by
  rw [headerAt_succ]
  rfl

/-- The next symbol of a header, whatever the slice registers hold. -/
theorem headerSym_withSl (e : Engine) (n : Nat) (sl : Sl) :
    headerSym im ((headerAt im e n).withSl sl) = ((headerAt im e (n + 1)).withSl sl, headerWord im e n) := by
  rw [headerAt_succ]
  exact rcUsym_withSl im (.hb 0) sl (headerAt im e n)

end Symbols

/-! ## The parts of the header -/

/-- The slice registers with the four geometry fields (R105). -/
def Sl.withGrid (sl : Sl) (x y w h : Word) : Sl := { sl with sliceX := x, sliceY := y, widthM1 := w, heightM1 := h }

/-- The slice registers with the three advisory fields (R105). -/
def Sl.withAdvice (sl : Sl) (ps num den : Word) : Sl := { sl with pictureStructure := ps, sarNum := num, sarDen := den }

theorem headerGeometry_eq (im : List Host.Cell) (e : Engine) :
    headerGeometry im e = (headerAt im e 4).withSl (e.sl.withGrid (headerWord im e 0) (headerWord im e 1)
      (headerWord im e 2) (headerWord im e 3)) := by
  unfold headerGeometry
  rw [show headerSym im e = _ from headerSym_at e 0]
  dsimp only
  rw [headerSym_at]
  dsimp only
  rw [headerSym_at]
  dsimp only
  rw [headerSym_at]
  dsimp only
  rw [headerAt_sl]
  rfl

theorem headerAdvisory_eq (im : List Host.Cell) (e : Engine) (n : Nat) (sl : Sl) :
    headerAdvisory im ((headerAt im e n).withSl sl) = (headerAt im e (n + 3)).withSl
      (sl.withAdvice (headerWord im e n) (headerWord im e (n + 1)) (headerWord im e (n + 2))) := by
  unfold headerAdvisory
  rw [headerSym_withSl]
  dsimp only
  rw [headerSym_withSl]
  dsimp only
  rw [headerSym_withSl]
  rfl

/-- The slice registers with other table-set indices. -/
def Sl.withQti (sl : Sl) (qti : Vector (BitVec 3) 3) : Sl := { sl with qti := qti }

section Indices

variable {i : SliceIn} {e : Engine}

theorem headerIndices_bad {n p : Nat} {sl : Sl} (h : i.par.qtSetCount.toNat ≤ (headerWord i.im e (4 + p)).toNat) :
    headerIndices i (n + 1) p ((headerAt i.im e (4 + p)).withSl sl) =
      .raise .qtIndex ((headerAt i.im e (5 + p)).withSl sl) := by
  unfold headerIndices
  rw [headerSym_withSl]
  dsimp only
  rw [if_pos h, Nat.add_right_comm]

theorem headerIndices_good {n p : Nat} {sl : Sl} (h : (headerWord i.im e (4 + p)).toNat < i.par.qtSetCount.toNat) :
    headerIndices i (n + 1) p ((headerAt i.im e (4 + p)).withSl sl) =
      headerIndices i n (p + 1) ((headerAt i.im e (4 + (p + 1))).withSl
        (sl.withQti (sl.qti.setIfInBounds p ((headerWord i.im e (4 + p)).setWidth 3)))) := by
  rw [headerIndices, headerSym_withSl]
  dsimp only
  rw [if_neg (Nat.not_le.2 h)]
  rfl

/-- Indices that all name a set are stored in their slots (R264). -/
theorem headerIndices_ok {n p : Nat} {sl : Sl} (hn : p + n ≤ 3)
    (h : ∀ q, p ≤ q → q < p + n → (headerWord i.im e (4 + q)).toNat < i.par.qtSetCount.toNat) :
    ∃ qti : Vector (BitVec 3) 3,
      headerIndices i n p ((headerAt i.im e (4 + p)).withSl sl) =
        .ok () ((headerAt i.im e (4 + (p + n))).withSl (sl.withQti qti)) ∧
      ∀ (q : Nat) (hq : q < 3), qti[q] =
        if p ≤ q ∧ q < p + n then (headerWord i.im e (4 + q)).setWidth 3 else sl.qti[q] := by
  induction n generalizing p sl with
  | zero =>
    refine ⟨sl.qti, rfl, fun q hq => ?_⟩
    rw [if_neg (by omega)]
  | succ n ih =>
    have hgood := h p (Nat.le_refl p) (by omega)
    obtain ⟨qti, hread, hqti⟩ := ih (p := p + 1)
      (sl := sl.withQti (sl.qti.setIfInBounds p ((headerWord i.im e (4 + p)).setWidth 3))) (by omega)
      fun q hlo hhi => h q (by omega) (by omega)
    refine ⟨qti, ?_, fun q hq => ?_⟩
    · rw [headerIndices_good hgood, hread, Nat.add_right_comm p 1 n]
      rfl
    · rw [hqti q hq]
      show (if _ then _ else (sl.qti.setIfInBounds p _)[q]) = _
      rw [Vector.getElem_setIfInBounds]
      rcases Nat.lt_trichotomy q p with hlt | rfl | hgt
      · rw [if_neg (by omega), if_neg (by omega), if_neg (by omega)]
      · rw [if_neg (by omega), if_pos rfl, if_pos (by omega)]
      · by_cases hin : q < p + (n + 1)
        · rw [if_pos (by omega), if_pos (by omega)]
        · rw [if_neg (by omega), if_neg (by omega), if_neg (by omega)]

/-- The first index that names no set ends the header (R264). -/
theorem headerIndices_raise {n p q : Nat} {sl : Sl} (hpq : p ≤ q) (hq : q < p + n)
    (h : ∀ r, p ≤ r → r < q → (headerWord i.im e (4 + r)).toNat < i.par.qtSetCount.toNat)
    (hbad : i.par.qtSetCount.toNat ≤ (headerWord i.im e (4 + q)).toNat) :
    ∃ qti : Vector (BitVec 3) 3, headerIndices i n p ((headerAt i.im e (4 + p)).withSl sl) =
      .raise .qtIndex ((headerAt i.im e (5 + q)).withSl (sl.withQti qti)) := by
  induction n generalizing p sl with
  | zero => omega
  | succ n ih =>
    rcases Nat.eq_or_lt_of_le hpq with rfl | hlt
    · exact ⟨sl.qti, headerIndices_bad hbad⟩
    · rw [headerIndices_good (h p (Nat.le_refl p) hlt)]
      obtain ⟨qti, hread⟩ := ih (p := p + 1)
        (sl := sl.withQti (sl.qti.setIfInBounds p ((headerWord i.im e (4 + p)).setWidth 3))) hlt (by omega)
        fun r hlo => h r (by omega)
      exact ⟨qti, hread⟩

end Indices

/-! ## The header -/

section Header

variable {i : SliceIn} {e : Engine}

/-- The slice registers after the geometry fields of a header (R105). -/
def headerGrid (im : List Host.Cell) (e : Engine) : Sl :=
  e.sl.withGrid (headerWord im e 0) (headerWord im e 1) (headerWord im e 2) (headerWord im e 3)

theorem headerCoded_eq : headerCoded i e =
    if geometryOk i.par (headerGrid i.im e) then
      (headerIndices i i.par.qtiCount.toNat 0
        ((headerAt i.im e 4).withSl ((headerGrid i.im e).withRegion i.par i.width i.height))).bind fun _ f =>
          .ok () (headerAdvisory i.im (thirdIndex i.par f))
    else .raise .sliceGeometry ((headerAt i.im e 4).withSl (headerGrid i.im e)) := by
  unfold headerCoded
  rw [headerGeometry_eq, ← headerGrid]
  generalize headerAt i.im e 4 = f
  generalize headerGrid i.im e = sl
  rfl

/-- A grid that is not legal ends the header after four symbols (R264). -/
theorem headerCoded_geometry (h : ¬ geometryOk i.par (headerGrid i.im e) = true) :
    headerCoded i e = .raise .sliceGeometry ((headerAt i.im e 4).withSl (headerGrid i.im e)) := by
  rw [headerCoded_eq, if_neg h]

/-- The first index that names no set ends the header behind it (R264). -/
theorem headerCoded_index {q : Nat} (hgrid : geometryOk i.par (headerGrid i.im e) = true)
    (hq : q < i.par.qtiCount.toNat)
    (h : ∀ r, r < q → (headerWord i.im e (4 + r)).toNat < i.par.qtSetCount.toNat)
    (hbad : i.par.qtSetCount.toNat ≤ (headerWord i.im e (4 + q)).toNat) :
    ∃ qti : Vector (BitVec 3) 3, headerCoded i e = .raise .qtIndex ((headerAt i.im e (5 + q)).withSl
      (((headerGrid i.im e).withRegion i.par i.width i.height).withQti qti)) := by
  obtain ⟨qti, hread⟩ := headerIndices_raise (i := i) (e := e)
    (sl := (headerGrid i.im e).withRegion i.par i.width i.height) (Nat.zero_le q)
    (by omega : q < 0 + i.par.qtiCount.toNat) (fun r _ => h r) hbad
  refine ⟨qti, ?_⟩
  rw [headerCoded_eq, if_pos hgrid, show 4 = 4 + 0 from rfl, hread]
  rfl

/-- The table-set indices of a header: the first `n` as read, the third 0 when it is not (R264). -/
def IndicesRead (im : List Host.Cell) (e : Engine) (n : Nat) (qti : Vector (BitVec 3) 3) : Prop :=
  (∀ (q : Nat) (hq : q < 3), q < n → qti[q] = (headerWord im e (4 + q)).setWidth 3) ∧ (n = 2 → qti[2] = 0)

/-- A header that is legal ends behind its advisory fields (R264). -/
theorem headerCoded_ok (hgrid : geometryOk i.par (headerGrid i.im e) = true)
    (h : ∀ q, q < i.par.qtiCount.toNat → (headerWord i.im e (4 + q)).toNat < i.par.qtSetCount.toNat) :
    ∃ qti : Vector (BitVec 3) 3, IndicesRead i.im e i.par.qtiCount.toNat qti ∧
      headerCoded i e = .ok () ((headerAt i.im e (7 + i.par.qtiCount.toNat)).withSl
        ((((headerGrid i.im e).withRegion i.par i.width i.height).withQti qti).withAdvice
          (headerWord i.im e (4 + i.par.qtiCount.toNat)) (headerWord i.im e (5 + i.par.qtiCount.toNat))
          (headerWord i.im e (6 + i.par.qtiCount.toNat)))) := by
  generalize hslots : i.par.qtiCount.toNat = slots at h ⊢
  generalize hplaced : (headerGrid i.im e).withRegion i.par i.width i.height = placed
  have hle : slots ≤ 3 := by have := i.par.qtiCount.isLt; omega
  obtain ⟨qti, hread, hqti⟩ := headerIndices_ok (i := i) (e := e) (sl := placed) (p := 0) (n := slots)
    (by omega) fun q _ hq => h q (by omega)
  have hfirst : ∀ (q : Nat) (hq : q < 3), q < slots → qti[q] = (headerWord i.im e (4 + q)).setWidth 3 :=
    fun q hq hlt => by rw [hqti q hq, if_pos (by omega)]
  have hadvice : ∀ sl : Sl, headerAdvisory i.im ((headerAt i.im e (4 + slots)).withSl sl) =
      (headerAt i.im e (7 + slots)).withSl (sl.withAdvice (headerWord i.im e (4 + slots))
        (headerWord i.im e (5 + slots)) (headerWord i.im e (6 + slots))) := fun sl => by
    rw [headerAdvisory_eq, show 4 + slots + 1 = 5 + slots by omega, show 4 + slots + 2 = 6 + slots by omega,
      show 4 + slots + 3 = 7 + slots by omega]
  have hcoded : headerCoded i e = .ok () (headerAdvisory i.im (thirdIndex i.par
      ((headerAt i.im e (4 + slots)).withSl (placed.withQti qti)))) := by
    rw [headerCoded_eq, if_pos hgrid, hslots, hplaced, show 4 = 4 + 0 from rfl, hread, Nat.zero_add]
    rfl
  by_cases htwo : i.par.qtiCount = 2
  · have hslots2 : slots = 2 := by rw [← hslots, htwo]; rfl
    refine ⟨qti.set 2 0, ⟨fun q hq hlt => ?_, fun _ => Vector.getElem_set_self _⟩, ?_⟩
    · rw [Vector.getElem_set_ne _ _ (by omega), hfirst q hq hlt]
    · have hthird : thirdIndex i.par ((headerAt i.im e (4 + slots)).withSl (placed.withQti qti)) =
          (headerAt i.im e (4 + slots)).withSl (placed.withQti (qti.set 2 0)) := if_pos htwo
      rw [hcoded, hthird, hadvice]
  · have hslots2 : slots ≠ 2 := fun h2 => htwo (BitVec.eq_of_toNat_eq (hslots.trans h2))
    refine ⟨qti, ⟨hfirst, fun h2 => absurd h2 hslots2⟩, ?_⟩
    have hthird : thirdIndex i.par ((headerAt i.im e (4 + slots)).withSl (placed.withQti qti)) =
        (headerAt i.im e (4 + slots)).withSl (placed.withQti qti) := if_neg htwo
    rw [hcoded, hthird, hadvice]

/-- The engine on which a header starts: `HB` filled with 128 (R264). -/
def headerStart (e : Engine) : Engine := stFill (.hb 0) Config.stateMid e

theorem headerStart_sl (e : Engine) : (headerStart e).sl = e.sl := by rw [headerStart, stFill_frame]

/-- Filling `HB` is within the frame of the decisions over it. -/
theorem headerStart_onlyDecisions (e : Engine) : onlyDecisions (inBank (.hb 0)) e (headerStart e) := by
  refine ⟨fun r hr => stFill_other (.hb 0) _ e r (fun j hj => hr ⟨j, hj⟩) rfl, ?_⟩
  rw [headerStart, stFill_frame]

theorem headerOf_implicit (h : i.par.configPresent = false) :
    headerOf i e = .ok () ((headerImplicit i (headerStart e)).setFsm .headerParsed) := by
  unfold headerOf
  rw [h]
  rfl

theorem headerOf_coded (h : i.par.configPresent = true) :
    headerOf i e = (headerCoded i (headerStart e)).bind fun _ f => .ok () (f.setFsm .headerParsed) := by
  unfold headerOf
  rw [h]
  rfl

/-- Every way in which a coded header ends (R264). -/
theorem headerOf_cases (h : i.par.configPresent = true) :
    (∃ n sl, headerOf i e = .ok () ((headerAt i.im (headerStart e) n).withSl sl)) ∨
      ∃ err n sl, headerOf i e = .raise err ((headerAt i.im (headerStart e) n).withSl sl) := by
  rw [headerOf_coded h]
  by_cases hgrid : geometryOk i.par (headerGrid i.im (headerStart e)) = true
  · by_cases hsets : ∃ q, q < i.par.qtiCount.toNat ∧
        i.par.qtSetCount.toNat ≤ (headerWord i.im (headerStart e) (4 + q)).toNat
    · obtain ⟨hq, hbad⟩ := Nat.find_spec hsets
      obtain ⟨qti, hread⟩ := headerCoded_index hgrid hq
        (fun r hr => Nat.lt_of_not_le fun hle => Nat.find_min hsets hr ⟨hr.trans hq, hle⟩) hbad
      rw [hread]
      exact .inr ⟨_, _, _, rfl⟩
    · obtain ⟨qti, -, hread⟩ := headerCoded_ok hgrid fun q hq => Nat.lt_of_not_le fun hle => hsets ⟨q, hq, hle⟩
      rw [hread]
      exact .inl ⟨_, _, rfl⟩
  · rw [headerCoded_geometry hgrid]
    exact .inr ⟨_, _, _, rfl⟩

end Header

/-! ## The region of a slice (R264) -/

section Grid

variable {a b n extent : Nat}

theorem gridBounds_add (extent : Nat) (a b n : Nat) :
    a * extent / n + ((a + b + 1) * extent / n - a * extent / n) = (a + b + 1) * extent / n :=
  Nat.add_sub_cancel' (Nat.div_le_div_right (Nat.mul_le_mul_right _ (by omega)))

/-- A region whose last cell lies in the grid lies in the frame. -/
theorem gridBounds_le (h : a + b + 1 ≤ n) : (a + b + 1) * extent / n ≤ extent :=
  Nat.div_le_of_le_mul (Nat.mul_le_mul_right _ h)

/-- A grid with no more cells than the frame has samples has no empty cell. -/
theorem gridBounds_pos (hn : 0 < n) (h : n ≤ extent) :
    1 ≤ (a + b + 1) * extent / n - a * extent / n := by
  have hcell : a * extent + n ≤ (a + b + 1) * extent := by nlinarith
  have hdiv := Nat.div_le_div_right (c := n) hcell
  rw [Nat.add_div_right _ hn] at hdiv
  omega

end Grid

/-! ## The command -/

theorem exec_slHeader {s : State} {k : BitVec 16} (hk : s.hasEngine k.toNat = true)
    (hfsm : (s.engine k.toNat).sl.fsm = .created) :
    exec (.slHeader k) s = .next (sliceEnd k s (slHeader s.sliceIn (s.sliceSt k.toNat))) := by
  have hlegal : s.fsmIs k .created = true := by
    rw [State.fsmIs, hk, hfsm]
    rfl
  dsimp only [exec, execSlHeader]
  rw [checked_of _ _ _ hlegal, endSlice_eq]

/-- A header without error changes its engine alone. -/
theorem slHeader_completes {s : State} {k : BitVec 16} {f : Engine}
    (h : headerOf s.sliceIn (s.engine k.toNat) = .ok () f) :
    let t := sliceEnd k s (slHeader s.sliceIn (s.sliceSt k.toNat))
    unitDone k.toNat s t s.result ∧ t.engine k.toNat = f := by
  have hheader : slHeader s.sliceIn (s.sliceSt k.toNat) = .ok () ⟨f, s.plane⟩ := by
    rw [slHeader, show (s.sliceSt k.toNat).eng = s.engine k.toNat from rfl, h]
    rfl
  rw [hheader]
  exact ⟨⟨⟨rfl, rfl, rfl, rfl⟩, fun _ => rfl, fun _ _ _ => rfl, sliceEnd_otherEngines k s _,
    sliceEnd_hasEngine k s _, rfl⟩, sliceEnd_engine k s _⟩

/-- A header that raises an error takes it, on its engine alone (R273). -/
theorem slHeader_fails {s : State} {k : BitVec 16} {err : ErrorName} {f : Engine}
    (h : headerOf s.sliceIn (s.engine k.toNat) = .raise err f) :
    let t := sliceEnd k s (slHeader s.sliceIn (s.sliceSt k.toNat))
    (t.failedWith err k ∧ sameSamples s t ∧ sameOtherEngines k.toNat s t) ∧
      t.engine k.toNat = f.takeSliceError err := by
  have hheader : slHeader s.sliceIn (s.sliceSt k.toNat) = .raise err ⟨f, s.plane⟩ := by
    rw [slHeader, show (s.sliceSt k.toNat).eng = s.engine k.toNat from rfl, h]
    rfl
  rw [hheader]
  exact ⟨⟨⟨rfl, rfl, rfl, rfl, rfl, rfl⟩, fun _ _ _ => rfl, sliceEnd_otherEngines k s _⟩, sliceEnd_engine k s _⟩

/-- Whichever way a coded header ends, of its engine only `HB`, the decoder and the slice registers change. -/
theorem slHeader_onlyDecisions {s : State} {k : BitVec 16} (h : s.par.configPresent = true) :
    let f := (sliceEnd k s (slHeader s.sliceIn (s.sliceSt k.toNat))).engine k.toNat
    onlyDecisions (inBank (.hb 0)) { s.engine k.toNat with sl := f.sl } f := by
  have frame : ∀ (n : Nat) (sl : Sl), onlyDecisions (inBank (.hb 0)) ((s.engine k.toNat).withSl sl)
      ((headerAt s.inMem (headerStart (s.engine k.toNat)) n).withSl sl) := by
    intro n sl
    obtain ⟨hstate, hrest⟩ := onlyDecisions_trans (headerStart_onlyDecisions (s.engine k.toNat))
      (headerAt_onlyDecisions (im := s.inMem) (headerStart (s.engine k.toNat)) n)
    exact ⟨hstate, congrArg (Engine.withSl · sl) hrest⟩
  rcases headerOf_cases (i := s.sliceIn) (e := s.engine k.toNat) h with ⟨n, sl, hheader⟩ | ⟨err, n, sl, hheader⟩
  · obtain ⟨-, hengine⟩ := slHeader_completes hheader
    intro f
    rw [show f = _ from hengine]
    exact frame n sl
  · obtain ⟨-, hengine⟩ := slHeader_fails hheader
    intro f
    rw [show f = _ from hengine]
    exact frame n { sl with err := err.code, fsm := .error }

/-- What a header without a configuration record leaves (R264). -/
theorem headerImplicit_eq (i : SliceIn) (e : Engine) :
    (headerImplicit i (headerStart e)).setFsm .headerParsed = { e with
      sm := (headerStart e).sm
      sl := { e.sl with
        sliceX := 0, sliceY := 0, widthM1 := 0, heightM1 := 0
        x := 0, y := 0, w := i.width, h := i.height
        qti := Vector.replicate 3 0, fsm := .headerParsed } } := by
  have hframe : headerStart e = { e with sm := (headerStart e).sm } := stFill_frame (.hb 0) Config.stateMid e
  generalize headerStart e = g at hframe ⊢
  rw [hframe]
  rfl

theorem withRegion_withGrid (sl : Sl) (x y w h : Word) (par : Par) (width height : Nat) :
    (sl.withGrid x y w h).withRegion par width height = { sl.withGrid x y w h with
      x := x.toNat * width / par.numHSlices.toNat
      w := (x.toNat + w.toNat + 1) * width / par.numHSlices.toNat - x.toNat * width / par.numHSlices.toNat
      y := y.toNat * height / par.numVSlices.toNat
      h := (y.toNat + h.toNat + 1) * height / par.numVSlices.toNat - y.toNat * height / par.numVSlices.toNat } :=
  rfl

theorem geometryOk_withGrid (sl : Sl) (x y w h : Word) (par : Par) :
    geometryOk par (sl.withGrid x y w h) = true ↔
      x.toNat < par.numHSlices.toNat ∧ y.toNat < par.numVSlices.toNat ∧
        x.toNat + w.toNat + 1 ≤ par.numHSlices.toNat ∧ y.toNat + h.toNat + 1 ≤ par.numVSlices.toNat :=
  decide_eq_true_iff

theorem qtiAt_withQti (sl : Sl) (qti : Vector (BitVec 3) 3) (p : BitVec 2) :
    (sl.withQti qti).qtiAt p = if h : p.toNat < 3 then qti[p.toNat] else 0 :=
  rfl

/-- An error of a slice is a change of its registers alone (R273). -/
theorem takeSliceError_withSl (e : Engine) (sl : Sl) (err : ErrorName) :
    (e.withSl sl).takeSliceError err = e.withSl { sl with err := err.code, fsm := .error } :=
  rfl

/-- Settles O47: by the ends of the header, the symbols counted by the engine that they leave. -/
theorem slHeaderPlacesTheRegion : Obligations.SlHeaderPlacesTheRegion := by
  intro s k hk hfsm e width height nh nv slots start after v grid x y placed inGrid isSet
  have hexec := exec_slHeader hk hfsm
  refine ⟨fun hconfig => ?_, fun hconfig => ?_⟩
  · obtain ⟨hdone, hengine⟩ := slHeader_completes (headerOf_implicit (i := s.sliceIn) (e := e) hconfig)
    rw [headerImplicit_eq] at hengine
    refine ⟨_, hexec, hdone, ?_⟩
    rw [hengine]
    have hfill : ∀ j, (headerStart e).state (.hb j) = 128 := fun j => stFill_inside (.hb 0) 128 e j rfl
    have hother := (headerStart_onlyDecisions e).1
    generalize headerStart e = g at hfill hother ⊢
    exact ⟨hfill, hother, rfl⟩
  · have hslots : slots ≤ 3 := by have := s.par.qtiCount.isLt; omega
    have hconfig' : s.sliceIn.par.configPresent = true := hconfig
    have hv : ∀ j, j < 7 + slots → v j = (headerWord s.inMem start j).toNat := by
      intro j hj
      show (symbolsRead s.inMem (.hb 0) (7 + slots) start).2.getD j 0 = _
      rw [symbolsRead_getD hj]
    have hafter : ∀ n, after n = headerAt s.inMem start n := fun _ => rfl
    have hstart : start = headerStart e := rfl
    have hsl : start.sl = e.sl := by rw [hstart, headerStart_sl]
    clear_value v after
    clear_value start
    subst hstart
    have hword : ∀ j, j < 7 + slots → BitVec.ofNat 32 (v j) = headerWord s.inMem (headerStart e) j := fun j hj => by
      rw [hv j hj, BitVec.ofNat_toNat, BitVec.setWidth_eq]
    have hgrid : grid = headerGrid s.inMem (headerStart e) := by
      rw [headerGrid, hsl, ← hword 0 (by omega), ← hword 1 (by omega), ← hword 2 (by omega), ← hword 3 (by omega)]
      rfl
    have hplaced : placed = (headerGrid s.inMem (headerStart e)).withRegion s.par width height := by
      rw [headerGrid, withRegion_withGrid, ← headerGrid, ← hgrid, ← hv 0 (by omega), ← hv 1 (by omega),
        ← hv 2 (by omega), ← hv 3 (by omega)]
    have hgeometry : inGrid ↔ geometryOk s.par (headerGrid s.inMem (headerStart e)) = true := by
      rw [headerGrid, geometryOk_withGrid, ← hv 0 (by omega), ← hv 1 (by omega), ← hv 2 (by omega),
        ← hv 3 (by omega)]
    have hset : ∀ p, p < slots →
        (isSet p ↔ (headerWord s.inMem (headerStart e) (4 + p)).toNat < s.par.qtSetCount.toNat) := by
      intro p hp
      rw [← hv _ (by omega)]
    refine ⟨_, hexec, slHeader_onlyDecisions hconfig, fun hin hsets => ?_, fun hout => ?_,
      fun p hin hp hbelow hbad => ?_⟩
    · obtain ⟨qti, ⟨hread, hthird⟩, hcoded⟩ := headerCoded_ok (i := s.sliceIn) (e := headerStart e)
        (hgeometry.1 hin) fun p hp => (hset p hp).1 (hsets p hp)
      have hheader := headerOf_coded (e := e) hconfig'
      rw [hcoded] at hheader
      obtain ⟨hdone, hengine⟩ := slHeader_completes hheader
      have hqti : ∀ p : BitVec 2, p.toNat < slots →
          (placed.withQti qti).qtiAt p = BitVec.ofNat 3 (v (4 + p.toNat)) := fun p hp => by
        rw [qtiAt_withQti, dif_pos (hp.trans_le hslots), hread _ _ hp, hv _ (by omega), BitVec.ofNat_toNat]
        rfl
      have hbound : ∀ p : BitVec 2, p.toNat < slots →
          ((placed.withQti qti).qtiAt p).toNat < s.par.qtSetCount.toNat := fun p hp => by
        rw [hqti p hp, BitVec.toNat_ofNat]
        exact (Nat.mod_le _ _).trans_lt (hsets _ hp)
      have hlast : slots = 2 → (placed.withQti qti).qtiAt 2 = 0 := fun htwo => by
        rw [qtiAt_withQti, ← hthird htwo]
        rfl
      obtain ⟨hnh, hnv, hright, hbottom⟩ := id hin
      have hxw : placed.x + placed.w = (v 0 + v 2 + 1) * width / nh := gridBounds_add _ _ _ _
      have hyh : placed.y + placed.h = (v 1 + v 3 + 1) * height / nv := gridBounds_add _ _ _ _
      have hxle : placed.x + placed.w ≤ width := by
        rw [hxw]
        exact gridBounds_le hright
      have hyle : placed.y + placed.h ≤ height := by
        rw [hyh]
        exact gridBounds_le hbottom
      have hw : nh ≤ width → 1 ≤ placed.w := gridBounds_pos (Nat.zero_lt_of_lt hnh)
      have hh : nv ≤ height → 1 ≤ placed.h := gridBounds_pos (Nat.zero_lt_of_lt hnv)
      have hend : (sliceEnd k s (slHeader s.sliceIn (s.sliceSt k.toNat))).engine k.toNat =
          (after (7 + slots)).withSl { (placed.withQti qti).withAdvice (BitVec.ofNat 32 (v (4 + slots)))
            (BitVec.ofNat 32 (v (5 + slots))) (BitVec.ofNat 32 (v (6 + slots))) with fsm := .headerParsed } := by
        rw [hengine, hafter, hword _ (by omega), hword _ (by omega), hword _ (by omega), hplaced]
        rfl
      refine ⟨hdone, ?_⟩
      rw [hend]
      clear hengine hheader hcoded hend hafter hplaced hgrid hgeometry hdone
      clear_value placed width height nh nv
      generalize after (7 + slots) = g
      exact ⟨rfl, hqti, hbound, hlast, hxw, hyh, hxle, hyle, hw, hh⟩
    · have hheader := headerOf_coded (e := e) hconfig'
      rw [headerCoded_geometry (i := s.sliceIn) (e := headerStart e) fun hok => hout (hgeometry.2 hok)] at hheader
      obtain ⟨⟨hfail, hsamples, hothers⟩, hengine⟩ := slHeader_fails hheader
      refine ⟨hfail, hsamples, hothers, ?_⟩
      have hend := hengine.trans (takeSliceError_withSl _ _ _)
      rw [show s.sliceIn.im = s.inMem from rfl, ← hgrid, ← hafter 4] at hend
      rw [hend]
      clear hend hengine hheader hgeometry hplaced hgrid hafter
      clear_value grid
      generalize after 4 = g
      rfl
    · obtain ⟨qti, hcoded⟩ := headerCoded_index (i := s.sliceIn) (e := headerStart e) (hgeometry.1 hin) hp
        (fun r hr => (hset r (hr.trans hp)).1 (hbelow r hr)) (Nat.le_of_not_lt fun hlt => hbad ((hset p hp).2 hlt))
      have hheader := headerOf_coded (e := e) hconfig'
      rw [hcoded] at hheader
      obtain ⟨⟨hfail, hsamples, hothers⟩, hengine⟩ := slHeader_fails hheader
      refine ⟨hfail, hsamples, hothers, ?_⟩
      have hend := hengine.trans (takeSliceError_withSl _ _ _)
      rw [show s.sliceIn.im = s.inMem from rfl, show s.sliceIn.par = s.par from rfl,
        show s.sliceIn.width = width from rfl, show s.sliceIn.height = height from rfl, ← hplaced, ← hafter] at hend
      rw [hend]
      clear hend hengine hheader hgeometry hplaced hgrid hafter
      clear_value placed
      generalize after (5 + p) = g
      rfl

end Sys2Proof.Machine

/-! # Commands of the range coder (R131 to R136, R141 to R146) -/

namespace Sys2Proof.Machine

/-! ## The table of the 0 branch (R132) -/

theorem zeroTable_zero (t : Table) : (zeroTable t).get 0 = 0 := rfl

/-- Behind entry 0 the derived table is the other one negated and read backwards. -/
theorem zeroTable_mirror (t : Table) {i j : Fin 256} (h : i.val + j.val = 256) :
    (zeroTable t).get i = 0 - t.get j := by
  have hpos : 0 < i.val := by omega
  have hback : 255 - 1 - (i.val - 1) + 1 = j.val := by omega
  simp only [zeroTable, Vector.get_eq_getElem, Vector.getElem_mk, List.getElem_toArray]
  simp only [List.getElem_cons, Nat.ne_of_gt hpos, dite_false, List.getElem_map, List.getElem_reverse,
    List.getElem_tail, List.length_tail, Vector.length_toList, Vector.getElem_toList]
  simp [hback]

/-- Settles O20: the derived table is the other one, mirrored and negated. -/
theorem zeroTableIsDerived : Obligations.ZeroTableIsDerived := by
  refine fun t => ⟨zeroTable_zero t, fun i j hij => ?_⟩
  rw [zeroTable_mirror t hij, BitVec.toNat_sub]
  simp

/-! ## Arming (R131, R135) -/

/-- Two bytes, the one at the lower address first (R61). -/
theorem memRead_two (im : List Host.Cell) (a : Nat) :
    memRead im a 2 = (inByte im a).toNat * 256 + (inByte im (a + 1)).toNat := by
  simp [memRead]

theorem tableOk_of {par : Par} {custom : Bool} (h : custom = true → par.customPresent = true) :
    tableOk par custom = true := by
  cases custom
  · rfl
  · exact h rfl

/-- The armed decoder, field by field (R131). -/
theorem rcArmed_eq (im : List Host.Cell) (b n : Word) (t : Table) :
    rcArmed im b n t =
      { current := if 2 ≤ n.toNat then
          BitVec.ofNat 32 ((inByte im b.toNat).toNat * 256 + (inByte im (b.toNat + 1)).toNat) else 0
        mask := if 2 ≤ n.toNat then 0xFF00 else 0
        bufBeg := BitVec.ofNat _ b.toNat
        bufCur := BitVec.ofNat _ (if 2 ≤ n.toNat then b.toNat + 2 else b.toNat)
        bufEnd := BitVec.ofNat _ (b.toNat + n.toNat)
        one := t
        zero := zeroTable t } := by
  by_cases h : 2 ≤ n.toNat
  · have hle : 2#32 ≤ n := h
    have hcur : BitVec.ofNat (Config.addrW + 1) (b.toNat + 2) = b.setWidth _ + 2 := by
      rw [BitVec.ofNat_add, addr_ofNat_toNat]
      rfl
    simp only [rcArmed, hle, h, if_true, memRead_two, addr_ofNat_toNat, addr_ofNat_add, hcur, Config.rcMaskInit]
  · have hle : ¬ 2#32 ≤ n := h
    simp only [rcArmed, hle, h, if_false, addr_ofNat_toNat, addr_ofNat_add]

/-- Arming leaves a decoder without an underrun (R131, R143). -/
theorem rcArmed_underrun (im : List Host.Cell) (b n : Word) (t : Table) :
    rcUnderrun (rcArmed im b n t) = false := by
  rw [rcArmed_eq, rcUnderrun, decide_eq_false_iff_not, rcPartial]
  by_cases hn : 2 ≤ n.toNat
  · simp only [hn, if_true, addr_toNat_ofNat]
    split <;> omega
  · simp only [hn, if_false, addr_toNat_ofNat]
    split <;> omega

theorem exec_rcArm {s : State} {k : BitVec 16} {custom : Bool} (hk : s.hasEngine k.toNat = true)
    (htable : custom = true → s.par.customPresent = true) (hbuffer : s.arg0.toNat + s.arg1.toNat ≤ 2 ^ 32 - 2) :
    exec (.rcArm k custom) s = onEngine k s (rcArm s.inMem s.arg0 s.arg1 (chosenTable s.par custom)) := by
  dsimp only [exec, execRcArm]
  exact checked_of _ _ _ (by simp [hk, tableOk_of htable, (bufferOk_iff _ _).2 hbuffer])

theorem exec_rcRearm {s : State} {k : BitVec 16} {custom : Bool} (hk : s.hasEngine k.toNat = true)
    (htable : custom = true → s.par.customPresent = true)
    (hwindow : s.arg1.toNat ≤ (s.engine k.toNat).rc.bufEnd.toNat - (s.engine k.toNat).rc.bufBeg.toNat) :
    exec (.rcRearm k custom) s = onEngine k s (rcRearm s.arg1.toNat (chosenTable s.par custom)) := by
  dsimp only [exec, execRcRearm]
  exact checked_of _ _ _ (by simp [hk, tableOk_of htable, hwindow])

/-- Settles O21: the armed decoder has an equation for every field, and rearming writes its own. -/
theorem rcArmAndRearmSetTheWindow : Obligations.RcArmAndRearmSetTheWindow := by
  intro s k custom hk htable e table word
  refine ⟨fun hbuffer => ?_, fun hwindow => ?_⟩
  · obtain ⟨t, hexec, hdone, hengine⟩ :=
      onEngine_unitDone k s (rcArm s.inMem s.arg0 s.arg1 (chosenTable s.par custom))
    refine ⟨t, (exec_rcArm hk htable hbuffer).trans hexec, hdone, ?_, ?_⟩
    · rw [hengine, rcArm, rcArmed_eq]
      rfl
    · rw [hengine]
      exact rcArmed_underrun _ _ _ _
  · obtain ⟨t, hexec, hdone, hengine⟩ :=
      onEngine_unitDone k s (rcRearm s.arg1.toNat (chosenTable s.par custom))
    exact ⟨t, (exec_rcRearm hk htable hwindow).trans hexec, hdone, hengine⟩

/-! ## One decision (R134, R136) -/

section Decisions

variable {im : List Host.Cell}

/-- The decoder after a refill with input left: `Current` takes a byte of the window, or a zero byte when the cursor
stands at its end (R136). -/
def Rc.refilled (im : List Host.Cell) (rc : Rc) : Rc :=
  { rc with
    current := if rc.bufCur < rc.bufEnd then rc.current <<< 8 ||| (inByte im rc.bufCur.toNat).setWidth 32
      else rc.current <<< 8
    bufCur := rc.bufCur + 1
    mask := rc.mask <<< 8 }

theorem rcRefill_of_input {rc : Rc} (h : ¬ rc.bufEnd < rc.bufCur) : rcRefill im rc = (rc.refilled im, true) := by
  unfold rcRefill Rc.refilled
  by_cases hcur : rc.bufCur < rc.bufEnd
  · simp only [hcur, if_true]
  · simp only [hcur, h, if_false]

/-- The decoder that decides: refilled when `Mask < 0x100` (R134). -/
def Rc.ready (im : List Host.Cell) (rc : Rc) : Rc := if rc.mask.toNat < 0x100 then rc.refilled im else rc

@[simp] theorem Rc.ready_zero (rc : Rc) : (rc.ready im).zero = rc.zero := by
  unfold Rc.ready
  split <;> rfl

@[simp] theorem Rc.ready_one (rc : Rc) : (rc.ready im).one = rc.one := by
  unfold Rc.ready
  split <;> rfl

/-- A decoder that is not exhausted makes itself ready and decides (R134, R136). -/
theorem rcBit_of_input {r : StateRef} {e : Engine} (h : ¬ exhausted e.rc) :
    rcBit im r e = rcDecide r { e with rc := e.rc.ready im } := by
  unfold rcBit Rc.ready
  by_cases hlow : e.rc.mask < 0x100#32
  · have hlt : e.rc.mask.toNat < 0x100 := hlow
    rw [if_pos hlow, if_pos hlt, rcRefill_of_input fun hend => h ⟨hlow, hend⟩]
    rfl
  · have hlt : ¬ e.rc.mask.toNat < 0x100 := hlow
    rw [if_neg hlow, if_neg hlt]

/-- The part of the range that the 1 branch takes (R134). -/
def Engine.onePart (r : StateRef) (e : Engine) : Word := (e.rc.mask * (e.state r).setWidth 32) >>> 8

/-- The 0 branch keeps `Current` and the lower part of the range (R134). -/
theorem rcDecide_zero {r : StateRef} {e : Engine} (h : e.rc.current < e.rc.mask - e.onePart r) :
    (rcDecide r e).2 = false ∧ (rcDecide r e).1.rc = { e.rc with mask := e.rc.mask - e.onePart r } ∧
      (rcDecide r e).1.state r = e.rc.zero.at (e.state r) := by
  have hbranch : rcDecide r e = ({ e with rc := { e.rc with mask := e.rc.mask - e.onePart r } }.setState r
      (e.rc.zero.at (e.state r)), false) := if_pos h
  rw [hbranch]
  exact ⟨rfl, rfl, state_setState_self _ _ _⟩

/-- The 1 branch takes the upper part of the range off `Current` (R134). -/
theorem rcDecide_one {r : StateRef} {e : Engine} (h : ¬ e.rc.current < e.rc.mask - e.onePart r) :
    (rcDecide r e).2 = true ∧
      (rcDecide r e).1.rc =
        { e.rc with current := e.rc.current - (e.rc.mask - e.onePart r), mask := e.onePart r } ∧
      (rcDecide r e).1.state r = e.rc.one.at (e.state r) := by
  have hbranch : rcDecide r e = ({ e with rc := { e.rc with
      current := e.rc.current - (e.rc.mask - e.onePart r), mask := e.onePart r } }.setState r
      (e.rc.one.at (e.state r)), true) := if_neg h
  rw [hbranch]
  exact ⟨rfl, rfl, state_setState_self _ _ _⟩

end Decisions

theorem exec_rcBit {s : State} {k : BitVec 16} {r : StateRef} (h : s.refArg k = some r) :
    exec (.rcBit k) s =
      onEngineWith k s fun e => ((rcBit s.inMem r e).1, bitWord (rcBit s.inMem r e).2) := by
  dsimp only [exec, execRcBit]
  rw [h]

/-- Settles O22: the exhausted decoder has an equation of its own; any other makes itself ready and decides. -/
theorem rcBitRefillsThenDecides : Obligations.RcBitRefillsThenDecides := by
  intro s k r hk hword hlegal e rc low shifted byte rc1 mask2 mask
  obtain ⟨t, hexec, hdone, hengine⟩ :=
    onEngineWith_unitDone k s fun e => ((rcBit s.inMem r e).1, bitWord (rcBit s.inMem r e).2)
  dsimp only at hdone hengine
  have hresult : t.result = bitWord (rcBit s.inMem r e).2 := hdone.1.2.2.2
  have hexhausted : exhausted rc ↔ low ∧ rc.bufEnd < rc.bufCur := Iff.rfl
  refine ⟨t, (exec_rcBit (refArg_of_word hk hword hlegal)).trans hexec, hresult ▸ hdone, fun hend => ?_,
    fun hinput => ⟨hengine ▸ rcBit_onlyDecisions s.inMem r e, ?_⟩⟩
  · rw [hresult, hengine, rcBit_exhausted s.inMem r e (hexhausted.2 hend)]
    exact ⟨rfl, rfl⟩
  · rw [hresult, hengine, rcBit_of_input fun hend => hinput (hexhausted.1 hend)]
    refine ⟨fun hzero => ?_, fun hone => ?_⟩
    · obtain ⟨hbit, hrc, hstate⟩ := rcDecide_zero (r := r) (e := { e with rc := rc.ready s.inMem }) hzero
      exact ⟨by rw [hbit]; rfl, hrc, hstate.trans (by rw [Rc.ready_zero]; rfl)⟩
    · obtain ⟨hbit, hrc, hstate⟩ := rcDecide_one (r := r) (e := { e with rc := rc.ready s.inMem }) hone
      exact ⟨by rw [hbit]; rfl, hrc, hstate.trans (by rw [Rc.ready_one]; rfl)⟩

/-! ## Forced underrun (R141) -/

section Exhausted

variable {im : List Host.Cell} {e : Engine} {r : StateRef}

/-- The engine after a decision of an exhausted decoder: `Current` is shifted and nothing else moves (R136). -/
def Engine.shifted (e : Engine) : Engine := { e with rc := { e.rc with current := e.rc.current <<< 8 } }

@[simp] theorem shifted_sm (e : Engine) : e.shifted.sm = e.sm := rfl

theorem shifted_exhausted (h : exhausted e.rc) : exhausted e.shifted.rc := ⟨h.1, h.2⟩

/-- A forced decoder is exhausted, as long as its end has a successor (R141). -/
theorem rcForce_exhausted (h : e.rc.bufEnd.toNat ≤ 2 ^ 32 - 2) : exhausted (rcForce e).rc := by
  have hnext : (e.rc.bufEnd + 1).toNat = e.rc.bufEnd.toNat + 1 := by
    rw [BitVec.toNat_add_of_lt] <;> simp [Config.addrW] ; omega
  have hmask : (0 : Word) < 0x100#32 := by decide
  exact ⟨hmask, BitVec.lt_def.2 ((Nat.lt_succ_self _).trans_eq hnext.symm)⟩

/-- An exhausted decoder reports an underrun (R143). -/
theorem rcUnderrun_of_exhausted {rc : Rc} (h : exhausted rc) : rcUnderrun rc = true := by
  obtain ⟨hmask, hend⟩ := h
  have hlt : rc.bufEnd.toNat < rc.bufCur.toNat := hend
  rw [rcUnderrun, rcPartial, if_pos hmask, decide_eq_true_eq]
  omega

theorem rcBit_of_exhausted (h : exhausted e.rc) : rcBit im r e = (e.shifted, false) := rcBit_exhausted im r e h

/-- The zero flag and the first exponent step answer 0, so the magnitude is 1 with exponent 0 (R138, R141). -/
theorem rcMagnitude_of_exhausted (h : exhausted e.rc) :
    rcMagnitude im r e = (e.shifted.shifted, some (0, 1)) := by
  have hstep : rcExponent im r 32 0 e.shifted = (e.shifted.shifted, some 0) := by
    rw [rcExponent_succ, rcBit_of_exhausted (shifted_exhausted h)]
    rfl
  rw [rcMagnitude_some (rcBit_of_exhausted h) hstep]
  rfl

theorem rcUsym_of_exhausted (h : exhausted e.rc) : rcUsym im r e = (e.shifted.shifted, 1) :=
  rcUsym_some (rcMagnitude_of_exhausted h)

theorem rcSsym_of_exhausted (h : exhausted e.rc) : rcSsym im r e = (e.shifted.shifted.shifted, 1) := by
  rw [rcSsym_some (rcMagnitude_of_exhausted h),
    rcBit_of_exhausted (shifted_exhausted (shifted_exhausted h))]
  rfl

end Exhausted

theorem exec_rcForce {s : State} {k : BitVec 16} (hk : s.hasEngine k.toNat = true) :
    exec (.rcForce k) s = onEngine k s rcForce := by
  dsimp only [exec, execRcForce]
  exact checked_of _ _ _ hk

/-- Settles O24: every decision of an exhausted decoder is one shift of `Current`. -/
theorem rcForceExhaustsTheDecoder : Obligations.RcForceExhaustsTheDecoder := by
  refine ⟨fun s k hk hend => ?_, fun im e r h => ?_⟩
  · obtain ⟨t, hexec, hdone, hengine⟩ := onEngine_unitDone k s rcForce
    refine ⟨t, (exec_rcForce hk).trans hexec, hdone, hengine, ?_⟩
    rw [hengine]
    exact ⟨rcForce_exhausted hend, rcUnderrun_of_exhausted (rcForce_exhausted hend)⟩
  · rw [rcBit_of_exhausted h, rcUsym_of_exhausted h, rcSsym_of_exhausted h]
    have hone := shifted_exhausted h
    have htwo := shifted_exhausted hone
    refine ⟨⟨rfl, ?_, hone⟩, ⟨rfl, ?_, htwo⟩, ⟨rfl, ?_, shifted_exhausted htwo⟩⟩ <;> simp only [shifted_sm]

/-! ## Byte accounting (R142, R143, R164, R175) -/

/-- A command that answers `r` ends with it and changes nothing else. -/
theorem completeWith_readDone (r : Word) (s : State) : ∃ t, completeWith r s = .next t ∧ readDone s t r :=
  ⟨_, rfl, rfl⟩

section Accounting

variable {s : State} {k : BitVec 16} (hk : s.hasEngine k.toNat = true)
include hk

theorem exec_rcUsed :
    exec (.rcUsed k) s = completeWith (BitVec.ofNat 32 (rcUsedBytes (s.engine k.toNat).rc)) s := by
  dsimp only [exec, execRcUsed]
  exact checked_of _ _ _ hk

theorem exec_rcUndr : exec (.rcUndr k) s = completeWith (bitWord (rcUnderrun (s.engine k.toNat).rc)) s := by
  dsimp only [exec, execRcUndr]
  exact checked_of _ _ _ hk

theorem exec_bsUsed :
    exec (.bsUsed k) s = completeWith (BitVec.ofNat 32 (bsUsedBytes (s.engine k.toNat).bs)) s := by
  dsimp only [exec, execBsUsed]
  exact checked_of _ _ _ hk

theorem exec_bsUndr : exec (.bsUndr k) s = completeWith (bitWord (s.engine k.toNat).bs.underflow) s := by
  dsimp only [exec, execBsUndr]
  exact checked_of _ _ _ hk

end Accounting

/-- The partial-byte term as an integer (R142). -/
theorem rcPartial_eq (rc : Rc) : (rcPartial rc : Int) = if rc.mask.toNat < 0x100 then 0 else 1 := by
  unfold rcPartial
  by_cases h : rc.mask < 0x100#32
  · have hlt : rc.mask.toNat < 0x100 := h
    rw [if_pos h, if_pos hlt]
    rfl
  · have hlt : ¬ rc.mask.toNat < 0x100 := h
    rw [if_neg h, if_neg hlt]
    rfl

/-- The count of bytes used, in integers, where no subtraction saturates (R142). -/
theorem rcUsedBytes_eq {rc : Rc} (hwindow : rc.bufBeg.toNat ≤ rc.bufEnd.toNat)
    (hcur : (rc.bufBeg.toNat : Int) + rcPartial rc ≤ rc.bufCur.toNat) :
    (rcUsedBytes rc : Int) = if rc.bufEnd < rc.bufCur then (rc.bufEnd.toNat : Int) - rc.bufBeg.toNat
      else (rc.bufCur.toNat : Int) - rc.bufBeg.toNat - rcPartial rc := by
  unfold rcUsedBytes
  split <;> omega

/-- The underrun predicate as the word that `RC_UNDR` answers (R143). -/
theorem bitWord_rcUnderrun (rc : Rc) : bitWord (rcUnderrun rc) =
    if (rc.bufCur.toNat : Int) - rcPartial rc > rc.bufEnd.toNat then 1 else 0 := by
  simp only [bitWord, rcUnderrun, decide_eq_true_eq, gt_iff_lt]

/-- Settles O25: each command answers its count, which is the one in integers where nothing saturates. -/
theorem accountingCommandsOnlyRead : Obligations.AccountingCommandsOnlyRead := by
  intro s k hk rc bs fetched
  have hfetched : fetched = rcPartial rc := (rcPartial_eq rc).symm
  rw [exec_rcUsed hk, exec_rcUndr hk, exec_bsUsed hk, exec_bsUndr hk, hfetched, ← bitWord_rcUnderrun]
  refine ⟨fun hwindow hcur => ?_, completeWith_readDone _ s, completeWith_readDone _ s, completeWith_readDone _ s⟩
  rw [← rcUsedBytes_eq hwindow hcur, BitVec.ofInt_natCast]
  exact completeWith_readDone _ s

/-! ## `RC_GOPINIT` (R145) -/

/-- The context lies in the parsed sizes of the set (R33). -/
def Par.hasContext (par : Par) (p : BitVec 2) (q : BitVec 3) (ctx : BitVec 14) : Prop :=
  p.toNat ≤ 2 ∧ q.toNat < par.qtSetCount.toNat ∧ ctx.toNat < par.ctxCount q

theorem hasContext_iff {par : Par} {p : BitVec 2} {q : BitVec 3} {ctx : BitVec 14} :
    (par.hasPair p q && decide (ctx.toNat < par.ctxCount q)) = true ↔ par.hasContext p q ctx := by
  simp [Par.hasPair, Par.hasContext, and_assoc]

/-- The keys of the template name set, context and state (R39). -/
theorem initIndex_eq_some {a : Nat} {q : BitVec 3} {ctx : BitVec 14} {i : BitVec 5} :
    initIndex a = some (q, ctx, i) ↔ a = initKey q ctx.toNat i.toNat := by
  have hq := q.isLt; have hctx := ctx.isLt; have hi := i.isLt
  unfold initIndex initKey
  constructor
  · intro h
    split at h
    · rename_i hrange
      simp only [Option.some.injEq, Prod.mk.injEq] at h
      obtain ⟨rfl, rfl, rfl⟩ := h
      simp only [BitVec.toNat_ofNat]
      omega
    · cases h
  · rintro rfl
    rw [if_pos (by omega)]
    simp only [Option.some.injEq, Prod.mk.injEq]
    exact ⟨BitVec.eq_of_toNat_eq (by rw [BitVec.toNat_ofNat]; omega),
      BitVec.eq_of_toNat_eq (by rw [BitVec.toNat_ofNat]; omega),
      BitVec.eq_of_toNat_eq (by rw [BitVec.toNat_ofNat]; omega)⟩

section Copies

variable {par : Par} {p : BitVec 2} {e : Engine} {c : Nat × Byte}

/-- Everything that copying one byte of the template can do. -/
theorem copyInit_cases (par : Par) (p : BitVec 2) (e : Engine) (c : Nat × Byte) :
    copyInit par p e c = e ∨ ∃ q ctx i, par.hasContext p q ctx ∧ c.1 = initKey q ctx.toNat i.toNat ∧
      copyInit par p e c = e.setState (.ps p q ctx i) c.2 := by
  unfold copyInit
  split
  · rename_i q ctx i hindex
    split
    · rename_i hsizes
      exact .inr ⟨q, ctx, i, hasContext_iff.1 hsizes, initIndex_eq_some.1 hindex, rfl⟩
    · exact .inl rfl
  · exact .inl rfl

theorem copyInit_of_key {q : BitVec 3} {ctx : BitVec 14} {i : BitVec 5} (h : par.hasContext p q ctx)
    (hkey : c.1 = initKey q ctx.toNat i.toNat) : copyInit par p e c = e.setState (.ps p q ctx i) c.2 := by
  rw [copyInit, initIndex_eq_some.2 hkey]
  exact if_pos (hasContext_iff.2 h)

theorem copyInit_frame : ∃ m, copyInit par p e c = { e with sm := m } := by
  rcases copyInit_cases par p e c with h | ⟨q, ctx, i, _, _, h⟩
  · exact ⟨e.sm, h⟩
  · exact ⟨_, h⟩

/-- A byte outside the slot or the parsed sizes is not copied over. -/
theorem copyInit_other {r : StateRef} (h : ∀ q ctx i, par.hasContext p q ctx → r ≠ .ps p q ctx i) :
    (copyInit par p e c).state r = e.state r := by
  rcases copyInit_cases par p e c with hc | ⟨q, ctx, i, hsizes, _, hc⟩
  · rw [hc]
  · rw [hc, state_setState_ne _ _ (h q ctx i hsizes)]

/-- A byte that the entry does not name is not copied over. -/
theorem copyInit_other_key {q : BitVec 3} {ctx : BitVec 14} {i : BitVec 5}
    (hkey : c.1 ≠ initKey q ctx.toNat i.toNat) :
    (copyInit par p e c).state (.ps p q ctx i) = e.state (.ps p q ctx i) := by
  rcases copyInit_cases par p e c with hc | ⟨q', ctx', i', _, hkey', hc⟩
  · rw [hc]
  · rw [hc]
    refine state_setState_ne _ _ fun href => hkey ?_
    cases href
    exact hkey'

/-- The template copied into one slot. -/
def copySlot (par : Par) (cs : List (Nat × Byte)) (p : BitVec 2) (e : Engine) : Engine :=
  cs.foldl (copyInit par p) e

variable {cs : List (Nat × Byte)}

theorem copySlot_cons : copySlot par (c :: cs) p e = copySlot par cs p (copyInit par p e c) := rfl

/-- Copying a slot changes nothing but the state memory. -/
theorem copySlot_frame : ∃ m, copySlot par cs p e = { e with sm := m } := by
  induction cs generalizing e with
  | nil => exact ⟨e.sm, rfl⟩
  | cons c cs ih =>
    obtain ⟨m, hm⟩ := copyInit_frame (par := par) (p := p) (e := e) (c := c)
    rw [copySlot_cons, hm]
    exact ih

theorem copySlot_other {r : StateRef} (h : ∀ q ctx i, par.hasContext p q ctx → r ≠ .ps p q ctx i) :
    (copySlot par cs p e).state r = e.state r := by
  induction cs generalizing e with
  | nil => rfl
  | cons c cs ih => exact ih.trans (copyInit_other h)

/-- A byte of another slot is not copied over. -/
theorem copySlot_other_slot {p' : BitVec 2} {q : BitVec 3} {ctx : BitVec 14} {i : BitVec 5} (h : p ≠ p') :
    (copySlot par cs p' e).state (.ps p q ctx i) = e.state (.ps p q ctx i) :=
  copySlot_other fun _ _ _ _ href => h (StateRef.ps.inj href).1

/-- A byte of the slot is the listed one, and where none is listed the one it was. The keys rise, so no later entry
writes it again. -/
theorem copySlot_self {q : BitVec 3} {ctx : BitVec 14} {i : BitVec 5} (h : par.hasContext p q ctx)
    (hcs : Store.sorted cs = true) :
    (copySlot par cs p e).state (.ps p q ctx i) =
      (Store.lookup cs (initKey q ctx.toNat i.toNat)).getD (e.state (.ps p q ctx i)) := by
  rw [Store.sorted_iff_pairwise] at hcs
  induction cs generalizing e with
  | nil => rfl
  | cons c cs ih =>
    obtain ⟨hbelow, hcs⟩ := List.pairwise_cons.1 hcs
    rw [copySlot_cons, ih hcs, Store.lookup_cons]
    by_cases hkey : initKey q ctx.toNat i.toNat = c.1
    · have hnone : Store.lookup cs (initKey q ctx.toNat i.toNat) = none :=
        Option.eq_none_iff_forall_ne_some.2 fun v hv =>
          absurd hkey (hbelow _ (Store.lookup_mem _ _ _ hv)).ne'
      rw [if_pos hkey, hnone, copyInit_of_key h hkey.symm, state_setState_self]
      rfl
    · rw [if_neg hkey, copyInit_other_key (Ne.symm hkey)]

end Copies

/-- The engine before the copies: the banks of the parsed sizes are dropped (R145). -/
def psDropped (par : Par) (e : Engine) : Engine :=
  { e with sm := e.sm.filter (fun c => !inPs par c.1), psReady := true }

theorem rcGopinit_eq (par : Par) (e : Engine) : rcGopinit par e =
    copySlot par par.init 2 (copySlot par par.init 1 (copySlot par par.init 0 (psDropped par e))) := rfl

theorem inPs_key (par : Par) (r : StateRef) : inPs par r.key = true ↔
    ∃ p q ctx i, par.hasContext p q ctx ∧ r = .ps p q ctx i := by
  have hword : StateRef.ofWord (BitVec.ofNat 32 r.key) = some r := by
    rw [StateRef.key, BitVec.ofNat_toNat, BitVec.setWidth_eq, StateRef.ofWord_word]
  rw [inPs, hword]
  cases r
  case ps p q ctx i =>
    dsimp only
    rw [hasContext_iff]
    exact ⟨fun h => ⟨p, q, ctx, i, h, rfl⟩, by rintro ⟨p, q, ctx, i, h, href⟩; cases href; exact h⟩
  all_goals simp

/-- A byte of the parsed sizes reads as an unlisted one, every other as before. -/
theorem psDropped_state (par : Par) (e : Engine) (r : StateRef) :
    (psDropped par e).state r = if inPs par r.key then smDefault r.key else e.state r := by
  simp only [Engine.state, psDropped, Store.get, Store.lookup_filter_key (fun k => !inPs par k)]
  cases inPs par r.key <;> rfl

/-- An unlisted byte of a context bank is 128 (R46, R222). -/
theorem smDefault_ps (p : BitVec 2) (q : BitVec 3) (ctx : BitVec 14) (i : BitVec 5) :
    smDefault (StateRef.ps p q ctx i).key = Config.stateMid :=
  if_neg fun h => StateRef.noConfusion (StateRef.key_injective h)

/-- In the parsed sizes every state byte is a copy of the template (R145). -/
theorem rcGopinit_inside {par : Par} {p : BitVec 2} {q : BitVec 3} {ctx : BitVec 14} (i : BitVec 5) (e : Engine)
    (h : par.hasContext p q ctx) (hinit : Store.sorted par.init = true) :
    (rcGopinit par e).state (.ps p q ctx i) = par.initAt q ctx.toNat i.toNat := by
  have hdropped : (psDropped par e).state (.ps p q ctx i) = Config.stateMid := by
    rw [psDropped_state, if_pos ((inPs_key _ _).2 ⟨p, q, ctx, i, h, rfl⟩), smDefault_ps]
  have hslot : p = 0 ∨ p = 1 ∨ p = 2 := by
    have := h.1
    bv_omega
  rw [rcGopinit_eq]
  rcases hslot with rfl | rfl | rfl
  · rw [copySlot_other_slot (by decide), copySlot_other_slot (by decide), copySlot_self h hinit, hdropped]
    rfl
  · rw [copySlot_other_slot (by decide), copySlot_self h hinit, copySlot_other_slot (by decide), hdropped]
    rfl
  · rw [copySlot_self h hinit, copySlot_other_slot (by decide), copySlot_other_slot (by decide), hdropped]
    rfl

/-- Outside the parsed sizes every state byte stays (R145). -/
theorem rcGopinit_outside {par : Par} {r : StateRef} (e : Engine)
    (h : ∀ p q ctx i, par.hasContext p q ctx → r ≠ .ps p q ctx i) : (rcGopinit par e).state r = e.state r := by
  have hkept : ¬ inPs par r.key = true := fun hin => by
    obtain ⟨p, q, ctx, i, hsizes, hr⟩ := (inPs_key par r).1 hin
    exact h p q ctx i hsizes hr
  rw [rcGopinit_eq, copySlot_other (h 2), copySlot_other (h 1), copySlot_other (h 0), psDropped_state,
    if_neg hkept]

/-- Nothing else of the engine changes (R145). -/
theorem rcGopinit_frame (par : Par) (e : Engine) : ∃ m, rcGopinit par e = { e with sm := m, psReady := true } := by
  rw [rcGopinit_eq]
  obtain ⟨m₀, h₀⟩ := copySlot_frame (par := par) (cs := par.init) (p := 0) (e := psDropped par e)
  rw [h₀]
  obtain ⟨m₁, h₁⟩ := copySlot_frame (par := par) (cs := par.init) (p := 1) (e := { psDropped par e with sm := m₀ })
  rw [h₁]
  exact copySlot_frame

theorem exec_rcGopinit {s : State} {k : BitVec 16} (hk : s.hasEngine k.toNat = true)
    (hvalid : s.par.valid = true) : exec (.rcGopinit k) s = onEngine k s (rcGopinit s.par) := by
  dsimp only [exec, execRcGopinit]
  exact checked_of _ _ _ (by rw [hk, hvalid]; rfl)

/-- Settles O26: the parsed sizes are dropped, then each slot takes the listed bytes, and an unlisted byte is the
same in the template and in the state memory. -/
theorem rcGopinitCopiesTheTemplate : Obligations.RcGopinitCopiesTheTemplate := by
  intro s k hk hvalid hinit e inSizes
  obtain ⟨t, hexec, hdone, hengine⟩ := onEngine_unitDone k s (rcGopinit s.par)
  refine ⟨t, (exec_rcGopinit hk hvalid).trans hexec, hdone, ?_⟩
  rw [hengine]
  refine ⟨fun p q ctx i h => rcGopinit_inside i e h hinit, fun r h => rcGopinit_outside e h, ?_⟩
  obtain ⟨m, hm⟩ := rcGopinit_frame s.par e
  rw [hm]

/-! ## The residual operation and `ST_FILL` (R144, R146) -/

theorem exec_rcDelta {s : State} {k : BitVec 16} (h : s.deltaArgsOk k = true) :
    exec (.rcDelta k) s =
      onEngineWith k s (rcDelta s.inMem (argP s.arg0) (argQ s.arg0) s.arg1.toNat) := by
  dsimp only [exec, execRcDelta]
  exact checked_of _ _ _ h

/-- Settles O27: the operands name the bank, and the symbol over it has its own frame. -/
theorem rcDeltaIsASignedSymbol : Obligations.RcDeltaIsASignedSymbol := by
  intro s k p q ctx hk hready hp hq hctx hslot hset hcount e
  have hargP : argP s.arg0 = p := hp
  have hargQ : argQ s.arg0 = q := hq
  have hargs : s.deltaArgsOk k = true := by
    simp [State.deltaArgsOk, Par.hasPair, hk, hready, hargP, hargQ, hctx, hslot, hset, hcount]
  have hbank : BitVec.ofNat 14 s.arg1.toNat = ctx := by rw [hctx, BitVec.ofNat_toNat, BitVec.setWidth_eq]
  obtain ⟨t, hexec, hdone, hengine⟩ :=
    onEngineWith_unitDone k s (rcDelta s.inMem (argP s.arg0) (argQ s.arg0) s.arg1.toNat)
  simp only [rcDelta, hbank, hargP, hargQ] at hdone hengine
  exact ⟨t, (exec_rcDelta hargs).trans hexec, hdone, hengine, hengine ▸ rcSsym_onlyDecisions s.inMem _ e⟩

theorem exec_stFill {s : State} {k : BitVec 16} {v : BitVec 8} {bank : StateRef} (h : s.fillArg k = some bank) :
    exec (.stFill k v) s = onEngine k s (stFill bank v) := by
  dsimp only [exec, execStFill]
  rw [h]

/-- A legal bank, a single byte included, is the operand of `ST_FILL` (R98, R144). -/
theorem fillArg_of_word {s : State} {k : BitVec 16} {bank : StateRef} (hk : s.hasEngine k.toNat = true)
    (hword : s.arg0 = bank.word) (hbank : bank.isBank = true)
    (hlegal : bank.legal s.par (s.engine k.toNat) = true) : s.fillArg k = some bank := by
  rw [State.fillArg, refArg_of_word hk hword hlegal, Option.filter_some, if_pos hbank]

/-- Settles O28 by the three rules of `stFill`: inside the bank, outside it, and its frame. -/
theorem stFillSetsTheBank : Obligations.StFillSetsTheBank := by
  intro s k v bank hk hword hbank hlegal e
  obtain ⟨t, hexec, hdone, hengine⟩ := onEngine_unitDone k s (stFill bank v)
  refine ⟨t, (exec_stFill (fillArg_of_word hk hword hbank hlegal)).trans hexec, hdone, ?_⟩
  rw [hengine]
  exact ⟨fun i => stFill_inside bank v e i hbank,
    fun r hr => stFill_other bank v e r (fun i hi => hr ⟨i, hi⟩) hbank, stFill_frame bank v e⟩

end Sys2Proof.Machine

/-! # `SMP_DEC` (R203, R204) -/

namespace Sys2Proof.Machine

/-- A coded plane in the range of R18 is the one that the argument names. -/
theorem argPlane_of_val {w : Word} {c : Fin 4} (h : w = BitVec.ofNat 32 c.val) : argPlane w = some c := by
  have hw : w.toNat = c.val := by
    rw [h, BitVec.toNat_ofNat]
    omega
  have hlt : w.toNat < 4 := hw ▸ c.isLt
  rw [argPlane, dif_pos hlt]
  exact congrArg some (Fin.ext hw)

/-- An open plane and a column of it are the operand of the sample operations (R192, R203). -/
theorem sampleArg_of_column {s : State} {k : BitVec 16} {c : Fin 4} (hk : s.hasEngine k.toNat = true)
    (hplane : s.arg0 = BitVec.ofNat 32 c.val) (hopen : ((s.engine k.toNat).line c).isOpen = true)
    (hcolumn : s.arg1.toNat < (region s.par (s.engine k.toNat).sl c).w) : s.sampleArg k = some c := by
  rw [State.sampleArg, argPlane_of_val hplane]
  simp [hk, hopen, hcolumn]

/-- The engine after `SMP_DEC`, and the sample it decoded (R203). -/
theorem exec_smpDec {s : State} {k : BitVec 16} {c : Fin 4} (h : s.sampleArg k = some c) :
    let e := s.engine k.toNat
    let r := sampleStep s.sliceIn c s.arg1.toNat e
    exec (.smpDec k) s = completeWith r.2 (s.setSliceSt k.toNat ⟨r.1, Store.insert s.plane
      (sampleKey c ((region s.par e.sl c).ox + s.arg1.toNat) ((region s.par e.sl c).oy + e.posY)) r.2⟩) := by
  dsimp only [exec, execSmpDec]
  rw [h]
  dsimp only
  rw [smpDec_step]
  rfl

/-- Ending a command with the working state of a slice changes nothing but its engine and the samples of the
working state. -/
theorem setSliceSt_onlyEngineAndSamples {s : State} {k : Nat} {st : SliceSt} {mayWrite : Fin 4 → Nat → Nat → Prop}
    (r : Option Word)
    (h : ∀ p x y, ¬ mayWrite p x y → Store.lookup st.plane (sampleKey p x y) = s.sample p x y) :
    onlyEngineAndSamples k mayWrite s ((s.setSliceSt k st).finish r) := by
  refine ⟨fun _ => rfl, h, fun j hj => ⟨?_, engine_setSliceSt_ne s st hj⟩, ?_, rfl⟩
  · exact hasEngine_setEngine_ne s st.eng hj
  · exact hasEngine_setEngine_self s k st.eng

/-- A coded plane has one of the three slots (R205). -/
theorem slot_le (c : Fin 4) : (slot c).toNat ≤ 2 := by revert c; decide

/-- A context of the arrays is the one handed to the coder (R194). -/
theorem contextSlot_of_slot {par : Par} {p : BitVec 2} {q : BitVec 3} {n : Nat} (hp : p.toNat ≤ 2)
    (hq : q.toNat < par.qtSetCount.toNat) (hn : n < par.ctxCount q) : contextSlot par p q n = n := by
  simp [contextSlot, Par.hasPair, hp, hq, hn]

/-- With the range coder a residual is a signed symbol over the bank of its context (R146, R203). -/
theorem delta_of_rangeCoder {i : SliceIn} {p : BitVec 2} {q : BitVec 3} {n : Nat} (e : Engine)
    (hcoder : i.par.coderType = true) (hp : p.toNat ≤ 2) (hq : q.toNat < i.par.qtSetCount.toNat)
    (hn : n < i.par.ctxCount q) : delta i p q n e = rcSsym i.im (.ps p q (BitVec.ofNat 14 n) 0) e := by
  rw [delta, if_pos hcoder, contextSlot_of_slot hp hq hn, rcDelta]

/-- With Golomb-Rice a residual is `GR_DELTA` over the selected pair (R171, R203). -/
theorem delta_of_golombRice {i : SliceIn} (p : BitVec 2) (q : BitVec 3) {n : Nat} {e : Engine}
    (hcoder : i.par.coderType = false) (hp : e.gr.selP.toNat ≤ 2)
    (hq : e.gr.selQ.toNat < i.par.qtSetCount.toNat) (hn : n < i.par.ctxCount e.gr.selQ) :
    delta i p q n e = grDelta i.im i.par.bitsMax.toNat n e := by
  rw [delta, hcoder, if_neg Bool.false_ne_true, contextSlot_of_slot hp hq hn]

theorem setCur_isOpen (b : LineBuf) (j : Int) (v : Word) : (b.setCur j v).isOpen = b.isOpen := by
  unfold LineBuf.setCur
  split <;> rfl

theorem setCur_sel (b : LineBuf) (j : Int) (v : Word) : (b.setCur j v).sel = b.sel := by
  unfold LineBuf.setCur
  split <;> rfl

/-- The line buffers of the engine after one sample. -/
theorem sampleStep_line (i : SliceIn) (c : Fin 4) (x : Nat) (e : Engine) :
    (sampleStep i c x e).1.line c = (e.line c).setCur x (sampleStep i c x e).2 :=
  line_setLine_self _ c _

/-- What one sample keeps of the engine besides the coders: the other planes' buffers, the row and the slice
registers (R203). -/
theorem sampleStep_frame (i : SliceIn) (c : Fin 4) (x : Nat) (e : Engine) :
    let f := (sampleStep i c x e).1
    f.lines = (e.setLine c (f.line c)).lines ∧ f.posX = x + 1 ∧ f.posY = e.posY ∧ f.sl = e.sl := by
  have hdelta := delta_frame i (slot c) (e.sl.qtiAt (slot c))
    (ctxIdx i.par (e.line c) x (e.sl.qtiAt (slot c))).natAbs e
  intro f
  have hline : f.line c = (e.line c).setCur x (sampleStep i c x e).2 := sampleStep_line i c x e
  rw [hline]
  dsimp only [f, sampleStep]
  rw [hdelta]
  exact ⟨rfl, rfl, rfl, rfl⟩

/-- Settles O37: the command is one `sampleStep`, whose coder and frame have lemmas of their own. -/
theorem smpDecReconstructsOneSample : Obligations.SmpDecReconstructsOneSample := by
  intro s k c hk hplane hopen hcolumn e x px py p q ctx r d v n
  refine ⟨fun hcoder hq hn _ => delta_of_rangeCoder e hcoder (slot_le c) hq hn,
    fun hcoder hp hq hn => delta_of_golombRice p q hcoder hp hq hn,
    _, exec_smpDec (sampleArg_of_column hk hplane hopen hcolumn), ⟨rfl, rfl, rfl, rfl⟩, ?_, ?_, ?_⟩
  · exact setSliceSt_onlyEngineAndSamples _ fun _ _ _ h => (lookup_insert_sample ..).trans (if_neg h)
  · exact Store.lookup_insert_self _ _ _
  · rw [engine_finish, engine_setSliceSt_self]
    have hline : (sampleStep s.sliceIn c x e).1.line c = (e.line c).setCur x v := sampleStep_line ..
    obtain ⟨hlines, hposX, hposY, hsl⟩ := sampleStep_frame s.sliceIn c x e
    have hengine : (sampleStep s.sliceIn c x e).1 = { r.1.setLine c ((r.1.line c).setCur x v) with posX := x + 1 } := by
      dsimp only [r]
      rw [delta_line]
      rfl
    refine ⟨hengine, hlines, ?_, ?_, fun j hj => ?_, fun j _ => ?_, hposX, hposY, hsl⟩
    · exact (congrArg LineBuf.isOpen hline).trans (setCur_isOpen _ _ _)
    · exact (congrArg LineBuf.sel hline).trans (setCur_sel _ _ _)
    · exact (congrArg (LineBuf.cur · j) hline).trans (cur_setCur _ v (by omega) hj)
    · exact (congrArg (LineBuf.top · j) hline).trans (top_setCur _ _ _ _)

end Sys2Proof.Machine

/-! # The bitstream reader and the Golomb-Rice initialisations (R160 to R163, R167 to R169) -/

namespace Sys2Proof.Machine

/-- A unit operation that ended with `r` has left it in `RESULT`. -/
theorem unitDone_result {k : Nat} {s t : State} {r : Word} (h : unitDone k s t r) : t.result = r := by
  obtain ⟨⟨_, _, _, hresult⟩, _⟩ := h
  exact hresult

/-! ## What the commands run when their operands are legal (R93) -/

section Operands

variable {s : State} {k : BitVec 16} (hk : s.hasEngine k.toNat = true)
include hk

theorem exec_bsArm (hbuffer : s.arg0.toNat + s.arg1.toNat ≤ 2 ^ 32 - 2) :
    exec (.bsArm k) s = onEngine k s (bsArm (s.arg0.setWidth _) (s.arg1.setWidth _)) := by
  dsimp only [exec, execBsArm]
  exact checked_of _ _ _ (by rw [hk, (bufferOk_iff _ _).2 hbuffer]; rfl)

theorem exec_bsBit :
    exec (.bsBit k) s = onEngineWith k s fun e => ((bsBit s.inMem e).1, bitWord (bsBit s.inMem e).2) := by
  dsimp only [exec, execBsBit]
  exact checked_of _ _ _ hk

theorem exec_bsBits {n : BitVec 6} (hn : n.toNat ≤ 32) :
    exec (.bsBits k n) s = onEngineWith k s (bsBits s.inMem n.toNat) := by
  have hlegal : n ≤ 32 := BitVec.le_def.2 hn
  dsimp only [exec, execBsBits]
  exact checked_of _ _ _ (by rw [hk, decide_eq_true hlegal]; rfl)

theorem exec_grGopinit (hvalid : s.par.valid = true) :
    exec (.grGopinit k) s = onEngine k s (grGopinit s.par) := by
  dsimp only [exec, execGrGopinit]
  exact checked_of _ _ _ (by rw [hk, hvalid]; rfl)

theorem exec_grPlaneinit : exec (.grPlaneinit k) s = onEngine k s grPlaneinit := by
  dsimp only [exec, execGrPlaneinit]
  exact checked_of _ _ _ hk

theorem exec_grLineinit (hp : (argP s.arg0).toNat ≤ 2) (hq : (argQ s.arg0).toNat < s.par.qtSetCount.toNat)
    (hlow : 1 ≤ s.arg1.toNat) (hhigh : s.arg1.toNat ≤ 2 ^ 24 - 1) :
    exec (.grLineinit k) s = onEngine k s (grLineinit (argP s.arg0) (argQ s.arg0) s.arg1.toNat) := by
  have hwidth : 1 ≤ s.arg1.toNat ∧ s.arg1.toNat ≤ Config.maxWidth := ⟨hlow, hhigh⟩
  dsimp only [exec, execGrLineinit]
  exact checked_of _ _ _ (by simp [hk, Par.hasPair, hp, hq, hwidth])

end Operands

/-! ## `BS_ARM` and `BS_BIT` (R160 to R162) -/

/-- The armed window, from the address registers (R160). -/
theorem bsArm_setWidth (b n : Word) (e : Engine) :
    bsArm (b.setWidth _) (n.setWidth _) e =
      { e with bs := ⟨BitVec.ofNat _ b.toNat, BitVec.ofNat _ (b.toNat + n.toNat), 0, false⟩ } := by
  rw [addr_ofNat_toNat, addr_ofNat_add]
  rfl

/-- The reader after `n` bits (R161). -/
def Engine.bsMoved (n : Nat) (e : Engine) : Engine :=
  { e with bs := { e.bs with pos := e.bs.pos + BitVec.ofNat _ n } }

section Reads

variable {im : List Host.Cell} {e : Engine}

theorem bsBit_of_exhausted (h : bsBitsTotal e.bs ≤ e.bs.pos.toNat) : bsBit im e = (bsExhaust e, false) := if_pos h

theorem bsBit_of_left (h : e.bs.pos.toNat < bsBitsTotal e.bs) :
    bsBit im e = (e.bsMoved 1, bsBitAt im e.bs e.bs.pos.toNat) := if_neg (Nat.not_le.2 h)

end Reads

/-- Settles O29: arming has one equation, and a bit read one on each side of the window's end. -/
theorem bsArmAndBitFollowTheWindow : Obligations.BsArmAndBitFollowTheWindow := by
  intro s k hk e total byte
  refine ⟨fun hbuffer => ?_, ?_⟩
  · obtain ⟨t, hexec, hdone, hengine⟩ := onEngine_unitDone k s (bsArm (s.arg0.setWidth _) (s.arg1.setWidth _))
    exact ⟨t, (exec_bsArm hk hbuffer).trans hexec, hdone, hengine.trans (bsArm_setWidth _ _ _)⟩
  · obtain ⟨t, hexec, hdone, hengine⟩ :=
      onEngineWith_unitDone k s fun e => ((bsBit s.inMem e).1, bitWord (bsBit s.inMem e).2)
    refine ⟨t, (exec_bsBit hk).trans hexec, fun hend => ?_, fun hleft => ?_⟩
    · rw [bsBit_of_exhausted hend] at hdone hengine
      exact ⟨hdone, hengine⟩
    · rw [bsBit_of_left hleft] at hdone hengine
      exact ⟨hdone, hengine⟩

/-! ## `BS_BITS` (R163) -/

/-- A bit appended to a word becomes its bit 0, and the others move up. -/
theorem getLsbD_append (v : Word) (b : Bool) {i : Nat} (hi : i < 32) :
    (2 * v + bitWord b).getLsbD i = if i = 0 then b else v.getLsbD (i - 1) := by
  have happend : 2 * v + bitWord b = v.shiftConcat b := by
    apply BitVec.eq_of_toNat_eq
    rw [BitVec.toNat_shiftConcat]
    cases b <;> simp [bitWord, BitVec.toNat_add, BitVec.toNat_mul, Nat.shiftLeft_eq] <;> omega
  rw [happend, BitVec.getLsbD_shiftConcat, decide_eq_true hi, Bool.true_and]

section Takes

variable {im : List Host.Cell}

theorem bsTake_succ_of_left {n : Nat} {v : Word} {e : Engine} (h : e.bs.pos.toNat < bsBitsTotal e.bs) :
    bsTake im (n + 1) v e =
      bsTake im n (2 * v + bitWord (bsBitAt im e.bs e.bs.pos.toNat)) (e.bsMoved 1) := by
  rw [bsTake, bsBit_of_left h]

theorem bsMoved_bsMoved (m n : Nat) (e : Engine) : (e.bsMoved m).bsMoved n = e.bsMoved (m + n) := by
  unfold Engine.bsMoved
  rw [BitVec.add_assoc, ← BitVec.ofNat_add]

/-- A cursor inside the window moves one on without wrapping. -/
theorem bsMoved_one_pos {e : Engine} (htotal : bsBitsTotal e.bs < 2 ^ 35) (h : e.bs.pos.toNat < bsBitsTotal e.bs) :
    (e.bsMoved 1).bs.pos.toNat = e.bs.pos.toNat + 1 := by
  show (e.bs.pos + BitVec.ofNat _ 1).toNat = _
  rw [BitVec.toNat_add, bitPos_toNat_ofNat]
  exact Nat.mod_eq_of_lt (Nat.lt_of_le_of_lt h htotal)

/-- What a read of `n` bits does where as many remain: the cursor moves by `n`, the bits read are the low `n` bits of
the result, the first most significant, and what was read before stands above them (R163). -/
theorem bsTake_of_left {n : Nat} {v : Word} {e : Engine} (htotal : bsBitsTotal e.bs < 2 ^ 35)
    (h : n ≤ bsRemaining e.bs) :
    (bsTake im n v e).1 = e.bsMoved n ∧
      ∀ i, i < 32 → (bsTake im n v e).2.getLsbD i =
        if i < n then bsBitAt im e.bs (e.bs.pos.toNat + (n - 1 - i)) else v.getLsbD (i - n) := by
  induction n generalizing v e with
  | zero => exact ⟨by simp [bsTake, Engine.bsMoved], fun _ _ => rfl⟩
  | succ n ih =>
    have hleft : e.bs.pos.toNat < bsBitsTotal e.bs := by
      unfold bsRemaining at h
      omega
    have hpos := bsMoved_one_pos htotal hleft
    have hrest : n ≤ bsRemaining (e.bsMoved 1).bs := by
      unfold bsRemaining at h ⊢
      rw [hpos]
      show n ≤ bsBitsTotal e.bs - _
      omega
    obtain ⟨hengine, hbits⟩ := ih (v := 2 * v + bitWord (bsBitAt im e.bs e.bs.pos.toNat))
      (e := e.bsMoved 1) htotal hrest
    rw [bsTake_succ_of_left hleft]
    refine ⟨by rw [hengine, bsMoved_bsMoved, Nat.add_comm], fun i hi => ?_⟩
    rw [hbits i hi, hpos, getLsbD_append v _ (by omega)]
    obtain hlt | rfl | hgt := Nat.lt_trichotomy i n
    · rw [if_pos hlt, if_pos (by omega)]
      exact congrArg (bsBitAt im e.bs) (by omega)
    · rw [if_neg (Nat.lt_irrefl i), if_pos (Nat.sub_self i), if_pos (Nat.lt_succ_self i)]
      exact congrArg (bsBitAt im e.bs) (by omega)
    · rw [if_neg (by omega), if_neg (by omega), if_neg (by omega), Nat.sub_sub]

variable {n : Nat} {e : Engine}

theorem bsBits_of_short (h : bsRemaining e.bs < n) : bsBits im n e = (bsExhaust e, 0) := if_pos h

theorem bsBits_of_left (h : n ≤ bsRemaining e.bs) : bsBits im n e = bsTake im n 0 e := if_neg (Nat.not_lt.2 h)

/-- The result of a read of `n` bits has no more than `n` bits (R163). -/
theorem bsTake_zero_lt (htotal : bsBitsTotal e.bs < 2 ^ 35) (h : n ≤ bsRemaining e.bs) :
    (bsTake im n 0 e).2.toNat < 2 ^ n := by
  refine Nat.lt_pow_two_of_testBit _ fun i hi => ?_
  show (bsTake im n 0 e).2.getLsbD i = false
  by_cases hword : i < 32
  · rw [(bsTake_of_left htotal h).2 i hword, if_neg (Nat.not_lt.2 hi)]
    exact BitVec.getLsbD_zero
  · exact BitVec.getLsbD_of_ge _ _ (Nat.not_lt.1 hword)

end Takes

/-- Settles O30: the bits are those that `bsTake` appends one by one, and a read that is not satisfied exhausts the
window. -/
theorem bsBitsIsMsbFirst : Obligations.BsBitsIsMsbFirst := by
  intro s k n hk hn e total htotal
  obtain ⟨t, hexec, hdone, hengine⟩ := onEngineWith_unitDone k s (bsBits s.inMem n.toNat)
  have hresult : t.result = (bsBits s.inMem n.toNat e).2 := unitDone_result hdone
  refine ⟨t, (exec_bsBits hk hn).trans hexec, hresult ▸ hdone, fun hleft => ?_, fun hshort => ?_⟩
  · rw [bsBits_of_left hleft] at hresult hengine
    obtain ⟨hmoved, hbits⟩ := bsTake_of_left (im := s.inMem) (v := 0) htotal hleft
    rw [hresult]
    refine ⟨bsTake_zero_lt htotal hleft, fun j hj => ?_, hengine.trans hmoved⟩
    rw [hbits _ (by omega), if_pos (by omega), Nat.sub_sub_self (by omega)]
    rfl
  · rw [bsBits_of_short hshort] at hresult hengine
    exact ⟨hresult, hengine⟩

/-! ## The initialisations (R167 to R169) -/

/-- Settles O31: each command writes its own run registers. -/
theorem grInitCommandsRestartTheRun : Obligations.GrInitCommandsRestartTheRun := by
  intro s k hk e p q
  refine ⟨?_, fun hp hq hlow hhigh => ?_⟩
  · obtain ⟨t, hexec, hdone, hengine⟩ := onEngine_unitDone k s grPlaneinit
    exact ⟨t, (exec_grPlaneinit hk).trans hexec, hdone, hengine⟩
  · obtain ⟨t, hexec, hdone, hengine⟩ := onEngine_unitDone k s (grLineinit p q s.arg1.toNat)
    exact ⟨t, (exec_grLineinit hk hp hq hlow hhigh).trans hexec, hdone, hengine⟩

/-- The places that `GR_GOPINIT` drops are those of the tuples of the parsed sizes (R42, R167). -/
theorem inGs_gsKey (par : Par) (p : BitVec 2) (q : BitVec 3) {ctx : Nat} (h : ctx < 2 ^ 16) :
    inGs par (gsKey p q ctx) = true ↔ p.toNat ≤ 2 ∧ q.toNat < par.qtSetCount.toNat ∧ ctx < par.ctxCount q := by
  have hq := q.isLt
  have hslot : gsKey p q ctx / 2 ^ 19 = p.toNat := by
    unfold gsKey
    omega
  have hset : BitVec.ofNat 3 (gsKey p q ctx / 2 ^ 16) = q := by
    apply BitVec.eq_of_toNat_eq
    rw [BitVec.toNat_ofNat]
    unfold gsKey
    omega
  have hctx : gsKey p q ctx % 2 ^ 16 = ctx := by
    unfold gsKey
    omega
  simp only [inGs, hslot, hset, hctx, Bool.and_eq_true, decide_eq_true_eq, and_assoc]

/-- A tuple of the parsed sizes reads as an unlisted one, every other as before (R167). -/
theorem grGopinit_tuple (par : Par) (e : Engine) (p : BitVec 2) (q : BitVec 3) (ctx : Nat) :
    (grGopinit par e).tuple p q ctx = if inGs par (gsKey p q ctx) then grInit else e.tuple p q ctx := by
  simp only [Engine.tuple, grGopinit, Store.get, Store.lookup_filter_key (fun a => !inGs par a)]
  cases inGs par (gsKey p q ctx) <;> rfl

/-- Settles O32: dropping the places of the parsed sizes makes their tuples `GR_INIT`, and keeps every other. -/
theorem grGopinitResetsTheTuples : Obligations.GrGopinitResetsTheTuples := by
  intro s k hk hvalid e inSizes
  obtain ⟨t, hexec, hdone, hengine⟩ := onEngine_unitDone k s (grGopinit s.par)
  refine ⟨t, (exec_grGopinit hk hvalid).trans hexec, hdone, ?_⟩
  rw [hengine]
  refine ⟨fun p q ctx ⟨hp, hq, hcount⟩ => ?_, fun p q ctx hctx hout => ?_, rfl⟩
  · have hctx : ctx < 2 ^ 16 := (hcount.trans (ctxCount_lt _ _)).trans (by decide)
    rw [grGopinit_tuple, if_pos ((inGs_gsKey s.par p q hctx).2 ⟨hp, hq, hcount⟩)]
    rfl
  · rw [grGopinit_tuple, if_neg (hout ∘ (inGs_gsKey s.par p q hctx).1)]

end Sys2Proof.Machine

/-! # Context, predictor, lines and planes (R191 to R212) -/

namespace Sys2Proof.Machine

/-! ## What the commands run when their operands are legal (R93) -/

section Operands

variable {s : State} {k : BitVec 16} {c : Fin 4}

theorem exec_ctxIdx {q : BitVec 3} (h : s.sampleArg k = some c) (hq : q.toNat < s.par.qtSetCount.toNat) :
    exec (.ctxIdx k q) s =
      completeWith (BitVec.ofInt 32 (ctxIdx s.par ((s.engine k.toNat).line c) s.arg1.toNat q)) s := by
  dsimp only [exec, execCtxIdx]
  rw [h, Option.filter_some, decide_eq_true hq]
  rfl

theorem exec_predMed (h : s.sampleArg k = some c) :
    exec (.predMed k) s =
      completeWith (BitVec.ofInt 32 (predMed s.par ((s.engine k.toNat).line c) s.arg1.toNat)) s := by
  dsimp only [exec, execPredMed]
  rw [h]

theorem exec_pxWrite {p : BitVec 2} (hk : s.hasEngine k.toNat = true) (hpresent : s.par.present p.toFin = true)
    (hcolumn : s.arg0.toNat < (region s.par (s.engine k.toNat).sl p.toFin).w)
    (hvalue : s.arg1.toNat ≤ s.par.bitsMask.toNat) :
    exec (.pxWrite k p) s = onSlice k s fun i st => pxWrite i p.toFin s.arg0.toNat s.arg1 st := by
  have hmask : s.arg1 ≤ s.par.bitsMask := BitVec.le_def.2 hvalue
  dsimp only [exec, execPxWrite]
  exact checked_of _ _ _ (by rw [hk, hpresent, decide_eq_true hcolumn, decide_eq_true hmask]; rfl)

theorem exec_lineDec (hk : s.hasEngine k.toNat = true) (hplane : s.arg0 = BitVec.ofNat 32 c.val)
    (hopen : ((s.engine k.toNat).line c).isOpen = true)
    (hrow : s.arg1.toNat < (region s.par (s.engine k.toNat).sl c).h) :
    exec (.lineDec k) s = onSlice k s fun i st => lineDec i c s.arg1.toNat st := by
  have harg : s.lineArg k = some c := by
    rw [State.lineArg, argPlane_of_val hplane]
    simp [hk, hopen, hrow]
  dsimp only [exec, execLineDec]
  rw [harg]

theorem exec_planeDec (hk : s.hasEngine k.toNat = true) (hplane : s.arg0 = BitVec.ofNat 32 c.val)
    (hpresent : s.par.present c = true) : exec (.planeDec k) s = onSlice k s fun i st => planeDec i c st := by
  have harg : s.planeArg k = some c := by
    rw [State.planeArg, argPlane_of_val hplane]
    simp [hk, hpresent]
  dsimp only [exec, execPlaneDec]
  rw [harg]

theorem exec_rgbDec (hk : s.hasEngine k.toNat = true) : exec (.rgbDec k) s = onSlice k s rgbDec := by
  dsimp only [exec, execRgbDec]
  exact checked_of _ _ _ hk

end Operands

/-- A command that paints samples of a slice: it ends, changes nothing but its engine and what it paints, and
leaves the picture in the store. -/
theorem onSlice_paints {k : BitVec 16} {s : State} {f : SliceIn → SliceSt → SliceSt}
    {inside : Fin 4 → Nat → Nat → Prop} {V : Picture}
    (h : Paints inside V s.plane (f s.sliceIn (s.sliceSt k.toNat)).plane) :
    ∃ t, onSlice k s f = .next t ∧ t.endedWith s.result ∧ onlyEngineAndSamples k.toNat inside s t ∧
      (∀ p x y, inside p x y → t.sample p x y = some (V p x y)) ∧
      t.engine k.toNat = (f s.sliceIn (s.sliceSt k.toNat)).eng := by
  refine ⟨_, rfl, ⟨rfl, rfl, rfl, rfl⟩, setSliceSt_onlyEngineAndSamples none fun _ _ _ => h.kept,
    fun _ _ _ => h.painted, ?_⟩
  rw [engine_finish, engine_setSliceSt_self]

/-! ## Context and predictor (R192, R196) -/

/-- A term of the context is the table entry at the low byte of the difference (R192). -/
theorem ctxTerm_eq (par : Par) (q : BitVec 3) (j : Nat) (diff : Word) :
    ctxTerm par q j diff = (par.qtAt q j (diff.toNat % 256)).toInt := by
  rw [ctxTerm, BitVec.toNat_setWidth]

theorem predInput_eq (par : Par) (v : Word) : predInput par v =
    if par.isOverflow16 = true ∧ par.colorspaceType = false then (v.setWidth 16).toInt else v.toInt := by
  simp [predInput]

/-- Settles O35: context and predictor, read at the six neighbours. -/
theorem contextAndPredictorReadTheNeighbours : Obligations.ContextAndPredictorReadTheNeighbours := by
  intro s k q c hk hplane hopen hcolumn b x entry input l t tl
  have harg := sampleArg_of_column hk hplane hopen hcolumn
  have hctx : ctxIdx s.par b s.arg1.toNat q = entry 0 (b.cur (x - 1) - b.top (x - 1))
      + entry 1 (b.top (x - 1) - b.top x) + entry 2 (b.top x - b.top (x + 1))
      + entry 3 (b.cur (x - 2) - b.cur (x - 1)) + entry 4 (b.cur x - b.top x) := by
    simp only [ctxIdx, ctxOf, ctxTerm_eq]
    rfl
  have hpred : predMed s.par b s.arg1.toNat = max (min l (l + t - tl)) (min (max l (l + t - tl)) t) := by
    simp only [predMed, median, predInput_eq]
    rfl
  refine ⟨fun hq => ⟨_, exec_ctxIdx harg hq, ?_⟩, _, exec_predMed harg, ?_⟩
  · rw [← hctx]
    rfl
  · rw [← hpred]
    rfl

/-! ## `PX_WRITE` (R204) -/

/-- Settles O36: the picture is the one value. -/
theorem pxWriteStoresOneSample : Obligations.PxWriteStoresOneSample := by
  intro s k c hk hpresent hcolumn hvalue e px py
  obtain ⟨t, hexec, hended, honly, hpainted, hengine⟩ := onSlice_paints (k := k) (s := s)
    (f := fun i st => pxWrite i c.toFin s.arg0.toNat s.arg1 st) (V := fun _ _ _ => s.arg1) (.insert s.plane rfl)
  exact ⟨t, (exec_pxWrite hk hpresent hcolumn hvalue).trans hexec, hended, honly,
    hpainted _ _ _ ⟨rfl, rfl, rfl⟩, hengine⟩

/-! ## The start of a line (R206) -/

theorem setTop_isOpen (b : LineBuf) (j : Int) (v : Word) : (b.setTop j v).isOpen = b.isOpen := by
  unfold LineBuf.setTop
  split <;> rfl

theorem setTop_sel (b : LineBuf) (j : Int) (v : Word) : (b.setTop j v).sel = b.sel := by
  unfold LineBuf.setTop
  split <;> rfl

theorem lineBuf_startLine_isOpen (b : LineBuf) (w : Nat) : (b.startLine w).isOpen = b.isOpen := by
  rw [LineBuf.startLine, setTop_isOpen, setCur_isOpen]

theorem lineBuf_startLine_sel (b : LineBuf) (w : Nat) : (b.startLine w).sel = !b.sel := by
  rw [LineBuf.startLine, setTop_sel, setCur_sel]

/-- The line to decode starts as the line two above, its left edge the first sample above (R206). -/
theorem cur_lineBuf_startLine (b : LineBuf) (w : Nat) {j : Int} (hj : -2 ≤ j) :
    (b.startLine w).cur j = if j = -1 then b.cur 0 else b.top j := by
  rw [LineBuf.startLine, cur_setTop, cur_setCur _ _ (by omega) hj, top_swap, cur_swap]

/-- The line above is the line decoded last, its right edge the last sample of it (R206). -/
theorem top_lineBuf_startLine (b : LineBuf) (w : Nat) {j : Int} (hj : -2 ≤ j) :
    (b.startLine w).top j = if j = w then b.cur ((w : Int) - 1) else b.cur j := by
  rw [LineBuf.startLine, top_setTop _ _ (by omega) hj]
  simp only [top_setCur, top_swap]

theorem startLine_line (i : SliceIn) (c : Fin 4) (y : Nat) (e : Engine) :
    (startLine i c y e).line c = (e.line c).startLine (region i.par e.sl c).w := by
  unfold startLine
  dsimp only
  split
  · exact line_setLine_self e c _
  · exact line_setLine_self e c _

/-- The start of a line changes nothing but the plane's line buffers, the run registers and the position (R206). -/
theorem startLine_frame (i : SliceIn) (c : Fin 4) (y : Nat) (e : Engine) :
    let f := startLine i c y e
    f = { e with lines := f.lines, gr := f.gr, posC := BitVec.ofFin c, posY := y, posX := 0 } ∧
      f.lines = (e.setLine c (f.line c)).lines := by
  dsimp only
  rw [startLine_line]
  unfold startLine
  dsimp only
  split <;> exact ⟨rfl, rfl⟩

/-- With Golomb-Rice the run restarts on the pair of the plane (R169, R206). -/
theorem startLine_gr (i : SliceIn) (c : Fin 4) (y : Nat) (e : Engine) :
    (startLine i c y e).gr = if i.par.coderType then e.gr else
      { runIndex := e.gr.runIndex, runMode := .stop, runLen := 0, x := 0, w := (region i.par e.sl c).w
        selP := slot c, selQ := e.sl.qtiAt (slot c) } := by
  unfold startLine
  dsimp only
  split <;> rfl

/-! ## The position and the open mark along a line (R203, R206) -/

theorem sampleStep_posC (i : SliceIn) (c : Fin 4) (x : Nat) (e : Engine) :
    (sampleStep i c x e).1.posC = e.posC := by
  dsimp only [sampleStep]
  rw [delta_frame]
  rfl

theorem sampleStep_isOpen (i : SliceIn) (c : Fin 4) (x : Nat) (e : Engine) :
    ((sampleStep i c x e).1.line c).isOpen = (e.line c).isOpen := by
  rw [sampleStep_line, setCur_isOpen]

theorem rowEngine_posC (i : SliceIn) (c : Fin 4) (e : Engine) (n : Nat) : (rowEngine i c e n).posC = e.posC := by
  induction n with
  | zero => rfl
  | succ n ih => exact (sampleStep_posC i c n _).trans ih

/-- Behind `n` columns of a line the position is column `n`. -/
theorem rowEngine_posX (i : SliceIn) (c : Fin 4) {e : Engine} (h : e.posX = 0) (n : Nat) :
    (rowEngine i c e n).posX = n := by
  cases n with
  | zero => exact h
  | succ n => rfl

theorem rowEngine_isOpen (i : SliceIn) (c : Fin 4) (e : Engine) (n : Nat) :
    ((rowEngine i c e n).line c).isOpen = (e.line c).isOpen := by
  induction n with
  | zero => rfl
  | succ n ih => exact (sampleStep_isOpen i c n _).trans ih

theorem lineEngine_isOpen (i : SliceIn) (c : Fin 4) (y : Nat) (e : Engine) :
    ((lineEngine i c y e).line c).isOpen = (e.line c).isOpen := by
  rw [lineEngine, rowEngine_isOpen, startLine_line, lineBuf_startLine_isOpen]

theorem planeRows_isOpen (i : SliceIn) (c : Fin 4) (e : Engine) (n : Nat) :
    ((planeRows i c e n).line c).isOpen = (e.line c).isOpen := by
  induction n with
  | zero => rfl
  | succ n ih => exact (lineEngine_isOpen i c n _).trans ih

/-! ## `LINE_DEC` (R206) -/

/-- A sample of a line lies within the mask (R203). -/
theorem lineSample_masked (i : SliceIn) (c : Fin 4) (y x : Nat) (e : Engine) :
    lineSample i c y x e &&& i.par.bitsMask = lineSample i c y x e := sampleStep_masked i c x _

/-- The picture of samples that are given by plane, row and column of the region (R207). -/
def regionPicture (par : Par) (sl : Sl) (v : Fin 4 → Nat → Nat → Word) : Picture := fun p a b =>
  v p (b - (region par sl p).oy) (a - (region par sl p).ox)

theorem regionPicture_at (par : Par) (sl : Sl) (v : Fin 4 → Nat → Nat → Word) (p : Fin 4) (x y : Nat) :
    regionPicture par sl v p ((region par sl p).ox + x) ((region par sl p).oy + y) = v p y x := by
  rw [regionPicture, Nat.add_sub_cancel_left, Nat.add_sub_cancel_left]

/-- Settles O38: the line buffers entry by entry, then the row as the picture that `LINE_DEC` paints. -/
theorem lineDecWritesOneRow : Obligations.LineDecWritesOneRow := by
  intro s k c hk hplane hopen hrow e g row
  let V := regionPicture s.par e.sl fun _ _ x => lineSample s.sliceIn c s.arg1.toNat x e
  have hpaints := lineDec_paints (i := s.sliceIn) (c := c) (y := s.arg1.toNat) (V := V) (st := s.sliceSt k.toNat)
    fun x _ => regionPicture_at s.par e.sl _ c x s.arg1.toNat
  obtain ⟨t, hexec, hended, honly, hpainted, hafter⟩ := onSlice_paints (k := k) (s := s)
    (f := fun i st => lineDec i c s.arg1.toNat st) hpaints
  have hengine : t.engine k.toNat = lineEngine s.sliceIn c s.arg1.toNat e := hafter.trans (lineDec_eng ..)
  obtain ⟨hframe, hlines⟩ := startLine_frame s.sliceIn c s.arg1.toNat e
  have hline := startLine_line s.sliceIn c s.arg1.toNat e
  have hposC : (lineEngine s.sliceIn c s.arg1.toNat e).posC = BitVec.ofFin c :=
    (rowEngine_posC ..).trans (congrArg Engine.posC hframe)
  have hposY : (lineEngine s.sliceIn c s.arg1.toNat e).posY = s.arg1.toNat :=
    (rowEngine_posY ..).trans (startLine_posY ..)
  have hposX : (lineEngine s.sliceIn c s.arg1.toNat e).posX = g.w :=
    rowEngine_posX _ _ (congrArg Engine.posX hframe) _
  refine ⟨t, (exec_lineDec hk hplane hopen hrow).trans hexec, hended, honly,
    fun p a b hin => ⟨_, hpainted p a b hin, lineSample_masked ..⟩,
    ⟨hframe, hlines, ?_, ?_, fun j hj => ?_, fun j hj => ?_, startLine_gr .., hengine, hengine, fun x hx => ?_⟩,
    ?_, ?_, ?_, ?_⟩
  · rw [hline, lineBuf_startLine_isOpen]
  · rw [hline, lineBuf_startLine_sel]
  · rw [hline, cur_lineBuf_startLine _ _ hj]
  · rw [hline, top_lineBuf_startLine _ _ hj]
    rfl
  · have hin : row c (g.ox + x) (g.oy + s.arg1.toNat) :=
      ⟨rfl, Nat.le_add_right _ _, Nat.add_lt_add_left hx _, rfl⟩
    exact (hpainted _ _ _ hin).trans (congrArg some (regionPicture_at ..))
  · rw [hengine, hposC]
    rfl
  · rw [hengine, hposY]
  · rw [hengine, hposX]
  · rw [hengine, lineEngine_sl]

/-! ## Opening planes (R208, R212) -/

theorem openPlanes_line (which : Fin 4 → Bool) (e : Engine) (d : Fin 4) :
    (openPlanes which e).line d = if which d then (e.line d).opened else { e.line d with isOpen := false } := by
  match d with
  | 0 => rfl
  | 1 => rfl
  | 2 => rfl
  | 3 => rfl

theorem startPlanes_line (i : SliceIn) (which : Fin 4 → Bool) (e : Engine) (d : Fin 4) :
    (startPlanes i which e).line d =
      if which d then (e.line d).opened else { e.line d with isOpen := false } := by
  rw [← openPlanes_line]
  unfold startPlanes
  split <;> rfl

/-- Opening planes changes nothing but the line buffers and, with Golomb-Rice, the run index (R208, R212). -/
theorem startPlanes_frame (i : SliceIn) (which : Fin 4 → Bool) (e : Engine) :
    let f := startPlanes i which e
    f = { e with lines := f.lines, gr := if i.par.coderType then e.gr else { e.gr with runIndex := 0 } } := by
  unfold startPlanes
  cases i.par.coderType <;> rfl

theorem cur_opened (b : LineBuf) (j : Int) : b.opened.cur j = 0 := by
  unfold LineBuf.cur LineBuf.opened
  dsimp only
  split <;> rfl

theorem top_opened (b : LineBuf) (j : Int) : b.opened.top j = 0 := by
  unfold LineBuf.top LineBuf.opened
  dsimp only
  split <;> rfl

/-- A plane that is opened: zeroed buffers that keep their roles (R208). -/
theorem startPlanes_opens (i : SliceIn) {which : Fin 4 → Bool} (e : Engine) {c : Fin 4} (h : which c = true) :
    let b := (startPlanes i which e).line c
    (∀ j, b.cur j = 0 ∧ b.top j = 0) ∧ b.isOpen = true ∧ b.sel = (e.line c).sel := by
  rw [startPlanes_line, if_pos h]
  exact ⟨fun j => ⟨cur_opened _ j, top_opened _ j⟩, rfl, rfl⟩

/-- A plane that is not opened keeps its buffers, and loses its open mark (log 16). -/
theorem startPlanes_closes (i : SliceIn) {which : Fin 4 → Bool} (e : Engine) {d : Fin 4} (h : which d = false) :
    (startPlanes i which e).line d = { e.line d with isOpen := false } := by
  rw [startPlanes_line, h, if_neg Bool.false_ne_true]

/-! ## `PLANE_DEC` and `RGB_DEC` (R208, R212) -/

/-- Settles O39: the opened plane, then its rows as the picture that `PLANE_DEC` paints. -/
theorem planeDecWritesItsRegion : Obligations.PlaneDecWritesItsRegion := by
  intro s k c hk hplane hpresent e g f
  let V := regionPicture s.par e.sl fun _ y x => lineSample s.sliceIn c y x (planeRows s.sliceIn c f y)
  have hpaints := planeDec_paints (i := s.sliceIn) (c := c) (V := V) (st := s.sliceSt k.toNat)
    fun y x _ _ => regionPicture_at s.par e.sl _ c x y
  obtain ⟨t, hexec, hended, honly, hpainted, hafter⟩ := onSlice_paints (k := k) (s := s)
    (f := fun i st => planeDec i c st) hpaints
  have hengine : t.engine k.toNat = planeEngine s.sliceIn c e := hafter.trans (planeDec_eng ..)
  obtain ⟨hzero, hopen, hsel⟩ := startPlanes_opens s.sliceIn (which := (· == c)) e (beq_self_eq_true c)
  refine ⟨startPlanes_frame .., hzero, hopen, hsel, fun d hd => startPlanes_closes _ _ (beq_false_of_ne hd),
    t, (exec_planeDec hk hplane hpresent).trans hexec, hended, honly,
    fun p a b hin => ⟨_, hpainted p a b hin, lineSample_masked ..⟩, hengine, hengine, fun x y hx hy => ?_, ?_, ?_⟩
  · have hin : inRegion s.par e.sl c c (g.ox + x) (g.oy + y) :=
      ⟨rfl, Nat.le_add_right _ _, Nat.add_lt_add_left hx _, Nat.le_add_right _ _, Nat.add_lt_add_left hy _⟩
    exact (hpainted _ _ _ hin).trans (congrArg some (regionPicture_at ..))
  · rw [hengine]
    exact (planeRows_isOpen ..).trans hopen
  · rw [hengine, planeEngine_sl]

/-- `RGB_DEC` paints the rows of the slice in each of its planes (R212). -/
theorem rgbDec_paints {i : SliceIn} {V : Picture} {st : SliceSt}
    (hV : ∀ (p : Fin 4) (y x : Nat), p.val < i.par.planeCount.toNat → y < st.eng.sl.h →
      x < (region i.par st.eng.sl p).w →
      V p ((region i.par st.eng.sl p).ox + x) ((region i.par st.eng.sl p).oy + y) =
        lineSample i p y x (rgbRow i y (rgbRows i (rgbStart i st.eng) y) p.val)) :
    Paints (fun p a b => p.val < i.par.planeCount.toNat ∧ (region i.par st.eng.sl p).ox ≤ a ∧
        a < (region i.par st.eng.sl p).ox + (region i.par st.eng.sl p).w ∧
        (region i.par st.eng.sl p).oy ≤ b ∧ b < (region i.par st.eng.sl p).oy + st.eng.sl.h)
      V st.plane (rgbDec i st).plane := by
  have h := rgbLoop_paints (i := i) (e := rgbStart i st.eng) (V := V) (n := st.eng.sl.h) (y := 0)
    (st := { st with eng := rgbStart i st.eng }) rfl
  have hsl : (rgbStart i st.eng).sl = st.eng.sl := startPlanes_sl i _ st.eng
  rw [hsl] at h
  exact h fun p b x hp _ hb hx => hV p b x hp (by omega) hx

/-- Settles O40: the opened planes, then the interleaved rows as the picture that `RGB_DEC` paints. -/
theorem rgbDecWritesItsPlanes : Obligations.RgbDecWritesItsPlanes := by
  intro s k hk e used area f
  let V := regionPicture s.par e.sl fun p y x =>
    lineSample s.sliceIn p y x (rgbRow s.sliceIn y (rgbRows s.sliceIn f y) p.val)
  have hpaints := rgbDec_paints (i := s.sliceIn) (V := V) (st := s.sliceSt k.toNat)
    fun p y x _ _ _ => regionPicture_at s.par e.sl _ p x y
  obtain ⟨t, hexec, hended, honly, hpainted, hafter⟩ := onSlice_paints (k := k) (s := s) (f := rgbDec) hpaints
  have hengine : t.engine k.toNat = rgbRows s.sliceIn f e.sl.h := hafter.trans (rgbDec_eng ..)
  refine ⟨startPlanes_frame .., fun c hc => ?_, fun d hd => startPlanes_closes _ _ (decide_eq_false hd),
    t, (exec_rgbDec hk).trans hexec, hended, honly,
    fun p a b hin => ⟨_, hpainted p a b hin, lineSample_masked ..⟩, hengine, fun c x y hc hx hy => ?_, ?_⟩
  · obtain ⟨hzero, hopen, hsel⟩ := startPlanes_opens s.sliceIn
      (which := fun c => decide (c.val < s.par.planeCount.toNat)) e (decide_eq_true hc)
    exact ⟨hopen, hsel, hzero⟩
  · have hin : area c ((region s.par e.sl c).ox + x) ((region s.par e.sl c).oy + y) :=
      ⟨hc, Nat.le_add_right _ _, Nat.add_lt_add_left hx _, Nat.le_add_right _ _, Nat.add_lt_add_left hy _⟩
    exact (hpainted _ _ _ hin).trans (congrArg some (regionPicture_at ..))
  · rw [hengine, rgbRows_sl]
    exact startPlanes_sl ..

end Sys2Proof.Machine

/-! # The parser's part of the record: tables, legality (R220 to R246) -/

namespace Sys2Proof.Machine

-- One theorem at a time: each that waits for the kernel holds a thread, and here they are many and short.
set_option Elab.async false

/-! ## Building tables writes tables (R230, R231) -/

theorem stFill_onlyDecisions {bank : StateRef} (hbank : bank.isBank = true) (v : Byte) (e : Engine) :
    onlyDecisions (inBank bank) e (stFill bank v e) := by
  refine ⟨fun r hr => stFill_other bank v e r (fun i hi => hr ⟨i, hi⟩) hbank, ?_⟩
  rw [stFill_frame]

theorem qtabRuns_onlyDecisions (im : List Host.Cell) (scale fuel k v : Nat) (e : Engine) :
    onlyDecisions (inBank (.qb 0)) e (qtabRuns im scale fuel k v e).eng := by
  induction fuel generalizing k v e with
  | zero => exact onlyDecisions_refl _ e
  | succ fuel ih =>
    have hsym := rcUsym_onlyDecisions im (.qb 0) e
    unfold qtabRuns
    split
    · exact onlyDecisions_refl _ e
    · dsimp only
      split
      · exact hsym
      · exact onlyDecisions_trans hsym (ih _ _ _)

/-- What building tables writes: table entries, the bank `QB` and the decoder (R231). -/
structure ParseSt.Tables (st u : ParseSt) : Prop where
  par : u.par = { st.par with qt := u.par.qt }
  eng : onlyDecisions (inBank (.qb 0)) st.eng u.eng

theorem ParseSt.Tables.refl (st : ParseSt) : st.Tables st := ⟨rfl, onlyDecisions_refl _ _⟩

theorem ParseSt.Tables.trans {st u v : ParseSt} (h : st.Tables u) (h' : u.Tables v) : st.Tables v := by
  refine ⟨?_, onlyDecisions_trans h.eng h'.eng⟩
  have hpar := h'.par
  rw [h.par] at hpar
  exact hpar

theorem ParseSt.Tables.sameLegality {st u : ParseSt} (h : st.Tables u) : st.par.SameLegality u.par := by
  rw [h.par]
  exact ⟨⟨rfl, rfl, rfl, rfl, rfl⟩, rfl⟩

theorem ParseSt.Tables.valid {st u : ParseSt} (h : st.Tables u) : u.par.valid = st.par.valid := by
  rw [h.par]

/-- The runs of one table (R231). -/
def tableRuns (im : List Host.Cell) (scale : Nat) (e : Engine) : RunsOut :=
  qtabRuns im scale 128 0 0 (stFill (.qb 0) Config.stateMid e)

theorem tableRuns_onlyDecisions (im : List Host.Cell) (scale : Nat) (e : Engine) :
    onlyDecisions (inBank (.qb 0)) e (tableRuns im scale e).eng :=
  onlyDecisions_trans (stFill_onlyDecisions rfl _ e) (qtabRuns_onlyDecisions im scale 128 0 0 _)

theorem parQtab_full {im : List Host.Cell} {scale : Nat} {st : ParseSt} (q : BitVec 3) (j : Nat)
    (h : (tableRuns im scale st.eng).full = true) :
    parQtab im q j scale st = .ok (2 * (tableRuns im scale st.eng).runs - 1)
      { eng := (tableRuns im scale st.eng).eng
        par := st.par.setQt q j
          ((tableRuns im scale st.eng).entries ++ qtUpper (tableRuns im scale st.eng).entries) } := if_pos h

theorem parQtab_short {im : List Host.Cell} {scale : Nat} {st : ParseSt} (q : BitVec 3) (j : Nat)
    (h : (tableRuns im scale st.eng).full = false) :
    parQtab im q j scale st = .raise .qtRun
      { eng := (tableRuns im scale st.eng).eng
        par := st.par.setQt q j (tableRuns im scale st.eng).entries } :=
  if_neg (Bool.eq_false_iff.1 h)

theorem parQtab_tables (im : List Host.Cell) (q : BitVec 3) (j scale : Nat) (st : ParseSt) :
    st.Tables (parQtab im q j scale st).state := by
  have hruns := tableRuns_onlyDecisions im scale st.eng
  cases h : (tableRuns im scale st.eng).full with
  | true =>
    rw [parQtab_full q j h]
    exact ⟨rfl, hruns⟩
  | false =>
    rw [parQtab_short q j h]
    exact ⟨rfl, hruns⟩

theorem qtsetLoop_tables (im : List Host.Cell) (q : BitVec 3) (js : List Nat) (scale : Nat) (st : ParseSt) :
    st.Tables (qtsetLoop im q js scale st).state := by
  induction js generalizing scale st with
  | nil => exact .refl st
  | cons j js ih =>
    refine Res.state_bind .trans (parQtab_tables im q j scale st) fun factor u => ?_
    split
    · exact .refl u
    · exact ih _ u

/-- A set that does not build has written tables only: its count is stored at the very end (R230). -/
theorem parQtset_raise {im : List Host.Cell} {q : BitVec 3} {st u : ParseSt} {err : ErrorName}
    (h : parQtset im q st = .raise err u) : st.Tables u := by
  have htables := qtsetLoop_tables im q [0, 1, 2, 3, 4] 1 st
  rw [parQtset, Res.bind_raise] at h
  rcases h with hloop | ⟨_, _, -, hstore⟩
  · rwa [hloop] at htables
  · cases hstore

/-! ## A valid record is legal (R246) -/

/-- A record that is valid obeys R246. -/
def Par.LegalIfValid (p : Par) : Prop := p.valid = true → p.ok

theorem Par.okUpTo_of_ok {p : Par} (h : p.ok) : p.OkUpTo 18 := by
  obtain ⟨hsets, hcolumns, hrows, hversion, hdepth, hdecodable, hcontexts⟩ := h
  exact ⟨fun _ => hversion, fun _ => hdepth, fun _ => hcolumns, fun _ => hrows, fun _ => hsets,
    fun _ => hcontexts, fun _ => hdecodable⟩

theorem Par.LegalIfValid.congr {p p' : Par} (h : p.LegalIfValid) (hs : p.SameLegality p')
    (hv : p'.valid = p.valid) : p'.LegalIfValid := fun hvalid =>
  ((Par.okUpTo_of_ok (h (hv ▸ hvalid))).congr hs).ok

theorem Par.legalIfValid_of_not {p : Par} (h : p.valid = false) : p.LegalIfValid := fun hvalid =>
  absurd (h.symm.trans hvalid) Bool.false_ne_true

theorem ParseSt.Tables.legal {st u : ParseSt} (h : st.Tables u) (hs : st.par.LegalIfValid) :
    u.par.LegalIfValid := hs.congr h.sameLegality h.valid

theorem parQtab_legal (im : List Host.Cell) (q : BitVec 3) (j scale : Nat) (st : ParseSt)
    (h : st.par.LegalIfValid) : (parQtab im q j scale st).state.par.LegalIfValid :=
  (parQtab_tables im q j scale st).legal h

/-- `PAR_QTSET` gives its own set a legal count, and the others keep theirs (R230). -/
theorem parQtset_legal (im : List Host.Cell) (q : BitVec 3) (st : ParseSt) (h : st.par.LegalIfValid) :
    (parQtset im q st).state.par.LegalIfValid := by
  have hset := parQtset_fills im q st
  cases hr : parQtset im q st with
  | raise err u => exact (parQtset_raise hr).legal h
  | ok n u =>
    rw [hr] at hset
    obtain ⟨hfills, hshape, hcount, hothers⟩ := hset
    intro hvalid
    obtain ⟨hsets, hcolumns, hrows, hversion, hdepth, hdecodable, hcontexts⟩ := h (hfills.valid ▸ hvalid)
    refine ⟨hshape.sets ▸ hsets, hshape.columns ▸ hcolumns, hshape.rows ▸ hrows, hshape.version ▸ hversion,
      hshape.bits ▸ hdepth, hshape.bits ▸ hdecodable, fun q' hq' => ?_⟩
    by_cases hqq : q' = q
    · exact hqq ▸ hcount
    · have := hcontexts q' (hshape.sets ▸ hq')
      exact (hothers q' hqq).symm ▸ this

theorem parInist_legal (im : List Host.Cell) (q : BitVec 3) (st : ParseSt) (h : st.par.LegalIfValid) :
    (parInist im q st).1.par.LegalIfValid :=
  have ⟨hfills, hsame⟩ := parInist_fills im q st
  h.congr hsame hfills.valid

theorem derived_legal {p : Par} (h : p.LegalIfValid) : p.derived.LegalIfValid :=
  h.congr ⟨⟨rfl, rfl, rfl, rfl, rfl⟩, rfl⟩ rfl

/-- A parse ends with a legal record, or with one that is not valid; what was there before does not matter
(R221, R246). -/
theorem parParse_legal (s : State) (oob : Bool) (st : ParseSt) :
    (parParse (s.parseIn oob) st).state.par.LegalIfValid := by
  have hw : (s.parseIn oob).width < 2 ^ 32 := s.width.isLt
  have hh : (s.parseIn oob).height < 2 ^ 32 := s.height.isLt
  cases hr : parParse (s.parseIn oob) st with
  | ok a u =>
    obtain ⟨v, -, hok, rfl⟩ := parParse_ok hw hh hr
    exact fun _ => hok
  | raise err u => exact Par.legalIfValid_of_not (parParse_raise hw hh hr).valid

/-! ## Every command keeps valid records legal -/

/-- What a command answers meets the invariant if `s` does. -/
def KeepsLegal (s : State) (o : Out) : Prop := ∀ t, o = .next t → paramInv s → paramInv t

theorem keepsLegal_next {s t : State} (h : paramInv s → paramInv t) : KeepsLegal s (.next t) := by
  rintro _ ⟨⟩
  exact h

theorem paramInv_congr {s t : State} (h : t.par = s.par) (hs : paramInv s) : paramInv t := by
  unfold paramInv
  rwa [h]

/-- The record is not touched. -/
theorem keepsLegal_same {s t : State} (h : t.par = s.par) : KeepsLegal s (.next t) :=
  keepsLegal_next (paramInv_congr h)

theorem keepsLegal_checked {legal : Bool} {n : BitVec 16} {s : State} {f : State → Out}
    (h : KeepsLegal s (f s)) : KeepsLegal s (checked legal n s f) := by
  cases legal
  case false => exact checked_not n s f rfl ▸ keepsLegal_same rfl
  case true => exact checked_of n s f rfl ▸ h

theorem keepsLegal_dimensionsChecked {s : State} {f : State → Out} (h : KeepsLegal s (f s)) :
    KeepsLegal s (dimensionsChecked s f) := by
  unfold dimensionsChecked
  split
  · exact keepsLegal_checked h
  · exact keepsLegal_same rfl

theorem keepsLegal_onEngine (k : BitVec 16) (s : State) (f : Engine → Engine) :
    KeepsLegal s (onEngine k s f) := keepsLegal_same rfl

theorem keepsLegal_onEngineWith (k : BitVec 16) (s : State) (f : Engine → Engine × Word) :
    KeepsLegal s (onEngineWith k s f) := keepsLegal_same rfl

theorem keepsLegal_onSlice (k : BitVec 16) (s : State) (f : SliceIn → SliceSt → SliceSt) :
    KeepsLegal s (onSlice k s f) := keepsLegal_same rfl

theorem keepsLegal_endSlice (k : BitVec 16) (s : State) (r : SliceRes) : KeepsLegal s (endSlice k s r) := by
  cases r
  all_goals exact keepsLegal_same rfl

theorem keepsLegal_endParse {k : BitVec 16} {s : State} {r : Res ParseSt Unit}
    (h : s.par.LegalIfValid → r.state.par.LegalIfValid) : KeepsLegal s (endParse k s r) := by
  cases r
  all_goals exact keepsLegal_next h

theorem keepsLegal_endParseNat {k : BitVec 16} {s : State} {r : Res ParseSt Nat}
    (h : s.par.LegalIfValid → r.state.par.LegalIfValid) : KeepsLegal s (endParseNat k s r) := by
  cases r
  all_goals exact keepsLegal_next h

theorem keepsLegal_execParDerive (s : State) : KeepsLegal s (execParDerive s) := by
  unfold execParDerive
  rcases parDerive_cases s.par with ⟨hderive, -⟩ | ⟨hderive, -⟩ <;> rw [hderive]
  · exact keepsLegal_same rfl
  · exact keepsLegal_next derived_legal

/-! ### The frame -/

theorem frParse_legal (oob : Bool) (s : State) : paramInv (frParse oob s).state := by
  rw [frParse_state, paramInv, State.setParseSt_par]
  exact parParse_legal s oob (s.parseSt 0)

theorem procOob_legal (b n : Word) (s : State) : paramInv (procOob b n s).state := by
  have hparse := frParse_legal true (newStream b n s)
  unfold procOob
  cases hr : frParse true (newStream b n s) with
  | ok a u => exact paramInv_congr (t := outCreate u) rfl (by rwa [hr] at hparse)
  | raise err u => rwa [hr] at hparse

/-- The invariant through a sequence of two operations. -/
theorem paramInv_bind {α β : Type} {s : State} {r : Res State α} {f : α → State → Res State β}
    (hr : paramInv s → paramInv r.state) (hf : ∀ a u, paramInv u → paramInv (f a u).state) :
    paramInv s → paramInv (r.bind f).state :=
  Res.state_bind (R := fun s t : State => paramInv s → paramInv t) (fun h h' hs => h' (h hs)) hr hf

theorem frameKey_legal (b n : Word) (s : State) : paramInv s → paramInv (frameKey b n s).state := by
  unfold frameKey
  dsimp only
  split
  · exact paramInv_bind (fun _ => frParse_legal false (frKeybit b n s)) fun _ u => paramInv_congr (s := u) rfl
  · exact paramInv_congr rfl

theorem frameChecks_legal (s : State) : paramInv s → paramInv (frameChecks s).state := by
  unfold frameChecks
  split
  · exact id
  · split
    · exact id
    · split
      · exact id
      · exact paramInv_congr rfl

theorem frLocate_par (b n : Word) (s : State) : (frLocate b n s).state.par = s.par := by rw [frLocate_frame]

/-- Steps 1 to 7 of a frame (R292). -/
theorem frameSetup_legal (b n : Word) (s : State) : paramInv s → paramInv (frameSetup b n s).state :=
  paramInv_bind (frameKey_legal b n s) fun _ u => paramInv_bind (frameChecks_legal u) fun _ v =>
    paramInv_congr (frLocate_par b n v)

theorem awaitTasks_par (s : State) : (awaitTasks s).par = s.par := by rw [awaitTasks_frame]

theorem frDispatch_par (s : State) : (frDispatch s).par = s.par := by
  unfold frDispatch
  dsimp only
  split
  · exact awaitTasks_par (submitTasks s)
  · rfl

theorem frJoin_par (s : State) : (frJoin s).1.par = s.par := by
  unfold frJoin
  dsimp only
  split
  · exact awaitTasks_par s
  · exact awaitTasks_par s

theorem frameSlices_par (s : State) : (frameSlices s).1.par = s.par := by
  rw [frameSlices_eq, frJoin_par, frDispatch_par, frameReady_frame]

theorem poolRun_par (i : Nat) (s : State) : (poolRun i s).par = s.par := by
  unfold poolRun
  split
  · rfl
  · exact runTask_par _ _

theorem keepsLegal_execProcOob (s : State) : KeepsLegal s (execProcOob s) := by
  refine keepsLegal_dimensionsChecked ?_
  have h := procOob_legal s.arg0 s.arg1 s
  generalize procOob s.arg0 s.arg1 s = r at h ⊢
  cases r
  all_goals exact keepsLegal_next fun _ => h

theorem keepsLegal_execProcFrame (s : State) : KeepsLegal s (execProcFrame s) := by
  refine keepsLegal_dimensionsChecked ?_
  have hsetup := frameSetup_legal s.arg0 s.arg1 s
  split <;> rename_i heq <;> rw [heq] at hsetup
  · exact keepsLegal_next hsetup
  · rename_i u
    have hslices : paramInv s → paramInv (frameSlices u).1 := fun hs => paramInv_congr (frameSlices_par u) (hsetup hs)
    generalize frameSlices u = r at hslices ⊢
    dsimp only
    split
    · exact keepsLegal_next hslices
    · exact keepsLegal_next hslices

theorem keepsLegal_execFrLocate (s : State) : KeepsLegal s (execFrLocate s) := by
  refine keepsLegal_checked ?_
  have hpar := frLocate_par s.arg0 s.arg1 s
  split <;> rename_i heq <;> rw [heq] at hpar
  · exact keepsLegal_same hpar
  · exact keepsLegal_same hpar

/-! ### Every command and every step -/

/-- The commands of the parser, `RESET`, `PROC_OOB` and `PROC_FRAME` write the record; the others leave it alone
and are grouped by the way they end. -/
theorem keepsLegal_exec (i : Instr) (s : State) : KeepsLegal s (exec i s) := by
  cases i with
  | reset => exact keepsLegal_next fun _ => Par.legalIfValid_of_not rfl
  | procOob => exact keepsLegal_execProcOob s
  | procFrame => exact keepsLegal_execProcFrame s
  | parParse =>
    dsimp only [exec, execParParse]
    exact keepsLegal_checked (keepsLegal_endParse fun _ => parParse_legal s _ _)
  | parQtset =>
    dsimp only [exec, execParQtset]
    exact keepsLegal_checked (keepsLegal_endParseNat (parQtset_legal _ _ (s.parseSt _)))
  | parQtab =>
    dsimp only [exec, execParQtab]
    exact keepsLegal_checked (keepsLegal_endParseNat (parQtab_legal _ _ _ _ (s.parseSt _)))
  | parInist =>
    dsimp only [exec, execParInist]
    exact keepsLegal_checked (keepsLegal_next (parInist_legal _ _ (s.parseSt _)))
  | parDerive => exact keepsLegal_execParDerive s
  | getErr | frFinal => exact keepsLegal_same rfl
  | frGopinit => exact keepsLegal_same (by rw [State.finish_par, frGopinit_frame])
  | frDispatch => exact keepsLegal_same (frDispatch_par s)
  | frJoin => exact keepsLegal_same (frJoin_par s)
  | frLocate => exact keepsLegal_execFrLocate s
  | outCreate | frKeybit | rcUsed | rcUndr | bsUsed | bsUndr | slCrc =>
    dsimp only [exec, execOutCreate, execFrKeybit, execRcUsed, execRcUndr, execBsUsed, execBsUndr, execSlCrc]
    exact keepsLegal_checked (keepsLegal_same rfl)
  | rcArm | rcRearm | rcForce | rcGopinit | bsArm | grGopinit | grPlaneinit | grLineinit | slOpen =>
    dsimp only [exec, execRcArm, execRcRearm, execRcForce, execRcGopinit, execBsArm, execGrGopinit,
      execGrPlaneinit, execGrLineinit, execSlOpen]
    exact keepsLegal_checked (keepsLegal_onEngine _ s _)
  | rcDelta | bsBit | bsBits | grDelta | grRice =>
    dsimp only [exec, execRcDelta, execBsBit, execBsBits, execGrDelta, execGrRice]
    exact keepsLegal_checked (keepsLegal_onEngineWith _ s _)
  | rcBit | rcUsym | rcSsym =>
    dsimp only [exec, execRcBit, execRcUsym, execRcSsym]
    split
    · exact keepsLegal_same rfl
    · exact keepsLegal_onEngineWith _ s _
  | stFill =>
    dsimp only [exec, execStFill]
    split
    · exact keepsLegal_same rfl
    · exact keepsLegal_onEngine _ s _
  | ctxIdx | predMed | smpDec =>
    dsimp only [exec, execCtxIdx, execPredMed, execSmpDec]
    split
    · exact keepsLegal_same rfl
    · exact keepsLegal_same rfl
  | lineDec | planeDec =>
    dsimp only [exec, execLineDec, execPlaneDec]
    split
    · exact keepsLegal_same rfl
    · exact keepsLegal_onSlice _ s _
  | rgbDec | pxWrite =>
    dsimp only [exec, execRgbDec, execPxWrite]
    exact keepsLegal_checked (keepsLegal_onSlice _ s _)
  | slHeader | slContent | slFooter | slRun =>
    dsimp only [exec, execSlHeader, execSlContent, execSlFooter, execSlRun]
    exact keepsLegal_checked (keepsLegal_endSlice _ s _)

theorem keepsLegal_runPending (s : State) : KeepsLegal s (runPending s) := by
  unfold runPending runCommand
  split
  · split
    · exact keepsLegal_exec _ s
    · exact keepsLegal_same rfl
  · exact keepsLegal_same rfl

/-- A register write reaches the record through `PAR_DATA` alone (R96, R99). -/
theorem hostWrite_par {offset : BitVec 8} (h : offset ≠ 0x2C) (v : Word) (s : State) :
    (hostWrite offset v s).par = s.par := by
  unfold hostWrite
  split
  · rfl
  · split
    case h_7 hoffset => exact absurd (BitVec.eq_of_toNat_eq hoffset) h
    all_goals rfl

theorem keepsLegal_handle {ev : HostEvent} (h : ∀ v, ev ≠ .write 0x2C v) (s : State) :
    KeepsLegal s (handle ev s) := by
  cases ev with
  | write offset v => exact keepsLegal_same (hostWrite_par (fun hoffset => h v (hoffset ▸ rfl)) v s)
  | read offset => exact keepsLegal_same rfl
  | poke a v =>
    dsimp only [handle, hostPoke]
    split
    · rintro t ⟨⟩
    · exact keepsLegal_same rfl
  | wait => exact keepsLegal_runPending s
  | poolRun i => exact keepsLegal_same (poolRun_par i s)
  | hwReset => exact keepsLegal_next fun _ => Par.legalIfValid_of_not rfl

/-- Settles O16: the event at the head of the agenda is no direct load, and every other step keeps the record, or
parses a new one, or writes into it what R246 allows. -/
theorem validRecordsStayLegal : Obligations.ValidRecordsStayLegal := by
  intro s t hs hload h
  unfold step advance at h
  split at h
  · exact keepsLegal_runPending s t h hs
  · rename_i ev rest hagenda
    have hev : ∀ v, ev ≠ .write 0x2C v := by
      rintro v rfl
      exact hload v (by rw [hagenda, List.head?_cons])
    exact keepsLegal_handle hev { s with agenda := rest } t h hs

end Sys2Proof.Machine

/-! # `PAR_DERIVE` (R240) -/

namespace Sys2Proof.Machine

-- One theorem at a time: each that waits for the kernel holds a thread, and here they are many and short.
set_option Elab.async false

theorem exec_parDerive_ok {s : State} (h : s.par.bitsPerRawSample.toNat ≤ 16) :
    exec .parDerive s = complete { s with par := s.par.derived } := by
  dsimp only [exec, execParDerive]
  rcases parDerive_cases s.par with ⟨-, hdeep⟩ | ⟨hderive, -⟩
  · exact absurd h (Nat.not_le.2 hdeep)
  · rw [hderive]

theorem exec_parDerive_raise {s : State} (h : 16 < s.par.bitsPerRawSample.toNat) :
    exec .parDerive s = failWith .bitdepthUnsupported noSlice s := by
  dsimp only [exec, execParDerive]
  rcases parDerive_cases s.par with ⟨hderive, -⟩ | ⟨-, hshallow⟩
  · rw [hderive]
  · exact absurd h (Nat.not_lt.2 hshallow)

theorem derived_tailSize (p : Par) :
    p.derived.tailSize = if p.configPresent = false then 0 else if p.ec then 8 else 3 := by
  dsimp only [Par.derived]
  cases p.configPresent <;> rfl

theorem overflow16Flag_eq (p : Par) : overflow16Flag p =
    decide (p.colorspaceType = false ∧ p.bitsPerRawSample = 16 ∧ p.coderType = true) := by
  rw [Bool.eq_iff_iff]
  simp [overflow16Flag, and_assoc]

/-- Settles O41: each end of `PAR_DERIVE` by its own equation; of the derived fields two are written in another
form. -/
theorem parDeriveComputesTheFields : Obligations.ParDeriveComputesTheFields := by
  intro s p bits alpha
  refine ⟨fun hdepth => ?_, fun hdepth => exec_parDerive_raise hdepth⟩
  rw [exec_parDerive_ok hdepth, ← derived_tailSize p, ← overflow16Flag_eq p]
  rfl

end Sys2Proof.Machine

/-! # `PAR_QTAB` (R231) -/

namespace Sys2Proof.Machine

-- One theorem at a time: each that waits for the kernel holds a thread, and here they are many and short.
set_option Elab.async false

/-! ## The entries of the runs (R231) -/

/-- The entries of runs of the given lengths, the first with number `v`. -/
def runEntries (scale : Nat) : Nat → List Nat → List (BitVec 16)
  | _, [] => []
  | v, l :: ls => List.replicate l (qtEntry (scale * v : Nat)) ++ runEntries scale (v + 1) ls

theorem runEntries_length (scale v : Nat) (ls : List Nat) : (runEntries scale v ls).length = ls.sum := by
  induction ls generalizing v with
  | nil => rfl
  | cons l ls ih => rw [runEntries, List.length_append, List.length_replicate, ih, List.sum_cons]

/-- An entry of run number `i` has the value of that run. -/
theorem runEntries_getElem? (scale v : Nat) (ls : List Nat) {i n : Nat} (hlo : (ls.take i).sum ≤ n)
    (hhi : n < (ls.take (i + 1)).sum) :
    (runEntries scale v ls)[n]? = some (qtEntry (scale * (v + i) : Nat)) := by
  induction ls generalizing v i n with
  | nil => simp at hhi
  | cons l ls ih =>
    rw [List.take_succ_cons, List.sum_cons] at hhi
    rw [runEntries]
    cases i with
    | zero =>
      have hn : n < l := by simpa using hhi
      rw [List.getElem?_append_left (by rwa [List.length_replicate]), List.getElem?_replicate_of_lt hn,
        Nat.add_zero]
    | succ i =>
      rw [List.take_succ_cons, List.sum_cons] at hlo
      rw [List.getElem?_append_right (by rw [List.length_replicate]; omega), List.length_replicate,
        ih (v + 1) (i := i) (by omega) (by omega), Nat.add_right_comm, Nat.add_assoc]

/-- The lengths of the next `m` runs: the symbols plus 1 (R231). -/
def runLengths (im : List Host.Cell) (m : Nat) (e : Engine) : List Nat :=
  (symbolsRead im (.qb 0) m e).2.map (· + 1)

theorem runLengths_length (im : List Host.Cell) (m : Nat) (e : Engine) : (runLengths im m e).length = m := by
  rw [runLengths, List.length_map, symbolsRead_length]

theorem runLengths_succ (im : List Host.Cell) (m : Nat) (e : Engine) : runLengths im (m + 1) e =
    ((rcUsym im (.qb 0) e).2.toNat + 1) :: runLengths im m (rcUsym im (.qb 0) e).1 := rfl

/-- Every run covers an entry. -/
theorem le_sum_runLengths (im : List Host.Cell) (m : Nat) (e : Engine) : m ≤ (runLengths im m e).sum := by
  have hpos : ∀ l ∈ runLengths im m e, 1 ≤ l := by simp [runLengths]
  have h := List.card_nsmul_le_sum _ 1 hpos
  rwa [runLengths_length, smul_eq_mul, Nat.mul_one] at h

/-- The run loop answers that the entries from `k` on are covered: then they are covered by runs of the lengths
read, numbered from `v` on. The rounds left are enough, since each run covers an entry. -/
theorem qtabRuns_full {im : List Host.Cell} {scale fuel k v : Nat} {e : Engine} (hk : k ≤ 128)
    (hfuel : 128 ≤ fuel + k) (h : (qtabRuns im scale fuel k v e).full = true) :
    ∃ m, k + (runLengths im m e).sum = 128 ∧ qtabRuns im scale fuel k v e =
      ⟨(symbolsRead im (.qb 0) m e).1, runEntries scale v (runLengths im m e), v + m, true⟩ := by
  induction fuel generalizing k v e with
  | zero => exact ⟨0, by simp [runLengths, symbolsRead]; omega, rfl⟩
  | succ fuel ih =>
    unfold qtabRuns at h ⊢
    split at h
    · rename_i hend
      exact ⟨0, by simp [runLengths, symbolsRead]; omega, if_pos hend⟩
    · rename_i hmore
      dsimp only at h
      split at h
      · cases h
      · rename_i hfits
        obtain ⟨m, hsum, hrest⟩ := ih (k := k + ((rcUsym im (.qb 0) e).2.toNat + 1)) (by omega) (by omega) h
        refine ⟨m + 1, ?_, ?_⟩
        · rw [runLengths_succ, List.sum_cons, ← hsum, Nat.add_assoc k]
        · rw [if_neg hmore]
          dsimp only
          rw [if_neg hfits, hrest, runLengths_succ, Nat.add_right_comm v 1 m]
          rfl

/-- A covered table: its runs, as they are read from the filled bank (R231). -/
theorem tableRuns_full {im : List Host.Cell} {scale : Nat} {e : Engine} (h : (tableRuns im scale e).full = true) :
    ∃ m, (runLengths im m (stFill (.qb 0) 128 e)).sum = 128 ∧ tableRuns im scale e =
      ⟨(symbolsRead im (.qb 0) m (stFill (.qb 0) 128 e)).1,
        runEntries scale 0 (runLengths im m (stFill (.qb 0) 128 e)), m, true⟩ := by
  obtain ⟨m, hsum, hruns⟩ := qtabRuns_full (Nat.zero_le 128) (Nat.le_refl 128) h
  rw [Nat.zero_add] at hsum hruns
  exact ⟨m, hsum, hruns⟩

/-! ## Entries as numbers -/

theorem qtEntry_toInt {n : Int} (hlo : -32768 ≤ n) (hhi : n ≤ 32767) : (qtEntry n).toInt = n := by
  rw [qtEntry, if_pos ⟨hlo, hhi⟩, BitVec.toInt_ofInt, Int.bmod_def]
  omega

/-- The mirrored entry has the opposite sign, where 16 bits hold it. -/
theorem qtNegated_toInt {v : BitVec 16} (h : v.toInt ≠ -32768) : (qtNegated v).toInt = -v.toInt := by
  have hlo := v.le_toInt
  have hhi := v.toInt_lt
  exact qtEntry_toInt (by omega) (by omega)

/-! ## The table that is written -/

/-- The lower half and its mirror image, entry 127 once more in front (R231). -/
def mirroredTable (lower : List (BitVec 16)) : List (BitVec 16) := lower ++ qtUpper lower

section Mirror

variable {lower : List (BitVec 16)}

theorem qtUpper_length (h : lower.length = 128) : (qtUpper lower).length = 128 := by
  simp [qtUpper, h]

theorem mirroredTable_length (h : lower.length = 128) : (mirroredTable lower).length = 256 := by
  rw [mirroredTable, List.length_append, qtUpper_length h, h]

theorem mirroredTable_lower {n : Nat} (hn : n < lower.length) : (mirroredTable lower)[n]? = lower[n]? :=
  List.getElem?_append_left hn

/-- Entry 128 mirrors entry 127. -/
theorem mirroredTable_middle (h : lower.length = 128) :
    (mirroredTable lower)[128]? = lower[127]?.map qtNegated := by
  rw [mirroredTable, List.getElem?_append_right (by omega), h, qtUpper,
    List.getElem?_append_left (by simp [h]), List.getElem?_map, List.getElem?_drop]

/-- Entry `256 - n` mirrors entry `n`. -/
theorem mirroredTable_upper (h : lower.length = 128) {n : Nat} (hlo : 1 ≤ n) (hhi : n ≤ 127) :
    (mirroredTable lower)[256 - n]? = lower[n]?.map qtNegated := by
  have hone : ((lower.drop 127).map qtNegated).length = 1 := by simp [h]
  have hback : (lower.drop 1).length - 1 - (256 - n - 128 - 1) = n - 1 := by
    rw [List.length_drop, h]
    omega
  rw [mirroredTable, List.getElem?_append_right (by omega), h, qtUpper,
    List.getElem?_append_right (by omega), hone, List.getElem?_map,
    List.getElem?_reverse (by rw [List.length_drop, h]; omega), hback, List.getElem?_drop,
    show 1 + (n - 1) = n by omega]

end Mirror

/-! ## Reading the tables back (R37) -/

theorem qtKey_add (q : BitVec 3) (j n : Nat) : qtKey q j n = qtKey q j 0 + n := by
  rw [qtKey, qtKey, Nat.add_zero]

/-- Entries of the written table read as written. -/
theorem qtAt_setQt_self {p : Par} {q : BitVec 3} {j n : Nat} {vs : List (BitVec 16)} {v : BitVec 16}
    (h : vs[n]? = some v) : (p.setQt q j vs).qtAt q j n = v := by
  obtain ⟨hn, hv⟩ := List.getElem?_eq_some_iff.1 h
  rw [Par.qtAt, qtKey_add, ← hv]
  exact Store.get_putBlock_inside qtDefault p.qt (qtKey q j 0) vs n hn

/-- Entries of every other table read as before. -/
theorem qtAt_setQt_other {p : Par} {q q' : BitVec 3} {j j' n : Nat} {vs : List (BitVec 16)}
    (hvs : vs.length ≤ 256) (hj : j ≤ 4) (hj' : j' ≤ 4) (hn : n < 256) (h : (q', j') ≠ (q, j)) :
    (p.setQt q j vs).qtAt q' j' n = p.qtAt q' j' n := by
  refine Store.get_putBlock_outside qtDefault p.qt (qtKey q j 0) vs _ ?_
  have hne : q'.toNat ≠ q.toNat ∨ j' ≠ j := by
    by_contra hall
    obtain ⟨hq, rfl⟩ := not_or.1 hall |>.imp not_not.1 not_not.1
    exact h (by rw [BitVec.eq_of_toNat_eq hq])
  simp only [qtKey, Config.maxContextInputs]
  omega

/-! ## The commands -/

/-- Engine `k` and the record replaced and the command ended: nothing else differs, samples and `IN` included. -/
theorem finish_onlyEngineAndPar (s : State) (k : Nat) (st : ParseSt) (r : Option Word) :
    onlyEngineAndPar k s ((s.setParseSt k st).finish r) :=
  ⟨fun _ => rfl, fun _ _ _ => rfl,
    fun _ hj => ⟨hasEngine_setEngine_ne s st.eng hj, engine_setEngine_ne s st.eng hj⟩,
    hasEngine_setEngine_self s k st.eng, rfl⟩

/-- A parser command that fails changes no other engine. -/
theorem takeError_otherEngines (s : State) (k : Nat) (st : ParseSt) (err : ErrorName) (n : BitVec 16) :
    sameOtherEngines k s ((s.setParseSt k st).takeError err n) := fun _ hj =>
  ⟨hasEngine_setEngine_ne s st.eng hj, engine_setEngine_ne s st.eng hj⟩

theorem exec_parQtab {s : State} {k : BitVec 16} {q j : BitVec 3} (hk : s.hasEngine k.toNat = true)
    (hj : j.toNat ≤ 4) (hlo : 1 ≤ s.arg0.toNat) (hhi : s.arg0.toNat ≤ 32768) :
    exec (.parQtab k q j) s =
      endParseNat k s (parQtab s.inMem q j.toNat s.arg0.toNat (s.parseSt k.toNat)) := by
  dsimp only [exec, execParQtab]
  refine checked_of _ _ _ ?_
  have hj' : j.toNat < Config.maxContextInputs := Nat.lt_succ_of_le hj
  have hscale : 1 ≤ s.arg0.toNat ∧ s.arg0.toNat ≤ Config.qtScaleMax := ⟨hlo, hhi⟩
  rw [hk, decide_eq_true hj', decide_eq_true hscale]
  rfl

/-- The table whose entries are `entry` is the one of `m` runs read from `e`: R231, with the model's free value
where 16 bits do not hold an entry (log 18). -/
structure BuiltTable (im : List Host.Cell) (scale : Nat) (e : Engine) (m : Nat) (entry : Nat → BitVec 16) :
    Prop where
  covered : (runLengths im m e).sum = 128
  runs : ∀ n i, ((runLengths im m e).take i).sum ≤ n → n < ((runLengths im m e).take (i + 1)).sum →
    entry n = qtEntry (scale * i : Nat)
  middle : entry 128 = qtNegated (entry 127)
  upper : ∀ n, 1 ≤ n → n ≤ 127 → entry (256 - n) = qtNegated (entry n)

section Built

variable {im : List Host.Cell} {scale m : Nat} {e : Engine} {entry : Nat → BitVec 16}

theorem BuiltTable.runs_pos (h : BuiltTable im scale e m entry) : 1 ≤ m := by
  by_contra hm
  have hcovered := h.covered
  rw [Nat.eq_zero_of_not_pos hm] at hcovered
  cases hcovered

theorem BuiltTable.runs_le (h : BuiltTable im scale e m entry) : m ≤ 128 := h.covered ▸ le_sum_runLengths im m e

/-- The first run has the value 0. -/
theorem BuiltTable.zero (h : BuiltTable im scale e m entry) : entry 0 = 0 := by
  obtain ⟨m, rfl⟩ := Nat.exists_eq_add_of_le' h.runs_pos
  have hfirst := h.runs 0 0 (Nat.zero_le _) (by rw [runLengths_succ]; simp)
  rw [hfirst, Nat.mul_zero]
  rfl

end Built

/-- A covered table is written whole, and no other table is touched (R231). -/
theorem parQtab_ok {im : List Host.Cell} {q : BitVec 3} {j scale : Nat} {st : ParseSt} (hj : j ≤ 4)
    (h : (tableRuns im scale st.eng).full = true) :
    ∃ m u, parQtab im q j scale st = .ok (2 * m - 1) u ∧
      u.eng = (symbolsRead im (.qb 0) m (stFill (.qb 0) 128 st.eng)).1 ∧
      BuiltTable im scale (stFill (.qb 0) 128 st.eng) m (u.par.qtAt q j) ∧
      ∀ (q' : BitVec 3) (j' n : Nat), j' ≤ 4 → n < 256 → (q', j') ≠ (q, j) →
        u.par.qtAt q' j' n = st.par.qtAt q' j' n := by
  have hbuild := parQtab_full q j h
  obtain ⟨m, hsum, hruns⟩ := tableRuns_full h
  rw [hruns] at hbuild
  generalize hlower : runEntries scale 0 (runLengths im m (stFill (.qb 0) 128 st.eng)) = lower at hbuild
  have hlength : lower.length = 128 := by rw [← hlower, runEntries_length, hsum]
  have hread : ∀ n (hn : n < 128),
      (st.par.setQt q j (mirroredTable lower)).qtAt q j n = lower[n] := fun n hn =>
    qtAt_setQt_self ((mirroredTable_lower (by omega)).trans (List.getElem?_eq_getElem _))
  refine ⟨m, _, hbuild, rfl, ⟨hsum, fun n i hlo hhi => ?_, ?_, fun n hlo hhi => ?_⟩, fun q' j' n hj' hn hne => ?_⟩
  · have hentry := runEntries_getElem? scale 0 _ hlo hhi
    rw [hlower, Nat.zero_add] at hentry
    obtain ⟨hn, -⟩ := List.getElem?_eq_some_iff.1 hentry
    exact qtAt_setQt_self ((mirroredTable_lower hn).trans hentry)
  · rw [show (ParseSt.par _).qtAt q j 127 = _ from hread 127 (by omega)]
    exact qtAt_setQt_self ((mirroredTable_middle hlength).trans (by
      rw [List.getElem?_eq_getElem (by omega), Option.map_some]))
  · rw [show (ParseSt.par _).qtAt q j n = _ from hread n (by omega)]
    exact qtAt_setQt_self ((mirroredTable_upper hlength hlo hhi).trans (by
      rw [List.getElem?_eq_getElem (by omega), Option.map_some]))
  · exact qtAt_setQt_other (mirroredTable_length hlength).le hj hj' hn hne

/-- Settles O42: a covered table is the built one, and its entries that 16 bits hold are the numbers of R231. -/
theorem parQtabBuildsAMirroredTable : Obligations.ParQtabBuildsAMirroredTable := by
  intro s k q j hk hj hlo hhi e full
  have hexec := exec_parQtab (q := q) hk hj hlo hhi
  have htables := parQtab_tables s.inMem q j.toNat s.arg0.toNat (s.parseSt k.toNat)
  refine ⟨fun hfull => ?_, fun hshort => ?_⟩
  · obtain ⟨m, u, hbuild, heng, htable, hothers⟩ := parQtab_ok (q := q) (st := s.parseSt k.toNat) hj hfull
    rw [hbuild] at hexec htables
    have hresult : (BitVec.ofNat 32 (2 * m - 1)).toNat = 2 * m - 1 := by
      have := htable.runs_le
      rw [BitVec.toNat_ofNat]
      omega
    have hengine : ((s.setParseSt k.toNat u).finish (some (BitVec.ofNat 32 (2 * m - 1)))).engine k.toNat = u.eng :=
      engine_setParseSt_self s k.toNat u
    refine ⟨_, hexec, ⟨rfl, rfl, rfl, rfl⟩, finish_onlyEngineAndPar s k.toNat u _, htables.par, ?_,
      ⟨m, htable.covered, ?_, hresult, fun n i hlo hhi hfits => ?_⟩, ?_, ?_, ?_, htable.zero,
      fun n hlo hhi hne => ?_, fun hne => ?_, hothers⟩
    · rw [hengine]
      exact htables.eng
    · rw [hengine]
      exact heng
    · rw [show State.par _ = u.par from rfl, htable.runs n i hlo hhi]
      exact qtEntry_toInt (by omega) (by omega)
    · rw [hengine, hbuild, State.finish_result, Option.getD_some, hresult]
      rfl
    · have := htable.runs_pos
      rw [State.finish_result, Option.getD_some, hresult]
      omega
    · have := htable.runs_le
      rw [State.finish_result, Option.getD_some, hresult]
      omega
    · exact (congrArg BitVec.toInt (htable.upper n hlo hhi)).trans (qtNegated_toInt hne)
    · exact (congrArg BitVec.toInt htable.middle).trans (qtNegated_toInt hne)
  · have hbuild := parQtab_short (st := s.parseSt k.toNat) q j.toNat hshort
    rw [hbuild] at hexec htables
    refine ⟨_, hexec, ⟨rfl, rfl, rfl, rfl, rfl, rfl⟩, htables.par, ?_⟩
    rw [hbuild, engine_takeError, engine_setParseSt_self]
    rfl

end Sys2Proof.Machine

/-! # `PAR_QTSET` (R230, R233) -/

namespace Sys2Proof.Machine

-- One theorem at a time: each that waits for the kernel holds a thread, and here they are many and short.
set_option Elab.async false

/-! ## The running scale -/

theorem parQtab_raise {im : List Host.Cell} {q : BitVec 3} {j scale : Nat} {st u : ParseSt} {err : ErrorName}
    (h : parQtab im q j scale st = .raise err u) : err = .qtRun := by
  cases hfull : (tableRuns im scale st.eng).full with
  | true =>
    rw [parQtab_full q j hfull] at h
    cases h
  | false =>
    rw [parQtab_short q j hfull] at h
    cases h
    rfl

section Scale

variable {im : List Host.Cell} {q : BitVec 3} {st : ParseSt} {n : Nat} {a : Nat × ParseSt}

/-- One more table: the scale is multiplied by its factor (R230). -/
theorem scaleAfter_succ_some (h : scaleAfter im q st (n + 1) = some a) :
    ∃ b factor, scaleAfter im q st n = some b ∧ parQtab im q n b.1 b.2 = .ok factor a.2 ∧ a.1 = b.1 * factor := by
  obtain ⟨b, hb, hstep⟩ := Option.bind_eq_some_iff.1 h
  cases htable : parQtab im q n b.1 b.2 with
  | ok factor u =>
    simp only [htable, Option.some.injEq] at hstep
    subst hstep
    exact ⟨b, factor, hb, htable, rfl⟩
  | raise err u => simp [htable] at hstep

/-- With no further scale, the next table has raised. -/
theorem scaleAfter_succ_none (ha : scaleAfter im q st n = some a) (h : scaleAfter im q st (n + 1) = none) :
    ∃ u, parQtab im q n a.1 a.2 = .raise .qtRun u := by
  rw [scaleAfter, ha, Option.bind_some] at h
  cases htable : parQtab im q n a.1 a.2 with
  | ok factor u => simp [htable] at h
  | raise err u => exact ⟨u, by rw [parQtab_raise htable]⟩

/-- The tables before the scale have written tables only, and no factor is 0. -/
theorem scaleAfter_tables (h : scaleAfter im q st n = some a) : st.Tables a.2 ∧ 1 ≤ a.1 := by
  induction n generalizing a with
  | zero =>
    cases h
    exact ⟨.refl st, le_rfl⟩
  | succ n ih =>
    obtain ⟨b, factor, hb, htable, hscale⟩ := scaleAfter_succ_some h
    obtain ⟨htables, hpos⟩ := ih hb
    have hwritten := parQtab_tables im q n b.1 b.2
    have hfactor := parQtab_fills im q n b.1 b.2
    rw [htable] at hwritten hfactor
    exact ⟨htables.trans hwritten, hscale ▸ Nat.mul_pos hpos hfactor.2.1⟩

/-- No running product of the first `n` tables passes 32768, and all of them build. -/
def ScaleInBounds (im : List Host.Cell) (q : BitVec 3) (st : ParseSt) (n : Nat) : Prop :=
  ∀ m, m ≤ n → ∃ a, scaleAfter im q st m = some a ∧ a.1 ≤ 32768

theorem ScaleInBounds.le (h : ScaleInBounds im q st n) (ha : scaleAfter im q st n = some a) : a.1 ≤ 32768 := by
  obtain ⟨b, hb, hbound⟩ := h n le_rfl
  rw [ha, Option.some.injEq] at hb
  rwa [hb]

/-- A table that builds within the bound is passed. -/
theorem qtsetLoop_pass {j factor scale : Nat} {js : List Nat} {u : ParseSt}
    (h : parQtab im q j scale st = .ok factor u) (hbound : scale * factor ≤ 32768) :
    qtsetLoop im q (j :: js) scale st = qtsetLoop im q js (scale * factor) u := by
  rw [qtsetLoop, h]
  exact if_neg (Nat.not_lt.2 hbound)

theorem qtsetLoop_exceed {j factor scale : Nat} {js : List Nat} {u : ParseSt}
    (h : parQtab im q j scale st = .ok factor u) (hbound : 32768 < scale * factor) :
    qtsetLoop im q (j :: js) scale st = .raise .qtScale u := by
  rw [qtsetLoop, h]
  exact if_pos hbound

theorem qtsetLoop_raise {j scale : Nat} {js : List Nat} {u : ParseSt} {err : ErrorName}
    (h : parQtab im q j scale st = .raise err u) : qtsetLoop im q (j :: js) scale st = .raise err u := by
  rw [qtsetLoop, h]
  rfl

/-- Within the bounds the loop comes to table `n` with the running scale (R230). -/
theorem qtsetLoop_at (hn : n ≤ 5) (h : ScaleInBounds im q st n) (ha : scaleAfter im q st n = some a) :
    qtsetLoop im q [0, 1, 2, 3, 4] 1 st = qtsetLoop im q (List.range' n (5 - n)) a.1 a.2 := by
  induction n generalizing a with
  | zero =>
    cases ha
    rfl
  | succ n ih =>
    obtain ⟨b, factor, hb, htable, hscale⟩ := scaleAfter_succ_some ha
    have hbound := h.le ha
    rw [ih (by omega) (fun m hm => h m (by omega)) hb, show 5 - n = 5 - (n + 1) + 1 by omega, List.range'_succ,
      qtsetLoop_pass htable (hscale ▸ hbound), ← hscale]

/-- The same with table `n` in front. -/
theorem qtsetLoop_next (hn : n < 5) (h : ScaleInBounds im q st n) (ha : scaleAfter im q st n = some a) :
    qtsetLoop im q [0, 1, 2, 3, 4] 1 st = qtsetLoop im q (n :: List.range' (n + 1) (5 - (n + 1))) a.1 a.2 := by
  rw [qtsetLoop_at hn.le h ha, show 5 - n = 5 - (n + 1) + 1 by omega, List.range'_succ]

/-! ## The three ends of `PAR_QTSET` -/

/-- Every table builds within the bounds: half the scale, rounded up, is the context count (R233). -/
theorem parQtset_of_inBounds (h : ScaleInBounds im q st 5) (ha : scaleAfter im q st 5 = some a) :
    parQtset im q st = .ok ((a.1 + 1) / 2) { a.2 with par := { a.2.par with
      contextCount := a.2.par.contextCount.set q.toFin (BitVec.ofNat 15 ((a.1 + 1) / 2)) } } := by
  rw [parQtset, qtsetLoop_at le_rfl h ha]
  rfl

/-- The first product that passes 32768. -/
theorem parQtset_of_exceed (hn : n < 5) (h : ScaleInBounds im q st n) (ha : scaleAfter im q st (n + 1) = some a)
    (hbound : 32768 < a.1) : parQtset im q st = .raise .qtScale a.2 := by
  obtain ⟨b, factor, hb, htable, hscale⟩ := scaleAfter_succ_some ha
  rw [parQtset, qtsetLoop_next hn h hb, qtsetLoop_exceed htable (hscale ▸ hbound)]
  rfl

/-- The first table that does not build. -/
theorem parQtset_of_short (hn : n < 5) (h : ScaleInBounds im q st n) (hnone : scaleAfter im q st (n + 1) = none) :
    ∃ u, parQtset im q st = .raise .qtRun u := by
  obtain ⟨b, hb, -⟩ := h n le_rfl
  obtain ⟨u, htable⟩ := scaleAfter_succ_none hb hnone
  refine ⟨u, ?_⟩
  rw [parQtset, qtsetLoop_next hn h hb, qtsetLoop_raise htable]
  rfl

end Scale

theorem exec_parQtset {s : State} {k : BitVec 16} (q : BitVec 3) (hk : s.hasEngine k.toNat = true) :
    exec (.parQtset k q) s = endParseNat k s (parQtset s.inMem q (s.parseSt k.toNat)) := by
  dsimp only [exec, execParQtset]
  exact checked_of _ _ _ hk

/-- A set that does not build ends the command with the error, and stores no count. -/
theorem exec_parQtset_fails {s : State} {k : BitVec 16} {q : BitVec 3} {u : ParseSt} {err : ErrorName}
    (hk : s.hasEngine k.toNat = true) (h : parQtset s.inMem q (s.parseSt k.toNat) = .raise err u) :
    ∃ t, exec (.parQtset k q) s = .next t ∧ t.failedWith err noSlice ∧
      sameInput s t ∧ sameSamples s t ∧ sameOtherEngines k.toNat s t ∧
      t.par = { s.par with qt := t.par.qt } ∧
      onlyDecisions (inBank (.qb 0)) (s.engine k.toNat) (t.engine k.toNat) := by
  have htables := parQtset_raise h
  have hexec := exec_parQtset q hk
  rw [h] at hexec
  refine ⟨_, hexec, ⟨rfl, rfl, rfl, rfl, rfl, rfl⟩, fun _ => rfl, fun _ _ _ => rfl,
    takeError_otherEngines s k.toNat u err noSlice, htables.par, ?_⟩
  rw [engine_takeError, engine_setParseSt_self]
  exact htables.eng

/-- Settles O43: the three ends of `parQtset`, and what the tables before each of them have written. -/
theorem parQtsetBoundsTheScale : Obligations.ParQtsetBoundsTheScale := by
  intro s k q hk scale inBounds fails
  refine ⟨fun a hbounds ha => ?_, fun n a hn hbounds ha hexceed => ?_, fun n hn hbounds hnone => ?_⟩
  · intro n
    obtain ⟨htables, hpos⟩ := scaleAfter_tables ha
    have hmax : a.1 ≤ 32768 := ScaleInBounds.le hbounds ha
    have hn : 1 ≤ n ∧ n ≤ 16384 := by omega
    have hexec := exec_parQtset q hk
    rw [parQtset_of_inBounds hbounds ha] at hexec
    have hcount := fun q' => ctxCount_setContextCount a.2.par q q' n (by omega)
    refine ⟨_, hexec, ⟨rfl, rfl, rfl, rfl⟩, finish_onlyEngineAndPar s k.toNat _ _, hn.1, hn.2,
      (hcount q).trans (if_pos rfl), fun q' hq' => ?_, ?_, engine_setParseSt_self s k.toNat _, ?_⟩
    · exact (hcount q').trans ((if_neg hq').trans (htables.sameLegality.ctxCount q'))
    · rw [State.finish_par, State.setParseSt_par]
      dsimp only
      rw [htables.par]
      rfl
    · rw [engine_finish, engine_setParseSt_self]
      exact htables.eng
  · exact exec_parQtset_fails hk (parQtset_of_exceed hn hbounds ha hexceed)
  · obtain ⟨u, hraise⟩ := parQtset_of_short hn hbounds hnone
    exact exec_parQtset_fails hk hraise

end Sys2Proof.Machine

/-! # `PAR_INIST` (R236) -/

namespace Sys2Proof.Machine

-- One theorem at a time: each that waits for the kernel holds a thread, and here they are many and short.
set_option Elab.async false

/-! ## The coded states -/

section Coded

variable (im : List Host.Cell) (e : Engine)

/-- Symbol `n` of the coded initial states (R236). -/
def stateSym (n : Nat) : Word := (rcSsym im (.ib (BitVec.ofNat 5 (n % 32)) 0) (stateReader im e n)).2

/-- State `i` of a context: that of the context before, or 128 in context 0, plus its symbol (R236). -/
def codedState (i : Nat) : Nat → Byte
  | 0 => 128 + (stateSym im e i).setWidth 8
  | ctx + 1 => codedState i ctx + (stateSym im e (32 * (ctx + 1) + i)).setWidth 8

/-- What state `i` of a context is predicted from. -/
def codedBefore (i ctx : Nat) : Byte := if ctx = 0 then 128 else codedState im e i (ctx - 1)

theorem codedState_eq (i ctx : Nat) :
    codedState im e i ctx = codedBefore im e i ctx + (stateSym im e (32 * ctx + i)).setWidth 8 := by
  cases ctx with
  | zero => rw [Nat.mul_zero, Nat.zero_add]; rfl
  | succ ctx => rfl

/-- The symbol of state `k` of a context, and the reader behind it. -/
theorem rcSsym_stateReader {k : Nat} (hk : k < 32) (c : Nat) :
    rcSsym im (.ib (BitVec.ofNat 5 k) 0) (stateReader im e (32 * c + k)) =
      (stateReader im e (32 * c + (k + 1)), stateSym im e (32 * c + k)) := by
  have hmod : (32 * c + k) % 32 = k := by omega
  rw [← Nat.add_assoc, stateReader, stateSym, hmod]

/-- The states of a context from state `k` on. -/
theorem inistContext_coded {k m : Nat} (hkm : k + m ≤ 32) (c : Nat) :
    inistContext im ((List.range' k m).map (codedBefore im e · c)) k (stateReader im e (32 * c + k)) =
      (stateReader im e (32 * c + (k + m)), (List.range' k m).map (codedState im e · c)) := by
  induction m generalizing k with
  | zero => rfl
  | succ m ih =>
    have hrest := ih (k := k + 1) (by omega)
    simp only [List.range'_succ, List.map_cons, inistContext]
    rw [rcSsym_stateReader im e (by omega), hrest, ← codedState_eq, Nat.add_right_comm k 1 m, Nat.add_assoc k m 1]

/-- The states of `n` contexts from context `c` on, 32 to a context. -/
def codedStates (c n : Nat) : List Byte :=
  (List.range' (32 * c) (32 * n)).map fun j => codedState im e (j % 32) (j / 32)

theorem codedStates_length (c n : Nat) : (codedStates im e c n).length = 32 * n := by
  rw [codedStates, List.length_map, List.length_range']

theorem codedStates_getElem? {n ctx i : Nat} (hctx : ctx < n) (hi : i < 32) :
    (codedStates im e 0 n)[32 * ctx + i]? = some (codedState im e i ctx) := by
  rw [codedStates, List.getElem?_map, List.getElem?_range' (by omega), Option.map_some,
    show 32 * 0 + 1 * (32 * ctx + i) = 32 * ctx + i by omega, show (32 * ctx + i) % 32 = i by omega,
    show (32 * ctx + i) / 32 = ctx by omega]

/-- The first context of the row, and the others. -/
theorem codedStates_succ (c n : Nat) : codedStates im e c (n + 1) =
    (List.range' 0 32).map (codedState im e · c) ++ codedStates im e (c + 1) n := by
  have hfirst : (List.range' (32 * c) 32).map (fun j => codedState im e (j % 32) (j / 32)) =
      (List.range' 0 32).map (codedState im e · c) := by
    rw [← Nat.add_zero (32 * c), ← List.map_add_range', List.map_map]
    refine List.map_congr_left fun i hi => ?_
    have hlt : i < 32 := by simpa using hi
    simp only [Function.comp_apply]
    rw [show (32 * c + i) % 32 = i by omega, show (32 * c + i) / 32 = c by omega]
  rw [← hfirst, codedStates, codedStates, ← List.map_append, Nat.mul_succ 32 c, List.range'_append_1,
    Nat.add_comm 32, Nat.mul_succ 32 n]

theorem inistContexts_coded (n c : Nat) :
    inistContexts im n ((List.range' 0 32).map (codedBefore im e · c)) (stateReader im e (32 * c)) =
      (stateReader im e (32 * (c + n)), codedStates im e c n) := by
  induction n generalizing c with
  | zero => rfl
  | succ n ih =>
    have hnext := inistContext_coded im e (k := 0) (m := 32) (by decide) c
    have hprev : (List.range' 0 32).map (codedState im e · c) =
        (List.range' 0 32).map (codedBefore im e · (c + 1)) := rfl
    rw [inistContexts, show stateReader im e (32 * c) = stateReader im e (32 * c + 0) from rfl, hnext]
    dsimp only
    rw [show 32 * c + (0 + 32) = 32 * (c + 1) by omega, hprev, ih (c + 1), ← hprev, ← codedStates_succ,
      Nat.add_right_comm c 1 n, Nat.add_assoc c n 1]

end Coded

/-! ## Reading the templates back (R39) -/

theorem initKey_add (q : BitVec 3) (ctx i : Nat) : initKey q ctx i = initKey q 0 0 + (32 * ctx + i) := by
  unfold initKey
  omega

/-- States of the written set read as written. -/
theorem initAt_setInit_self {p : Par} {q : BitVec 3} {ctx i : Nat} {vs : List Byte} {v : Byte}
    (h : vs[32 * ctx + i]? = some v) : (p.setInit q vs).initAt q ctx i = v := by
  obtain ⟨hn, hv⟩ := List.getElem?_eq_some_iff.1 h
  rw [Par.initAt, initKey_add, ← hv]
  exact Store.get_putBlock_inside initDefault p.init (initKey q 0 0) vs _ hn

/-- States of every other set read as before: a set has room for 2 to the 15 contexts and more. -/
theorem initAt_setInit_other {p : Par} {q q' : BitVec 3} {ctx i : Nat} {vs : List Byte}
    (hvs : vs.length ≤ 2 ^ 20) (hctx : ctx < 2 ^ 15) (hi : i < 32) (h : q' ≠ q) :
    (p.setInit q vs).initAt q' ctx i = p.initAt q' ctx i := by
  refine Store.get_putBlock_outside initDefault p.init (initKey q 0 0) vs _ ?_
  have hne : q'.toNat ≠ q.toNat := fun hq => h (BitVec.eq_of_toNat_eq hq)
  simp only [initKey]
  omega

/-! ## The two ways of `PAR_INIST` -/

theorem stateReader_onlyDecisions (im : List Host.Cell) (e : Engine) (n : Nat) :
    onlyDecisions (fun r => ∃ i j, r = .ib i j) e (stateReader im e n) := by
  induction n with
  | zero => exact onlyDecisions_refl _ e
  | succ n ih =>
    exact onlyDecisions_trans ih (onlyDecisions_mono (rcSsym_onlyDecisions im _ _) fun _ ⟨j, hj⟩ => ⟨_, j, hj⟩)

section Inist

variable {im : List Host.Cell} {q : BitVec 3} {st : ParseSt}

theorem parInist_uncoded (h : (rcBit im (.hb 0) st.eng).2 = false) :
    parInist im q st = (⟨st.par.setInit q (midBytes (st.par.ctxCount q * 32)), (rcBit im (.hb 0) st.eng).1⟩,
      false) := by
  rw [parInist]
  dsimp only
  rw [h, if_neg Bool.false_ne_true]

theorem parInist_coded (h : (rcBit im (.hb 0) st.eng).2 = true) :
    parInist im q st = (⟨st.par.setInit q (codedStates im (rcBit im (.hb 0) st.eng).1 0 (st.par.ctxCount q)),
      stateReader im (rcBit im (.hb 0) st.eng).1 (32 * st.par.ctxCount q)⟩, true) := by
  have hcoded := inistContexts_coded im (rcBit im (.hb 0) st.eng).1 (st.par.ctxCount q) 0
  have hmid : (List.range' 0 32).map (codedBefore im (rcBit im (.hb 0) st.eng).1 · 0) = midBytes 32 := rfl
  rw [hmid, Nat.zero_add] at hcoded
  rw [parInist]
  dsimp only
  rw [h, if_pos rfl, show (rcBit im (.hb 0) st.eng).1 = stateReader im (rcBit im (.hb 0) st.eng).1 (32 * 0) from rfl,
    hcoded]
  rfl

end Inist

theorem exec_parInist {s : State} {k : BitVec 16} (q : BitVec 3) (hk : s.hasEngine k.toNat = true) :
    exec (.parInist k q) s = completeWith (bitWord (parInist s.inMem q (s.parseSt k.toNat)).2)
      (s.setParseSt k.toNat (parInist s.inMem q (s.parseSt k.toNat)).1) := by
  dsimp only [exec, execParInist]
  exact checked_of _ _ _ hk

/-- Settles O44: the states that are written, coded or not, and what reading them has changed. -/
theorem parInistFillsTheSet : Obligations.ParInistFillsTheSet := by
  intro s k q hk e coded reader
  have hbit : onlyDecisions (fun r => r = .hb 0 ∨ ∃ i j, r = .ib i j) e (rcBit s.inMem (.hb 0) e).1 :=
    onlyDecisions_mono (rcBit_onlyDecisions s.inMem (.hb 0) e) fun _ => .inl
  have hcount := ctxCount_lt s.par q
  have hexec := exec_parInist q hk
  cases hcoded : coded with
  | false =>
    rw [parInist_uncoded (st := s.parseSt k.toNat) hcoded] at hexec
    refine ⟨_, hexec, ⟨rfl, rfl, rfl, rfl⟩, finish_onlyEngineAndPar s k.toNat _ _, rfl, ?_,
      fun _ => ⟨engine_setParseSt_self s k.toNat _, fun ctx i hctx hi => initAt_setInit_self ?_⟩,
      fun h => absurd h Bool.false_ne_true,
      fun q' ctx i hctx hi hq => initAt_setInit_other ?_ hctx hi hq⟩
    · rw [engine_finish, engine_setParseSt_self]
      exact hbit
    · exact List.getElem?_replicate_of_lt (by show _ < s.par.ctxCount q * 32; omega)
    · rw [midBytes, List.length_replicate]
      show s.par.ctxCount q * 32 ≤ 2 ^ 20
      omega
  | true =>
    rw [parInist_coded (st := s.parseSt k.toNat) hcoded] at hexec
    have hstate := fun ctx i (hctx : ctx < s.par.ctxCount q) (hi : i < 32) =>
      initAt_setInit_self (p := s.par) (q := q)
        (codedStates_getElem? s.inMem (rcBit s.inMem (.hb 0) e).1 hctx hi)
    refine ⟨_, hexec, ⟨rfl, rfl, rfl, rfl⟩, finish_onlyEngineAndPar s k.toNat _ _, rfl, ?_,
      fun h => absurd h.symm Bool.false_ne_true,
      fun _ => ⟨engine_setParseSt_self s k.toNat _, fun ctx i hctx hi => ?_⟩,
      fun q' ctx i hctx hi hq => initAt_setInit_other ?_ hctx hi hq⟩
    · rw [engine_finish, engine_setParseSt_self]
      exact onlyDecisions_trans hbit (onlyDecisions_mono (stateReader_onlyDecisions s.inMem _ _) fun _ => .inr)
    · have hsym := congrArg Prod.snd (rcSsym_stateReader s.inMem (rcBit s.inMem (.hb 0) e).1 hi ctx)
      refine (hstate ctx i hctx hi).trans ((codedState_eq _ _ i ctx).trans ?_)
      refine congrArg₂ (fun before sym : Byte => before + sym) ?_ (congrArg (BitVec.setWidth 8) hsym).symm
      rw [codedBefore]
      exact if_congr Iff.rfl rfl (hstate (ctx - 1) i (by omega) hi).symm
    · rw [codedStates_length]
      show 32 * s.par.ctxCount q ≤ 2 ^ 20
      omega

end Sys2Proof.Machine

/-! # `PAR_PARSE` (R221, R222, R223, R246) -/

namespace Sys2Proof.Machine

-- One theorem at a time: each that waits for the kernel holds a thread, and here they are many and short.
set_option Elab.async false

/-! ## The rows of the table of R222 are the steps of the parse

Each step of `parseSteps` reads one row of `recordRows`; the step of the coder type reads two, and the last row of
`recordRows` is the last two steps. -/

/-- The checks of a row, in order, before `f`. -/
def guardsThen (checks : List (Bool × ErrorName)) (f : ParseStep) : ParseStep :=
  checks.foldr (fun c g => guardThen c.1 c.2 g) f

theorem guardsThen_cons (c : Bool × ErrorName) (cs : List (Bool × ErrorName)) (f : ParseStep) :
    guardsThen (c :: cs) f = guardThen c.1 c.2 (guardsThen cs f) := rfl

/-- The first check that holds raises its error. -/
theorem guardsThen_eq (checks : List (Bool × ErrorName)) (f : ParseStep) (st : ParseSt) :
    guardsThen checks f st =
      match checks.find? fun c => c.1 with
      | some c => .raise c.2 st
      | none => f st := by
  induction checks with
  | nil => rfl
  | cons c cs ih =>
    rw [guardsThen_cons, guardThen]
    cases hc : c.1 with
    | true => rw [if_pos rfl, List.find?_cons_of_pos hc]
    | false => rw [if_neg Bool.false_ne_true, ih, List.find?_cons_of_neg (by rw [hc]; exact Bool.false_ne_true)]

section Rows

variable {im : List Host.Cell} {row : FieldRow} {st : ParseSt}

theorem readRow_symbol (hp : row.present st.par = true) (hs : row.symbol = true) :
    readRow im row st = withU im (fun v => guardsThen (row.checks v) (storePar (row.store v))) st := by
  rw [readRow, if_pos hp]
  dsimp only
  rw [if_pos hs]
  dsimp only [withU]
  rw [guardsThen_eq]
  rfl

theorem readRow_decision (hp : row.present st.par = true) (hs : row.symbol = false) :
    readRow im row st =
      withB im (fun v => guardsThen (row.checks v.toNat) (storePar (row.store v.toNat))) st := by
  rw [readRow, if_pos hp]
  dsimp only
  rw [if_neg (by rw [hs]; exact Bool.false_ne_true)]
  dsimp only [withB]
  rw [guardsThen_eq]
  rfl

theorem readRow_absent (hp : row.present st.par = false) : readRow im row st = storePar row.absent st :=
  if_neg (by rw [hp]; exact Bool.false_ne_true)

/-- A step that reads a symbol that is always present. -/
theorem symbolRow_eq {f : ParseStep} (hp : ∀ p, row.present p = true) (hs : row.symbol = true)
    (hf : f = withU im fun v => guardsThen (row.checks v) (storePar (row.store v))) : f = readRow im row :=
  hf.trans (funext fun _ => (readRow_symbol (hp _) hs).symm)

/-- A step that reads a decision. -/
theorem decisionRow_eq {f : ParseStep} (hp : ∀ p, row.present p = true) (hs : row.symbol = false)
    (hf : f = withB im fun v => guardsThen (row.checks v.toNat) (storePar (row.store v.toNat))) :
    f = readRow im row := hf.trans (funext fun _ => (readRow_decision (hp _) hs).symm)

/-- A step that reads a symbol that is present under a condition. -/
theorem condRow_eq {f : ParseStep} {c : Par → Prop} [DecidablePred c] (hp : ∀ p, row.present p = decide (c p))
    (hs : row.symbol = true)
    (hf : f = fun st => if c st.par then withU im (fun v => guardsThen (row.checks v) (storePar (row.store v))) st
      else storePar row.absent st) : f = readRow im row := by
  funext st
  rw [hf]
  dsimp only
  split
  · rename_i h
    exact (readRow_symbol ((hp _).trans (decide_eq_true h)) hs).symm
  · rename_i h
    exact (readRow_absent ((hp _).trans (decide_eq_false h))).symm

end Rows

/-! ### Lists of steps -/

theorem Res.bind_assoc {σ α β γ : Type} (r : Res σ α) (f : α → σ → Res σ β) (g : β → σ → Res σ γ) :
    (r.bind f).bind g = r.bind fun a s => (f a s).bind g := by
  cases r <;> rfl

theorem Res.bind_unit {σ : Type} (r : Res σ Unit) : (r.bind fun _ s => .ok () s) = r := by
  cases r <;> rfl

theorem runSteps_cons (f : ParseStep) (fs : List ParseStep) (st : ParseSt) :
    runSteps (f :: fs) st = (f st).bind fun _ => runSteps fs := rfl

theorem runSteps_singleton (f : ParseStep) (st : ParseSt) : runSteps [f] st = f st := Res.bind_unit (f st)

theorem runSteps_congr_cons {f g : ParseStep} {fs gs : List ParseStep} (hf : f = g)
    (hfs : runSteps fs = runSteps gs) : runSteps (f :: fs) = runSteps (g :: gs) := by
  funext st
  rw [runSteps_cons, runSteps_cons, hf, hfs]

/-- One step for two. -/
theorem runSteps_congr_pair {f g h : ParseStep} {fs gs : List ParseStep} (hf : ∀ st, f st = runSteps [g, h] st)
    (hfs : runSteps fs = runSteps gs) : runSteps (f :: fs) = runSteps (g :: h :: gs) := by
  funext st
  rw [runSteps_cons, hf, hfs, show g :: h :: gs = [g, h] ++ gs from rfl, runSteps_append]

/-! ### The transition table (row 4) -/

/-- The entries from `n` on, one after the other. -/
theorem transitionLoop_eq (i : ParseIn) (ds : List Byte) (n : Nat)
    (h : ∀ j, j < ds.length → Config.defaultTransition.toList.getD (n + j) 0 = ds.getD j 0) (st : ParseSt) :
    transitionLoop i ds n st = runSteps ((List.range' n ds.length).map (readTransition i.im)) st := by
  induction ds generalizing n st with
  | nil => rfl
  | cons d ds ih =>
    have hd : Config.defaultTransition.toList.getD n 0 = d := h 0 (Nat.zero_lt_succ _)
    have hds : ∀ st, transitionLoop i ds (n + 1) st = _ := ih (n + 1) fun j hj => by
      rw [Nat.add_right_comm, Nat.add_assoc]
      exact h (j + 1) (Nat.succ_lt_succ hj)
    rw [List.length_cons, List.range'_succ, List.map_cons, runSteps_cons, transitionLoop, readTransition]
    dsimp only
    rw [hd, guardThen]
    by_cases hbad : (d.toNat : Int) + (rcSsym i.im (.hb 0) st.eng).2.toInt < 0 ∨
        255 < (d.toNat : Int) + (rcSsym i.im (.hb 0) st.eng).2.toInt
    · rw [if_pos (decide_eq_true hbad), if_pos hbad]
      rfl
    · rw [if_neg (by rw [decide_eq_false hbad]; exact Bool.false_ne_true), if_neg hbad]
      exact hds _

theorem tail_getD (n : Nat) : ∀ (ds : List Byte), ds.getD (1 + n) 0 = ds.tail.getD n 0
  | [] => rfl
  | _ :: ds => by rw [Nat.add_comm, List.tail_cons, List.getD_cons_succ]

/-- Row 4 as a whole: the list that the parse walks is the default table without entry 0. -/
theorem fieldTransitions_eq (i : ParseIn) (st : ParseSt) :
    fieldTransitions i st = runSteps ((List.range 255).map fun n => readTransition i.im (n + 1)) st := by
  have hlength : Config.defaultTransition.toList.tail.length = 255 := by simp
  have hshift : List.range' 1 255 = (List.range' 0 255).map (1 + ·) := (List.map_add_range' (a := 1) 0 255 1).symm
  rw [fieldTransitions, transitionLoop_eq i _ 1 fun j _ => tail_getD j _, hlength, hshift, List.map_map,
    List.range_eq_range']
  exact congrArg (runSteps · st) (List.map_congr_left fun n _ => by rw [Function.comp_apply, Nat.add_comm])

/-! ### Row by row -/

/-- A decision is stored as the number 1. -/
theorem toNat_eq_one (v : Bool) : decide (v.toNat = 1) = v := by cases v <;> rfl

/-- Row 3 and, when the table is a custom one, row 4. -/
theorem fieldCoderType_eq (i : ParseIn) {row : FieldRow} {transitions : ParseStep} (st : ParseSt)
    (hrow : ∀ st, readRow i.im row st = withU i.im (fun v => guardThen (decide (2 < v)) .coderType <|
      storePar fun p => { p with coderType := decide (v ≠ 0), customPresent := decide (v = 2) }) st)
    (htrans : ∀ st, transitions st = if st.par.customPresent then fieldTransitions i st else .ok () st) :
    fieldCoderType i st = runSteps [readRow i.im row, transitions] st := by
  rw [runSteps_cons, hrow, fieldCoderType, withU, withU]
  dsimp only
  generalize (rcUsym i.im (.hb 0) st.eng).2.toNat = v
  rw [guardThen, guardThen]
  split
  · rfl
  · simp only [storePar, Res.bind, runSteps_singleton, htrans]
    by_cases hv : v = 2
    · simp [hv]
    · simp [hv]

theorem fieldQtSets_eq (i : ParseIn) (st : ParseSt) : fieldQtSets i st =
    runSteps (st.par.sets.map fun q st => (parQtset i.im q st).bind fun _ st => .ok () st) st := by
  rw [fieldQtSets]
  generalize st.par.sets = qs
  induction qs generalizing st with
  | nil => rfl
  | cons q qs ih =>
    rw [List.map_cons, runSteps_cons, Res.bind_assoc, qtSets]
    exact congrArg _ (funext fun _ => funext ih)

theorem initialStates_eq (i : ParseIn) (st : ParseSt) (q : BitVec 3) : initialStates i st q =
    if 1 < st.par.version.toNat then (parInist i.im q st).1
    else { st with par := st.par.setInit q (List.replicate (32 * st.par.ctxCount q) 128) } := by
  rw [initialStates, midBytes, Nat.mul_comm]
  rfl

theorem fieldDerived_eq (st : ParseSt) : fieldDerived st =
    if 16 < st.par.bitsPerRawSample.toNat then .raise .bitdepthUnsupported st
    else .ok () { st with par := st.par.derived } := by
  rw [fieldDerived]
  rcases parDerive_cases st.par with ⟨hderive, hdeep⟩ | ⟨hderive, hshallow⟩
  · rw [hderive, if_pos hdeep]
  · rw [hderive, if_neg (Nat.not_lt.2 hshallow)]

theorem fieldEnd_eq (st : ParseSt) : runSteps [fieldUnderrun, fieldValid] st =
    if rcUnderrun st.eng.rc then .raise .underrunParams st
    else .ok () { st with par := { st.par with valid := true } } := by
  rw [runSteps_cons, fieldUnderrun, guardThen]
  split <;> rfl

/-- The steps of the parse read the rows of R222 in order. -/
theorem runSteps_recordRows (i : ParseIn) : runSteps (parseSteps i) = runSteps (recordRows i) := by
  unfold parseSteps recordRows
  dsimp only
  refine runSteps_congr_cons (symbolRow_eq (fun _ => rfl) rfl rfl) ?_
  refine runSteps_congr_cons (condRow_eq (fun _ => rfl) rfl rfl) ?_
  refine runSteps_congr_pair (fun st => fieldCoderType_eq i st (fun _ => readRow_symbol rfl rfl)
    fun st => by rw [fieldTransitions_eq]) ?_
  refine runSteps_congr_cons (symbolRow_eq (fun _ => rfl) rfl rfl) ?_
  refine runSteps_congr_cons (condRow_eq (fun _ => rfl) rfl rfl) ?_
  refine runSteps_congr_cons (decisionRow_eq (fun _ => rfl) rfl (by simp only [toNat_eq_one]; rfl)) ?_
  refine runSteps_congr_cons (symbolRow_eq (fun _ => rfl) rfl rfl) ?_
  refine runSteps_congr_cons (symbolRow_eq (fun _ => rfl) rfl rfl) ?_
  refine runSteps_congr_cons (decisionRow_eq (fun _ => rfl) rfl (by simp only [toNat_eq_one]; rfl)) ?_
  refine runSteps_congr_cons (condRow_eq (fun _ => rfl) rfl rfl) ?_
  refine runSteps_congr_cons (condRow_eq (fun _ => rfl) rfl rfl) ?_
  refine runSteps_congr_cons (condRow_eq (fun _ => rfl) rfl rfl) ?_
  refine runSteps_congr_cons (funext (fieldQtSets_eq i)) ?_
  refine runSteps_congr_cons (funext fun st => ?_) ?_
  · rw [fieldInitialStates, show initialStates i = _ from funext fun st => funext (initialStates_eq i st)]
  refine runSteps_congr_cons (condRow_eq (fun _ => rfl) rfl rfl) ?_
  refine runSteps_congr_cons (condRow_eq (fun _ => rfl) rfl rfl) ?_
  refine runSteps_congr_cons (funext fieldDerived_eq) ?_
  funext st
  rw [runSteps_singleton, fieldEnd_eq]

end Sys2Proof.Machine

/-! # `PAR_PARSE`: the command (R221, R223, R246) -/

namespace Sys2Proof.Machine

-- One theorem at a time: each that waits for the kernel holds a thread, and here they are many and short.
set_option Elab.async false

/-! ## The record is read row by row -/

theorem foldl_fillIb (n : Nat) (e : Engine) :
    (List.range n).foldl (fun e k => stFill (.ib (BitVec.ofNat 5 k) 0) 128 e) e = fillIb n e := by
  induction n with
  | zero => rfl
  | succ n ih =>
    rw [List.range_succ, List.foldl_append, ih]
    rfl

/-- The parse is the one of the table of R222. -/
theorem recordParse_eq (i : ParseIn) (st : ParseSt) : recordParse i st = parParse i st := by
  rw [recordParse, parParse, runSteps_recordRows, foldl_fillIb]
  rfl

/-! ## The slice grid fits the frame (R222 rows 11 and 12) -/

/-- There are at most `w` slices side by side and `h` one below the other. -/
def Par.GridWithin (w h : Nat) (p : Par) : Prop := p.numHSlices.toNat ≤ w ∧ p.numVSlices.toNat ≤ h

theorem Par.GridWithin.congr {w h : Nat} {p p' : Par} (hp : p.GridWithin w h) (hs : p.SameShape p') :
    p'.GridWithin w h := by
  rw [Par.GridWithin, hs.columns, hs.rows]
  exact hp

/-- A row that comes before those of the grid need not say anything of it. -/
theorem Meets.weaken {A B C : Par → Prop} {f : ParseStep} (h : Meets A B f) : Meets C (fun _ => True) f :=
  fun st => (h st).after (.refl st) fun _ _ _ _ => trivial

/-- A stored number of slices is at most the size that it was compared with. -/
theorem sliceCount_le {size v : Nat} (h : decide (size < v + 1) = false) :
    (BitVec.ofNat 32 (v + 1)).toNat ≤ size := by
  have hv : v + 1 ≤ size := Nat.le_of_not_lt (of_decide_eq_false h)
  rw [BitVec.toNat_ofNat]
  exact (Nat.mod_le _ _).trans hv

section Grid

variable {w h : Nat} (i : ParseIn)

theorem fieldHSlices_columns (hw : 1 ≤ i.width) :
    Meets (fun _ => True) (fun p => p.numHSlices.toNat ≤ i.width) (fieldHSlices i) :=
  meets_ite (meets_withU _ fun _ _ => meets_guardThen fun hv => meets_storePar fun _ _ => sliceCount_le hv)
    (meets_storePar fun _ _ => hw)

theorem fieldVSlices_grid (hh : 1 ≤ i.height) :
    Meets (fun p => p.numHSlices.toNat ≤ w) (Par.GridWithin w i.height) (fieldVSlices i) :=
  meets_ite (meets_withU _ fun _ _ => meets_guardThen fun hv => meets_storePar fun _ hp =>
    ⟨hp, sliceCount_le hv⟩) (meets_storePar fun _ hp => ⟨hp, hh⟩)

theorem fieldQtSetCount_grid : Meets (Par.GridWithin w h) (Par.GridWithin w h) (fieldQtSetCount i) :=
  meets_ite (meets_withU _ fun _ _ => meets_guardThen fun _ => meets_storePar fun _ hp => hp)
    (meets_storePar fun _ hp => hp)

theorem fieldQtSets_grid : Meets (Par.GridWithin w h) (Par.GridWithin w h) (fieldQtSets i) := fun st =>
  (qtSets_fills i st.par.sets st).after (.refl st) fun _ _ ⟨hshape, _⟩ hp => hp.congr hshape

theorem fieldInitialStates_grid :
    Meets (Par.GridWithin w h) (Par.GridWithin w h) (fieldInitialStates i) := fun st =>
  have ⟨hfills, hsame⟩ := foldl_initialStates_fills i st.par.sets st
  ⟨hfills, fun hp => hp.congr hsame.toSameShape⟩

theorem fieldEc_grid : Meets (Par.GridWithin w h) (Par.GridWithin w h) (fieldEc i) :=
  meets_ite (meets_withU _ fun _ _ => meets_guardThen fun _ => meets_storePar fun _ hp => hp)
    (meets_storePar fun _ hp => hp)

theorem fieldIntra_grid : Meets (Par.GridWithin w h) (Par.GridWithin w h) (fieldIntra i) :=
  meets_ite (meets_withU _ fun _ _ => meets_guardThen fun _ => meets_storePar fun _ hp => hp)
    (meets_storePar fun _ hp => hp)

theorem fieldDerived_grid : Meets (Par.GridWithin w h) (Par.GridWithin w h) fieldDerived := fun st => by
  rw [fieldDerived_eq]
  split
  · exact .refl st
  · exact ⟨keepsMemories_derived.fills st, fun hp => hp⟩

theorem fieldUnderrun_grid : Meets (Par.GridWithin w h) (Par.GridWithin w h) fieldUnderrun := fun st =>
  meets_guardThen (fun _ => meets_skip) st

theorem fieldSteps_grid (hw : 1 ≤ i.width) (hh : 1 ≤ i.height) :
    Meets (fun _ => True) (Par.GridWithin i.width i.height) (runSteps (fieldSteps i)) :=
  meets_runSteps_cons (fieldVersion_meets i).weaken <|
  meets_runSteps_cons (fieldMicroVersion_meets i (n := 0)).weaken <|
  meets_runSteps_cons (fieldCoderType_meets i (n := 0)).weaken <|
  meets_runSteps_cons (fieldColorspace_meets i (n := 0)).weaken <|
  meets_runSteps_cons (fieldBitdepth_meets i).weaken <|
  meets_runSteps_cons (fieldChromaPlanes_meets i (n := 0)).weaken <|
  meets_runSteps_cons (fieldChromaHShift_meets i (n := 0)).weaken <|
  meets_runSteps_cons (fieldChromaVShift_meets i (n := 0)).weaken <|
  meets_runSteps_cons (fieldAlphaPlane_meets i (n := 0)).weaken <|
  meets_runSteps_cons (fieldHSlices_columns i hw) <|
  meets_runSteps_cons (fieldVSlices_grid i hh) <|
  meets_runSteps_cons (fieldQtSetCount_grid i) <|
  meets_runSteps_cons (fieldQtSets_grid i) <|
  meets_runSteps_cons (fieldInitialStates_grid i) <|
  meets_runSteps_cons (fieldEc_grid i) <|
  meets_runSteps_cons (fieldIntra_grid i) <|
  meets_runSteps_cons fieldDerived_grid <|
  meets_runSteps_cons fieldUnderrun_grid meets_runSteps_nil

end Grid

/-! ## The end of the parse -/

/-- The underrun test is the last step before the record is valid. -/
theorem fieldSteps_underrun {i : ParseIn} {st u : ParseSt} (h : runSteps (fieldSteps i) st = .ok () u) :
    rcUnderrun u.eng.rc = false := by
  rw [show fieldSteps i = (parseSteps i).take 17 ++ [fieldUnderrun] from rfl, runSteps_append, Res.bind_ok] at h
  obtain ⟨_, v, -, hlast⟩ := h
  rw [runSteps_singleton, fieldUnderrun, guardThen] at hlast
  split at hlast
  · cases hlast
  · rename_i hfine
    cases hlast
    exact Bool.eq_false_iff.2 hfine

/-- Beside what `parParse_ok` says, the grid of the record fits the frame, and the decoder has not run out. -/
theorem parParse_ok_fits {i : ParseIn} {st u : ParseSt} (hw : 1 ≤ i.width) (hh : 1 ≤ i.height)
    (h : parParse i st = .ok () u) : u.par.GridWithin i.width i.height ∧ rcUnderrun u.eng.rc = false := by
  rw [parParse_eq, Res.bind_ok] at h
  generalize parseStart i st = start at h
  obtain ⟨_, v, hfields, hvalid⟩ := h
  have hgrid := (fieldSteps_grid i hw hh).fills start
  rw [hfields] at hgrid
  obtain ⟨-, hgrid⟩ := hgrid
  have hend : Par.GridWithin i.width i.height v.par := hgrid trivial
  have hunder := fieldSteps_underrun hfields
  injection hvalid with _ hu
  subst hu
  exact ⟨hend, hunder⟩

theorem exec_parParse {s : State} {k : BitVec 16} (oob : Bool) (hk : s.hasEngine k.toNat = true)
    (hw : 1 ≤ s.width.toNat) (hh : 1 ≤ s.height.toNat)
    (htable : (s.engine k.toNat).rc.one = Config.defaultTransition) :
    exec (.parParse k oob) s = endParse k s (parParse (s.parseIn oob) (s.parseSt k.toNat)) := by
  dsimp only [exec, execParParse]
  refine checked_of _ _ _ ?_
  rw [hk, decide_eq_true hw, decide_eq_true hh, Bool.true_and, Bool.true_and, Bool.true_and]
  exact beq_iff_eq.2 htable

/-- Settles O45: `recordParse` is the parse of the command; what a parse that succeeds leaves, and one that fails. -/
theorem parParseEndsValidOrNot : Obligations.ParParseEndsValidOrNot := by
  intro s k oob hk hw hh htable
  have hexec := exec_parParse oob hk hw hh htable
  have hwidth : (s.parseIn oob).width < 2 ^ 32 := s.width.isLt
  have hheight : (s.parseIn oob).height < 2 ^ 32 := s.height.isLt
  refine ⟨fun st hst => ?_, fun err st hst => ?_⟩
  · rw [recordParse_eq] at hst
    obtain ⟨⟨hcolumns, hrows⟩, hunder⟩ := parParse_ok_fits (i := s.parseIn oob) hw hh hst
    obtain ⟨v, hfills, hok, rfl⟩ := parParse_ok hwidth hheight hst
    rw [hst] at hexec
    refine ⟨_, hexec, ⟨rfl, rfl, rfl, rfl⟩, finish_onlyEngineAndPar s k.toNat _ none, rfl,
      engine_setParseSt_self s k.toNat _, rfl, hfills.config, hok, hcolumns, hrows, ?_⟩
    rw [engine_finish, engine_setParseSt_self]
    exact hunder
  · rw [recordParse_eq] at hst
    have hfills := parParse_raise hwidth hheight hst
    rw [hst] at hexec
    exact ⟨_, hexec, ⟨rfl, rfl, rfl, rfl, rfl, rfl⟩, fun _ => rfl, fun _ _ _ => rfl, rfl,
      engine_setParseSt_self s k.toNat st, hfills.valid, hfills.config,
      takeError_otherEngines s k.toNat st err noSlice⟩

end Sys2Proof.Machine

/-! # `SL_FOOTER` (R271, R273) -/

namespace Sys2Proof.Machine

/-! ## The ends of the footer -/

theorem memRead_one (im : List Host.Cell) (a : Nat) : memRead im a 1 = (inByte im a).toNat := by
  rw [memRead, memRead, Nat.zero_mul, Nat.zero_add, Nat.add_zero]

/-- The slice carries an error status, and the byte of it is not 0 (R271). -/
theorem footerStatusFails_iff (i : SliceIn) (sl : Sl) :
    (i.par.checksTail && memRead i.im (sl.contEnd.toNat + 3) 1 != 0) = true ↔
      i.par.configPresent = true ∧ i.par.ec = true ∧ inByte i.im (sl.contEnd.toNat + 3) ≠ 0 := by
  have hbyte : ∀ b : Byte, b.toNat ≠ 0 ↔ b ≠ 0 := fun _ => BitVec.toNat_ne_iff_ne (y := 0)
  rw [memRead_one, Bool.and_eq_true, Par.checksTail, Bool.and_eq_true, bne_iff_ne, and_assoc, hbyte]

section FooterEnds

variable {i : SliceIn} {st : SliceSt}

theorem slFooter_badStatus
    (hstatus : (i.par.checksTail && memRead i.im (st.eng.sl.contEnd.toNat + 3) 1 != 0) = true) :
    slFooter i st = .raise .sliceErrorStatus st :=
  if_pos hstatus

theorem slFooter_junk
    (hstatus : ¬ (i.par.checksTail && memRead i.im (st.eng.sl.contEnd.toNat + 3) 1 != 0) = true)
    (hused : st.eng.sl.used + i.par.tailSize.toNat ≠ st.eng.sl.bufEnd.toNat - st.eng.sl.bufBeg.toNat) :
    slFooter i st = .raise .sliceJunk st :=
  (if_neg hstatus).trans (if_pos hused)

theorem slFooter_done
    (hstatus : ¬ (i.par.checksTail && memRead i.im (st.eng.sl.contEnd.toNat + 3) 1 != 0) = true)
    (hused : st.eng.sl.used + i.par.tailSize.toNat = st.eng.sl.bufEnd.toNat - st.eng.sl.bufBeg.toNat) :
    slFooter i st = .ok () { st with eng := st.eng.setFsm .done } :=
  (if_neg hstatus).trans (if_neg (not_not.2 hused))

end FooterEnds

/-! ## The command -/

theorem exec_slFooter {s : State} {k : BitVec 16} (hk : s.hasEngine k.toNat = true)
    (hfsm : (s.engine k.toNat).sl.fsm = .contentDecoded) :
    exec (.slFooter k) s = .next (sliceEnd k s (slFooter s.sliceIn (s.sliceSt k.toNat))) := by
  have hlegal : s.fsmIs k .contentDecoded = true := by
    rw [State.fsmIs, hk, hfsm]
    rfl
  dsimp only [exec, execSlFooter]
  rw [checked_of _ _ _ hlegal, endSlice_eq]

/-- A slice command that paints nothing leaves every sample. -/
theorem sliceEnd_sameSamples {k : BitVec 16} {s : State} {r : SliceRes} (h : r.state.plane = s.plane) :
    sameSamples s (sliceEnd k s r) := fun p x y => by
  rw [State.sample, sliceEnd_plane, h]
  rfl

/-- A slice command that raises an error ends with it, and with it in the engine (R273, R330 (c)). -/
theorem sliceEnd_fails (k : BitVec 16) (s : State) (err : ErrorName) (u : SliceSt) :
    (sliceEnd k s (.raise err u)).failedWith err k ∧
      (sliceEnd k s (.raise err u)).engine k.toNat = u.eng.takeSliceError err :=
  ⟨⟨rfl, rfl, rfl, rfl, rfl, rfl⟩, sliceEnd_engine k s _⟩

/-- A slice command that completes and paints nothing changes its engine alone. -/
theorem sliceEnd_completes (k : BitVec 16) (s : State) (e : Engine) :
    unitDone k.toNat s (sliceEnd k s (.ok () ⟨e, s.plane⟩)) s.result ∧
      (sliceEnd k s (.ok () ⟨e, s.plane⟩)).engine k.toNat = e :=
  ⟨⟨⟨rfl, rfl, rfl, rfl⟩, sliceEnd_input k s _, sliceEnd_sameSamples rfl, sliceEnd_otherEngines k s _,
    sliceEnd_hasEngine k s _, rfl⟩, sliceEnd_engine k s _⟩

/-- Settles O49: the footer has one equation for each of its three ends. -/
theorem slFooterAccountsForEveryByte : Obligations.SlFooterAccountsForEveryByte := by
  intro s k hk hfsm e badStatus fits
  have hstatus := footerStatusFails_iff s.sliceIn (s.sliceSt k.toNat).eng.sl
  refine ⟨_, exec_slFooter hk hfsm, sliceEnd_sameSamples (slFooter_plane s.sliceIn (s.sliceSt k.toNat)),
    sliceEnd_otherEngines k s _, fun hbad => ?_, fun hgood hjunk => ?_, fun hgood hfits => ?_⟩
  · rw [slFooter_badStatus (hstatus.2 hbad)]
    exact sliceEnd_fails k s .sliceErrorStatus (s.sliceSt k.toNat)
  · rw [slFooter_junk (mt hstatus.1 hgood) hjunk]
    exact sliceEnd_fails k s .sliceJunk (s.sliceSt k.toNat)
  · rw [slFooter_done (mt hstatus.1 hgood) hfits]
    exact sliceEnd_completes k s (e.setFsm .done)

end Sys2Proof.Machine

/-! # `FR_KEYBIT` and the order of the frame checks (R291 to R295, R333) -/

namespace Sys2Proof.Machine

-- One theorem at a time: each that waits for the kernel holds a thread, and here they are many and short.
set_option Elab.async false

/-! ## The keyframe bit (R294) -/

/-- Of an engine, nothing but the range decoder and `KS` differs: the frame of a read of the keyframe bit. -/
def OnlyKeyRead (e f : Engine) : Prop :=
  f = { e with rc := f.rc, sm := f.sm } ∧ ∀ r, r ≠ .ks → f.state r = e.state r

/-- The decision starts from a fresh `KS` (R294). -/
theorem keyDecision_eq (im : List Host.Cell) (e : Engine) :
    keyDecision im e = rcBit im .ks (e.setState .ks 128) := rfl

theorem keyDecision_rcArm_onlyKeyRead (im : List Host.Cell) (b n : Word) (t : Table) (e : Engine) :
    OnlyKeyRead e (keyDecision im (rcArm im b n t e)).1 := by
  refine ⟨keyDecision_frame im (rcArm im b n t e), fun r hr => ?_⟩
  have hdecision := (rcBit_onlyDecisions im .ks ((rcArm im b n t e).setState .ks 128)).1 r hr
  rw [keyDecision_eq, hdecision, state_setState_ne _ _ hr]
  rfl

/-- A decoder with `Mask` at least `0x100` decides without a refill (R134). -/
theorem rcBit_of_fullMask {im : List Host.Cell} {r : StateRef} {e : Engine} (h : ¬ e.rc.mask < 0x100#32) :
    rcBit im r e = rcDecide r e := if_neg h

/-- The answer is 1 when `Current` is not in the lower part of the range (R134). -/
theorem rcDecide_answer {r : StateRef} {e : Engine} :
    (rcDecide r e).2 = true ↔ (e.rc.mask - e.onePart r).toNat ≤ e.rc.current.toNat := by
  by_cases hlower : e.rc.current < e.rc.mask - e.onePart r
  · rw [(rcDecide_zero hlower).1]
    exact ⟨nofun, fun h => absurd hlower (Nat.not_lt.2 h)⟩
  · rw [(rcDecide_one hlower).1]
    exact ⟨fun _ => Nat.not_lt.1 hlower, fun _ => rfl⟩

/-- Arming on two bytes or more puts them into `Current` (R131). -/
theorem rcArmed_of_two {im : List Host.Cell} {b n : Word} {t : Table} (hn : 2 ≤ n.toNat) :
    (rcArmed im b n t).mask = 0xFF00 ∧
      (rcArmed im b n t).current.toNat = (inByte im b.toNat).toNat * 256 + (inByte im (b.toNat + 1)).toNat := by
  have hhigh := (inByte im b.toNat).isLt
  have hlow := (inByte im (b.toNat + 1)).isLt
  rw [rcArmed_eq]
  dsimp only
  rw [if_pos hn, if_pos hn, BitVec.toNat_ofNat, Nat.mod_eq_of_lt (by omega)]
  exact ⟨rfl, rfl⟩

/-- Over a fresh `KS`, an armed decoder compares its first two bytes with half of `FF00` (R294). -/
theorem keyDecision_rcArm_iff {im : List Host.Cell} {b n : Word} {t : Table} {e : Engine} (hn : 2 ≤ n.toNat) :
    (keyDecision im (rcArm im b n t e)).2 = true ↔
      0x7F80 ≤ (inByte im b.toNat).toNat * 256 + (inByte im (b.toNat + 1)).toNat := by
  obtain ⟨hmask, hcurrent⟩ := rcArmed_of_two (im := im) (b := b) (t := t) hn
  rw [keyDecision_eq]
  generalize hf : (rcArm im b n t e).setState .ks 128 = f
  have hrc : f.rc = rcArmed im b n t := by rw [← hf]; rfl
  have hks : f.state .ks = 128 := by rw [← hf, state_setState_self]
  rw [← hrc] at hmask hcurrent
  have hpart : f.rc.mask - f.onePart .ks = 0x7F80 := by
    rw [Engine.onePart, hmask, hks]
    rfl
  rw [rcBit_of_fullMask (by rw [hmask]; decide), rcDecide_answer, hpart, hcurrent]
  rfl

section Keybit

variable (b n : Word) (s : State)

/-- The read of the keyframe bit: engine 0 armed on the buffer, and its first decision (R294). -/
def keyRead : Engine × Bool := keyDecision s.inMem (rcArm s.inMem b n Config.defaultTransition (s.engine 0))

theorem frKeybit_eq : frKeybit b n s = { s.setEngine 0 (keyRead b n s).1 with keyframe := (keyRead b n s).2 } := by
  have hbit : ((keyRead b n s).2 == Config.keyframeBit) = (keyRead b n s).2 := beq_true _
  rw [← hbit]
  rfl

theorem frKeybit_keyframe : (frKeybit b n s).keyframe = (keyRead b n s).2 := by
  rw [frKeybit_eq]

theorem frKeybit_engine_zero : (frKeybit b n s).engine 0 = (keyRead b n s).1 :=
  engine_setEngine_self s 0 (keyRead b n s).1

theorem frKeybit_onlyKeyRead : OnlyKeyRead (s.engine 0) ((frKeybit b n s).engine 0) := by
  rw [frKeybit_engine_zero]
  exact keyDecision_rcArm_onlyKeyRead _ _ _ _ _

theorem frKeybit_otherEngines : sameOtherEngines 0 s (frKeybit b n s) := fun _ hj =>
  ⟨hasEngine_setEngine_ne s (keyRead b n s).1 hj, engine_setEngine_ne s (keyRead b n s).1 hj⟩

end Keybit

theorem exec_frKeybit {s : State} (hbuf : s.arg0.toNat + s.arg1.toNat ≤ 2 ^ 32 - 2) :
    exec .frKeybit s =
      completeWith (bitWord (frKeybit s.arg0 s.arg1 s).keyframe) (frKeybit s.arg0 s.arg1 s) := by
  dsimp only [exec, execFrKeybit]
  exact checked_of _ _ _ ((bufferOk_iff _ _).2 hbuf)

/-- Settles O51: by the frame of the read, and by its threshold on a decoder that arming has filled. -/
theorem frKeybitReadsTheFirstDecision : Obligations.FrKeybitReadsTheFirstDecision := by
  intro s hbuf
  have hkey := frKeybit_keyframe s.arg0 s.arg1 s
  obtain ⟨hengine, hstate⟩ := frKeybit_onlyKeyRead s.arg0 s.arg1 s
  refine ⟨_, exec_frKeybit hbuf, ⟨rfl, rfl, rfl, rfl⟩, fun _ => rfl, fun _ _ _ => rfl,
    frKeybit_otherEngines s.arg0 s.arg1 s, rfl, fun hn => ?_, hengine, hstate,
    frKeybit_engine_zero s.arg0 s.arg1 s, hkey⟩
  rw [State.finish_keyframe, hkey]
  exact keyDecision_rcArm_iff hn

/-! ## The checks before any state change (R291, R333) -/

theorem dimensionsChecked_noDimensions {s : State} (f : State → Out)
    (h : ¬ (1 ≤ s.width.toNat ∧ s.width.toNat ≤ 2 ^ 24 - 1 ∧ 1 ≤ s.height.toNat ∧ s.height.toNat ≤ 2 ^ 24 - 1)) :
    dimensionsChecked s f = .next (s.takeError .noDimensions noSlice) := by
  have hdims : s.dimensionsOk = false := decide_eq_false h
  rw [dimensionsChecked, hdims]
  rfl

theorem dimensionsChecked_badBuffer {s : State} (f : State → Out)
    (h : 1 ≤ s.width.toNat ∧ s.width.toNat ≤ 2 ^ 24 - 1 ∧ 1 ≤ s.height.toNat ∧ s.height.toNat ≤ 2 ^ 24 - 1)
    (hbuf : ¬ s.arg0.toNat + s.arg1.toNat ≤ 2 ^ 32 - 2) :
    dimensionsChecked s f = .next (s.takeError .badCommand noSlice) := by
  have hdims : s.dimensionsOk = true := decide_eq_true h
  have hbad : bufferOk s.arg0 s.arg1 = false := Bool.eq_false_iff.2 (mt (bufferOk_iff _ _).1 hbuf)
  rw [dimensionsChecked, if_pos hdims, checked_not _ _ _ hbad]

/-! ## The checks of a frame (R292, R295) -/

section Checks

variable {s : State}

theorem frameChecks_noKeyframe (hseen : s.keyframeSeen = false) (hkey : s.keyframe = false) :
    frameChecks s = .raise .noKeyframe s := by
  rw [frameChecks, hseen, hkey]
  rfl

theorem frameChecks_noParameters (hseen : s.keyframeSeen = true ∨ s.keyframe = true) (hvalid : s.par.valid = false) :
    frameChecks s = .raise .noParameters s := by
  have hpast : (!s.keyframe && !s.keyframeSeen) = false := by
    rcases hseen with h | h <;> simp [h]
  rw [frameChecks, hpast, hvalid]
  rfl

theorem frameChecks_notIntra (hseen : s.keyframeSeen = true) (hkey : s.keyframe = false) (hvalid : s.par.valid = true)
    (hintra : s.par.intra = true) : frameChecks s = .raise .notIntra s := by
  rw [frameChecks, hseen, hkey, hvalid, hintra]
  rfl

/-- Without an in-band header a frame comes to its checks straight from its keyframe bit (R292). -/
theorem frameSetup_raise_of_checks {b n : Word} {err : ErrorName} {u : State}
    (hnoHeader : (frKeybit b n s).keyframe = true → s.par.configPresent = true)
    (hchecks : frameChecks (frKeybit b n s) = .raise err u) : frameSetup b n s = .raise err u := by
  have hkey : frameKey b n s = .ok () (frKeybit b n s) := by
    refine if_neg fun hparse => ?_
    obtain ⟨hconfig, hkey⟩ := (Bool.and_eq_true _ _).mp hparse
    have hnone : (!s.par.configPresent) = true := hconfig
    rw [hnoHeader hkey] at hnone
    cases hnone
  rw [frameSetup, hkey, Res.bind, hchecks]
  rfl

theorem exec_procFrame_raise {err : ErrorName} {u : State} (hw : 1 ≤ s.width.toNat ∧ s.width.toNat ≤ 2 ^ 24 - 1)
    (hh : 1 ≤ s.height.toNat ∧ s.height.toNat ≤ 2 ^ 24 - 1) (hbuf : s.arg0.toNat + s.arg1.toNat ≤ 2 ^ 32 - 2)
    (hsetup : frameSetup s.arg0 s.arg1 s = .raise err u) : exec .procFrame s = .next (u.takeError err noSlice) := by
  dsimp only [exec, execProcFrame]
  rw [dimensionsChecked_of _ hw hh hbuf, hsetup]
  rfl

end Checks

/-- Settles O57: the shared checks come first; each later refusal leaves the state behind the keyframe bit. -/
theorem frameCommandsCheckInOrder : Obligations.FrameCommandsCheckInOrder := by
  intro s dims buffer refused
  refine ⟨fun hdims => ⟨dimensionsChecked_noDimensions _ hdims, dimensionsChecked_noDimensions _ hdims⟩,
    fun hdims hbuf => ⟨dimensionsChecked_badBuffer _ hdims hbuf, dimensionsChecked_badBuffer _ hdims hbuf⟩,
    fun hdims hbuf => ?_⟩
  intro key turnedAway
  obtain ⟨hw1, hw2, hh1, hh2⟩ := hdims
  obtain ⟨hengine, hstate⟩ := frKeybit_onlyKeyRead s.arg0 s.arg1 s
  have away : ∀ err, err.isUnderrun = false → (key = true → s.par.configPresent = true) →
      frameChecks (frKeybit s.arg0 s.arg1 s) = .raise err (frKeybit s.arg0 s.arg1 s) → turnedAway err := by
    intro err hunder hnoHeader hchecks
    refine ⟨_, exec_procFrame_raise ⟨hw1, hw2⟩ ⟨hh1, hh2⟩ hbuf (frameSetup_raise_of_checks hnoHeader hchecks),
      ⟨rfl, rfl, rfl, rfl, rfl, rfl⟩, fun _ => rfl, fun _ _ _ => rfl, frKeybit_otherEngines s.arg0 s.arg1 s, rfl,
      ?_, hengine, hstate⟩
    rw [State.takeError, hunder]
    rfl
  refine ⟨fun hseen hkey => ?_, fun hseen hnoHeader hvalid => ?_, fun hseen hkey hvalid hintra => ?_⟩
  · exact away _ rfl (fun h => absurd (hkey.symm.trans h) Bool.false_ne_true) (frameChecks_noKeyframe hseen hkey)
  · exact away _ rfl hnoHeader (frameChecks_noParameters hseen hvalid)
  · exact away _ rfl (fun h => absurd (hkey.symm.trans h) Bool.false_ne_true)
      (frameChecks_notIntra hseen hkey hvalid hintra)

end Sys2Proof.Machine

/-! # `FR_GOPINIT` (R299) -/

namespace Sys2Proof.Machine

-- One theorem at a time: each that waits for the kernel holds a thread, and here they are many and short.
set_option Elab.async false

section GopInit

variable (n : Nat) (s : State)

theorem gopInitLoop_par : (gopInitLoop n s).par = s.par := by
  rw [gopInitLoop_frame]

/-- An engine at or above the bound is as before, existence included. -/
theorem gopInitLoop_above {k : Nat} (h : n ≤ k) :
    (gopInitLoop n s).hasEngine k = s.hasEngine k ∧ (gopInitLoop n s).engine k = s.engine k := by
  induction n with
  | zero => exact ⟨rfl, rfl⟩
  | succ n ih =>
    obtain ⟨hhas, hengine⟩ := ih (by omega)
    have hne : k ≠ n := by omega
    exact ⟨(hasEngine_setEngine_ne _ _ hne).trans hhas, (engine_setEngine_ne _ _ hne).trans hengine⟩

/-- An engine below the bound exists and has the templates that it would get alone (R299). -/
theorem gopInitLoop_below {k : Nat} (h : k < n) :
    (gopInitLoop n s).hasEngine k = true ∧ (gopInitLoop n s).engine k = gopInit s.par (s.engine k) := by
  induction n with
  | zero => exact absurd h (Nat.not_lt_zero k)
  | succ n ih =>
    rw [gopInitLoop]
    by_cases hlast : k = n
    · subst hlast
      rw [engine_setEngine_self, gopInitLoop_par, (gopInitLoop_above k s (Nat.le_refl k)).2]
      exact ⟨hasEngine_setEngine_self _ _ _, rfl⟩
    · rw [hasEngine_setEngine_ne _ _ hlast, engine_setEngine_ne _ _ hlast]
      exact ih (by omega)

end GopInit

/-- Settles O53: the loop prepares the engines below the number of located slices, one by one. -/
theorem frGopinitPreparesEveryLocatedSlice : Obligations.FrGopinitPreparesEveryLocatedSlice := by
  intro s
  have hframe := frGopinit_frame s
  refine ⟨_, rfl, ⟨rfl, rfl, rfl, ?_⟩, fun k hk => gopInitLoop_below _ s hk, fun k hk => gopInitLoop_above _ s hk,
    fun a => ?_, fun p x y => sample_congr (s := s) (t := (frGopinit s).finish none) ?_ p x y, ?_⟩
  · exact (congrArg State.result hframe :)
  · exact congrArg (inByte · a) (congrArg State.inMem hframe :)
  · exact (congrArg State.plane hframe :)
  · rw [hframe]
    rfl

end Sys2Proof.Machine

/-! # `FR_JOIN` (R304, R334) -/

namespace Sys2Proof.Machine

-- One theorem at a time: each that waits for the kernel holds a thread, and here they are many and short.
set_option Elab.async false

/-! ## Tasks that have ended -/

/-- The slice is `Done` without an error, or in `Error` with one (R262, R273). -/
def Sl.ended (sl : Sl) : Prop := sl.fsm = .done ∧ sl.err = 0 ∨ sl.fsm = .error ∧ sl.err ≠ 0

theorem taskEngine_ended (a : Task) (s : State) : (taskEngine a s).sl.ended := by
  unfold taskEngine
  cases hrun : slRun s.sliceIn a.slice a.base a.len a.cont ⟨s.engine a.slice, []⟩ with
  | ok _ u =>
    obtain ⟨-, hfsm, herr, -⟩ := slRun_ok hrun
    exact .inl ⟨hfsm, herr⟩
  | raise e u => exact .inr ⟨rfl, code_ne_zero e⟩

/-- The last task of a slice decides how its engine stands. -/
theorem runTasks_ended {ts : List Task} {s : State} {k : Nat} (h : ∃ a ∈ ts, a.slice = k) :
    ((runTasks ts s).engine k).sl.ended := by
  induction ts generalizing s with
  | nil =>
    obtain ⟨a, ha, -⟩ := h
    exact absurd ha List.not_mem_nil
  | cons b ts ih =>
    rw [runTasks_cons]
    by_cases hlater : ∃ a ∈ ts, a.slice = k
    · exact ih hlater
    · obtain ⟨a, ha, rfl⟩ := h
      rcases List.mem_cons.1 ha with rfl | ha
      · rw [runTasks_engine_other _ fun c hc hslice => hlater ⟨c, hc, hslice⟩, runTask_engine_self]
        exact taskEngine_ended a s
      · exact absurd ⟨a, ha, rfl⟩ hlater

/-- An engine that is none of theirs exists as before. -/
theorem runTasks_hasEngine_other {ts : List Task} {k : Nat} (s : State) (h : ∀ a ∈ ts, a.slice ≠ k) :
    (runTasks ts s).hasEngine k = s.hasEngine k := by
  rw [Bool.eq_iff_iff, runTasks_hasEngine]
  exact or_iff_right fun ⟨a, ha, hslice⟩ => h a ha hslice

/-! ## What the join records -/

/-- The first of the failed slices is the only one with none below it (R304). -/
theorem failedSlices_head_unique {s : State} {j k : Nat} {ks : List Nat} (h : failedSlices s = j :: ks)
    (hk : k ∈ failedSlices s) (hlow : ∀ i, i < k → i ∉ failedSlices s) : k = j := by
  have hrising := failedSlices_rising s
  rw [h] at hk hrising hlow
  rcases List.mem_cons.1 hk with rfl | hlater
  · rfl
  · exact absurd List.mem_cons_self (hlow j ((List.pairwise_cons.1 hrising).1 k hlater))

/-- The join counts the failed slices (R304). -/
theorem frJoin_count (s : State) : (frJoin s).2 = (failedSlices (awaitTasks s)).length := by
  cases hfailed : failedSlices (awaitTasks s) with
  | nil => rw [frJoin_clean hfailed]; rfl
  | cons k ks => rw [frJoin_failed hfailed]; rfl

/-- Behind its barrier the join writes nothing but the error registers and the model's counter of free choices
(R304). -/
theorem frJoin_frame (s : State) : (frJoin s).1 = { awaitTasks s with
    lastError := (frJoin s).1.lastError
    errSlice := (frJoin s).1.errSlice
    underrun := (frJoin s).1.underrun
    freeCtr := (frJoin s).1.freeCtr } := by
  cases hfailed : failedSlices (awaitTasks s) with
  | nil => rw [frJoin_clean hfailed]
  | cons k ks => rw [frJoin_failed hfailed]

/-- Without a failed slice the error registers keep their values (R304). -/
theorem frJoin_keepsError {s : State} (h : failedSlices (awaitTasks s) = []) :
    (frJoin s).1.lastError = s.lastError ∧ (frJoin s).1.errSlice = s.errSlice ∧
      (frJoin s).1.underrun = s.underrun := by
  rw [frJoin_clean h, awaitTasks_frame]
  exact ⟨rfl, rfl, rfl⟩

/-- The error registers name the lowest failed slice, and tell whether any of them ran out of input (R304, R334). -/
theorem frJoin_surfaces {s : State} {k : Nat} (hk : k ∈ failedSlices (awaitTasks s))
    (hlow : ∀ i, i < k → i ∉ failedSlices (awaitTasks s)) :
    (frJoin s).1.lastError = ((awaitTasks s).engine k).sl.err ∧ (frJoin s).1.errSlice = BitVec.ofNat 16 k ∧
      ((frJoin s).1.underrun = true ↔
        ∃ j ∈ failedSlices (awaitTasks s), ((awaitTasks s).engine j).sl.underrun = true) := by
  cases hfailed : failedSlices (awaitTasks s) with
  | nil =>
    rw [hfailed] at hk
    exact absurd hk List.not_mem_nil
  | cons j ks =>
    obtain rfl := failedSlices_head_unique hfailed hk hlow
    rw [frJoin_failed hfailed, ← hfailed]
    exact ⟨rfl, rfl, List.any_eq_true⟩

/-- Settles O55: the barrier runs the tasks, and the join looks at the failed slices behind it. -/
theorem frJoinSurfacesTheFirstError : Obligations.FrJoinSurfacesTheFirstError := by
  intro s u failed
  have hframe := frJoin_frame s
  have hengines : (frJoin s).1.engines = u.engines := (congrArg State.engines hframe :)
  have hawaited := awaitTasks_frame s
  have hloc : (awaitTasks s).loc = s.loc := (congrArg State.loc hawaited :)
  have hfailed : ∀ k, k ∈ failedSlices (awaitTasks s) ↔ failed k := fun k => by
    rw [mem_failedSlices, hloc]
    rfl
  refine ⟨_, rfl, ⟨rfl, rfl, rfl, rfl⟩, ?_, fun a => congrArg (inByte · a) ?_, fun p x y => ?_, hengines, ?_, ?_,
    fun a ha => ⟨?_, ?_⟩, fun j hj => ⟨?_, ?_⟩, ?_, fun hnone => ?_, fun k hk hlow => ?_⟩
  · exact (congrArg State.tasks hframe :).trans (awaitTasks_tasks s)
  · exact (congrArg State.inMem hframe :).trans (congrArg State.inMem hawaited :)
  · exact sample_congr (congrArg State.plane hframe :) p x y
  · exact (congrArg State.par hframe :).trans (congrArg State.par hawaited :)
  · exact (congrArg State.loc hframe :).trans hloc
  · exact (hasEngine_congr hengines _).trans ((runTasks_hasEngine _ _ _).2 (.inl ⟨a, ha, rfl⟩))
  · have hended := runTasks_ended (s := { s with tasks := [] }) ⟨a, ha, rfl⟩
    exact engine_congr (t := (frJoin s).1) hengines a.slice ▸ hended
  · exact (hasEngine_congr hengines j).trans (runTasks_hasEngine_other _ hj)
  · exact (engine_congr hengines j).trans (runTasks_engine_other _ hj)
  · show BitVec.ofNat 32 (frJoin s).2 = _
    rw [frJoin_count, failedSlices, hloc]
    rfl
  · exact frJoin_keepsError (List.eq_nil_iff_forall_not_mem.2 fun k => mt (hfailed k).1 (hnone k))
  · obtain ⟨hlast, hslice, hunder⟩ := frJoin_surfaces ((hfailed k).2 hk) fun i hi => mt (hfailed i).1 (hlow i hi)
    refine ⟨hlast, hslice, hunder.trans ?_⟩
    exact exists_congr fun j => and_congr_left' (hfailed j)

end Sys2Proof.Machine

/-! # Error codes (R320, R321, R323) -/

namespace Sys2Proof.Machine

/-- The errors in the order of the table of R321, without `E_NONE`. -/
def allErrors : List ErrorName :=
  [.versionLocation, .coderType, .colorspace, .bitdepth, .sliceGrid, .qtCount, .qtRun, .qtScale, .ec, .intra,
    .sliceGeometry, .qtIndex, .sliceCrc, .sliceErrorStatus, .sliceJunk,
    .frameTail, .sliceCount, .notIntra, .noKeyframe, .noParameters,
    .versionUnsupported, .stateTransition, .bitdepthUnsupported,
    .underrun, .underrunParams, .badCommand, .noDimensions]

theorem mem_allErrors (e : ErrorName) : e ∈ allErrors := by
  cases e <;> decide

theorem allErrors_codes_nodup : (allErrors.map ErrorName.code).Nodup := by decide

/-- The code in `LAST_ERROR` tells which error it was (R321). -/
theorem code_inj {e e' : ErrorName} (h : e.code = e'.code) : e = e' :=
  List.inj_on_of_nodup_map allErrors_codes_nodup (mem_allErrors e) (mem_allErrors e') h

/-- The four classes are Undecodable, Unsupported, Underrun and Usage (R320). -/
theorem errorClass_bounds (e : ErrorName) : 1 ≤ e.errorClass ∧ e.errorClass ≤ 4 := by
  cases e <;> decide

theorem allErrors_underruns : allErrors.filter ErrorName.isUnderrun = [.underrun, .underrunParams] := by decide

theorem isUnderrun_iff (e : ErrorName) : e.isUnderrun = true ↔ e = .underrun ∨ e = .underrunParams :=
  calc e.isUnderrun = true
    _ ↔ e ∈ allErrors.filter ErrorName.isUnderrun := by simp only [List.mem_filter, mem_allErrors, true_and]
    _ ↔ e = .underrun ∨ e = .underrunParams := by
      rw [allErrors_underruns, List.mem_pair]

/-- Settles O12: the codes of R321 are listed without repetition, and the class is read off each of them. -/
theorem errorCodesNameTheirClass : Obligations.ErrorCodesNameTheirClass :=
  ⟨fun _ _ => code_inj, fun e => ⟨code_ne_zero e, errorClass_bounds e⟩, isUnderrun_iff⟩

end Sys2Proof.Machine

/-! # `RESET` (R46, R360, R361) -/

namespace Sys2Proof.Machine

/-- `RESET` ends in the state of `resetBlock`: it is refused nowhere and runs no task first (R360). -/
theorem exec_reset (s : State) : exec .reset s = .next s.resetBlock := rfl

@[simp] theorem resetBlock_inMem (s : State) : s.resetBlock.inMem = s.inMem := rfl
@[simp] theorem resetBlock_plane (s : State) : s.resetBlock.plane = s.plane := rfl
@[simp] theorem resetBlock_planeSizes (s : State) : s.resetBlock.planeSizes = s.planeSizes := rfl
@[simp] theorem resetBlock_agenda (s : State) : s.resetBlock.agenda = s.agenda := rfl
@[simp] theorem resetBlock_workers (s : State) : s.resetBlock.workers = s.workers := rfl

/-- Of the state before, only what is not the block's own survives a reset: with that put back too, it is the reset
state, register by register (R46). -/
theorem resetBlock_own_registers (s : State) :
    { s.resetBlock with
      inMem := [], plane := [], planeSizes := State.reset.planeSizes, agenda := [], hostData := 0, freeCtr := 0,
      workers := State.reset.workers } = State.reset := rfl

/-- Settles O19: `IN` and the samples are read from memories that the reset keeps, and every register of the block
has its reset value. -/
theorem resetCommandRestoresTheBlock : Obligations.ResetCommandRestoresTheBlock := by
  intro s
  have hin : sameInput s s.resetBlock := fun a => congrArg (inByte · a) (resetBlock_inMem s)
  have hsamples : sameSamples s s.resetBlock := fun p x y => sample_congr (resetBlock_plane s) p x y
  exact ⟨s.resetBlock, exec_reset s, hin, hsamples, resetBlock_planeSizes s, resetBlock_agenda s,
    resetBlock_workers s, resetBlock_own_registers s⟩

end Sys2Proof.Machine
